-- ==== Sys2Proof/Word.lean ====
section
/-!
DEFINITION. Words, bytes and array cells, and their plainest arithmetic (spec 00 R10, 20 R62).
-/

namespace Sys2Proof

/-- A 32-bit value `u32` (00 R10): registers, operands and array words. -/
abbrev Word := BitVec 32

/-- An 8-bit value. -/
abbrev Byte := BitVec 8

/-- What a word of the array holds (20 R62): a value, or nothing a rule fixes. -/
inductive Cell where
  | val (v : Word)
  | indet
  deriving DecidableEq, Repr, Inhabited

/-- The two physical banks (20 R60). -/
inductive Bank where
  | main
  | info
  deriving DecidableEq, Repr, Inhabited

/-- `ERASED_WORD`: all bits read as 1 after an erase (00 R7). -/
def erasedWord : Word := 0xFFFFFFFF#32

/-- `ceil_div(a, b)`: the least `q` with `q * b >= a`, for `b > 0` (00 R10). -/
def ceilDiv (a b : Nat) : Nat := (a + (b - 1)) / b

end Sys2Proof
end

