-- ==== Sys2Proof/Syntax.lean ====
section
/-!
DEFINITION. The instructions (every row of spec/opcode_table.json), the operand enumerations, the CommandWord
as its fields, and what a host can present to the block.
-/

namespace Sys2Proof

/-- The bank selector `BNK` of a request (30 R107): 0 Main, 1 Info, 2 AllBanks, 3 reserved. -/
inductive BankSel where
  | main
  | info
  | allBanks
  | reserved
  deriving DecidableEq, Repr, Inhabited

/-- The operations of the operation map (30 R106), in its order. -/
inductive Opcode where
  | readByte
  | readHalfWord
  | readWord
  | readArray
  | programByte
  | programHalfWord
  | programWord
  | programArray
  | erasePage
  | eraseAllPages
  | setLatency
  | getLatency
  | updateCache
  | setCacheMode
  | getCacheMode
  deriving DecidableEq, Repr, Inhabited

/-- The nine timing names (00 R7, 40 R130). -/
inductive TimingName where
  | nvs
  | pgs
  | prog
  | nvh
  | rcv
  | erase
  | me
  | nvh1
  | hv
  deriving DecidableEq, Repr, Inhabited

/-- A CommandWord as its fields (10 R32, 30 R101). Where the bits stand in the 32-bit word is a parameter
(`CmdLayout`); reserved bits ignore writes and read 0, so the fields are all there is. `delay` holds the
`DELAY_W` (at most 8) bits of Delay-Cycles. -/
structure CmdWord where
  con   : Bool := false
  delay : BitVec 8 := 0#8
  xe    : Bool := false
  ye    : Bool := false
  se    : Bool := false
  ifren : Bool := false
  erase : Bool := false
  mas1  : Bool := false
  prog  : Bool := false
  nvstr : Bool := false
  deriving DecidableEq, Repr, Inhabited

/-- The instructions: fifteen operations asked for by a request descriptor (30 R103, R106), twelve register
transactions (30 R113, 41 R149) and the mapped read (47 R231). Operand words stand as the host presents them;
the request checker judges them (60 R250). -/
inductive Instr where
  | readByte (bank : BankSel) (addr : Word)
  | readHalfWord (bank : BankSel) (addr : Word)
  | readWord (bank : BankSel) (addr : Word)
  | readArray (bank : BankSel) (addrs : List Word)
  | programByte (bank : BankSel) (addr value : Word)
  | programHalfWord (bank : BankSel) (addr value : Word)
  | programWord (bank : BankSel) (addr value : Word)
  | programArray (bank : BankSel) (pairs : List (Word × Word))
  | erasePage (bank : BankSel) (addr : Word)
  | eraseAllPages (bank : BankSel)
  | setLatency (cycles : Word)
  | getLatency
  | updateCache
  | setCacheMode (mode : Word)
  | getCacheMode
  | wrCmd (v : Word)
  | rdCmd
  | wrAdr (v : Word)
  | rdAdr
  | wrDI (v : Word)
  | rdDI
  | rdDO
  | wrDO (v : Word)
  | wrKey (v : Word)
  | rdKey
  | wrCache (v : Word)
  | rdCache
  | mappedRead (offset : Word)
  deriving DecidableEq, Repr, Inhabited

/-- The width of a bus access; the block answers 32-bit accesses only (20 R72). -/
inductive AccessSize where
  | byte
  | half
  | word
  deriving DecidableEq, Repr, Inhabited

/-- What a host presents: a request descriptor on the request port (30 R103), or one bus access (30 R113). -/
inductive PortTx where
  | request (words : List Word)
  | busWrite (size : AccessSize) (addr data : Word)
  | busRead (size : AccessSize) (addr : Word)
  deriving DecidableEq, Repr, Inhabited

end Sys2Proof
end

