-- ==== Sys2Proof/Config.lean ====
section
/-!
DEFINITION. The configuration record (00 R6 to R8) and the free values. A field holds one parameter of 00 R8;
statements hold for every record in the stated ranges. The opaque constants below have no body: no proof can see a
value of theirs.
-/

namespace Sys2Proof

/-- The bit positions of CommandWord and the width of its Delay-Cycles field (00 R8 `CMD_*`, `DELAY_W`);
`delay` is the position of the field's lowest bit. The defaults are those of 30 R101. -/
structure CmdLayout where
  con    : Nat := 0
  delay  : Nat := 3
  delayW : Nat := 3
  xe     : Nat := 6
  ye     : Nat := 7
  se     : Nat := 8
  ifren  : Nat := 9
  erase  : Nat := 10
  mas1   : Nat := 11
  prog   : Nat := 12
  nvstr  : Nat := 13
  deriving DecidableEq, Repr, Inhabited

/-- The offsets of the six registers from `REG_BASE` (20 R80). -/
structure RegMap where
  base  : Word := 0x40018000#32
  cmd   : Word := 0x00#32
  adr   : Word := 0x04#32
  di    : Word := 0x08#32
  dout  : Word := 0x0C#32
  key   : Word := 0x10#32
  cache : Word := 0x14#32
  deriving DecidableEq, Repr, Inhabited

/-- The nine timing constants in microseconds (00 R8, 40 R136). `hv` has no default in the spec. -/
structure TimingUs where
  nvs   : Nat := 5
  pgs   : Nat := 10
  prog  : Nat := 40
  nvh   : Nat := 5
  rcv   : Nat := 1
  erase : Nat := 40000
  me    : Nat := 40000
  nvh1  : Nat := 100
  hv    : Nat
  deriving DecidableEq, Repr, Inhabited

/-- What is done to a cell of the factory window on a variant with hardware protection; `d` of `HW_PROT_EFFECT(pre, d)`.
That an erase has no data is a DESIGN CHOICE, notes/assumptions/7.md. -/
inductive CellOp where
  | program (d : Word)
  | erase
  deriving DecidableEq, Repr, Inhabited

/-- `HW_PROT_EFFECT` (00 R8, 20 R69) as plain data: the spec's default, or a function of the variant by its number. -/
inductive HwProtEffect where
  /-- The default: the word becomes indeterminate. -/
  | indeterminate
  /-- Any other function, `Config.hwProtFunction id`. -/
  | other (id : Nat)
  deriving DecidableEq, Repr, Inhabited

/-- The configuration record (00 R6, R8). The four fields without a default are those the spec says must be
supplied: `HAS_HW_INFO_PROT`, `HAS_CACHE_CTRL`, `PROT_BASE` and `T_HV`. -/
structure Config where
  hasHwInfoProt      : Bool
  hasCacheCtrl       : Bool
  protBase           : Word
  timing             : TimingUs
  massThenPage       : Bool := true
  checkParams        : Bool := true
  mappedStallOnCon   : Bool := false
  keyUnlock          : Word := 0x8AAA5551#32
  layout             : CmdLayout := {}
  regs               : RegMap := {}
  mainBase           : Word := 0x08000000#32
  mainSize           : Nat := 0x20000
  cyclesPerCount     : Nat := 1
  cacheRefreshBase   : Word := 0#32
  cacheRefreshStride : Word := 16#32
  delayReset         : BitVec 8 := 0#8
  maxLen             : Nat := 65535
  hwProtEffect       : HwProtEffect := .indeterminate
  deriving DecidableEq, Repr, Inhabited

/-- `PAGE_SIZE` and `INFO_SIZE` (00 R8: each has this one value in range). -/
def pageSize : Nat := 0x1000

/-- The reference record that `State.reset` stands on. DESIGN CHOICE (notes/assumptions/2.md): the four open
parameters have the values the spec's vectors use as samples, `T_HV` the value 50; unsafe for a claim about
`State.reset` alone. -/
def Config.reference : Config :=
  { hasHwInfoProt := false, hasCacheCtrl := true, protBase := 0xF00#32, timing := { hv := 50 } }

/-- The `n`-th `draw(32)`: a free value chosen by no rule (00 R10). -/
opaque Config.draw : Nat → Word

/-- What the delay counter holds outside a `Delay`: unspecified (40 R137), so free. -/
opaque Config.idleCount : Nat → Word

/-- The functions a variant may have for `HW_PROT_EFFECT` (20 R69), by number: what a committed cell operation leaves
in a factory-window word, given what the cell held before. No body: a statement for every number holds for whatever
function the variant has (notes/assumptions/7.md). -/
opaque Config.hwProtFunction : Nat → CellOp → Cell → Cell

end Sys2Proof
end

