-- ==== Sys2Proof/WellFormed.lean ====
section
/-!
DEFINITION. When an instruction is one the encodings of 30 R103 and R113 can carry.
-/

namespace Sys2Proof

/-- An instruction is well formed when its encoding can carry it: the element count of an array operation fits
the 16-bit `LEN` field (30 R103), and a mapped read is word aligned (47 R231). Every other operand word is a
whole 32-bit word of the descriptor or of the bus. -/
def Instr.wf : Instr → Bool
  | .readArray _ addrs => addrs.length < 65536
  | .programArray _ pairs => pairs.length < 65536
  | .mappedRead offset => offset &&& 3#32 = 0#32
  | .readByte _ _ | .readHalfWord _ _ | .readWord _ _ => true
  | .programByte _ _ _ | .programHalfWord _ _ _ | .programWord _ _ _ => true
  | .erasePage _ _ | .eraseAllPages _ => true
  | .setLatency _ | .getLatency | .updateCache | .setCacheMode _ | .getCacheMode => true
  | .wrCmd _ | .rdCmd | .wrAdr _ | .rdAdr | .wrDI _ | .rdDI | .rdDO | .wrDO _ => true
  | .wrKey _ | .rdKey | .wrCache _ | .rdCache => true

end Sys2Proof
end

