-- ==== Sys2Proof/Decode.lean ====
section
/-!
DEFINITION. The decoder of what a host presents, total and rejecting by name, and the encoder beside it
(30 R100 to R113, 20 R80, R81).
-/

namespace Sys2Proof

/-- Why a presented transaction is no instruction. `illegalHeader` is the contract violation `IllegalRequest` of
60 R255 (the machine takes that fault); the others have no meaning in the spec and the machine refuses them. -/
inductive DecodeError where
  | illegalHeader (header : Word)
  | emptyDescriptor
  | descriptorLength (header : Word)
  | accessSize
  | unmapped (addr : Word)
  deriving DecidableEq, Repr, Inhabited

/-- The six registers of 20 R80. -/
inductive RegName where
  | cmd
  | adr
  | di
  | dout
  | key
  | cache
  deriving DecidableEq, Repr, Inhabited

/-- One row of the operation map (30 R106): a header matches when `header & mask = pat`. -/
structure HeaderRow where
  op   : Opcode
  mask : Word
  pat  : Word
  deriving DecidableEq, Repr, Inhabited

/-- The operation map of 30 R106, row by row. -/
def headerRows : List HeaderRow :=
  [⟨.readByte, 0xFFFFFF9F#32, 0x01#32⟩, ⟨.readHalfWord, 0xFFFFFF9F#32, 0x02#32⟩,
   ⟨.readWord, 0xFFFFFF9F#32, 0x03#32⟩, ⟨.readArray, 0xFF00009F#32, 0x04#32⟩,
   ⟨.programByte, 0xFFFFFF9F#32, 0x05#32⟩, ⟨.programHalfWord, 0xFFFFFF9F#32, 0x06#32⟩,
   ⟨.programWord, 0xFFFFFF9F#32, 0x07#32⟩, ⟨.programArray, 0xFF00009F#32, 0x08#32⟩,
   ⟨.erasePage, 0xFFFFFF9F#32, 0x09#32⟩, ⟨.eraseAllPages, 0xFFFFFF9F#32, 0x0A#32⟩,
   ⟨.setLatency, 0xFFFFFFFF#32, 0x0B#32⟩, ⟨.getLatency, 0xFFFFFFFF#32, 0x0C#32⟩,
   ⟨.updateCache, 0xFFFFFFFF#32, 0x0D#32⟩, ⟨.setCacheMode, 0xFFFFFFFF#32, 0x0E#32⟩,
   ⟨.getCacheMode, 0xFFFFFFFF#32, 0x0F#32⟩]

/-- The operation a header names, by the operation map (30 R106); none is the illegal request of 30 R109. -/
def headerOpcode (h : Word) : Option Opcode :=
  (headerRows.find? fun r => h &&& r.mask == r.pat).map (·.op)

/-- `BNK`, bits 6:5 of the header (30 R107). -/
def headerBank (h : Word) : BankSel :=
  match h.getLsbD 6, h.getLsbD 5 with
  | false, false => .main
  | false, true => .info
  | true, false => .allBanks
  | true, true => .reserved

/-- `LEN`, bits 23:8 of the header (30 R103). -/
def headerLen (h : Word) : Nat := (h.extractLsb' 8 16).toNat

/-- The address and value pairs of `program_array`, interleaved (30 R103). -/
def pairUp : List Word → Option (List (Word × Word))
  | [] => some []
  | [_] => none
  | a :: v :: ws => (pairUp ws).map ((a, v) :: ·)

/-- The operand words of `program_array`. -/
def unpair : List (Word × Word) → List Word
  | [] => []
  | (a, v) :: ps => a :: v :: unpair ps

/-- No operand word may follow the header. -/
def operands0 (h : Word) (i : Instr) : List Word → Except DecodeError Instr
  | [] => .ok i
  | _ => .error (.descriptorLength h)

/-- Exactly one operand word follows the header. -/
def operands1 (h : Word) (i : Word → Instr) : List Word → Except DecodeError Instr
  | [a] => .ok (i a)
  | _ => .error (.descriptorLength h)

/-- Exactly two operand words follow the header. -/
def operands2 (h : Word) (i : Word → Word → Instr) : List Word → Except DecodeError Instr
  | [a, v] => .ok (i a v)
  | _ => .error (.descriptorLength h)

/-- The operand words of an operation, in the order of 30 R103; the header decides how many there are (30 R110). -/
def decodeOperands (h : Word) (op : Opcode) (ops : List Word) : Except DecodeError Instr :=
  match op with
  | .readByte => operands1 h (.readByte (headerBank h)) ops
  | .readHalfWord => operands1 h (.readHalfWord (headerBank h)) ops
  | .readWord => operands1 h (.readWord (headerBank h)) ops
  | .readArray =>
    if ops.length = headerLen h then .ok (.readArray (headerBank h) ops) else .error (.descriptorLength h)
  | .programByte => operands2 h (.programByte (headerBank h)) ops
  | .programHalfWord => operands2 h (.programHalfWord (headerBank h)) ops
  | .programWord => operands2 h (.programWord (headerBank h)) ops
  | .programArray =>
    match pairUp ops with
    | some ps =>
      if ps.length = headerLen h then .ok (.programArray (headerBank h) ps) else .error (.descriptorLength h)
    | none => .error (.descriptorLength h)
  | .erasePage => operands1 h (.erasePage (headerBank h)) ops
  | .eraseAllPages => operands0 h (.eraseAllPages (headerBank h)) ops
  | .setLatency => operands1 h .setLatency ops
  | .getLatency => operands0 h .getLatency ops
  | .updateCache => operands0 h .updateCache ops
  | .setCacheMode => operands1 h .setCacheMode ops
  | .getCacheMode => operands0 h .getCacheMode ops

/-- The operation a descriptor asks for (30 R103). -/
def decodeRequest : List Word → Except DecodeError Instr
  | [] => .error .emptyDescriptor
  | h :: ops =>
    match headerOpcode h with
    | none => .error (.illegalHeader h)
    | some op => decodeOperands h op ops

/-- The offset of a register from `REG_BASE` (20 R80). -/
def RegMap.offset (r : RegMap) : RegName → Word
  | .cmd => r.cmd
  | .adr => r.adr
  | .di => r.di
  | .dout => r.dout
  | .key => r.key
  | .cache => r.cache

/-- The register at an offset from `REG_BASE` (20 R80). CacheCtrl is one on a variant that has it (10 R36); without it
its offset is no register's. Where the offsets of a record are alike, the register named first in 20 R80 answers:
DESIGN CHOICE, notes/assumptions/35.md. -/
def registerOf (c : Config) (off : Word) : Option RegName :=
  if off = c.regs.cmd then some .cmd
  else if off = c.regs.adr then some .adr
  else if off = c.regs.di then some .di
  else if off = c.regs.dout then some .dout
  else if off = c.regs.key then some .key
  else if c.hasCacheCtrl = true ∧ off = c.regs.cache then some .cache
  else none

/-- A 32-bit write at a bus address (30 R113, 20 R80). Mapped writes do not exist (20 R81). -/
def decodeBusWrite (c : Config) (addr v : Word) : Except DecodeError Instr :=
  match registerOf c (addr - c.regs.base) with
  | some .cmd => .ok (.wrCmd v)
  | some .adr => .ok (.wrAdr v)
  | some .di => .ok (.wrDI v)
  | some .dout => .ok (.wrDO v)
  | some .key => .ok (.wrKey v)
  | some .cache => .ok (.wrCache v)
  | none => .error (.unmapped addr)

/-- A 32-bit read at a bus address: a register (30 R113), or a word-aligned offset of Main (20 R81). Where the variant's
parameters put a register's address into the mapped window, the register answers: DESIGN CHOICE,
notes/assumptions/35.md. -/
def decodeBusRead (c : Config) (addr : Word) : Except DecodeError Instr :=
  match registerOf c (addr - c.regs.base) with
  | some .cmd => .ok .rdCmd
  | some .adr => .ok .rdAdr
  | some .di => .ok .rdDI
  | some .dout => .ok .rdDO
  | some .key => .ok .rdKey
  | some .cache => .ok .rdCache
  | none =>
    if (addr - c.mainBase).toNat < c.mainSize ∧ (addr - c.mainBase) &&& 3#32 = 0#32 then
      .ok (.mappedRead (addr - c.mainBase))
    else .error (.unmapped addr)

/-- The instruction a presented transaction is, or why it is none. Accesses narrower than 32 bits are outside
the block (20 R72). -/
def decode (c : Config) : PortTx → Except DecodeError Instr
  | .request ws => decodeRequest ws
  | .busWrite .word a v => decodeBusWrite c a v
  | .busRead .word a => decodeBusRead c a
  | .busWrite _ _ _ | .busRead _ _ => .error .accessSize

/-- `BNK` of a selector (30 R107). -/
def BankSel.code : BankSel → BitVec 2
  | .main => 0#2
  | .info => 1#2
  | .allBanks => 2#2
  | .reserved => 3#2

/-- `OPC` of an operation (30 R106). -/
def Opcode.code : Opcode → BitVec 5
  | .readByte => 0x01#5
  | .readHalfWord => 0x02#5
  | .readWord => 0x03#5
  | .readArray => 0x04#5
  | .programByte => 0x05#5
  | .programHalfWord => 0x06#5
  | .programWord => 0x07#5
  | .programArray => 0x08#5
  | .erasePage => 0x09#5
  | .eraseAllPages => 0x0A#5
  | .setLatency => 0x0B#5
  | .getLatency => 0x0C#5
  | .updateCache => 0x0D#5
  | .setCacheMode => 0x0E#5
  | .getCacheMode => 0x0F#5

/-- A header word: zero, `LEN`, zero, `BNK`, `OPC` from the top (30 R103). -/
def header (op : Opcode) (bank : BankSel) (len : Nat) : Word :=
  0#8 ++ (BitVec.ofNat 16 len ++ (0#1 ++ (bank.code ++ op.code)))

/-- How a host presents an instruction: its descriptor (30 R103) or its bus access (30 R113). -/
def encode (c : Config) : Instr → PortTx
  | .readByte b a => .request [header .readByte b 0, a]
  | .readHalfWord b a => .request [header .readHalfWord b 0, a]
  | .readWord b a => .request [header .readWord b 0, a]
  | .readArray b as => .request (header .readArray b as.length :: as)
  | .programByte b a v => .request [header .programByte b 0, a, v]
  | .programHalfWord b a v => .request [header .programHalfWord b 0, a, v]
  | .programWord b a v => .request [header .programWord b 0, a, v]
  | .programArray b ps => .request (header .programArray b ps.length :: unpair ps)
  | .erasePage b a => .request [header .erasePage b 0, a]
  | .eraseAllPages b => .request [header .eraseAllPages b 0]
  | .setLatency n => .request [header .setLatency .main 0, n]
  | .getLatency => .request [header .getLatency .main 0]
  | .updateCache => .request [header .updateCache .main 0]
  | .setCacheMode m => .request [header .setCacheMode .main 0, m]
  | .getCacheMode => .request [header .getCacheMode .main 0]
  | .wrCmd v => .busWrite .word (c.regs.base + c.regs.cmd) v
  | .rdCmd => .busRead .word (c.regs.base + c.regs.cmd)
  | .wrAdr v => .busWrite .word (c.regs.base + c.regs.adr) v
  | .rdAdr => .busRead .word (c.regs.base + c.regs.adr)
  | .wrDI v => .busWrite .word (c.regs.base + c.regs.di) v
  | .rdDI => .busRead .word (c.regs.base + c.regs.di)
  | .rdDO => .busRead .word (c.regs.base + c.regs.dout)
  | .wrDO v => .busWrite .word (c.regs.base + c.regs.dout) v
  | .wrKey v => .busWrite .word (c.regs.base + c.regs.key) v
  | .rdKey => .busRead .word (c.regs.base + c.regs.key)
  | .wrCache v => .busWrite .word (c.regs.base + c.regs.cache) v
  | .rdCache => .busRead .word (c.regs.base + c.regs.cache)
  | .mappedRead o => .busRead .word (c.mainBase + o)

/-- A CommandWord as the 32-bit word software sees: each field at its place, every other bit 0 (30 R101). -/
def packCmd (l : CmdLayout) (w : CmdWord) : Word :=
  let bit (p : Nat) (b : Bool) : Word := if b then 1#32 <<< p else 0#32
  bit l.con w.con ||| ((w.delay.setWidth 32 &&& BitVec.ofNat 32 (2 ^ l.delayW - 1)) <<< l.delay)
    ||| bit l.xe w.xe ||| bit l.ye w.ye ||| bit l.se w.se ||| bit l.ifren w.ifren ||| bit l.erase w.erase
    ||| bit l.mas1 w.mas1 ||| bit l.prog w.prog ||| bit l.nvstr w.nvstr

/-- The fields of a 32-bit value written to `Cmd`; reserved bits are ignored (41 R142). -/
def unpackCmd (l : CmdLayout) (v : Word) : CmdWord :=
  { con := v.getLsbD l.con
    delay := ((v >>> l.delay) &&& BitVec.ofNat 32 (2 ^ l.delayW - 1)).setWidth 8
    xe := v.getLsbD l.xe
    ye := v.getLsbD l.ye
    se := v.getLsbD l.se
    ifren := v.getLsbD l.ifren
    erase := v.getLsbD l.erase
    mas1 := v.getLsbD l.mas1
    prog := v.getLsbD l.prog
    nvstr := v.getLsbD l.nvstr }

/-- How many operand words a header asks for (30 R110). -/
def operandWords (h : Word) : Nat :=
  match headerOpcode h with
  | none => 0
  | some op =>
    match op with
    | .readByte | .readHalfWord | .readWord | .erasePage | .setLatency | .setCacheMode => 1
    | .programByte | .programHalfWord | .programWord => 2
    | .readArray => headerLen h
    | .programArray => 2 * headerLen h
    | .eraseAllPages | .getLatency | .updateCache | .getCacheMode => 0

/-- How a table word is presented. A row of spec/opcode_table.json gives a request header, an offset from
`REG_BASE` or an offset from `MAIN_BASE`, and its bits do not say which: a word that is a legal header goes to the
request port (with operand words of zeros), else an offset of a register is a write of zero to it, else a word-aligned
offset inside Main is a mapped read, else the request port gets it. DESIGN CHOICE, notes/assumptions/10.md. -/
def tableTx (c : Config) (w : Nat) : PortTx :=
  let h := BitVec.ofNat 32 w
  if (headerOpcode h).isSome then .request (h :: List.replicate (operandWords h) 0#32)
  else if (registerOf c h).isSome then .busWrite .word (c.regs.base + h) 0#32
  else if h.toNat < c.mainSize ∧ h &&& 3#32 = 0#32 then .busRead .word (c.mainBase + h)
  else .request [h]

/-- What the decoder reads from a table row's bits, under the reference configuration. All rows have 32 bits, so
`nbits` decides nothing. -/
def decodeTableWord (_nbits w : Nat) : Option Instr :=
  match decode Config.reference (tableTx Config.reference w) with
  | .ok i => some i
  | .error _ => none

end Sys2Proof
end

