-- ==== Sys2Proof/Machine/State.lean ====
section
/-!
DEFINITION. The architectural state (spec 10), the reasons a step can stop, and the state after reset (10 R49).
-/

namespace Sys2Proof.Machine

/-- The modes that `Cmd` decodes to (41 R151). -/
inductive Mode where
  | off
  | idle
  | read
  | pgNvs
  | pgHv
  | pgPulse
  | hvHold
  | erNvs
  | erHv
  | meNvs
  | meHv
  | meHold
  | illegal
  deriving DecidableEq, Repr, Inhabited

/-- The kind of a high-voltage sequence (10 R45). -/
inductive HvKind where
  | prog
  | erase
  | mass
  deriving DecidableEq, Repr, Inhabited

/-- What is latched when `XE` rises into a program or erase mode (10 R45). For `mass` the bank says whether
Info-Bank-Enable was set: `info` is the spec's `both`. What the spec leaves open of a latch read by a sequence of another
kind: DESIGN CHOICE, notes/assumptions/39.md. -/
structure XLatch where
  kind : HvKind
  bank : Bank
  addr : Word
  deriving DecidableEq, Repr, Inhabited

/-- The cell operation in flight (10 R45). -/
inductive Pend where
  | progWord (bank : Bank) (w : Nat) (pre : Cell) (data : Word)
  | eraseRow (bank : Bank) (row : Word)
  | eraseSector (sector : BitVec 2) (both : Bool)
  deriving DecidableEq, Repr, Inhabited

/-- `UPC`: idle, or a line of an operation's micro-program (10 R27). -/
inductive Upc where
  | idle
  | at (op : Opcode) (line : Nat)
  deriving DecidableEq, Repr, Inhabited

/-- The operand latches and buffers (10 R20). `dsh` and `csh` hold CommandWords as their fields. -/
structure Latches where
  op   : Opcode := .readByte
  bank : BankSel := .main
  addr : Word := 0#32
  data : Word := 0#32
  len  : BitVec 16 := 0#16
  idx  : BitVec 16 := 0#16
  sec  : BitVec 3 := 0#3
  dsh  : CmdWord := {}
  csh  : CmdWord := {}
  res  : Word := 0#32
  run  : Option Word := none
  avec : List Word := []
  dvec : List Word := []
  rvec : List Word := []
  deriving DecidableEq, Repr, Inhabited

/-- The count registers `NCNT[T]` and the delay counter `DCNT` (10 R37). -/
structure Counts where
  nvs   : Word := 0#32
  pgs   : Word := 0#32
  prog  : Word := 0#32
  nvh   : Word := 0#32
  rcv   : Word := 0#32
  erase : Word := 0#32
  me    : Word := 0#32
  nvh1  : Word := 0#32
  hv    : Word := 0#32
  dcnt  : Word := 0#32
  deriving DecidableEq, Repr, Inhabited

/-- What a protocol violation was (41 R144, R145, R152 to R165). -/
inductive ProtocolKind where
  | mode
  | bankSwitch
  | transition
  | adrWrite
  | diWrite
  | dwell (t : TimingName)
  deriving DecidableEq, Repr, Inhabited

/-- The faults of the hardware with their recorded info (60 R250). -/
inductive FaultInfo where
  | misaligned (index : Nat)
  | emptyArray
  | invalidBank (bank : BankSel)
  | addressRange (index : Nat)
  | illegalRequest (header : Word)
  | valueRange (operand : Word)
  | unsupported (op : Opcode)
  | protocolViolation (kind : ProtocolKind) (old new : Mode)
  | clockRange (t : TimingName)
  deriving DecidableEq, Repr, Inhabited

/-- The response of an operation: a status word and result words (30 R105). -/
structure Response where
  status  : Word
  results : List Word
  deriving DecidableEq, Repr, Inhabited

/-- One turn of an agent other than the default one (00 R9): which agent moves, and the input it brings. -/
inductive Turn where
  /-- The host whose transaction is next in `port` is served. -/
  | host
  /-- The sequencer performs one micro-operation. -/
  | sequencer
  /-- The `Reset` event (70 R281). -/
  | reset
  /-- The cache fills an entry with the current content of a Main word (47 R232). -/
  | cacheFill (w : Nat)
  /-- The cache evicts an entry (47 R232). -/
  | cacheEvict (w : Nat)
  /-- At least `us` microseconds pass while the controller is idle (a host's own wait, 70 R289). -/
  | elapse (us : Nat)
  /-- The input `CORE_CLK_HZ` changes (00 R8). -/
  | clock (hz : Nat)
  deriving DecidableEq, Repr, Inhabited

/-- Stops of the model that are no fault of the hardware's own list: those are taken (60 R262), not stops. -/
inductive Fault where
  /-- Raised by the sequencer when `UPC` names no line of its micro-program. The spec says it never does
  (10 R27), and no run from reset reaches it; safe. -/
  | upcOutside
  deriving DecidableEq, Repr, Inhabited

/-- Situations the spec gives no meaning; each is safe (a claim may become unprovable, none becomes false). -/
inductive Refusal where
  /-- Reserved for an arm of `exec` that has no meaning yet; no meaning raises it. -/
  | notModelled (mnemonic : String)
  /-- Raised by every operation whose request violates a precondition without `CHECK_PARAMS` (60 R257); safe. -/
  | uncheckedViolation (info : FaultInfo)
  /-- Raised by a register transaction that touches an array word outside its bank (93 U20); safe. -/
  | arrayRange (bank : Bank) (addr : Word)
  /-- Raised by a mapped read outside Main or not word aligned (47 R231); safe. -/
  | mappedRange (offset : Word)
  /-- Raised by `WrCache` and `RdCache` on a variant without the register (10 R36: "outside the block"); safe. -/
  | noCacheCtrl
  /-- Raised by `step` for a descriptor of the wrong length, which 30 R103 cannot express; safe. -/
  | descriptorLength
  /-- Raised by `step` for a bus access narrower than 32 bits (20 R72); safe. -/
  | accessSize
  /-- Raised by `step` for a bus address that is neither a register nor a word of Main (20 R72, R81); safe. -/
  | unmapped (addr : Word)
  /-- Raised by `step` when `CORE_CLK_HZ` changes during an operation (93 U22); safe. -/
  | clockChange
  /-- Raised by `step` under a configuration record outside the stated ranges (00 R6, 47 R235); safe. -/
  | configuration
  deriving DecidableEq, Repr, Inhabited

/-- The state of the machine. The last block of fields is the model's own (notes/assumptions/1.md, 6.md, 8.md):
the configuration record, which no step writes, and the inputs. -/
structure State where
  /-- `Key` (10 R31). -/
  key : Word
  /-- `Cmd` (10 R32). -/
  cmd : CmdWord
  /-- `Adr` (10 R33). -/
  adr : Word
  /-- `DI` (10 R34). -/
  di : Word
  /-- `CacheCtrl.MODE` (10 R36); stays 0 on a variant without the register. -/
  cacheMode : BitVec 2
  /-- `BUSY` (10 R28). -/
  busy : Bool
  /-- `FAULTED` (10 R28). -/
  faulted : Bool
  /-- `UPC` (10 R27). -/
  upc : Upc
  /-- The operand latches (10 R20). -/
  lat : Latches
  /-- The timing profile (10 R37). -/
  counts : Counts
  /-- `do_stale` (10 R41). -/
  doStale : Fin 4
  /-- `t_cmd` (10 R42). -/
  tCmd : Nat
  /-- `t_hv` (10 R42). -/
  tHv : Nat
  /-- `t_settle` (10 R42). -/
  tSettle : Nat
  /-- `t_rcv` (10 R43). -/
  tRcv : Nat
  /-- `rcv_due` (10 R43). -/
  rcvDue : Bool
  /-- `settle_due` (10 R44). -/
  settleDue : Bool
  /-- `xlatch` (10 R45). -/
  xlatch : Option XLatch
  /-- `pend` (10 R45). -/
  pend : Option Pend
  /-- Since the last reset a host's own `Cmd` write has changed the Delay-Cycles field (70 R285), so that what mapped
  reads return is open (notes/assumptions/34.md). -/
  delayLost : Bool
  /-- `cache` (10 R46): word index of Main and cached copy, indexes strictly rising. -/
  cache : List (Nat × Word)
  /-- `Arr[Main]` (20 R62): byte address and byte; a word none of whose bytes is listed is `Indet`. -/
  main : List Host.Cell
  /-- `Arr[Info]` (20 R62). -/
  info : List Host.Cell
  /-- The input `CORE_CLK_HZ` (00 R8). -/
  coreClkHz : Nat
  /-- The response port (30 R105): the response of the last operation. -/
  resp : Option Response
  /-- The data of the last host read on the bus (30 R113). -/
  rdata : Word
  /-- The recorded info of the last fault (60 R250). -/
  faultInfo : Option FaultInfo
  /-- The configuration record (00 R6). -/
  cfg : Config
  /-- What the hosts present, in the order they are served (60 R269). -/
  port : List PortTx
  /-- Whose turn it is; empty means the default order of `step`. -/
  sched : List Turn
  /-- Whether the next mapped reads that miss fill the cache (47 R231); past its end they do not. -/
  fillPlan : List Bool
  /-- How many free values have been taken. -/
  draws : Nat
  deriving DecidableEq, Repr

end Sys2Proof.Machine

namespace Sys2Proof

/-- The content of the operand latches while no operation runs: unspecified (10 R21), so free. -/
opaque Config.freeLatches : Nat → Machine.Latches

/-- The content of `NCNT` and `DCNT` after the `Reset` event: unspecified (70 R281 line 7), so free. -/
opaque Config.freeCounts : Nat → Machine.Counts

end Sys2Proof

namespace Sys2Proof.Machine

/-- The state right after reset under a configuration record and a clock (10 R49). The latches and counts have
no value in the spec; zero is a DESIGN CHOICE (notes/assumptions/3.md, 4.md), as are the empty array lists, which
make every word `Indet` (5.md), and the outputs and inputs of the model (25.md). -/
def State.resetWith (c : Config) (hz : Nat) : State where
  key := 0#32
  cmd := { delay := c.delayReset }
  adr := 0#32
  di := 0#32
  cacheMode := 0#2
  busy := false
  faulted := false
  upc := .idle
  lat := {}
  counts := {}
  doStale := 3
  tCmd := 0
  tHv := 0
  tSettle := 0
  tRcv := 0
  rcvDue := false
  settleDue := false
  xlatch := none
  pend := none
  delayLost := false
  cache := []
  main := []
  info := []
  coreClkHz := hz
  resp := none
  rdata := 0#32
  faultInfo := none
  cfg := c
  port := []
  sched := []
  fillPlan := []
  draws := 0

/-- The machine right after reset, under the reference record and the clock of the spec's worked example
(40 R134); DESIGN CHOICE, notes/assumptions/2.md and 21.md. -/
def State.reset : State := State.resetWith Config.reference 80000000

end Sys2Proof.Machine
end

