-- ==== Sys2Proof/Machine/Operands.lean ====
section
/-!
DEFINITION. Operand forms: the decomposition of addresses (20 R61), sub-word carving and merging (30 R108), the
protection predicate (46 R221), the timing conversion (40 R132), and the ranges of the configuration record (00 R8).
-/

namespace Sys2Proof.Machine

/-- `byte(a)`, as the shift of a sub-word: `8 * (a & 3)` bits (30 R108). -/
def byteShift (a : Word) : Nat := 8 * (a &&& 3#32).toNat

/-- The shift of a half-word: `8 * (a & 2)` bits (30 R108). -/
def halfShift (a : Word) : Nat := 8 * (a &&& 2#32).toNat

/-- `sector(a)`: address bits [3:2] (20 R61). -/
def sectorOf (a : Word) : BitVec 2 := a.extractLsb' 2 2

/-- `page(a)` (20 R61). -/
def pageOf (a : Word) : Word := a &&& ~~~0xFFF#32

/-- `row(a)` (20 R61). -/
def rowOf (a : Word) : Word := a &&& ~~~0xFF0#32 &&& ~~~0x3#32

/-- `a & ~3`, the word address (20 R61). -/
def wordAddr (a : Word) : Word := a &&& ~~~0x3#32

/-- `w(a) = a >> 2`, the word index as a key of the array (20 R61). -/
def wordIndex (a : Word) : Nat := a.toNat / 4

/-- The byte address of a word index. -/
def indexAddr (w : Nat) : Word := BitVec.ofNat 32 (4 * w)

/-- The cell address of an erase: `page(addr) | (SEC << 2)` (30 R108). -/
def eraseAddr (a : Word) (sec : BitVec 3) : Word := pageOf a ||| (sec.setWidth 32 <<< 2)

/-- `zext_32(trunc_8(word >> sh))` (42 R183). -/
def carveByte (word a : Word) : Word := ((word >>> byteShift a).setWidth 8).setWidth 32

/-- `zext_32(trunc_16(word >> sh))` (42 R182). -/
def carveHalf (word a : Word) : Word := ((word >>> halfShift a).setWidth 16).setWidth 32

/-- `(word & ~(0xFF << sh)) | (zext_32(b) << sh)` (30 R108). -/
def mergeByte (word a b : Word) : Word :=
  (word &&& ~~~(0xFF#32 <<< byteShift a)) ||| ((b.setWidth 8).setWidth 32 <<< byteShift a)

/-- `(word & ~(0xFFFF << sh)) | (zext_32(h) << sh)` (30 R108). -/
def mergeHalf (word a h : Word) : Word :=
  (word &&& ~~~(0xFFFF#32 <<< halfShift a)) ||| ((h.setWidth 16).setWidth 32 <<< halfShift a)

/-- `InFactoryWindow(a)`, on Info-bank addresses (20 R69). -/
def inFactoryWindow (c : Config) (a : Word) : Bool := sectorOf a == 0#2 && c.protBase ≤ (a &&& 0xFFF#32)

/-- `Protected(bank, a)` (46 R221). -/
def isProtected (c : Config) (bank : BankSel) (a : Word) : Bool :=
  !c.hasHwInfoProt && bank == .info && inFactoryWindow c a

/-- `size(bank)` in bytes (20 R60). -/
def bankSize (c : Config) : Bank → Nat
  | .main => c.mainSize
  | .info => pageSize

/-- The bank an array access of an operation reaches: Info for the selector Info, else Main (41 R170). -/
def arrayBank : BankSel → Bank
  | .info => .info
  | _ => .main

/-- `s0(bank)`: the first sector `erase_page` erases (43 R191). -/
def firstSector (c : Config) (bank : BankSel) : BitVec 3 :=
  if bank = .info ∧ c.hasHwInfoProt = false then 1#3 else 0#3

/-- The microseconds of a timing name (40 R136). -/
def timingUs (c : Config) : TimingName → Nat
  | .nvs => c.timing.nvs
  | .pgs => c.timing.pgs
  | .prog => c.timing.prog
  | .nvh => c.timing.nvh
  | .rcv => c.timing.rcv
  | .erase => c.timing.erase
  | .me => c.timing.me
  | .nvh1 => c.timing.nvh1
  | .hv => c.timing.hv

/-- The nine timing names, in the order of 00 R7. -/
def timingNames : List TimingName := [.nvs, .pgs, .prog, .nvh, .rcv, .erase, .me, .nvh1, .hv]

/-- `ceil_div(T_us * CORE_CLK_HZ, 1_000_000 * CYCLES_PER_COUNT)`, before it is put into 32 bits (40 R132). -/
def countOf (c : Config) (hz : Nat) (t : TimingName) : Nat :=
  ceilDiv (timingUs c t * hz) (1000000 * c.cyclesPerCount)

/-- The timing profile computed at an acceptance (40 R132); `DCNT` is left as it was. A count that does not fit keeps its
low 32 bits, and between operations the counts stay: DESIGN CHOICE, notes/assumptions/4.md. -/
def countsOf (c : Config) (hz : Nat) (dcnt : Word) : Counts where
  nvs := BitVec.ofNat 32 (countOf c hz .nvs)
  pgs := BitVec.ofNat 32 (countOf c hz .pgs)
  prog := BitVec.ofNat 32 (countOf c hz .prog)
  nvh := BitVec.ofNat 32 (countOf c hz .nvh)
  rcv := BitVec.ofNat 32 (countOf c hz .rcv)
  erase := BitVec.ofNat 32 (countOf c hz .erase)
  me := BitVec.ofNat 32 (countOf c hz .me)
  nvh1 := BitVec.ofNat 32 (countOf c hz .nvh1)
  hv := BitVec.ofNat 32 (countOf c hz .hv)
  dcnt := dcnt

/-- Whether a count is in the domain of 40 R133. -/
def countInRange (c : Config) (hz : Nat) (t : TimingName) : Bool :=
  0 < hz && 1 ≤ countOf c hz t && countOf c hz t < 2 ^ 32

/-- The status code of a fault (60 R250). -/
def faultCode : FaultInfo → Word
  | .misaligned _ => 1#32
  | .emptyArray => 2#32
  | .invalidBank _ => 3#32
  | .addressRange _ => 4#32
  | .illegalRequest _ => 5#32
  | .valueRange _ => 6#32
  | .unsupported _ => 7#32
  | .protocolViolation _ _ _ => 8#32
  | .clockRange _ => 9#32

/-- The bit positions of CommandWord are those of 32-bit word bits, no two alike, none inside Delay-Cycles
(00 R8 `CMD_*`, `DELAY_W`). -/
def layoutOk (l : CmdLayout) : Bool :=
  let bits := [l.con, l.xe, l.ye, l.se, l.ifren, l.erase, l.mas1, l.prog, l.nvstr]
  bits.Nodup && bits.all (fun p => p < 32 && (p < l.delay || l.delay + l.delayW ≤ p))
    && 1 ≤ l.delayW && l.delayW ≤ 8 && l.delay + l.delayW ≤ 32

/-- The register addresses are word aligned (00 R8). -/
def regMapOk (r : RegMap) : Bool :=
  [r.base, r.cmd, r.adr, r.di, r.dout, r.key, r.cache].all (fun o => o &&& 3#32 = 0#32)

/-- The most throwaway reads `update_cache` can make on a variant: `CACHE_N_LARGE` only with the cache register
(47 R235 line 0). -/
def refreshLimit (c : Config) : Nat := if c.hasCacheCtrl then 40 else 5

/-- The record is in the ranges of 00 R8, and the refresh reads that `update_cache` can make on the variant lie inside
Main and are word aligned (47 R235, R231), as notes/assumptions/27.md says. -/
def configOk (c : Config) : Bool :=
  0 < c.mainSize && (layoutOk c.layout && (regMapOk c.regs && (c.keyUnlock != 0#32 &&
    (c.mainSize % pageSize = 0 && (c.mainSize ≤ 2 ^ 32 && (c.mainBase &&& 3#32 = 0#32 &&
    (c.protBase ≤ 0xFF0#32 && (c.protBase &&& 15#32 = 0#32 &&
    (timingNames.all (fun t => 1 ≤ timingUs c t) && (1 ≤ c.cyclesPerCount &&
    (1 ≤ c.maxLen && (c.delayReset.toNat < 2 ^ c.layout.delayW &&
    (c.cacheRefreshBase &&& 3#32 = 0#32 && (c.cacheRefreshStride &&& 3#32 = 0#32 &&
    c.cacheRefreshBase.toNat + (refreshLimit c - 1) * c.cacheRefreshStride.toNat + 4 ≤ c.mainSize))))))))))))))

end Sys2Proof.Machine
end

