-- ==== Sys2Proof/Machine/Flags.lean ====
section
/-!
DEFINITION. What is computed from the flags and from `Cmd`: locked, the mode, the stall, the drive patterns. No
arithmetic condition codes exist (10 R28).
-/

namespace Sys2Proof.Machine

/-- `LOCKED = (Key == 0)` (10 R28, 41 R141). -/
def locked (s : State) : Bool := s.key == 0#32

/-- The mode decode of 41 R151, by CON and the drive bits XE, YE, SE, PROG, ERASE, MAS1, NVSTR in this order. -/
def modeOf (c : CmdWord) : Mode :=
  match c.con, c.xe, c.ye, c.se, c.prog, c.erase, c.mas1, c.nvstr with
  | false, false, false, false, false, false, false, false => .off
  | true, false, false, false, false, false, false, false => .idle
  | true, true, true, true, false, false, false, false => .read
  | true, true, false, false, true, false, false, false => .pgNvs
  | true, true, false, false, true, false, false, true => .pgHv
  | true, true, true, false, true, false, false, true => .pgPulse
  | true, true, false, false, false, false, false, true => .hvHold
  | true, true, false, false, false, true, false, false => .erNvs
  | true, true, false, false, false, true, false, true => .erHv
  | true, true, false, false, false, true, true, false => .meNvs
  | true, true, false, false, false, true, true, true => .meHv
  | true, true, false, false, false, false, true, true => .meHold
  | _, _, _, _, _, _, _, _ => .illegal

/-- The mode the array is in. -/
def mode (s : State) : Mode := modeOf s.cmd

/-- `bank_of(c)`: Info if Info-Bank-Enable is set, else Main (41 R147). -/
def bankOf (c : CmdWord) : Bank := if c.ifren then .info else .main

/-- `Stalled()`: mapped reads are held (47 R241). -/
def stalled (s : State) : Bool := s.cmd.nvstr || (s.cfg.mappedStallOnCon && s.cmd.con)

/-- The drive bits a step of a micro-program or-s into `CSH` (30 R108). -/
inductive Drive where
  | none
  | read
  | progSetup
  | progHv
  | pulse
  | hold
  | eraseSetup
  | eraseHv
  | massSetup
  | massHv
  | massHold
  deriving DecidableEq, Repr, Inhabited

/-- `CSH | <drive bits>` (30 R108), the values written by 42 R180, 43 R192, R194, 44 R200. -/
def withDrive (c : CmdWord) : Drive → CmdWord
  | .none => c
  | .read => { c with xe := true, ye := true, se := true }
  | .progSetup => { c with xe := true, prog := true }
  | .progHv => { c with xe := true, prog := true, nvstr := true }
  | .pulse => { c with xe := true, prog := true, nvstr := true, ye := true }
  | .hold => { c with xe := true, nvstr := true }
  | .eraseSetup => { c with xe := true, erase := true }
  | .eraseHv => { c with xe := true, erase := true, nvstr := true }
  | .massSetup => { c with xe := true, erase := true, mas1 := true }
  | .massHv => { c with xe := true, erase := true, mas1 := true, nvstr := true }
  | .massHold => { c with xe := true, mas1 := true, nvstr := true }

/-- `Cmd & DELAY_MASK`: only Delay-Cycles kept (41 R170 line 2). -/
def delayOnly (c : CmdWord) : CmdWord := { delay := c.delay }

/-- `DSH | CON | (IFREN if ifren)` (41 R170 line 3). -/
def shadowOf (dsh : CmdWord) (ifren : Bool) : CmdWord := { dsh with con := true, ifren := dsh.ifren || ifren }

end Sys2Proof.Machine
end

