-- ==== Sys2Proof/Machine/Ops.lean ====
section
/-!
DEFINITION. The named operations over the array, the cache, the free values and the clock accumulators; leaving
cells indeterminate (70 R283); taking a fault (60 R262, 41 R166), and holding a transaction (41 R146).
-/

namespace Sys2Proof.Machine

/-! ### Sorted tables -/

/-- The entry of a key. -/
def tableGet {α : Type} : List (Nat × α) → Nat → Option α
  | [], _ => none
  | (k, v) :: m, a => if k = a then some v else tableGet m a

/-- Set the entry of a key, keys staying in rising order. -/
def tableSet {α : Type} : List (Nat × α) → Nat → α → List (Nat × α)
  | [], a, v => [(a, v)]
  | (k, u) :: m, a, v =>
    if a < k then (a, v) :: (k, u) :: m
    else if a = k then (a, v) :: m
    else (k, u) :: tableSet m a v

/-- Remove the entries whose key satisfies `p`. -/
def tableDrop {α : Type} (p : Nat → Bool) (m : List (Nat × α)) : List (Nat × α) := m.filter fun e => !p e.1

/-- Keys strictly rising. -/
def tableSorted {α : Type} : List (Nat × α) → Bool
  | [] => true
  | [_] => true
  | (a, _) :: (b, v) :: m => a < b && tableSorted ((b, v) :: m)

/-! ### The array (20 R60 to R69) -/

/-- The byte at a byte address of a bank's list; none where no byte is listed. An unlisted address is a byte of
an indeterminate word: DESIGN CHOICE for a fresh device, notes/assumptions/5.md. -/
def byteAt (m : List Host.Cell) (a : Nat) : Option Byte := tableGet m a

/-- The cell of word index `w`: little-endian (20 R65), indeterminate unless all its bytes are listed. -/
def cellAt (m : List Host.Cell) (w : Nat) : Cell :=
  match byteAt m (4 * w), byteAt m (4 * w + 1), byteAt m (4 * w + 2), byteAt m (4 * w + 3) with
  | some b0, some b1, some b2, some b3 => .val (b3 ++ (b2 ++ (b1 ++ b0)))
  | _, _, _, _ => .indet

/-- Put a value into word index `w`, byte by byte, little-endian (20 R65). -/
def setWord (m : List Host.Cell) (w : Nat) (v : Word) : List Host.Cell :=
  tableSet (tableSet (tableSet (tableSet m (4 * w + 3) (v.extractLsb' 24 8)) (4 * w + 2) (v.extractLsb' 16 8))
    (4 * w + 1) (v.extractLsb' 8 8)) (4 * w) (v.extractLsb' 0 8)

/-- Make the words whose index satisfies `p` indeterminate. -/
def forgetWords (p : Nat → Bool) (m : List Host.Cell) : List Host.Cell := tableDrop (fun a => p (a / 4)) m

/-- Put a cell into word index `w`. -/
def setCell (m : List Host.Cell) (w : Nat) : Cell → List Host.Cell
  | .val v => setWord m w v
  | .indet => forgetWords (· == w) m

/-- Canonical form of a bank's list: addresses strictly rising and inside the bank, and a word listed whole or
not at all. There is no entry equal to what an unlisted address reads as, since that is no byte. -/
def memWf (size : Nat) (m : List Host.Cell) : Bool :=
  tableSorted m && m.all fun e =>
    e.1 < size && (List.range 4).all fun i => (byteAt m (4 * (e.1 / 4) + i)).isSome

/-- `Arr[b]`, as its list. -/
def array (s : State) : Bank → List Host.Cell
  | .main => s.main
  | .info => s.info

/-- Replace the list of a bank. -/
def setArray (s : State) (b : Bank) (m : List Host.Cell) : State :=
  match b with
  | .main => { s with main := m }
  | .info => { s with info := m }

/-- `Arr[b][w]` (20 R62). -/
def cell (s : State) (b : Bank) (w : Nat) : Cell := cellAt (array s b) w

/-- Both banks are in canonical form. -/
def arraysWf (s : State) : Bool := memWf (bankSize s.cfg .main) s.main && memWf (bankSize s.cfg .info) s.info

/-- Word index `w` lies in row `r`: the same page, the same sector (20 R61). -/
def inRow (r : Word) (w : Nat) : Bool := w / 1024 == r.toNat / 4096 && w % 4 == r.toNat / 4 % 4

/-- Word index `w` lies in sector `k` (20 R61). -/
def inSector (k : BitVec 2) (w : Nat) : Bool := w % 4 == k.toNat

/-- The 256 word indexes of row `r` (20 R61, R67). -/
def rowWords (r : Word) : List Nat := (List.range 256).map fun c => wordIndex (r ||| (BitVec.ofNat 32 c <<< 4))

/-- The word indexes of sector `k` in a bank of `size` bytes (20 R68). -/
def sectorWords (k : BitVec 2) (size : Nat) : List Nat := (List.range (size / 16)).map fun i => 4 * i + k.toNat

/-- `HW_PROT_EFFECT` (20 R69) as the configuration record gives it; the default leaves the word indeterminate. -/
def hwProtEffect (c : Config) (op : CellOp) (pre : Cell) : Cell :=
  match c.hwProtEffect with
  | .indeterminate => .indet
  | .other id => Config.hwProtFunction id op pre

/-- The cell a committed operation leaves (20 R63, R66, R67, R69): the AND of old value and data, or all ones, or
`HW_PROT_EFFECT` for a factory-window word of Info on a variant with hardware protection. For an erase 20 R67 and R69 give
it no data `d`: it is told that it is an erase, and so depends on no register. DESIGN CHOICE, notes/assumptions/7.md. -/
def committed (c : Config) (b : Bank) (w : Nat) (op : CellOp) (pre : Cell) : Cell :=
  if c.hasHwInfoProt = true ∧ b = .info ∧ inFactoryWindow c (indexAddr w) = true then hwProtEffect c op pre
  else
    match op, pre with
    | .program d, .val p => .val (p &&& d)
    | .program _, .indet => .indet
    | .erase, _ => .val erasedWord

/-- `CellProgram(b, w, pre, d)` (20 R66). -/
def cellProgram (s : State) (b : Bank) (w : Nat) (pre : Cell) (d : Word) : State :=
  setArray s b (setCell (array s b) w (committed s.cfg b w (.program d) pre))

/-- Commit an erase on each word of a list. -/
def eraseWords (c : Config) (b : Bank) (ws : List Nat) (m : List Host.Cell) : List Host.Cell :=
  ws.foldr (fun w m => setCell m w (committed c b w .erase (cellAt m w))) m

/-- `RowErase(b, r)` (20 R67). -/
def rowErase (s : State) (b : Bank) (r : Word) : State :=
  setArray s b (eraseWords s.cfg b (rowWords r) (array s b))

/-- `SectorMassErase(s, both)` (20 R68). -/
def sectorMassErase (s : State) (k : BitVec 2) (both : Bool) : State :=
  let s := setArray s .main (eraseWords s.cfg .main (sectorWords k s.cfg.mainSize) s.main)
  if both then setArray s .info (eraseWords s.cfg .info (sectorWords k pageSize) s.info) else s

/-- The words of row `r` of bank `b` become indeterminate. -/
def forgetRow (s : State) (b : Bank) (r : Word) : State := setArray s b (forgetWords (inRow r) (array s b))

/-- The words of sector `k` of Main, and of Info if `both`, become indeterminate. -/
def forgetSector (s : State) (k : BitVec 2) (both : Bool) : State :=
  let s := setArray s .main (forgetWords (inSector k) s.main)
  if both then setArray s .info (forgetWords (inSector k) s.info) else s

/-! ### Free values and time -/

/-- `draw(32)` (00 R10): a free value, and the state that has taken it. -/
def draw (s : State) : Word × State := (Config.draw s.draws, { s with draws := s.draws + 1 })

/-- Time passes: the lower bounds of 10 R42 and R43 grow (40 R134). -/
def advance (s : State) (us : Nat) : State :=
  { s with tCmd := s.tCmd + us, tHv := s.tHv + us, tSettle := s.tSettle + us, tRcv := s.tRcv + us }

/-- `MemRead(b, a, 4)` (20 R64): a draw while an erase settles or from an indeterminate cell. -/
def memRead (b : Bank) (a : Word) (s : State) : Word × State :=
  if s.settleDue ∧ s.tSettle < s.cfg.timing.hv then draw s
  else
    match cell s b (wordIndex (wordAddr a)) with
    | .val v => (v, { s with settleDue := false })
    | .indet => draw { s with settleDue := false }

/-! ### The cache and the mapped path (47 R230 to R233) -/

/-- `MappedRead(a)` when it is not held (47 R231). The optional fill follows `fillPlan`, and only a value the
array holds is filled in (R232: no cache step invents a value). -/
def mappedRead (a : Word) (s : State) : Word × State :=
  match tableGet s.cache (wordIndex a) with
  | some v => (v, s)
  | none =>
    let r := memRead .main a s
    let settled := !(s.settleDue && s.tSettle < s.cfg.timing.hv)
    let known := settled && cell s .main (wordIndex (wordAddr a)) != .indet
    match r.2.fillPlan with
    | [] => r
    | fill :: plan =>
      (r.1, { r.2 with
        fillPlan := plan
        cache := if fill && known then tableSet r.2.cache (wordIndex a) r.1 else r.2.cache })

/-- The entries that are not stale (47 R234, R235 line 3). -/
def freshEntries (s : State) : List (Nat × Word) := s.cache.filter fun e => cell s .main e.1 == .val e.2

/-- Whether the cache may take a step on Main word `w` (47 R232). -/
def cacheMayStep (s : State) (w : Nat) : Bool :=
  decide (4 * w < s.cfg.mainSize) && cell s .main w != .indet && !stalled s

/-- The cache fills the entry of a Main word with its current content (47 R232). -/
def cacheFill (w : Nat) (s : State) : State :=
  match cacheMayStep s w, cell s .main w with
  | true, .val v => { s with cache := tableSet s.cache w v }
  | _, _ => s

/-- The cache evicts the entry of a Main word (47 R232). -/
def cacheEvict (w : Nat) (s : State) : State :=
  if cacheMayStep s w then { s with cache := tableDrop (· == w) s.cache } else s

/-! ### Abandonment (70 R283), faults, response, hold -/

/-- The cells a high-voltage sequence leaves indeterminate when it is abandoned (70 R283): the targets of `pend`,
and, if `NVSTR` is set, the row or sector named by `xlatch`. -/
def abandon (nvstr : Bool) (s : State) : State :=
  let s :=
    match s.pend with
    | none => s
    | some (.progWord b w _ _) => setArray s b (forgetWords (· == w) (array s b))
    | some (.eraseRow b r) => forgetRow s b r
    | some (.eraseSector k both) => forgetSector s k both
  match nvstr, s.xlatch with
  | true, some x =>
    match x.kind with
    | .mass => forgetSector s (sectorOf x.addr) (x.bank == .info)
    | .prog | .erase => forgetRow s x.bank x.addr
  | _, _ => s

/-- The operation is over: the response is presented, `BUSY` and `UPC` are cleared (30 R105, 10 R28), and the
latches hold nothing a rule fixes (10 R21). -/
def respond (r : Response) (s : State) : State :=
  { s with
    resp := some r
    busy := false
    upc := .idle
    lat := Config.freeLatches s.draws
    draws := s.draws + 1 }

/-- Fault entry (60 R262): the lock write, `FAULTED`, the status word with the code, idle again. Nothing is
saved, no vector is taken, and there is no return (60 R264). -/
def raiseFault (f : FaultInfo) (s : State) : State :=
  respond { status := faultCode f, results := [] } { s with key := 0#32, faulted := true, faultInfo := some f }

/-- `ProtocolViolation` (41 R166), after the register write has taken place: the cells of 70 R283 with the old
and new `NVSTR` or-ed are indeterminate, `pend` is cleared, `FAULTED` is set. -/
def violate (k : ProtocolKind) (old new : CmdWord) (s : State) : State :=
  { abandon (old.nvstr || new.nvstr) s with
    pend := none
    faulted := true
    faultInfo := some (.protocolViolation k (modeOf old) (modeOf new)) }

/-- A transaction that is held has no step (41 R146, 30 R104, 47 R241): it stays first in `port`. -/
def hold (i : Instr) (s : State) : Host.Outcome State Fault Refusal :=
  .next { s with port := encode s.cfg i :: s.port }

end Sys2Proof.Machine
end

