-- ==== Sys2Proof/Machine/Registers.lean ====
section
/-!
DEFINITION. The register transactions and the array's reaction to CommandWord (spec 41), as operations the host and
the sequencer share (41 R146: "exactly as if the sequencer had issued it").
-/

namespace Sys2Proof.Machine

/-- What a register write does: it is done (dropped writes too), it violates the protocol (the state after
41 R166), or it reaches an array word that does not exist. -/
inductive TxResult where
  | done (s : State)
  | violated (f : FaultInfo) (s : State)
  | refused (r : Refusal)
  deriving Repr

/-- What the array does with a change of `Cmd` (41 R152). -/
inductive Reaction where
  | ok (s : State)
  | violation (k : ProtocolKind)
  | outside (bank : Bank) (addr : Word)
  deriving Repr

/-- `WrKey(v)` (41 R140): never gated. -/
def wrKey (v : Word) (s : State) : State := { s with key := v }

/-! ### The rules of the transition table -/

/-- `RcvCheck`, then the rest of the transition (41 R153). -/
def rcvCheck (s : State) (rest : State → Reaction) : Reaction :=
  if s.rcvDue ∧ s.tRcv < s.cfg.timing.rcv then .violation (.dwell .rcv) else rest { s with rcvDue := false }

/-- The word index a setup latches or a pulse addresses: `Adr & ~3` (41 R154, R157). -/
def adrWord (s : State) : Word := wordAddr s.adr

/-- Setup of a high-voltage sequence: `xlatch` is taken (41 R154, R160, R163). -/
def latchSetup (k : HvKind) (new : CmdWord) (s : State) : Reaction :=
  .ok { s with xlatch := some { kind := k, bank := bankOf new, addr := adrWord s } }

/-- Program high voltage on (41 R155). -/
def programHv (s : State) : Reaction :=
  if s.tCmd < s.cfg.timing.nvs then .violation (.dwell .nvs) else .ok { s with tHv := 0 }

/-- Pulse start (41 R157). The dwell is checked first. Without an `xlatch` (only after a violation) the sequence is
unknown: DESIGN CHOICE, notes/assumptions/14.md. The bank of a mass erase's `xlatch` (only after a violation) is the one
`IFREN` selected: DESIGN CHOICE, notes/assumptions/39.md. -/
def pulseStart (s : State) : Reaction :=
  if s.tHv < s.cfg.timing.pgs then .violation (.dwell .pgs)
  else
    match s.xlatch with
    | none => .violation .transition
    | some x =>
      if bankSize s.cfg x.bank ≤ (adrWord s).toNat then .outside x.bank s.adr
      else
        let w := wordIndex (adrWord s)
        .ok { setArray s x.bank (forgetWords (· == w) (array s x.bank)) with
          pend := some (.progWord x.bank w (cell s x.bank w) s.di) }

/-- Pulse end and commit (41 R158). -/
def pulseEnd (s : State) : Reaction :=
  match s.pend with
  | some (.progWord b w pre d) =>
    if s.tCmd < s.cfg.timing.prog then .violation (.dwell .prog)
    else .ok { cellProgram s b w pre d with pend := none }
  | _ => .violation .transition

/-- The recovery time, and after an erase the settle time, begin (10 R43, R44). -/
def recoveryBegins (settle : Bool) (s : State) : State :=
  { s with
    rcvDue := true
    tRcv := 0
    settleDue := settle || s.settleDue
    tSettle := if settle then 0 else s.tSettle }

/-- Whether the sequence latched is a row erase (41 R159). With nothing latched (only after a violation) it is none:
DESIGN CHOICE, notes/assumptions/14.md. -/
def latchedErase (s : State) : Bool := s.xlatch.any fun x => x.kind == .erase

/-- End of hold (41 R159). -/
def holdEnd (s : State) : Reaction :=
  if s.tCmd < s.cfg.timing.nvh then .violation (.dwell .nvh)
  else .ok { recoveryBegins (latchedErase s) s with xlatch := none }

/-- Row erase high voltage on (41 R160). The dwell is checked first. Without an `xlatch`: DESIGN CHOICE,
notes/assumptions/14.md. With that of a mass erase (only after a violation), its bank is the one `IFREN` selected:
DESIGN CHOICE, notes/assumptions/39.md. -/
def eraseHv (s : State) : Reaction :=
  if s.tCmd < s.cfg.timing.nvs then .violation (.dwell .nvs)
  else
    match s.xlatch with
    | none => .violation .transition
    | some x =>
      if bankSize s.cfg x.bank ≤ (pageOf x.addr).toNat then .outside x.bank x.addr
      else .ok { forgetRow s x.bank x.addr with tHv := 0, pend := some (.eraseRow x.bank (rowOf x.addr)) }

/-- Row erase commit (41 R161). -/
def eraseEnd (s : State) : Reaction :=
  match s.pend with
  | some (.eraseRow b r) =>
    if s.tCmd < s.cfg.timing.erase then .violation (.dwell .erase) else .ok { rowErase s b r with pend := none }
  | _ => .violation .transition

/-- Mass erase high voltage on (41 R163). The dwell is checked first. An `xlatch` holds `IFREN` as its bank, and `both` is
that the bank is Info. Without an `xlatch`: DESIGN CHOICE, notes/assumptions/14.md. That of a program or row erase (only
after a violation) gives `both` in the same way: DESIGN CHOICE, notes/assumptions/39.md. -/
def massHv (s : State) : Reaction :=
  if s.tCmd < s.cfg.timing.nvs then .violation (.dwell .nvs)
  else
    match s.xlatch with
    | none => .violation .transition
    | some x =>
      let both := x.bank == .info
      .ok { forgetSector s (sectorOf x.addr) both with
        tHv := 0, pend := some (.eraseSector (sectorOf x.addr) both) }

/-- Mass erase commit (41 R164). -/
def massEnd (s : State) : Reaction :=
  match s.pend with
  | some (.eraseSector k both) =>
    if s.tCmd < s.cfg.timing.me then .violation (.dwell .me)
    else .ok { sectorMassErase s k both with pend := none }
  | _ => .violation .transition

/-- End of mass erase hold (41 R165). -/
def massHoldEnd (s : State) : Reaction :=
  if s.tCmd < s.cfg.timing.nvh1 then .violation (.dwell .nvh1)
  else .ok { recoveryBegins true s with xlatch := none }

/-- The transition table of 41 R152, for two different modes. -/
def transition (mo mn : Mode) (new : CmdWord) (s : State) : Reaction :=
  match mo, mn with
  | .off, .idle => .ok s
  | .idle, .off => .ok s
  | .idle, .read => rcvCheck s fun s => .ok { s with doStale := 3 }
  | .read, .idle => .ok s
  | .idle, .pgNvs => rcvCheck s (latchSetup .prog new)
  | .pgNvs, .pgHv => programHv s
  | .pgHv, .pgPulse => pulseStart s
  | .pgPulse, .pgHv => pulseEnd s
  | .pgHv, .hvHold => .ok s
  | .hvHold, .idle => holdEnd s
  | .idle, .erNvs => rcvCheck s (latchSetup .erase new)
  | .erNvs, .erHv => eraseHv s
  | .erHv, .hvHold => eraseEnd s
  | .idle, .meNvs => rcvCheck s (latchSetup .mass new)
  | .meNvs, .meHv => massHv s
  | .meHv, .meHold => massEnd s
  | .meHold, .idle => massHoldEnd s
  | _, _ => .violation .transition

/-- `React(old, new)` (41 R152). -/
def react (old new : CmdWord) (s : State) : Reaction :=
  if modeOf new = .illegal then .violation .mode
  else if (old.xe || new.xe) && old.ifren != new.ifren then .violation .bankSwitch
  else if modeOf old = modeOf new then .ok s
  else transition (modeOf old) (modeOf new) new s

/-- What every accepted `Cmd` write does to the accumulators and flags by their own definitions (10 R41 to R44),
applied where `React` raises a violation before reaching its own assignments. DEDUCED, notes/assumptions/15.md. -/
def violatedClocks (old new : CmdWord) (s : State) : State :=
  let leaves := (modeOf old = .hvHold ∨ modeOf old = .meHold) ∧ modeOf new = .idle
  let s := if leaves then recoveryBegins (latchedErase s || modeOf old = .meHold) s else s
  { s with
    tCmd := 0
    tHv := if new.nvstr && !old.nvstr then 0 else s.tHv
    doStale := if modeOf new = .read ∧ modeOf old ≠ .read then 3 else s.doStale }

/-! ### The transactions -/

/-- `WrCmd(v)` on the fields of `v` (41 R142). A write that violates the protocol does so without `CHECK_PARAMS` too:
DESIGN CHOICE, notes/assumptions/40.md. -/
def wrCmd (new : CmdWord) (s : State) : TxResult :=
  if locked s then .done s
  else
    match react s.cmd new { s with cmd := new } with
    | .ok t => .done { t with tCmd := 0 }
    | .violation k =>
      .violated (.protocolViolation k (modeOf s.cmd) (modeOf new))
        (violate k s.cmd new (violatedClocks s.cmd new { s with cmd := new }))
    | .outside b a => .refused (.arrayRange b a)

/-- Whether Delay-Cycles counts as clobbered after a host's `Cmd` write of `new`: it did before, or the write is
accepted and changes the field (70 R285). -/
def delayNoted (new : CmdWord) (s : State) : Bool := s.delayLost || (!locked s && new.delay != s.cmd.delay)

/-- What a host's own accepted `Cmd` write that changes the Delay-Cycles field does beyond the write: from then on
nothing is known of mapped reads (70 R285). The sequencer keeps the field (41 R171) or sets it as an operation
(47 R239), so its writes do not pass here. DESIGN CHOICE of how long, notes/assumptions/34.md. -/
def noteDelay (new : CmdWord) (s : State) : State :=
  { s with delayLost := delayNoted new s }

/-- `WrAdr(v)` (41 R144). A violating write takes place (R166); that it makes reads stale like an accepted one is a
DESIGN CHOICE, notes/assumptions/36.md. -/
def wrAdr (v : Word) (s : State) : TxResult :=
  let written := { s with adr := v, doStale := 3 }
  if locked s then .done s
  else
    match mode s, s.xlatch with
    | .off, _ | .idle, _ | .read, _ => .done written
    | .pgHv, some x =>
      if rowOf v = rowOf x.addr then .done written
      else .violated (.protocolViolation .adrWrite (mode s) (mode s)) (violate .adrWrite s.cmd s.cmd written)
    | _, _ => .violated (.protocolViolation .adrWrite (mode s) (mode s)) (violate .adrWrite s.cmd s.cmd written)

/-- `WrDI(v)` (41 R145). -/
def wrDI (v : Word) (s : State) : TxResult :=
  let written := { s with di := v }
  if locked s then .done s
  else
    match mode s with
    | .off | .idle | .read | .pgHv => .done written
    | _ => .violated (.protocolViolation .diWrite (mode s) (mode s)) (violate .diWrite s.cmd s.cmd written)

/-- `RdDO()` (41 R147). Reading a word outside the bank has no meaning in the spec (93 U20). -/
def rdDO (s : State) : Except Refusal (Word × State) :=
  if mode s ≠ .read then .ok (draw s)
  else if s.doStale ≠ 0 then .ok (draw { s with doStale := s.doStale - 1 })
  else if bankSize s.cfg (bankOf s.cmd) ≤ (wordAddr s.adr).toNat then .error (.arrayRange (bankOf s.cmd) s.adr)
  else .ok (memRead (bankOf s.cmd) s.adr s)

/-- `WrCache(v)` where the register exists (47 R236): only `MODE` is stored. -/
def wrCache (v : Word) (s : State) : State := { s with cacheMode := v.setWidth 2 }

/-- `RdCache()` where the register exists (47 R236). -/
def rdCache (s : State) : Word := s.cacheMode.setWidth 32

/-! ### A host's transactions -/

/-- A host's register write: held while `BUSY` (41 R146), else the transaction's own effect. A violation is an
effect too (41 R166): the host gets no response, `FAULTED` is set. -/
def hostWrite (i : Instr) (tx : State → TxResult) (s : State) : Host.Outcome State Fault Refusal :=
  if s.busy then hold i s
  else
    match tx s with
    | .done t => .next t
    | .violated _ t => .next t
    | .refused r => .refused r

/-- A host's register read: held while `BUSY` (41 R146), else the value is put on the bus. -/
def hostRead (i : Instr) (tx : State → Except Refusal (Word × State)) (s : State) :
    Host.Outcome State Fault Refusal :=
  if s.busy then hold i s
  else
    match tx s with
    | .ok (v, t) => .next { t with rdata := v }
    | .error r => .refused r

end Sys2Proof.Machine
end

