-- ==== Sys2Proof/Machine/Micro.lean ====
section
/-!
DEFINITION. The micro-programs of spec 42 to 47 as lists of lines (10 R27). A line is an action that falls through
to the next line, or a branch. Line numbers count from 0 inside each operation; the comments give the spec's own
numbers. A condition the spec writes in front of a register write is a line of its own: DEDUCED,
notes/assumptions/23.md.
-/

namespace Sys2Proof.Machine

/-- The address a `WrAdr` line writes. -/
inductive AdrSrc where
  /-- `ADDR`. -/
  | operand
  /-- `ADDR & ~3` (42 R182, R183). -/
  | word
  /-- `page(ADDR) | (SEC << 2)` (43 R192). -/
  | pageSector
  /-- `SEC << 2` (43 R194). -/
  | sector
  deriving DecidableEq, Repr, Inhabited

/-- A line that falls through. -/
inductive Act where
  /-- `WrKey(KEY_UNLOCK)` (41 R168). -/
  | unlock
  /-- `WrKey(0)` (41 R169). -/
  | lock
  /-- `DSH <- RdCmd() & DELAY_MASK` (41 R170). -/
  | readDelay
  /-- `CSH <- DSH | CON | (IFREN if bank = Info)` (41 R170). -/
  | shadow
  /-- `CSH <- DSH | CON | (IFREN if bank = AllBanks)` (43 R194). -/
  | shadowMass
  /-- `WrCmd(CSH | <drive bits>)`. -/
  | wrCmd (d : Drive)
  /-- `WrCmd(DSH)` (43 R192 line 16). -/
  | release
  | wrAdr (a : AdrSrc)
  /-- `WrDI(DATA)`. -/
  | wrDI
  /-- `WrDI(0)` (43 R192 line 6). -/
  | wrDIZero
  /-- `RdDO()`, the value discarded. -/
  | discard
  /-- `RES <- RdDO()`. -/
  | sample
  | delay (t : TimingName)
  | carveHalf
  | carveByte
  /-- Line 13 of 44 R204. -/
  | mergeHalf
  /-- Line 13 of 44 R203. -/
  | mergeByte
  /-- `SEC <- s0(bank)` (43 R192 line 0). -/
  | firstSector
  /-- `SEC <- 0` (43 R194 line 0). -/
  | sectorZero
  /-- `IDX <- 0`. -/
  | indexZero
  /-- `RUN <- none; IDX <- 0` (45 R211 line 5). -/
  | burstStart
  /-- `ADDR <- AVEC[IDX]; DATA <- DVEC[IDX]` (45 R211 line 6). -/
  | loadPair
  /-- `RUN <- none` (45 R213 line 5). -/
  | closeRun
  /-- `CSH <- (RdCmd() & ~DELAY_MASK) | DATA in the DELAY field` (47 R239 line 2). -/
  | latencyShadow
  /-- `RES <- DELAY field of RdCmd()` (47 R240). -/
  | latencyResult
  /-- `WrCache(DATA)` (47 R237). -/
  | setMode
  /-- `RES <- RdCache()` (47 R238). -/
  | getMode
  /-- `MappedRead(CACHE_REFRESH_BASE + IDX * CACHE_REFRESH_STRIDE)`, discarded (47 R235 line 1). -/
  | refreshRead
  /-- The stale entries are dropped (47 R235 line 3). -/
  | refreshDone
  deriving DecidableEq, Repr, Inhabited

/-- A line that decides where the micro-program goes on. -/
inductive Branch where
  /-- `if Protected: WrKey(0), end` (44 R201 line 0). -/
  | protectedEnd
  /-- `SEC <- SEC + 1; if SEC < 4: UPC <- loop` (43 R192 line 15). -/
  | nextSector (loop : Nat)
  /-- `if BANK = AllBanks and MASS_THEN_PAGE: BANK <- Info; ADDR <- 0`, else end (43 R195). -/
  | thenPage
  /-- `RVEC[IDX] <- RES; IDX <- IDX + 1; if IDX < LEN: UPC <- loop` (42 R185). -/
  | storeElement (loop : Nat)
  /-- `if Protected(bank, ADDR): UPC <- skip` (45 R211 line 7). -/
  | protectedSkip (skip : Nat)
  /-- The three cases of 45 R211 line 8: same run, another run open, none open. -/
  | runCase (same other fresh : Nat)
  /-- `RUN <- some(row(a))`, then the pulse (45 R212 line 7). -/
  | openRun (pulse : Nat)
  /-- `IDX <- IDX + 1; if IDX < LEN: UPC <- loop` (45 R211 line 10). -/
  | nextPair (loop : Nat)
  /-- `if RUN != none: CloseRun` (45 R211 line 11). -/
  | ifRunOpen (lock : Nat)
  /-- `IDX <- IDX + 1; if IDX < N: UPC <- loop` (47 R235 line 2). -/
  | nextRefresh (loop : Nat)
  deriving DecidableEq, Repr, Inhabited

/-- One line of a micro-program. -/
inductive Line where
  | act (a : Act)
  | branch (b : Branch)
  deriving DecidableEq, Repr, Inhabited

/-- `ReadSeq` (42 R180), lines 1 to 12. -/
def readSeq : List Line :=
  [.act .unlock, .act .readDelay, .act .shadow, .act (.wrCmd .none), .act (.wrAdr .word), .act (.wrCmd .read),
   .act .discard, .act .discard, .act .discard, .act .sample, .act (.wrCmd .none), .act .lock]

/-- `ProgSeq` (44 R200), lines 1 to 18. -/
def progSeq : List Line :=
  [.act .unlock, .act .readDelay, .act .shadow, .act (.wrCmd .none), .act (.wrAdr .operand), .act .wrDI,
   .act (.wrCmd .progSetup), .act (.delay .nvs), .act (.wrCmd .progHv), .act (.delay .pgs), .act (.wrCmd .pulse),
   .act (.delay .prog), .act (.wrCmd .progHv), .act (.wrCmd .hold), .act (.delay .nvh), .act (.wrCmd .none),
   .act (.delay .rcv), .act .lock]

/-- `program_word` (44 R201), lines 0 to 18. -/
def programWordSeq : List Line := .branch .protectedEnd :: progSeq

/-- The sector loop and the end of `erase_page` (43 R192), lines 0 to 18; `start` is the line number of line 0
in the operation it stands in. -/
def erasePageSeq (start : Nat) : List Line :=
  [.act .firstSector, .act .unlock, .act .readDelay, .act .shadow, .act (.wrCmd .none), .act (.wrAdr .pageSector),
   .act .wrDIZero, .act (.wrCmd .eraseSetup), .act (.delay .nvs), .act (.wrCmd .eraseHv), .act (.delay .erase),
   .act (.wrCmd .hold), .act (.delay .nvh), .act (.wrCmd .none), .act (.delay .rcv), .branch (.nextSector (start + 1)),
   .act .release, .act .lock, .act (.delay .hv)]

/-- `mass_erase` (43 R194), lines 0 to 18. -/
def massEraseSeq : List Line :=
  [.act .sectorZero, .act .unlock, .act .readDelay, .act .shadowMass, .act (.wrCmd .none), .act (.wrAdr .sector),
   .act .wrDIZero, .act (.wrCmd .massSetup), .act (.delay .nvs), .act (.wrCmd .massHv), .act (.delay .me),
   .act (.wrCmd .massHold), .act (.delay .nvh1), .act (.wrCmd .none), .act (.delay .rcv), .branch (.nextSector 1),
   .act .release, .act .lock, .act (.delay .hv)]

/-- `CloseRun` (45 R213). -/
def closeRunSeq : List Line :=
  [.act (.wrCmd .hold), .act (.delay .nvh), .act (.wrCmd .none), .act (.delay .rcv), .act .closeRun]

/-- `program_array` (45 R211) with `OpenRun` (R212) and `Pulse` (R214). -/
def programArraySeq : List Line :=
  [.act .unlock, .act .readDelay, .act .shadow, .act (.wrCmd .none), .act .burstStart,   -- 0 to 4: lines 1 to 5
   .act .loadPair, .branch (.protectedSkip 25), .branch (.runCase 20 8 13)]              -- 5 to 7: lines 6 to 8
  ++ closeRunSeq                                                                         -- 8 to 12
  ++ [.act (.wrAdr .operand), .act .wrDI, .act (.wrCmd .progSetup), .act (.delay .nvs),  -- 13 to 19: OpenRun
      .act (.wrCmd .progHv), .act (.delay .pgs), .branch (.openRun 22),
      .act (.wrAdr .operand), .act .wrDI,                                                -- 20, 21: the same run
      .act (.wrCmd .pulse), .act (.delay .prog), .act (.wrCmd .progHv),                  -- 22 to 24: Pulse
      .branch (.nextPair 5), .branch (.ifRunOpen 32)]                                    -- 25, 26: lines 10, 11
  ++ closeRunSeq                                                                         -- 27 to 31
  ++ [.act .lock]                                                                        -- 32: line 12

/-- The micro-program of each operation (10 R27). -/
def program : Opcode → List Line
  | .readWord => readSeq
  | .readHalfWord => readSeq ++ [.act .carveHalf]
  | .readByte => readSeq ++ [.act .carveByte]
  | .readArray => .act .indexZero :: readSeq ++ [.branch (.storeElement 1)]
  | .programWord => programWordSeq
  | .programHalfWord => readSeq ++ .act .mergeHalf :: programWordSeq
  | .programByte => readSeq ++ .act .mergeByte :: programWordSeq
  | .programArray => programArraySeq
  | .erasePage => erasePageSeq 0
  | .eraseAllPages => massEraseSeq ++ .branch .thenPage :: erasePageSeq 20
  | .setLatency => [.act .unlock, .act .latencyShadow, .act (.wrCmd .none), .act .lock]
  | .getLatency => [.act .latencyResult]
  | .updateCache => [.act .indexZero, .act .refreshRead, .branch (.nextRefresh 1), .act .refreshDone]
  | .setCacheMode => [.act .setMode]
  | .getCacheMode => [.act .getMode]

end Sys2Proof.Machine
end

