-- ==== Sys2Proof/Machine/Sequencer.lean ====
section
/-!
DEFINITION. The sequencer: what each line does, one micro-operation per step (10 R27), the acceptance of a request
with the request checker (30 R104, 60 R263), and an operation run as long as no other agent takes a turn.
-/

namespace Sys2Proof.Machine

/-- What a falling-through line does. -/
inductive ActResult where
  | go (s : State)
  | held
  | violated (f : FaultInfo) (s : State)
  | refused (r : Refusal)
  deriving Repr

/-- Where a branch goes. -/
inductive BranchResult where
  | next (s : State)
  | to (line : Nat) (s : State)
  | stop (s : State)
  deriving Repr

/-- Change the latches. -/
def setLat (s : State) (l : Latches) : State := { s with lat := l }

/-- A register write inside a micro-program. -/
def actTx : TxResult → ActResult
  | .done s => .go s
  | .violated f s => .violated f s
  | .refused r => .refused r

/-- The address of a `WrAdr` line. -/
def adrOf (s : State) : AdrSrc → Word
  | .operand => s.lat.addr
  | .word => wordAddr s.lat.addr
  | .pageSector => eraseAddr s.lat.addr s.lat.sec
  | .sector => s.lat.sec.setWidth 32 <<< 2

/-- How many throwaway reads `update_cache` makes (47 R235 line 0). `CacheCtrl.MODE` cannot change while `BUSY`,
so the number is the same at every line: DEDUCED, notes/assumptions/24.md. -/
def refreshCount (s : State) : Nat := if s.cfg.hasCacheCtrl ∧ s.cacheMode ≠ 0#2 then 40 else 5

/-- The offset of the current throwaway read (47 R235 line 1). -/
def refreshOffset (s : State) : Word :=
  s.cfg.cacheRefreshBase + s.lat.idx.setWidth 32 * s.cfg.cacheRefreshStride

/-- `Delay(T)` (40 R134): the counter is loaded and runs down while the time passes; afterwards it holds nothing a
rule fixes (40 R137), a free value. That it is the same one until the next draw is a DESIGN CHOICE,
notes/assumptions/4.md. -/
def delayFor (t : TimingName) (s : State) : State :=
  { advance s (timingUs s.cfg t) with counts := { s.counts with dcnt := Config.idleCount s.draws } }

/-- What a line that falls through does. -/
def runAct (a : Act) (s : State) : ActResult :=
  match a with
  | .unlock => .go (wrKey s.cfg.keyUnlock s)
  | .lock => .go (wrKey 0#32 s)
  | .readDelay => .go (setLat s { s.lat with dsh := delayOnly s.cmd })
  | .shadow => .go (setLat s { s.lat with csh := shadowOf s.lat.dsh (s.lat.bank == .info) })
  | .shadowMass => .go (setLat s { s.lat with csh := shadowOf s.lat.dsh (s.lat.bank == .allBanks) })
  | .wrCmd d => actTx (wrCmd (withDrive s.lat.csh d) s)
  | .release => actTx (wrCmd s.lat.dsh s)
  | .wrAdr a => actTx (wrAdr (adrOf s a) s)
  | .wrDI => actTx (wrDI s.lat.data s)
  | .wrDIZero => actTx (wrDI 0#32 s)
  | .discard =>
    match rdDO s with
    | .ok (_, t) => .go t
    | .error r => .refused r
  | .sample =>
    match rdDO s with
    | .ok (v, t) => .go (setLat t { t.lat with res := v })
    | .error r => .refused r
  | .delay t => .go (delayFor t s)
  | .carveHalf => .go (setLat s { s.lat with res := carveHalf s.lat.res s.lat.addr })
  | .carveByte => .go (setLat s { s.lat with res := carveByte s.lat.res s.lat.addr })
  | .mergeHalf =>
    .go (setLat s { s.lat with data := mergeHalf s.lat.res s.lat.addr s.lat.data, addr := wordAddr s.lat.addr })
  | .mergeByte =>
    .go (setLat s { s.lat with data := mergeByte s.lat.res s.lat.addr s.lat.data, addr := wordAddr s.lat.addr })
  | .firstSector => .go (setLat s { s.lat with sec := firstSector s.cfg s.lat.bank })
  | .sectorZero => .go (setLat s { s.lat with sec := 0#3 })
  | .indexZero => .go (setLat s { s.lat with idx := 0#16, rvec := [] })
  | .burstStart => .go (setLat s { s.lat with run := none, idx := 0#16 })
  | .loadPair =>
    .go (setLat s { s.lat with
      addr := (s.lat.avec[s.lat.idx.toNat]?).getD 0#32
      data := (s.lat.dvec[s.lat.idx.toNat]?).getD 0#32 })
  | .closeRun => .go (setLat s { s.lat with run := none })
  | .latencyShadow => .go (setLat s { s.lat with csh := { s.cmd with delay := s.lat.data.setWidth 8 } })
  | .latencyResult => .go (setLat s { s.lat with res := s.cmd.delay.setWidth 32 })
  | .setMode => .go (wrCache s.lat.data s)
  | .getMode => .go (setLat s { s.lat with res := rdCache s })
  | .refreshRead =>
    if stalled s then .held
    else if s.cfg.mainSize ≤ (refreshOffset s).toNat then .refused (.mappedRange (refreshOffset s))
    else .go (mappedRead (refreshOffset s) s).2
  | .refreshDone => .go { s with cache := freshEntries s }

/-- Where a branch goes. -/
def runBranch (b : Branch) (s : State) : BranchResult :=
  match b with
  | .protectedEnd => if isProtected s.cfg s.lat.bank s.lat.addr then .stop (wrKey 0#32 s) else .next s
  | .nextSector loop =>
    let s := setLat s { s.lat with sec := s.lat.sec + 1#3 }
    if s.lat.sec < 4#3 then .to loop s else .next s
  | .thenPage =>
    if s.lat.bank = .allBanks ∧ s.cfg.massThenPage = true then
      .next (setLat s { s.lat with bank := .info, addr := 0#32 })
    else .stop s
  | .storeElement loop =>
    let idx := s.lat.idx + 1#16
    let s := setLat s { s.lat with
      rvec := s.lat.rvec ++ [s.lat.res]
      idx := idx
      addr := (s.lat.avec[idx.toNat]?).getD s.lat.addr }
    if idx < s.lat.len then .to loop s else .next s
  | .protectedSkip skip => if isProtected s.cfg s.lat.bank s.lat.addr then .to skip s else .next s
  | .runCase same other fresh =>
    match s.lat.run with
    | some r => if r = rowOf s.lat.addr then .to same s else .to other s
    | none => .to fresh s
  | .openRun pulse => .to pulse (setLat s { s.lat with run := some (rowOf s.lat.addr) })
  | .nextPair loop =>
    let s := setLat s { s.lat with idx := s.lat.idx + 1#16 }
    if s.lat.idx < s.lat.len then .to loop s else .next s
  | .ifRunOpen lock => if s.lat.run.isSome then .next s else .to lock s
  | .nextRefresh loop =>
    let s := setLat s { s.lat with idx := s.lat.idx + 1#16 }
    if s.lat.idx.toNat < refreshCount s then .to loop s else .next s

/-- The result words of a completed operation (30 R105). -/
def results (s : State) : List Word :=
  match s.lat.op with
  | .readByte | .readHalfWord | .readWord | .getLatency | .getCacheMode => [s.lat.res]
  | .readArray => s.lat.rvec
  | .programByte | .programHalfWord | .programWord | .programArray | .erasePage | .eraseAllPages
  | .setLatency | .updateCache | .setCacheMode => []

/-- The operation completes: status 0 and its result words (30 R105). -/
def finish (s : State) : State := respond { status := 0#32, results := results s } s

/-- Go to a line of an operation; past the last line the operation completes in the same step (10 R28). -/
def goLine (op : Opcode) (line : Nat) (s : State) : State :=
  if line < (program op).length then { s with upc := .at op line } else finish s

/-- One step of the sequencer (10 R27). A held mapped read has no step; a violation (which no micro-program
raises, 70 R296) ends the operation as 60 R262 says. -/
def seqStep (s : State) : Host.Outcome State Fault Refusal :=
  match s.upc with
  | .idle => .next s
  | .at op line =>
    match (program op)[line]? with
    | none => .fault .upcOutside
    | some (.act a) =>
      match runAct a s with
      | .go t => .next (goLine op (line + 1) t)
      | .held => .next s
      | .violated f t => .next (raiseFault f t)
      | .refused r => .refused r
    | some (.branch b) =>
      match runBranch b s with
      | .next t => .next (goLine op (line + 1) t)
      | .to n t => .next (goLine op n t)
      | .stop t => .next (finish t)

/-- At most `n` steps of the sequencer, ending where `BUSY` clears. -/
def runSeq : Nat → State → Host.Outcome State Fault Refusal
  | 0, s => .next s
  | n + 1, s =>
    if s.busy then
      match seqStep s with
      | .next t => runSeq n t
      | .fault f => .fault f
      | .refused r => .refused r
    else .next s

/-- More steps than any micro-program has with `LEN` elements: its lines, taken once for each element, each
sector and each throwaway read. -/
def stepBound (s : State) : Nat := 33 * (s.lat.len.toNat + 41)

/-! ### Acceptance and the request checker -/

/-- The operand words of a request, as acceptance puts them into the latches (30 R104). -/
structure Request where
  op   : Opcode
  bank : BankSel := .main
  addr : Word := 0#32
  data : Word := 0#32
  len  : Nat := 0
  avec : List Word := []
  dvec : List Word := []
  deriving DecidableEq, Repr, Inhabited

/-- Acceptance (30 R104): `BUSY`, the operand latches, the timing profile with the clock sampled once (40 R132). A latch
whose operand the operation does not have takes zero or is empty: DESIGN CHOICE, notes/assumptions/37.md. The
response of the operation before is gone: DESIGN CHOICE, notes/assumptions/25.md. -/
def accept (q : Request) (s : State) : State :=
  { s with
    busy := true
    lat := { s.lat with
      op := q.op, bank := q.bank, addr := q.addr, data := q.data, len := BitVec.ofNat 16 q.len
      avec := q.avec, dvec := q.dvec }
    counts := countsOf s.cfg s.coreClkHz s.counts.dcnt
    resp := none }

/-- The first violation of a list in the checker's order (60 R263). -/
def firstViolation : List (Option FaultInfo) → Option FaultInfo
  | [] => none
  | some f :: _ => some f
  | none :: fs => firstViolation fs

/-- `Unsupported` (60 R260). -/
def checkSupported (s : State) (op : Opcode) : Option FaultInfo :=
  if s.cfg.hasCacheCtrl then none else some (.unsupported op)

/-- `InvalidBank` for an operation on one bank (60 R253, 30 R107). -/
def checkOneBank (b : BankSel) : Option FaultInfo := if b = .main ∨ b = .info then none else some (.invalidBank b)

/-- `InvalidBank` for `erase_all_pages` (60 R253). -/
def checkEraseBank (b : BankSel) : Option FaultInfo :=
  if b = .main ∨ b = .allBanks then none else some (.invalidBank b)

/-- `ValueRange` for an operand of a width (60 R259). -/
def checkBelow (v : Word) (bound : Nat) : Option FaultInfo := if v.toNat < bound then none else some (.valueRange v)

/-- `Misaligned`, the lowest element index first (60 R251, R263). -/
def checkAligned (mask : Word) (as : List Word) : Option FaultInfo :=
  (as.findIdx? fun a => a &&& mask != 0#32).map .misaligned

/-- `AddressRange`, the lowest element index first (60 R254, 20 R71). -/
def checkRange (s : State) (b : BankSel) (width : Nat) (as : List Word) : Option FaultInfo :=
  (as.findIdx? fun a => bankSize s.cfg (arrayBank b) < a.toNat + width).map .addressRange

/-- `AddressRange` for `erase_page`: the page base must be inside the bank (20 R71). -/
def checkPage (s : State) (b : BankSel) (a : Word) : Option FaultInfo :=
  if (pageOf a).toNat < bankSize s.cfg (arrayBank b) then none else some (.addressRange 0)

/-- `IllegalRequest` for a `LEN` above `MAX_LEN`, and `EmptyArray` (60 R255, R252). -/
def checkMaxLen (s : State) (n : Nat) (h : Word) : Option FaultInfo :=
  if n ≤ s.cfg.maxLen then none else some (.illegalRequest h)

/-- `EmptyArray` (60 R252). -/
def checkNonEmpty (n : Nat) : Option FaultInfo := if n = 0 then some .emptyArray else none

/-- `ClockRange`, the last check (60 R256, R263). Of several counts out of range the first in the order of 00 R7 is
recorded: DESIGN CHOICE, notes/assumptions/38.md. -/
def checkClock (s : State) : Option FaultInfo :=
  (timingNames.find? fun t => !countInRange s.cfg s.coreClkHz t).map .clockRange

/-- A request (30 R104): held while `BUSY`; accepted and judged; then the micro-program from its first line. The
operation runs to its end in this step unless `sched` holds a turn of some agent, which then decides who moves
(notes/assumptions/8.md). A violation is taken as a fault (60 R262), or refused without `CHECK_PARAMS` (R257). -/
def request (i : Instr) (q : Request) (checks : List (Option FaultInfo)) (s : State) :
    Host.Outcome State Fault Refusal :=
  if s.busy then hold i s
  else
    match firstViolation (checks ++ [checkClock s]) with
    | some f => if s.cfg.checkParams then .next (raiseFault f (accept q s)) else .refused (.uncheckedViolation f)
    | none =>
      let t := { accept q s with upc := .at q.op 0 }
      if s.sched.isEmpty then runSeq (stepBound t) t else .next t

/-- A header that is no operation (60 R255): held while `BUSY`, else accepted and judged like any request. -/
def illegalRequest (tx : PortTx) (h : Word) (s : State) : Host.Outcome State Fault Refusal :=
  if s.busy then .next { s with port := tx :: s.port }
  else if s.cfg.checkParams then
    .next (raiseFault (.illegalRequest h)
      { s with counts := countsOf s.cfg s.coreClkHz s.counts.dcnt, resp := none })
  else .refused (.uncheckedViolation (.illegalRequest h))

end Sys2Proof.Machine
end

