-- ==== Sys2Proof/Machine/CacheLatency.lean ====
section
/-!
DEFINITION. The latency and cache operations and the mapped read (spec 47).
-/

namespace Sys2Proof.Machine

/-- `set_latency` (47 R239): `CYCLES` fits the Delay-Cycles field. -/
def execSetLatency (cycles : Word) (s : State) : Host.Outcome State Fault Refusal :=
  request (.setLatency cycles) { op := .setLatency, data := cycles }
    [checkBelow cycles (2 ^ s.cfg.layout.delayW)] s

/-- `get_latency` (47 R240). -/
def execGetLatency (s : State) : Host.Outcome State Fault Refusal := request .getLatency { op := .getLatency } [] s

/-- `update_cache` (47 R235). -/
def execUpdateCache (s : State) : Host.Outcome State Fault Refusal := request .updateCache { op := .updateCache } [] s

/-- `set_cache_mode` (47 R237): only with the register; `MODE` is 0 to 3. -/
def execSetCacheMode (m : Word) (s : State) : Host.Outcome State Fault Refusal :=
  request (.setCacheMode m) { op := .setCacheMode, data := m } [checkSupported s .setCacheMode, checkBelow m 4] s

/-- `get_cache_mode` (47 R238): only with the register. -/
def execGetCacheMode (s : State) : Host.Outcome State Fault Refusal :=
  request .getCacheMode { op := .getCacheMode } [checkSupported s .getCacheMode] s

/-- What a mapped read answers a host: the value of 47 R231, or a draw once a host has clobbered Delay-Cycles (70 R285:
nothing is known of later mapped reads). -/
def mappedAnswer (offset : Word) (s : State) : Word × State :=
  if s.delayLost then draw (mappedRead offset s).2 else mappedRead offset s

/-- A host's `MappedRead` (47 R231): not arbitrated by `BUSY` (41 R146), held while the mapped path stalls
(47 R241); outside Main or not word aligned it has no meaning. -/
def execMappedRead (offset : Word) (s : State) : Host.Outcome State Fault Refusal :=
  if s.cfg.mainSize ≤ offset.toNat ∨ offset &&& 3#32 ≠ 0#32 then .refused (.mappedRange offset)
  else if stalled s then hold (.mappedRead offset) s
  else .next { (mappedAnswer offset s).2 with rdata := (mappedAnswer offset s).1 }

end Sys2Proof.Machine
end

