-- ==== Sys2Proof/Machine/EraseEngine.lean ====
section
/-!
DEFINITION. The erase engine (spec 43): erase_page and erase_all_pages, the latter over the private mass_erase.
-/

namespace Sys2Proof.Machine

/-- `erase_page` (43 R192): any address inside the page. -/
def execErasePage (bank : BankSel) (addr : Word) (s : State) : Host.Outcome State Fault Refusal :=
  request (.erasePage bank addr) { op := .erasePage, bank := bank, addr := addr }
    [checkOneBank bank, checkPage s bank addr] s

/-- `erase_all_pages` (43 R195): Main, or both banks. -/
def execEraseAllPages (bank : BankSel) (s : State) : Host.Outcome State Fault Refusal :=
  request (.eraseAllPages bank) { op := .eraseAllPages, bank := bank } [checkEraseBank bank] s

end Sys2Proof.Machine
end

