-- ==== Sys2Proof/Machine/ProgramEngine.lean ====
section
/-!
DEFINITION. The program engine (spec 44) and the burst program optimizer (spec 45): program_byte, program_half_word,
program_word, program_array.
-/

namespace Sys2Proof.Machine

/-- `program_byte` (44 R203): never misaligned; `VALUE` has 8 bits. -/
def execProgramByte (bank : BankSel) (addr value : Word) (s : State) : Host.Outcome State Fault Refusal :=
  request (.programByte bank addr value) { op := .programByte, bank := bank, addr := addr, data := value }
    [checkOneBank bank, checkBelow value 0x100, checkRange s bank 1 [addr]] s

/-- `program_half_word` (44 R204): `VALUE` has 16 bits. -/
def execProgramHalfWord (bank : BankSel) (addr value : Word) (s : State) : Host.Outcome State Fault Refusal :=
  request (.programHalfWord bank addr value) { op := .programHalfWord, bank := bank, addr := addr, data := value }
    [checkOneBank bank, checkBelow value 0x10000, checkAligned 1#32 [addr], checkRange s bank 2 [addr]] s

/-- `program_word` (44 R201). -/
def execProgramWord (bank : BankSel) (addr value : Word) (s : State) : Host.Outcome State Fault Refusal :=
  request (.programWord bank addr value) { op := .programWord, bank := bank, addr := addr, data := value }
    [checkOneBank bank, checkAligned 3#32 [addr], checkRange s bank 4 [addr]] s

/-- `program_array` (45 R211). `ADDR` takes the first element's address (30 R104). -/
def execProgramArray (bank : BankSel) (pairs : List (Word × Word)) (s : State) :
    Host.Outcome State Fault Refusal :=
  request (.programArray bank pairs)
    { op := .programArray, bank := bank, addr := ((pairs.map (·.1))[0]?).getD 0#32, len := pairs.length
      avec := pairs.map (·.1), dvec := pairs.map (·.2) }
    [checkMaxLen s pairs.length (header .programArray bank pairs.length), checkOneBank bank,
     checkNonEmpty pairs.length, checkAligned 3#32 (pairs.map (·.1)), checkRange s bank 4 (pairs.map (·.1))] s

end Sys2Proof.Machine
end

