-- ==== Sys2Proof/Machine/ReadEngine.lean ====
section
/-!
DEFINITION. The read engine (spec 42): read_word, read_half_word, read_byte, read_array. Each is its request, with
its own checks in the checker's order; what it does is its micro-program.
-/

namespace Sys2Proof.Machine

/-- `read_byte` (42 R183): never misaligned. -/
def execReadByte (bank : BankSel) (addr : Word) (s : State) : Host.Outcome State Fault Refusal :=
  request (.readByte bank addr) { op := .readByte, bank := bank, addr := addr }
    [checkOneBank bank, checkRange s bank 1 [addr]] s

/-- `read_half_word` (42 R182). -/
def execReadHalfWord (bank : BankSel) (addr : Word) (s : State) : Host.Outcome State Fault Refusal :=
  request (.readHalfWord bank addr) { op := .readHalfWord, bank := bank, addr := addr }
    [checkOneBank bank, checkAligned 1#32 [addr], checkRange s bank 2 [addr]] s

/-- `read_word` (42 R181). -/
def execReadWord (bank : BankSel) (addr : Word) (s : State) : Host.Outcome State Fault Refusal :=
  request (.readWord bank addr) { op := .readWord, bank := bank, addr := addr }
    [checkOneBank bank, checkAligned 3#32 [addr], checkRange s bank 4 [addr]] s

/-- `read_array` (42 R185). `ADDR` takes the first element's address (30 R104). -/
def execReadArray (bank : BankSel) (addrs : List Word) (s : State) : Host.Outcome State Fault Refusal :=
  request (.readArray bank addrs)
    { op := .readArray, bank := bank, addr := (addrs[0]?).getD 0#32, len := addrs.length, avec := addrs }
    [checkMaxLen s addrs.length (header .readArray bank addrs.length), checkOneBank bank,
     checkNonEmpty addrs.length, checkAligned 3#32 addrs, checkRange s bank 4 addrs] s

end Sys2Proof.Machine
end

