-- ==== Sys2Proof/Machine/RegisterPort.lean ====
section
/-!
DEFINITION. A host's register transactions (spec 41, 30 R113), each over the shared operations of Registers.lean.
-/

namespace Sys2Proof.Machine

/-- `WrCmd(v)` (41 R142): reserved bits of `v` are ignored; a change of Delay-Cycles is noted (70 R285). -/
def execWrCmd (v : Word) (s : State) : Host.Outcome State Fault Refusal :=
  hostWrite (.wrCmd v) (fun s => wrCmd (unpackCmd s.cfg.layout v) (noteDelay (unpackCmd s.cfg.layout v) s)) s

/-- `RdCmd()` (41 R143): reserved bits read 0. -/
def execRdCmd (s : State) : Host.Outcome State Fault Refusal :=
  hostRead .rdCmd (fun s => .ok (packCmd s.cfg.layout s.cmd, s)) s

/-- `WrAdr(v)` (41 R144). -/
def execWrAdr (v : Word) (s : State) : Host.Outcome State Fault Refusal := hostWrite (.wrAdr v) (wrAdr v) s

/-- A read of `Adr`: a draw (41 R149). -/
def execRdAdr (s : State) : Host.Outcome State Fault Refusal := hostRead .rdAdr (fun s => .ok (draw s)) s

/-- `WrDI(v)` (41 R145). -/
def execWrDI (v : Word) (s : State) : Host.Outcome State Fault Refusal := hostWrite (.wrDI v) (wrDI v) s

/-- A read of `DI`: a draw (41 R149). -/
def execRdDI (s : State) : Host.Outcome State Fault Refusal := hostRead .rdDI (fun s => .ok (draw s)) s

/-- `RdDO()` (41 R147). -/
def execRdDO (s : State) : Host.Outcome State Fault Refusal := hostRead .rdDO rdDO s

/-- A write to `DO` is ignored (41 R149). -/
def execWrDO (v : Word) (s : State) : Host.Outcome State Fault Refusal := hostWrite (.wrDO v) .done s

/-- `WrKey(v)` (41 R140). -/
def execWrKey (v : Word) (s : State) : Host.Outcome State Fault Refusal :=
  hostWrite (.wrKey v) (fun s => .done (wrKey v s)) s

/-- `RdKey()` (41 R148). -/
def execRdKey (s : State) : Host.Outcome State Fault Refusal := hostRead .rdKey (fun s => .ok (s.key, s)) s

/-- `WrCache(v)` (47 R236). Without the register the access is outside the block (10 R36): it is refused at once, also
while `BUSY`, notes/assumptions/26.md. -/
def execWrCache (v : Word) (s : State) : Host.Outcome State Fault Refusal :=
  if s.cfg.hasCacheCtrl then hostWrite (.wrCache v) (fun s => .done (wrCache v s)) s else .refused .noCacheCtrl

/-- `RdCache()` (47 R236); without the register as `execWrCache`. -/
def execRdCache (s : State) : Host.Outcome State Fault Refusal :=
  if s.cfg.hasCacheCtrl then hostRead .rdCache (fun s => .ok (rdCache s, s)) s else .refused .noCacheCtrl

end Sys2Proof.Machine
end

