-- ==== Sys2Proof/Machine/Dispatch.lean ====
section
/-!
DEFINITION. One arm per instruction, each a call of that instruction's meaning.
-/

namespace Sys2Proof.Machine

/-- The meaning of an instruction. -/
def exec (i : Instr) (s : State) : Host.Outcome State Fault Refusal :=
  match i with
  | .readByte bank addr => Sys2Proof.Machine.execReadByte bank addr s
  | .readHalfWord bank addr => Sys2Proof.Machine.execReadHalfWord bank addr s
  | .readWord bank addr => Sys2Proof.Machine.execReadWord bank addr s
  | .readArray bank addrs => Sys2Proof.Machine.execReadArray bank addrs s
  | .programByte bank addr value => Sys2Proof.Machine.execProgramByte bank addr value s
  | .programHalfWord bank addr value => Sys2Proof.Machine.execProgramHalfWord bank addr value s
  | .programWord bank addr value => Sys2Proof.Machine.execProgramWord bank addr value s
  | .programArray bank pairs => Sys2Proof.Machine.execProgramArray bank pairs s
  | .erasePage bank addr => Sys2Proof.Machine.execErasePage bank addr s
  | .eraseAllPages bank => Sys2Proof.Machine.execEraseAllPages bank s
  | .setLatency cycles => Sys2Proof.Machine.execSetLatency cycles s
  | .getLatency => Sys2Proof.Machine.execGetLatency s
  | .updateCache => Sys2Proof.Machine.execUpdateCache s
  | .setCacheMode m => Sys2Proof.Machine.execSetCacheMode m s
  | .getCacheMode => Sys2Proof.Machine.execGetCacheMode s
  | .wrCmd v => Sys2Proof.Machine.execWrCmd v s
  | .rdCmd => Sys2Proof.Machine.execRdCmd s
  | .wrAdr v => Sys2Proof.Machine.execWrAdr v s
  | .rdAdr => Sys2Proof.Machine.execRdAdr s
  | .wrDI v => Sys2Proof.Machine.execWrDI v s
  | .rdDI => Sys2Proof.Machine.execRdDI s
  | .rdDO => Sys2Proof.Machine.execRdDO s
  | .wrDO v => Sys2Proof.Machine.execWrDO v s
  | .wrKey v => Sys2Proof.Machine.execWrKey v s
  | .rdKey => Sys2Proof.Machine.execRdKey s
  | .wrCache v => Sys2Proof.Machine.execWrCache v s
  | .rdCache => Sys2Proof.Machine.execRdCache s
  | .mappedRead offset => Sys2Proof.Machine.execMappedRead offset s

end Sys2Proof.Machine
end

