-- ==== Sys2Proof/Machine/Events.lean ====
section
/-!
DEFINITION. The events that are no instruction: Reset (70 R281), a transaction that decodes to none, and what the
other agents do in their turns.
-/

namespace Sys2Proof.Machine

/-- Whether the transaction a host has in front is held (41 R146, 30 R104, a mapped read by the stall of 47 R241). One that is refused at once is
not: an access outside the block (notes/assumptions/26.md), a descriptor that is no request (28.md). -/
def heldTx (s : State) (i : Except DecodeError Instr) : Bool :=
  match i with
  | .ok (.mappedRead _) => stalled s
  | .ok _ | .error (.illegalHeader _) => s.busy
  | .error _ => false

/-- Reset drops a held transaction (70 R281). That this includes a stalled mapped read, which R281 does not name, is a
DESIGN CHOICE, notes/assumptions/22.md. -/
def dropHeld (s : State) : List PortTx :=
  match s.port with
  | [] => []
  | tx :: rest => if heldTx s (decode s.cfg tx) then rest else tx :: rest

/-- The `Reset` event (70 R281): the cells of R283 become indeterminate, every register takes its reset value,
the latches and counts hold nothing a rule fixes, the array otherwise stays. The inputs stay as they are. -/
def resetEvent (s : State) : State :=
  let a := abandon s.cmd.nvstr s
  { State.resetWith s.cfg s.coreClkHz with
    main := a.main
    info := a.info
    lat := Config.freeLatches s.draws
    counts := Config.freeCounts s.draws
    rdata := s.rdata
    port := dropHeld s
    sched := s.sched
    fillPlan := s.fillPlan
    draws := s.draws + 1 }

/-- A transaction that is no instruction: an illegal header is the fault `IllegalRequest` (60 R255); the rest has
no meaning in the spec (20 R72, 30 R103) and is refused at once, also while `BUSY` (notes/assumptions/26.md, 28.md). -/
def reject (tx : PortTx) (e : DecodeError) (s : State) : Host.Outcome State Fault Refusal :=
  match e with
  | .illegalHeader h => illegalRequest tx h s
  | .emptyDescriptor | .descriptorLength _ => .refused .descriptorLength
  | .accessSize => .refused .accessSize
  | .unmapped a => .refused (.unmapped a)

/-- Time passes for a host that waits (70 R289); while an operation runs, only its own delays are counted
(10 R42). -/
def elapse (us : Nat) (s : State) : State := if s.busy then s else advance s us

/-- The clock input changes; during an operation that is outside the admitted domain (40 R132, 93 U22). -/
def clockTo (hz : Nat) (s : State) : Host.Outcome State Fault Refusal :=
  if s.busy then .refused .clockChange else .next { s with coreClkHz := hz }

end Sys2Proof.Machine
end

