-- ==== Sys2Proof/Machine/Step.lean ====
section
/-!
DEFINITION. One step of the machine (00 R9), and the placing of an instruction where the next step takes it.
-/

namespace Sys2Proof.Machine

/-- The host in front is served: its transaction is decoded and executed. With nothing presented the controller
waits (10 R49: "the sequencer waits in IDLE for a request"). -/
def hostStep (s : State) : Host.Outcome State Fault Refusal :=
  match s.port with
  | [] => .next s
  | tx :: rest =>
    match decode s.cfg tx with
    | .ok i => exec i { s with port := rest }
    | .error e => reject tx e { s with port := rest }

/-- A turn of `sched`. -/
def turnStep (t : Turn) (s : State) : Host.Outcome State Fault Refusal :=
  match t with
  | .host => hostStep s
  | .sequencer => seqStep s
  | .reset => .next (resetEvent s)
  | .cacheFill w => .next (cacheFill w s)
  | .cacheEvict w => .next (cacheEvict w s)
  | .elapse us => .next (elapse us s)
  | .clock hz => clockTo hz s

/-- One step. The next turn of `sched` decides which agent moves; with none left the sequencer moves while an
operation runs, and else the host (notes/assumptions/8.md). -/
def step (s : State) : Host.Outcome State Fault Refusal :=
  if configOk s.cfg then
    match s.sched with
    | t :: ts => turnStep t { s with sched := ts }
    | [] => if s.busy then seqStep s else hostStep s
  else .refused .configuration

/-- `s` with the transaction of a table word presented first, and the host's turn next
(notes/assumptions/9.md, 10.md). -/
def State.withFetchWord (s : State) (_nbits w : Nat) : State :=
  { s with
    port := tableTx s.cfg w :: s.port
    sched := if s.sched.isEmpty then [] else .host :: s.sched }

end Sys2Proof.Machine
end

