-- ==== Sys2Proof/Safety.lean ====
section
/-!
DEFINITION. What claims are stated in: the condition between operations (70 R296), the invariants of the state, and
what a claim may read of the array.
-/

namespace Sys2Proof.Machine

/-- The clock is in the domain of 40 R133. -/
def clockOk (s : State) : Bool := timingNames.all fun t => countInRange s.cfg s.coreClkHz t

/-- The condition of 70 R296: no operation runs, the array is in `M_OFF` or `M_IDLE`, nothing is in flight or
latched, and a recovery time that is due has passed. -/
structure Quiescent (s : State) : Prop where
  notBusy : s.busy = false
  atIdle : s.upc = .idle
  mode : mode s = .off ∨ mode s = .idle
  pend : s.pend = none
  xlatch : s.xlatch = none
  recovered : s.rcvDue = true → s.cfg.timing.rcv ≤ s.tRcv

/-- A request is accepted and runs undisturbed: 70 R296's condition, a configuration in the ranges of 00 R8, the
clock in its domain (40 R133), and no other agent's turn scheduled. -/
structure Ready (s : State) : Prop where
  config : configOk s.cfg = true
  clock : clockOk s = true
  noTurns : s.sched = []
  quiet : Quiescent s

/-- No settle time is pending: array reads are reliable (10 R44, 43 R192). -/
def Settled (s : State) : Prop := s.settleDue = true → s.cfg.timing.hv ≤ s.tSettle

/-- The value a word reads as, where it is fixed; else the free value of a counter (20 R62). -/
def wordOr (c : Cell) (n : Nat) : Word :=
  match c with
  | .val v => v
  | .indet => Config.draw n

/-- How many free values reading a cell takes (20 R64). -/
def drawsOf (c : Cell) : Nat :=
  match c with
  | .val _ => 0
  | .indet => 1

/-- Array reads are not reliable yet after an erase (10 R44). -/
def settling (s : State) : Bool := s.settleDue && decide (s.tSettle < s.cfg.timing.hv)

/-- What a read of the array answers (20 R64): the value of the word at `a`, or the `n`-th free value while an erase
settles or where the word is indeterminate. -/
def readValue (s : State) (b : Bank) (a : Word) (n : Nat) : Word :=
  if settling s then Config.draw n else wordOr (cell s b (wordIndex a)) n

/-- How many free values that read takes. -/
def readDraws (s : State) (b : Bank) (a : Word) : Nat :=
  if settling s then 1 else drawsOf (cell s b (wordIndex a))

/-- The selector of a bank (30 R107). -/
def selOf : Bank → BankSel
  | .main => .main
  | .info => .info

/-- The CommandWord an operation on a bank works under, `CSH` (41 R170). -/
def shadowFor (s : State) (b : Bank) : CmdWord := shadowOf (delayOnly s.cmd) (b == .info)

/-- Every byte of the array reads the same in two states. -/
def SameArray (s t : State) : Prop := ∀ b a, byteAt (array t b) a = byteAt (array s b) a

/-- Every byte of the array outside the words that satisfy `p` reads the same in two states. -/
def SameOutside (p : Bank → Nat → Prop) (s t : State) : Prop :=
  ∀ b a, ¬ p b (a / 4) → byteAt (array t b) a = byteAt (array s b) a

/-- The state up to the array: what is left when both banks are put aside. -/
def withoutArray (s : State) : State := { s with main := [], info := [] }

/-- The microseconds a single-word program waits out (44 R200). -/
def programUs (c : Config) : Nat :=
  c.timing.nvs + c.timing.pgs + c.timing.prog + c.timing.nvh + c.timing.rcv

/-- The elements of a `program_array` request that are programmed (46 R222). -/
def unprotectedPairs (c : Config) (b : Bank) (pairs : List (Word × Word)) : List (Word × Word) :=
  pairs.filter fun p => !isProtected c (selOf b) p.1

/-- What word `w` of bank `b` holds after the given data have been programmed in turn (20 R66), given what it held
before. -/
def programmedCell (c : Config) (b : Bank) (pairs : List (Word × Word)) (w : Nat) (pre : Cell) : Cell :=
  pairs.foldl (fun p x => if wordIndex x.1 = w then committed c b w (.program x.2) p else p) pre

/-- `UPC` names a line of its micro-program (10 R27). -/
def upcOk (u : Upc) : Bool :=
  match u with
  | .idle => true
  | .at op line => line < (program op).length

/-- The cell operation in flight names words of its bank, a row by its row address. -/
def pendOk (c : Config) (p : Option Pend) : Bool :=
  match p with
  | none => true
  | some (.progWord b w _ _) => 4 * w < bankSize c b
  | some (.eraseRow b r) => rowOf r == r && decide ((pageOf r).toNat < bankSize c b)
  | some (.eraseSector _ _) => true

/-- The invariant of the whole state: both banks in canonical form, the cache sorted, the cell operation in flight
inside its bank, `BUSY` as `UPC` says, `UPC` on a line of its program, no cache mode without the register. -/
structure Inv (s : State) : Prop where
  arrays : arraysWf s = true
  cacheSorted : tableSorted s.cache = true
  pend : pendOk s.cfg s.pend = true
  busyUpc : s.busy = true ↔ s.upc ≠ .idle
  upcLine : upcOk s.upc = true
  modeOp : ∀ n, s.upc = .at .setCacheMode n → s.cfg.hasCacheCtrl = true
  noMode : s.cfg.hasCacheCtrl = false → s.cacheMode = 0#2

/-! ### Requests as the checker sees them (60 R250 to R263) -/

/-- The operation a request asks for (30 R106); none for a register transaction or a mapped read. -/
def requestOf : Instr → Option Opcode
  | .readByte _ _ => some .readByte
  | .readHalfWord _ _ => some .readHalfWord
  | .readWord _ _ => some .readWord
  | .readArray _ _ => some .readArray
  | .programByte _ _ _ => some .programByte
  | .programHalfWord _ _ _ => some .programHalfWord
  | .programWord _ _ _ => some .programWord
  | .programArray _ _ => some .programArray
  | .erasePage _ _ => some .erasePage
  | .eraseAllPages _ => some .eraseAllPages
  | .setLatency _ => some .setLatency
  | .getLatency => some .getLatency
  | .updateCache => some .updateCache
  | .setCacheMode _ => some .setCacheMode
  | .getCacheMode => some .getCacheMode
  | .wrCmd _ | .rdCmd | .wrAdr _ | .rdAdr | .wrDI _ | .rdDI | .rdDO | .wrDO _ | .wrKey _ | .rdKey | .wrCache _
  | .rdCache | .mappedRead _ => none

/-- The bank operand (30 R107), of the operations that have one. -/
def bankOperand : Instr → Option BankSel
  | .readByte b _ | .readHalfWord b _ | .readWord b _ | .readArray b _ => some b
  | .programByte b _ _ | .programHalfWord b _ _ | .programWord b _ _ | .programArray b _ => some b
  | .erasePage b _ | .eraseAllPages b => some b
  | _ => none

/-- The address operands, in element order (30 R103). -/
def addressesOf : Instr → List Word
  | .readByte _ a | .readHalfWord _ a | .readWord _ a | .erasePage _ a => [a]
  | .programByte _ a _ | .programHalfWord _ a _ | .programWord _ a _ => [a]
  | .readArray _ as => as
  | .programArray _ ps => ps.map (·.1)
  | _ => []

/-- The element count of an array operation. -/
def elementCount : Instr → Option Nat
  | .readArray _ as => some as.length
  | .programArray _ ps => some ps.length
  | _ => none

/-- The low address bits that must be zero (60 R251). -/
def alignMask : Instr → Word
  | .readWord _ _ | .programWord _ _ _ | .readArray _ _ | .programArray _ _ => 3#32
  | .readHalfWord _ _ | .programHalfWord _ _ _ => 1#32
  | _ => 0#32

/-- Whether an address operand is outside a bank of `size` bytes (20 R71). -/
def outsideBank (i : Instr) (size : Nat) (a : Word) : Bool :=
  match i with
  | .erasePage _ _ => decide (size ≤ (pageOf a).toNat)
  | .readByte _ _ | .programByte _ _ _ => decide (size < a.toNat + 1)
  | .readHalfWord _ _ | .programHalfWord _ _ _ => decide (size < a.toNat + 2)
  | _ => decide (size < a.toNat + 4)

/-- A value operand and the bound it must stay below (60 R259). -/
def valueBound (c : Config) : Instr → Option (Word × Nat)
  | .programByte _ _ v => some (v, 0x100)
  | .programHalfWord _ _ v => some (v, 0x10000)
  | .setLatency v => some (v, 2 ^ c.layout.delayW)
  | .setCacheMode v => some (v, 4)
  | _ => none

/-- Whether an operation admits a bank selector (30 R107, 60 R253). -/
def admitsBank : Instr → BankSel → Bool
  | .eraseAllPages _, .main | .eraseAllPages _, .allBanks => true
  | .eraseAllPages _, _ => false
  | _, .main | _, .info => true
  | _, _ => false

/-- The fault of a request, but for the clock: the first cause in the order of 60 R263. -/
def requestFault (c : Config) (i : Instr) : Option FaultInfo :=
  let size := ((bankOperand i).map fun b => bankSize c (arrayBank b)).getD 0
  let tooLong := (elementCount i).bind fun n =>
    if c.maxLen < n then
      some (FaultInfo.illegalRequest (header ((requestOf i).getD .readArray) ((bankOperand i).getD .main) n))
    else none
  let unsupported := (requestOf i).bind fun op =>
    if (op == .setCacheMode || op == .getCacheMode) && !c.hasCacheCtrl then some (FaultInfo.unsupported op) else none
  let badBank := (bankOperand i).bind fun b => if admitsBank i b then none else some (FaultInfo.invalidBank b)
  let empty := (elementCount i).bind fun n => if n = 0 then some FaultInfo.emptyArray else none
  let badValue := (valueBound c i).bind fun p => if p.2 ≤ p.1.toNat then some (FaultInfo.valueRange p.1) else none
  let misaligned := ((addressesOf i).findIdx? fun a => a &&& alignMask i != 0#32).map FaultInfo.misaligned
  let outside := ((addressesOf i).findIdx? (outsideBank i size)).map FaultInfo.addressRange
  tooLong.or (unsupported.or (badBank.or (empty.or (badValue.or (misaligned.or outside)))))

/-- The fault of a request: the clock is the last cause (60 R263). -/
def expectedFault (s : State) (i : Instr) : Option FaultInfo :=
  (requestFault s.cfg i).or ((timingNames.find? fun t => !countInRange s.cfg s.coreClkHz t).map .clockRange)

/-- The request is accepted, faults, and leaves everything as 60 R262 says: locked, `FAULTED`, the status code, idle;
`Cmd`, `Adr`, `DI`, the array and the cache as they were. -/
def Faults (i : Instr) (s : State) (f : FaultInfo) : Prop :=
  ∃ l n, exec i s = .next { s with
    key := 0#32
    faulted := true
    faultInfo := some f
    busy := false
    upc := .idle
    resp := some ⟨faultCode f, []⟩
    counts := countsOf s.cfg s.coreClkHz s.counts.dcnt
    lat := l
    draws := n }

/-- An operation that has completed with these result words and touched nothing else (30 R105); `d` is what the delay
counter holds, `l` the latches, `m` the counter of free values. -/
def completed (s : State) (rs : List Word) (d : Word) (l : Latches) (m : Nat) : State :=
  { s with resp := some ⟨0#32, rs⟩, counts := countsOf s.cfg s.coreClkHz d, lat := l, draws := m }

/-- Instructions executed one after the other. -/
def execAll : List Instr → State → Host.Outcome State Fault Refusal
  | [], s => .next s
  | i :: is, s =>
    match exec i s with
    | .next t => execAll is t
    | .fault f => .fault f
    | .refused r => .refused r

/-! ### Register sequences (41 R152 to R166) -/

/-- The words that are indeterminate after a high-voltage sequence is abandoned (70 R283). -/
def abandoned (nvstr : Bool) (s : State) (b : Bank) (w : Nat) : Bool :=
  (match s.pend with
   | some (.progWord b' w' _ _) => b == b' && w == w'
   | some (.eraseRow b' r) => b == b' && inRow r w
   | some (.eraseSector k both) => (b == .main || both) && inSector k w
   | none => false) ||
  (nvstr &&
    match s.xlatch with
    | some x =>
      match x.kind with
      | .mass => (b == .main || x.bank == .info) && inSector (sectorOf x.addr) w
      | .prog | .erase => b == x.bank && inRow x.addr w
    | none => false)

/-- The effect of a protocol violation (41 R166) but for the register write: the words of 70 R283 are indeterminate,
nothing is in flight, `FAULTED` is set. The accumulators are left open. -/
structure Violated (k : ProtocolKind) (old new : CmdWord) (s t : State) : Prop where
  frame : t = { s with
    cmd := t.cmd, adr := t.adr, di := t.di, doStale := t.doStale, tCmd := t.tCmd, tHv := t.tHv, tSettle := t.tSettle
    tRcv := t.tRcv, rcvDue := t.rcvDue, settleDue := t.settleDue, main := t.main, info := t.info
    pend := none, faulted := true, faultInfo := some (.protocolViolation k (modeOf old) (modeOf new)) }
  cells : ∀ b w, cell t b w = if abandoned (old.nvstr || new.nvstr) s b w then .indet else cell s b w
  bytes : ∀ b a, abandoned (old.nvstr || new.nvstr) s b (a / 4) = false →
    byteAt (array t b) a = byteAt (array s b) a

/-- A host writes `Cmd` unlocked while no operation runs, the mode going from `mo` to `mn` with no change of the bank
while `X-Enable` is set (41 R142, R152). -/
structure Commands (s : State) (v : Word) (mo mn : Mode) (new : CmdWord) : Prop where
  free : s.busy = false
  unlocked : s.key ≠ 0#32
  word : unpackCmd s.cfg.layout v = new
  source : modeOf s.cmd = mo
  target : modeOf new = mn
  bank : (s.cmd.xe || new.xe) = true → s.cmd.ifren = new.ifren

/-- The `Cmd` write violates the protocol: the register holds the written word, a change of Delay-Cycles is noted, `Adr`
and `DI` are as before. -/
def CmdViolates (s : State) (v : Word) (k : ProtocolKind) (new : CmdWord) : Prop :=
  ∃ t, exec (.wrCmd v) s = .next t ∧ Violated k s.cmd new (noteDelay new s) t ∧ t.cmd = new ∧ t.adr = s.adr ∧ t.di = s.di

/-- What an operation has read of the Delay-Cycles field it carries (41 R170, R171): `DSH` from the line on that reads
it, `CSH` from the line on that builds it. On the first line nothing has been read. -/
def DelayCarried (s : State) : Prop :=
  ∀ op line, s.upc = .at op line →
    (.act .readDelay ∈ (program op).take line → s.lat.dsh.delay = s.cmd.delay) ∧
    (.act .shadow ∈ (program op).take line ∨ .act .shadowMass ∈ (program op).take line →
      s.lat.csh.delay = s.cmd.delay)

/-- The transitions of the table of 41 R152, between different modes. -/
def legalTransitions : List (Mode × Mode) :=
  [(.off, .idle), (.idle, .off), (.idle, .read), (.read, .idle), (.idle, .pgNvs), (.pgNvs, .pgHv), (.pgHv, .pgPulse),
   (.pgPulse, .pgHv), (.pgHv, .hvHold), (.hvHold, .idle), (.idle, .erNvs), (.erNvs, .erHv), (.erHv, .hvHold),
   (.idle, .meNvs), (.meNvs, .meHv), (.meHv, .meHold), (.meHold, .idle)]

/-- The array of `t` is that of `s` but for the words that satisfy `p`, whose cells are given by `f`. -/
structure ArrayBecomes (p : Bank → Nat → Prop) [∀ b w, Decidable (p b w)] (f : Bank → Nat → Cell) (s t : State) :
    Prop where
  cells : ∀ b w, cell t b w = if p b w then f b w else cell s b w
  bytes : ∀ b a, ¬ p b (a / 4) → byteAt (array t b) a = byteAt (array s b) a

/-- The address is a register's (20 R80). -/
def registerAt (c : Config) (a : Word) : Bool := (registerOf c (a - c.regs.base)).isSome

/-- No two registers of the variant share an address. -/
def regsDistinct (c : Config) : Bool :=
  let r := c.regs
  ([r.cmd, r.adr, r.di, r.dout, r.key] ++ if c.hasCacheCtrl then [r.cache] else []).Nodup

/-- The register an instruction accesses (30 R113). -/
def registerOfInstr : Instr → Option RegName
  | .wrCmd _ | .rdCmd => some .cmd
  | .wrAdr _ | .rdAdr => some .adr
  | .wrDI _ | .rdDI => some .di
  | .rdDO | .wrDO _ => some .dout
  | .wrKey _ | .rdKey => some .key
  | .wrCache _ | .rdCache => some .cache
  | .readByte _ _ | .readHalfWord _ _ | .readWord _ _ | .readArray _ _ | .programByte _ _ _ | .programHalfWord _ _ _
  | .programWord _ _ _ | .programArray _ _ | .erasePage _ _ | .eraseAllPages _ | .setLatency _ | .getLatency
  | .updateCache | .setCacheMode _ | .getCacheMode | .mappedRead _ => none

/-- An instruction accesses CacheCtrl on a variant that has it only (10 R36). -/
def CacheExists (c : Config) (i : Instr) : Prop := registerOfInstr i = some .cache → c.hasCacheCtrl = true

/-- Whether a bit of the word software sees belongs to a field of CommandWord; the others are reserved (30 R101). -/
def layoutBit (l : CmdLayout) (n : Nat) : Bool :=
  [l.con, l.xe, l.ye, l.se, l.ifren, l.erase, l.mas1, l.prog, l.nvstr].contains n
    || (decide (l.delay ≤ n) && decide (n < l.delay + l.delayW))

end Sys2Proof.Machine
end

