-- ==== Sys2Proof/Certificates/Slice0/Obligations.lean ====
section
/-!
DEFINITION. The statements for the provers. A statement that names no rule of the spec in its docstring's first
sentence rests on several; OBLIGATIONS.json says which.
-/

open Sys2Proof Sys2Proof.Machine

/-! ### Encoding -/

/-- Decoding what a host presents for an instruction gives the instruction back, for every well-formed instruction and
every record whose registers have addresses of their own; where two share one, it gives an instruction that is presented
the same (which of the two is the model's choice, notes/assumptions/35.md). A mapped read must lie in Main and clear of
the registers (20 R81), and CacheCtrl exists on a variant with it only (10 R36). -/
def Obligations.DecodeEncode : Prop :=
  ∀ (c : Config) (i : Instr), i.wf = true →
    (∀ o, i = .mappedRead o → o.toNat < c.mainSize ∧ registerAt c (c.mainBase + o) = false) →
    CacheExists c i →
    (regsDistinct c = true → decode c (encode c i) = .ok i) ∧
    ∃ j, decode c (encode c i) = .ok j ∧ encode c j = encode c i

/-- Nothing else decodes to an instruction: what decodes to it is what the encoder makes of it, and it is well
formed; to an access of CacheCtrl nothing decodes on a variant without that register (10 R36). -/
def Obligations.EncodeDecode : Prop :=
  ∀ (c : Config) (tx : PortTx) (i : Instr), decode c tx = .ok i →
    encode c i = tx ∧ i.wf = true ∧ CacheExists c i

/-- The operation map (30 R106, R109): a header names an operation exactly when its opcode is that operation's, its
reserved bits are zero, `LEN` is zero but for the array operations, and `BNK` is zero for the operations without a
bank. -/
def Obligations.OperationMap : Prop :=
  ∀ (h : Word) (op : Opcode), headerOpcode h = some op ↔
    h.extractLsb' 0 5 = op.code ∧ h.getLsbD 7 = false ∧ h.extractLsb' 24 8 = 0#8 ∧
    (headerLen h ≠ 0 → op = .readArray ∨ op = .programArray) ∧
    (headerBank h ≠ .main → op ≠ .setLatency ∧ op ≠ .getLatency ∧ op ≠ .updateCache ∧ op ≠ .setCacheMode ∧
      op ≠ .getCacheMode)

/-- The default CommandWord layout (30 R101): each bit at its place, Delay-Cycles in 5:3, reserved bits read 0. -/
def Obligations.CommandWordLayout : Prop :=
  ∀ (w : CmdWord) (n : Nat), (packCmd {} w).getLsbD n =
    (match n with
     | 0 => w.con
     | 3 => w.delay.getLsbD 0
     | 4 => w.delay.getLsbD 1
     | 5 => w.delay.getLsbD 2
     | 6 => w.xe
     | 7 => w.ye
     | 8 => w.se
     | 9 => w.ifren
     | 10 => w.erase
     | 11 => w.mas1
     | 12 => w.prog
     | 13 => w.nvstr
     | _ => false)

/-- Under every layout in range, the word software reads holds every field written: unpacking it gives the fields
back, Delay-Cycles cut to its width. Of a word software writes every bit of a field is taken and the reserved bits are
ignored (30 R101, 41 R142): packing what was unpacked gives the word with the reserved bits 0. -/
def Obligations.CommandWordRoundTrip : Prop :=
  ∀ (l : CmdLayout), layoutOk l = true →
    (∀ w : CmdWord, w.delay.toNat < 2 ^ l.delayW → unpackCmd l (packCmd l w) = w) ∧
    (∀ (v : Word) (n : Nat), (packCmd l (unpackCmd l v)).getLsbD n = (v.getLsbD n && layoutBit l n))

/-- A few words of the encoding tables (30 R103, R106, R113), written out. -/
def Obligations.SampleWords : Prop :=
  decode Config.reference (.request [0x00000003#32, 0x00000100#32]) = .ok (.readWord .main 0x100#32) ∧
  decode Config.reference (.request [0x00000208#32, 0x100#32, 1#32, 0x110#32, 2#32]) =
    .ok (.programArray .main [(0x100#32, 1#32), (0x110#32, 2#32)]) ∧
  decode Config.reference (.request [0x0000004A#32]) = .ok (.eraseAllPages .allBanks) ∧
  decode Config.reference (.busWrite .word 0x40018010#32 0x8AAA5551#32) = .ok (.wrKey 0x8AAA5551#32) ∧
  decode Config.reference (.busRead .word 0x4001800C#32) = .ok .rdDO ∧
  decode Config.reference (.busRead .word 0x08000104#32) = .ok (.mappedRead 0x104#32)

/-! ### The machine -/

/-- Whose turn it is, and what a step then does. On the host's turn (given by `sched`, or by default while no operation
runs) it runs the instruction that the transaction in front decodes to, on the state with that transaction taken; with
none presented it waits. On the sequencer's turn (given, or by default while `BUSY`) it is a step of the sequencer (00 R9,
10 R27). Time that a host waits (70 R289) is added to the accumulators while no operation runs (10 R42), and a change of
the clock input is taken then. The order of turns as plain data, the default turn, the count of a wait and the refusal
of a clock change while `BUSY` are the model's choice: notes/assumptions/8.md, 20.md and 21.md. -/
def Obligations.StepRunsDecoded : Prop :=
  ∀ (s : State), configOk s.cfg = true →
    (∀ tx rest i, s.port = tx :: rest → decode s.cfg tx = .ok i →
      (s.sched = [] → s.busy = false → step s = exec i { s with port := rest }) ∧
      (∀ ts, s.sched = .host :: ts → step s = exec i { s with sched := ts, port := rest })) ∧
    (s.port = [] →
      (s.sched = [] → s.busy = false → step s = .next s) ∧
      (∀ ts, s.sched = .host :: ts → step s = .next { s with sched := ts })) ∧
    (s.sched = [] → s.busy = true → step s = seqStep s) ∧
    (∀ ts, s.sched = .sequencer :: ts → step s = seqStep { s with sched := ts }) ∧
    (∀ us ts, s.sched = .elapse us :: ts →
      (s.busy = true → step s = .next { s with sched := ts }) ∧
      (s.busy = false → step s = .next { s with
        sched := ts, tCmd := s.tCmd + us, tHv := s.tHv + us, tSettle := s.tSettle + us, tRcv := s.tRcv + us })) ∧
    (∀ hz ts, s.sched = .clock hz :: ts →
      (s.busy = true → step s = .refused .clockChange) ∧
      (s.busy = false → step s = .next { s with sched := ts, coreClkHz := hz }))

/-- The values of the reset table (10 R49). The latches, the counts, the empty arrays and the inputs are the model's
choice (notes/assumptions 2 to 5) and not stated here. -/
def Obligations.ResetValues : Prop :=
  ∀ (c : Config) (hz : Nat), let s := State.resetWith c hz
    s.key = 0#32 ∧ s.cmd = { delay := c.delayReset } ∧ mode s = .off ∧ s.adr = 0#32 ∧ s.di = 0#32 ∧
    s.cacheMode = 0#2 ∧ s.busy = false ∧ s.faulted = false ∧ s.upc = .idle ∧ s.doStale = 3 ∧ s.rcvDue = false ∧
    s.settleDue = false ∧ s.tCmd = 0 ∧ s.tHv = 0 ∧ s.tSettle = 0 ∧ s.tRcv = 0 ∧ s.xlatch = none ∧ s.pend = none ∧
    s.cache = []

/-- The `Reset` event (70 R281), in any state: the words of R283 become indeterminate and the array is otherwise
unchanged; every register and hidden flag takes its reset value; the configuration stays. The model's choice: of
`port` only the held transaction in front is dropped, a held mapped read too (notes/assumptions/22.md), the response is cleared (25.md), and
what was noted of Delay-Cycles is gone (34.md). -/
def Obligations.ResetEvent : Prop :=
  ∀ (s : State) (ts : List Turn), configOk s.cfg = true → s.sched = .reset :: ts →
    ∃ t, step s = .next t ∧
      t.key = 0#32 ∧ t.cmd = { delay := s.cfg.delayReset } ∧ t.adr = 0#32 ∧ t.di = 0#32 ∧ t.cacheMode = 0#2 ∧
      t.busy = false ∧ t.faulted = false ∧ t.upc = .idle ∧ t.doStale = 3 ∧ t.rcvDue = false ∧ t.settleDue = false ∧
      t.tCmd = 0 ∧ t.tHv = 0 ∧ t.tSettle = 0 ∧ t.tRcv = 0 ∧ t.xlatch = none ∧ t.pend = none ∧ t.cache = [] ∧
      t.delayLost = false ∧ t.resp = none ∧ t.cfg = s.cfg ∧
      ArrayBecomes (fun b w => abandoned s.cmd.nvstr s b w = true) (fun _ _ => .indet) s t ∧
      (∀ tx rest, s.port = tx :: rest →
        t.port = if heldTx s (decode s.cfg tx) then rest else s.port)

/-- The invariant holds after reset, under every configuration. -/
def Obligations.InvAtReset : Prop := ∀ (c : Config) (hz : Nat), Inv (State.resetWith c hz)

/-- Every step keeps the invariant: both banks stay in canonical form, the cache stays a sorted map, the cell
operation in flight stays inside its bank, `BUSY` stays as `UPC` says, `UPC` stays on a line of its program, and
without the register the cache mode stays 0. -/
def Obligations.StepKeepsInv : Prop := ∀ (s t : State), Inv s → step s = .next t → Inv t

/-- No step writes the configuration record (10 R48), no step but a change of the clock input writes the clock, and
`FAULTED` is sticky: only `Reset` clears it (10 R28). -/
def Obligations.StepKeepsConfig : Prop :=
  ∀ (s t : State), step s = .next t →
    t.cfg = s.cfg ∧ (t.coreClkHz = s.coreClkHz ∨ ∃ ts, s.sched = .clock t.coreClkHz :: ts) ∧
    (s.faulted = true → t.faulted = true ∨ ∃ ts, s.sched = .reset :: ts)

/-- While `BUSY` every register transaction and every new request is held (41 R146, 30 R104), a request whose header is
no operation too: it stays in front of the port and nothing else changes. An access of CacheCtrl on a variant without
that register is none of the block's (CacheRegister says what becomes of it). -/
def Obligations.BusyHolds : Prop :=
  ∀ (s : State), s.busy = true →
    (∀ i : Instr, (∀ o, i ≠ .mappedRead o) → CacheExists s.cfg i →
      exec i s = .next { s with port := encode s.cfg i :: s.port }) ∧
    (∀ (h : Word) (ws : List Word) (rest : List PortTx) (ts : List Turn), configOk s.cfg = true →
      s.port = .request (h :: ws) :: rest → headerOpcode h = none → s.sched = .host :: ts →
      step s = .next { s with sched := ts })

/-- The stall of the mapped path (47 R241): while `NVSTR` is set, or `CON` where the parameter says so, a mapped read
of a host is held and the read of a running `update_cache` makes no step. -/
def Obligations.StallHolds : Prop :=
  ∀ (s : State) (o : Word), (s.cmd.nvstr = true ∨ (s.cfg.mappedStallOnCon = true ∧ s.cmd.con = true)) →
    (o.toNat < s.cfg.mainSize → o &&& 3#32 = 0#32 →
      exec (.mappedRead o) s = .next { s with port := encode s.cfg (.mappedRead o) :: s.port }) ∧
    (s.upc = .at .updateCache 1 → seqStep s = .next s)

/-- `Delay(T)` (40 R134): every accumulator grows by the microseconds of the name; no register, no cell, no fault. The
delay counter's content afterwards is free (40 R137). Where it is the last line the operation completes in the same
step. -/
def Obligations.DelayStep : Prop :=
  ∀ (s : State) (op : Opcode) (line : Nat) (n : TimingName), s.upc = .at op line →
    (program op)[line]? = some (.act (.delay n)) →
    ∃ d,
      let t := { s with
        tCmd := s.tCmd + timingUs s.cfg n
        tHv := s.tHv + timingUs s.cfg n
        tSettle := s.tSettle + timingUs s.cfg n
        tRcv := s.tRcv + timingUs s.cfg n
        counts := { s.counts with dcnt := d } }
      (line + 1 < (program op).length → seqStep s = .next { t with upc := .at op (line + 1) }) ∧
      (line + 1 = (program op).length →
        ∃ l, seqStep s = .next { t with
          resp := some ⟨0#32, results s⟩, busy := false, upc := .idle, lat := l, draws := s.draws + 1 })

/-- Acceptance (30 R104), where another agent may move next: `BUSY`, the operand latches, the timing profile, and
`UPC` on the first line; nothing else changes but the response of the operation before, which is cleared, and the
latches of operands the operation does not have, which are zero: the model's choice, notes/assumptions/25.md and
37.md. -/
def Obligations.Acceptance : Prop :=
  ∀ (s : State) (i : Instr) (op : Opcode), s.busy = false → s.sched ≠ [] → requestOf i = some op →
    expectedFault s i = none →
    ∃ t, exec i s = .next t ∧
      t = { s with
        busy := true, upc := .at op 0, resp := none, lat := t.lat
        counts := countsOf s.cfg s.coreClkHz s.counts.dcnt } ∧
      t.lat.op = op ∧ t.lat.bank = (bankOperand i).getD .main ∧ t.lat.addr = (addressesOf i).headD 0#32 ∧
      t.lat.len.toNat = (elementCount i).getD 0 % 65536 ∧
      (∀ n, elementCount i = some n → t.lat.avec = addressesOf i) ∧
      (∀ b ps, i = .programArray b ps → t.lat.dvec = ps.map (·.2)) ∧
      (∀ b a v, i = .programByte b a v ∨ i = .programHalfWord b a v ∨ i = .programWord b a v → t.lat.data = v) ∧
      (∀ v, i = .setLatency v ∨ i = .setCacheMode v → t.lat.data = v)

/-! ### The request checker -/

/-- The checker (60 R257, R263): with `CHECK_PARAMS` a request with a violation takes the fault of its first cause, and
without it is given no meaning; so is a header that is no operation (R255). The model's choice: of several counts out of
range the first in the order of 00 R7 is the one recorded (notes/assumptions/38.md), and a header that is no operation is
judged whatever the length of its descriptor (28.md). -/
def Obligations.CheckerDecides : Prop :=
  Config.reference.checkParams = true ∧ ∀ (s : State), s.busy = false →
    (∀ (i : Instr) (f : FaultInfo), (requestOf i).isSome = true → expectedFault s i = some f →
      (s.cfg.checkParams = true → Faults i s f) ∧
      (s.cfg.checkParams = false → exec i s = .refused (.uncheckedViolation f))) ∧
    (∀ (h : Word) (ws : List Word) (rest : List PortTx), configOk s.cfg = true → s.sched = [] →
      s.port = .request (h :: ws) :: rest → headerOpcode h = none →
      (s.cfg.checkParams = true → ∃ t, step s = .next t ∧ t.faultInfo = some (.illegalRequest h)) ∧
      (s.cfg.checkParams = false → step s = .refused (.uncheckedViolation (.illegalRequest h))))

/-- `Misaligned` (60 R251): the element index recorded is the first misaligned one; byte operations and
`erase_page` complete at any alignment. -/
def Obligations.MisalignedFaults : Prop :=
  ∀ (s : State) (b : Bank) (a v : Word), s.busy = false → s.cfg.checkParams = true →
    (a &&& 3#32 ≠ 0#32 →
      Faults (.readWord (selOf b) a) s (.misaligned 0) ∧ Faults (.programWord (selOf b) a v) s (.misaligned 0)) ∧
    (a &&& 1#32 ≠ 0#32 → Faults (.readHalfWord (selOf b) a) s (.misaligned 0)) ∧
    (a &&& 1#32 ≠ 0#32 → v.toNat < 0x10000 → Faults (.programHalfWord (selOf b) a v) s (.misaligned 0)) ∧
    (∀ (as zs : List (Word × Word)), a &&& 3#32 ≠ 0#32 → (∀ p ∈ as, p.1 &&& 3#32 = 0#32) →
      as.length + 1 + zs.length ≤ s.cfg.maxLen →
      Faults (.readArray (selOf b) ((as ++ (a, v) :: zs).map (·.1))) s (.misaligned as.length) ∧
      Faults (.programArray (selOf b) (as ++ (a, v) :: zs)) s (.misaligned as.length)) ∧
    (Ready s → v.toNat < 0x100 → a.toNat + 1 ≤ bankSize s.cfg b →
      ∀ i ∈ [Instr.readByte (selOf b) a, .programByte (selOf b) a v, .erasePage (selOf b) a],
        ∃ t rs, exec i s = .next t ∧ t.resp = some ⟨0#32, rs⟩)

/-- `EmptyArray` (60 R252). -/
def Obligations.EmptyArrayFaults : Prop :=
  ∀ (s : State) (b : Bank), s.busy = false → s.cfg.checkParams = true →
    Faults (.readArray (selOf b) []) s .emptyArray ∧ Faults (.programArray (selOf b) []) s .emptyArray

/-- `InvalidBank` (60 R253): `AllBanks` on any operation with a bank but `erase_all_pages`, `Info` on
`erase_all_pages`, and the reserved selector on all of them. -/
def Obligations.InvalidBankFaults : Prop :=
  ∀ (s : State) (i : Instr) (k : BankSel), s.busy = false → s.cfg.checkParams = true → bankOperand i = some k →
    (∀ n, elementCount i = some n → n ≤ s.cfg.maxLen) →
    (k = .reserved ∨ (k = .allBanks ∧ i ≠ .eraseAllPages .allBanks) ∨ i = .eraseAllPages .info) →
    Faults i s (.invalidBank k)

/-- `AddressRange` (60 R254, 20 R71): an operand outside the selected bank, by the width of the access, for
`erase_page` by its page; the element index recorded is the first one outside. -/
def Obligations.AddressRangeFaults : Prop :=
  ∀ (s : State) (b : Bank) (a v : Word), s.busy = false → s.cfg.checkParams = true →
    (bankSize s.cfg b < a.toNat + 1 → v.toNat < 0x100 →
      Faults (.readByte (selOf b) a) s (.addressRange 0) ∧ Faults (.programByte (selOf b) a v) s (.addressRange 0)) ∧
    (bankSize s.cfg b < a.toNat + 2 → a &&& 1#32 = 0#32 → v.toNat < 0x10000 →
      Faults (.readHalfWord (selOf b) a) s (.addressRange 0) ∧
      Faults (.programHalfWord (selOf b) a v) s (.addressRange 0)) ∧
    (bankSize s.cfg b < a.toNat + 4 → a &&& 3#32 = 0#32 →
      Faults (.readWord (selOf b) a) s (.addressRange 0) ∧ Faults (.programWord (selOf b) a v) s (.addressRange 0)) ∧
    (bankSize s.cfg b ≤ (pageOf a).toNat → Faults (.erasePage (selOf b) a) s (.addressRange 0)) ∧
    (∀ (as zs : List (Word × Word)), bankSize s.cfg b < a.toNat + 4 →
      (∀ p ∈ as ++ (a, v) :: zs, p.1 &&& 3#32 = 0#32) → (∀ p ∈ as, p.1.toNat + 4 ≤ bankSize s.cfg b) →
      as.length + 1 + zs.length ≤ s.cfg.maxLen →
      Faults (.readArray (selOf b) ((as ++ (a, v) :: zs).map (·.1))) s (.addressRange as.length) ∧
      Faults (.programArray (selOf b) (as ++ (a, v) :: zs)) s (.addressRange as.length))

/-- `IllegalRequest` (60 R255): a reserved opcode, a reserved header bit, `LEN` on a non-array operation, `BNK` on an
operation without a bank, `LEN` above `MAX_LEN`. That the descriptor is consumed whatever its length is the model's
choice, notes/assumptions/28.md. -/
def Obligations.IllegalRequestFaults : Prop :=
  ∀ (s : State), s.busy = false → s.cfg.checkParams = true →
    (∀ (h : Word) (ws : List Word) (rest : List PortTx), configOk s.cfg = true → s.sched = [] →
      s.port = .request (h :: ws) :: rest →
      (h.extractLsb' 0 5 = 0#5 ∨ 0x10#5 ≤ h.extractLsb' 0 5 ∨ h.getLsbD 7 = true ∨ h.extractLsb' 24 8 ≠ 0#8 ∨
        (h.extractLsb' 8 16 ≠ 0#16 ∧ h.extractLsb' 0 5 ≠ 0x04#5 ∧ h.extractLsb' 0 5 ≠ 0x08#5) ∨
        (h.extractLsb' 5 2 ≠ 0#2 ∧ 0x0B#5 ≤ h.extractLsb' 0 5)) →
      ∃ l n, step s = .next { s with
        port := rest, key := 0#32, faulted := true, faultInfo := some (.illegalRequest h), upc := .idle
        resp := some ⟨5#32, []⟩, counts := countsOf s.cfg s.coreClkHz s.counts.dcnt, lat := l, draws := n }) ∧
    (∀ (k : BankSel) (ps : List (Word × Word)), s.cfg.maxLen < ps.length →
      Faults (.readArray k (ps.map (·.1))) s (.illegalRequest (header .readArray k ps.length)) ∧
      Faults (.programArray k ps) s (.illegalRequest (header .programArray k ps.length)))

/-- `ClockRange` (60 R256): the clock is 0, or a count is 0 or not below 2^32, on a request with no other cause; the
name recorded is one whose count is out of range. What the counts then hold (their low 32 bits) is the model's choice,
notes/assumptions/4.md. -/
def Obligations.ClockRangeFaults : Prop :=
  ∀ (s : State) (i : Instr), s.busy = false → s.cfg.checkParams = true → (requestOf i).isSome = true →
    requestFault s.cfg i = none →
    (s.coreClkHz = 0 ∨ ∃ n, countOf s.cfg s.coreClkHz n = 0 ∨ 2 ^ 32 ≤ countOf s.cfg s.coreClkHz n) →
    ∃ n, (s.coreClkHz = 0 ∨ countOf s.cfg s.coreClkHz n = 0 ∨ 2 ^ 32 ≤ countOf s.cfg s.coreClkHz n) ∧
      Faults i s (.clockRange n)

/-- `ValueRange` (60 R259). -/
def Obligations.ValueRangeFaults : Prop :=
  ∀ (s : State) (b : Bank) (a v : Word), s.busy = false → s.cfg.checkParams = true →
    (0x100 ≤ v.toNat → Faults (.programByte (selOf b) a v) s (.valueRange v)) ∧
    (0x10000 ≤ v.toNat → Faults (.programHalfWord (selOf b) a v) s (.valueRange v)) ∧
    (2 ^ s.cfg.layout.delayW ≤ v.toNat → Faults (.setLatency v) s (.valueRange v)) ∧
    (3 < v.toNat → s.cfg.hasCacheCtrl = true → Faults (.setCacheMode v) s (.valueRange v))

/-- `Unsupported` (60 R260). -/
def Obligations.UnsupportedFaults : Prop :=
  ∀ (s : State) (v : Word), s.busy = false → s.cfg.checkParams = true → s.cfg.hasCacheCtrl = false →
    Faults (.setCacheMode v) s (.unsupported .setCacheMode) ∧ Faults .getCacheMode s (.unsupported .getCacheMode)

/-! ### Register transactions -/

/-- While locked, writes of `Cmd`, `Adr` and `DI` are dropped without a trace, and reads are not gated (41 R141). -/
def Obligations.LockedWritesDropped : Prop :=
  ∀ (s : State) (v : Word), s.busy = false → s.key = 0#32 →
    exec (.wrCmd v) s = .next s ∧ exec (.wrAdr v) s = .next s ∧ exec (.wrDI v) s = .next s ∧
    (∀ i ∈ [Instr.rdCmd, .rdAdr, .rdDI, .rdKey], ∃ t, exec i s = .next t) ∧
    ((wordAddr s.adr).toNat < bankSize s.cfg (bankOf s.cmd) → ∃ t, exec .rdDO s = .next t)

/-- `Key` is written whatever it holds and read without effect (41 R140, R148); `Cmd` reads as its fields (R143); reads
of `Adr` and `DI` are draws and a write of `DO` is ignored (R149). -/
def Obligations.RegisterViews : Prop :=
  ∀ (s : State) (v : Word), s.busy = false →
    exec (.wrKey v) s = .next { s with key := v } ∧
    exec .rdKey s = .next { s with rdata := s.key } ∧
    exec .rdCmd s = .next { s with rdata := packCmd s.cfg.layout s.cmd } ∧
    exec .rdAdr s = .next { s with rdata := Config.draw s.draws, draws := s.draws + 1 } ∧
    exec .rdDI s = .next { s with rdata := Config.draw s.draws, draws := s.draws + 1 } ∧
    exec (.wrDO v) s = .next s

/-- `WrAdr` (41 R144): accepted in `M_OFF`, `M_IDLE` and `M_READ`, and between pulses inside the latched row; else a
violation, with `Adr` written all the same (R166) and no accumulator changed. That it is one between pulses with nothing
latched is the model's choice (notes/assumptions/14.md); what it does to the stale reads is left open (36.md). -/
def Obligations.AddressWrite : Prop :=
  ∀ (s : State) (v : Word), s.busy = false → s.key ≠ 0#32 →
    if mode s = .off ∨ mode s = .idle ∨ mode s = .read ∨
        (mode s = .pgHv ∧ ∃ x, s.xlatch = some x ∧ rowOf v = rowOf x.addr) then
      exec (.wrAdr v) s = .next { s with adr := v, doStale := 3 }
    else
      ∃ t, exec (.wrAdr v) s = .next t ∧ Violated .adrWrite s.cmd s.cmd s t ∧
        t = { s with
          adr := v, doStale := t.doStale, main := t.main, info := t.info, pend := none, faulted := true
          faultInfo := some (.protocolViolation .adrWrite (mode s) (mode s)) }

/-- `WrDI` (41 R145): accepted in `M_OFF`, `M_IDLE`, `M_READ` and `M_PG_HV`; else a violation, with `DI` written all
the same (R166) and nothing else but the words and flags of R166 changed. -/
def Obligations.DataWrite : Prop :=
  ∀ (s : State) (v : Word), s.busy = false → s.key ≠ 0#32 →
    if mode s = .off ∨ mode s = .idle ∨ mode s = .read ∨ mode s = .pgHv then
      exec (.wrDI v) s = .next { s with di := v }
    else
      ∃ t, exec (.wrDI v) s = .next t ∧ Violated .diWrite s.cmd s.cmd s t ∧
        t = { s with
          di := v, main := t.main, info := t.info, pend := none, faulted := true
          faultInfo := some (.protocolViolation .diWrite (mode s) (mode s)) }

/-- `RdDO` (41 R147): outside `M_READ` a draw; in it three stale reads, each a draw, then the word `Adr` names. -/
def Obligations.DataRead : Prop :=
  ∀ (s : State), s.busy = false →
    (mode s ≠ .read → exec .rdDO s = .next { s with rdata := Config.draw s.draws, draws := s.draws + 1 }) ∧
    (mode s = .read → s.doStale ≠ 0 → exec .rdDO s = .next { s with
      rdata := Config.draw s.draws, draws := s.draws + 1, doStale := s.doStale - 1 }) ∧
    (mode s = .read → s.doStale = 0 → (wordAddr s.adr).toNat < bankSize s.cfg (bankOf s.cmd) →
      exec .rdDO s = .next { s with
        rdata := readValue s (bankOf s.cmd) s.adr s.draws
        settleDue := settling s
        draws := s.draws + readDraws s (bankOf s.cmd) s.adr })

/-- The `Cmd` writes that violate the protocol in every state (41 R151, R152): to a word that is no mode, a change of
the bank while `X-Enable` is set before or after, and a transition the table does not list. The model's own: a change of
Delay-Cycles is noted (notes/assumptions/34.md), and a word that is no mode violates without `CHECK_PARAMS` too
(40.md). -/
def Obligations.ForbiddenCommands : Prop :=
  ∀ (s : State) (v : Word) (new : CmdWord), s.busy = false → s.key ≠ 0#32 → unpackCmd s.cfg.layout v = new →
    (modeOf new = .illegal → CmdViolates s v .mode new) ∧
    (modeOf new ≠ .illegal → (s.cmd.xe || new.xe) = true → s.cmd.ifren ≠ new.ifren → CmdViolates s v .bankSwitch new) ∧
    (modeOf new ≠ .illegal → ((s.cmd.xe || new.xe) = true → s.cmd.ifren = new.ifren) → modeOf s.cmd ≠ modeOf new →
      (modeOf s.cmd, modeOf new) ∉ legalTransitions → CmdViolates s v .transition new)

/-- The `Cmd` writes with no array effect (41 R142, R152), but for the note of a change of Delay-Cycles, which is the
model's own (70 R285, notes/assumptions/34.md): the same mode again, `M_OFF` to and from `M_IDLE`,
`M_READ` to `M_IDLE`, and the beginning of a hold after programming. -/
def Obligations.QuietCommands : Prop :=
  ∀ (s : State) (v : Word) (mo mn : Mode) (new : CmdWord), Commands s v mo mn new → mn ≠ .illegal →
    (mo = mn ∨ (mo, mn) ∈ [(.off, .idle), (.idle, .off), (.read, .idle), (.pgHv, .hvHold)]) →
    exec (.wrCmd v) s = .next { s with cmd := new, delayLost := delayNoted new s, tCmd := 0 }

/-- `RcvCheck` (41 R153): before `X-Enable` rises again a due recovery time must have passed; then it is no longer
due. Reads start stale. A change of Delay-Cycles is noted, which is the model's own (notes/assumptions/34.md). -/
def Obligations.RecoveryCheck : Prop :=
  ∀ (s : State) (v : Word) (mn : Mode) (new : CmdWord), Commands s v .idle mn new →
    mn = .read ∨ mn = .pgNvs ∨ mn = .erNvs ∨ mn = .meNvs →
    if s.rcvDue = true ∧ s.tRcv < s.cfg.timing.rcv then CmdViolates s v (.dwell .rcv) new
    else exec (.wrCmd v) s = .next { s with
      cmd := new, delayLost := delayNoted new s
      tCmd := 0
      rcvDue := false
      doStale := if mn = .read then 3 else s.doStale
      xlatch :=
        if mn = .read then s.xlatch
        else some ⟨if mn = .pgNvs then .prog else if mn = .erNvs then .erase else .mass, bankOf new, wordAddr s.adr⟩ }

/-- Program high voltage on (41 R155). A change of Delay-Cycles is noted, which is the model's own
(notes/assumptions/34.md). -/
def Obligations.ProgramHighVoltage : Prop :=
  ∀ (s : State) (v : Word) (new : CmdWord), Commands s v .pgNvs .pgHv new →
    if s.tCmd < s.cfg.timing.nvs then CmdViolates s v (.dwell .nvs) new
    else exec (.wrCmd v) s = .next { s with cmd := new, delayLost := delayNoted new s, tCmd := 0, tHv := 0 }

/-- Pulse start (41 R157): the dwell is checked first; then the word `Adr` names is captured with `DI` and becomes
indeterminate. The model's own: with nothing latched it is a violation (notes/assumptions/14.md), a change of Delay-Cycles
is noted (34.md), and what bank a mass erase's latch names (39.md). -/
def Obligations.PulseStart : Prop :=
  ∀ (s : State) (v : Word) (new : CmdWord), Commands s v .pgHv .pgPulse new →
    if s.tHv < s.cfg.timing.pgs then CmdViolates s v (.dwell .pgs) new
    else
      (s.xlatch = none → CmdViolates s v .transition new) ∧
      (∀ x, s.xlatch = some x → (wordAddr s.adr).toNat < bankSize s.cfg x.bank →
        ∃ t, exec (.wrCmd v) s = .next t ∧
          t = { s with
            cmd := new, delayLost := delayNoted new s, tCmd := 0, main := t.main, info := t.info
            pend := some (.progWord x.bank (wordIndex s.adr) (cell s x.bank (wordIndex s.adr)) s.di) } ∧
          ArrayBecomes (fun b w => b = x.bank ∧ w = wordIndex s.adr) (fun _ _ => .indet) s t)

/-- Pulse end (41 R158): after the pulse time the captured word is programmed; before it the word is left
indeterminate by the violation. A change of Delay-Cycles is noted, which is the model's own
(notes/assumptions/34.md). -/
def Obligations.PulseEnd : Prop :=
  ∀ (s : State) (v : Word) (new : CmdWord) (b : Bank) (w : Nat) (pre : Cell) (d : Word),
    Commands s v .pgPulse .pgHv new → s.pend = some (.progWord b w pre d) →
    if s.tCmd < s.cfg.timing.prog then CmdViolates s v (.dwell .prog) new
    else ∃ t, exec (.wrCmd v) s = .next t ∧
      t = { s with cmd := new, delayLost := delayNoted new s, tCmd := 0, pend := none, main := t.main, info := t.info } ∧
      ArrayBecomes (fun b' w' => b' = b ∧ w' = w) (fun _ _ => committed s.cfg b w (.program d) pre) s t

/-- End of hold: after a program or a row erase (41 R159), where only the erase starts a settle time, and after a mass
erase (R165). With nothing latched no settle time starts, which is the model's choice (notes/assumptions/14.md). A
change of Delay-Cycles is noted, which is the model's own (34.md). -/
def Obligations.HoldEnds : Prop :=
  ∀ (s : State) (v : Word) (new : CmdWord),
    (Commands s v .hvHold .idle new →
      if s.tCmd < s.cfg.timing.nvh then CmdViolates s v (.dwell .nvh) new
      else
        let erased := ∃ x, s.xlatch = some x ∧ x.kind = .erase
        (erased → exec (.wrCmd v) s = .next { s with
          cmd := new, delayLost := delayNoted new s, tCmd := 0, rcvDue := true, tRcv := 0, settleDue := true, tSettle := 0, xlatch := none }) ∧
        (¬ erased → exec (.wrCmd v) s = .next { s with
          cmd := new, delayLost := delayNoted new s, tCmd := 0, rcvDue := true, tRcv := 0, xlatch := none })) ∧
    (Commands s v .meHold .idle new →
      if s.tCmd < s.cfg.timing.nvh1 then CmdViolates s v (.dwell .nvh1) new
      else exec (.wrCmd v) s = .next { s with
        cmd := new, delayLost := delayNoted new s, tCmd := 0, rcvDue := true, tRcv := 0, settleDue := true, tSettle := 0, xlatch := none })

/-- Row erase (41 R160, R161): the start, with its dwell checked first, makes the row indeterminate, the end leaves every
word of it erased, a word that hardware protects as its `HW_PROT_EFFECT` of the cell at the commit, which is the model's choice
(notes/assumptions/7.md). The row in flight is named by its row address, as the invariant says. A change of
Delay-Cycles is noted, which is the model's own (34.md); so is what bank a mass erase's latch names (39.md), and that a
start with nothing latched is a violation (14.md). -/
def Obligations.RowErase : Prop :=
  ∀ (s : State) (v : Word) (new : CmdWord),
    (Commands s v .erNvs .erHv new →
      if s.tCmd < s.cfg.timing.nvs then CmdViolates s v (.dwell .nvs) new
      else
        (s.xlatch = none → CmdViolates s v .transition new) ∧
        (∀ x, s.xlatch = some x → (pageOf x.addr).toNat < bankSize s.cfg x.bank →
          ∃ t, exec (.wrCmd v) s = .next t ∧
            t = { s with
              cmd := new, delayLost := delayNoted new s, tCmd := 0, tHv := 0, main := t.main, info := t.info
              pend := some (.eraseRow x.bank (rowOf x.addr)) } ∧
            ArrayBecomes (fun b w => b = x.bank ∧ inRow x.addr w = true) (fun _ _ => .indet) s t)) ∧
    (∀ b r, Commands s v .erHv .hvHold new → s.pend = some (.eraseRow b r) → pendOk s.cfg s.pend = true →
      if s.tCmd < s.cfg.timing.erase then CmdViolates s v (.dwell .erase) new
      else ∃ t, exec (.wrCmd v) s = .next t ∧
        t = { s with cmd := new, delayLost := delayNoted new s, tCmd := 0, pend := none, main := t.main, info := t.info } ∧
        ArrayBecomes (fun b' w => b' = b ∧ inRow r w = true)
          (fun b' w => committed s.cfg b' w .erase (cell s b' w)) s t)

/-- Mass erase (41 R163, R164): the start, with its dwell checked first, makes one sector of every page of Main, and of Info if both banks were
selected, indeterminate; the end leaves every word of them erased, a word of Info that hardware protects as its
`HW_PROT_EFFECT` of the cell at the commit, which is the model's choice (notes/assumptions/7.md). A change of
Delay-Cycles is noted, which is the model's own (34.md); so is that the latch of another sequence on Info selects both
banks (39.md), and that a start with nothing latched is a violation (14.md). -/
def Obligations.MassErase : Prop :=
  ∀ (s : State) (v : Word) (new : CmdWord), configOk s.cfg = true →
    (Commands s v .meNvs .meHv new →
      if s.tCmd < s.cfg.timing.nvs then CmdViolates s v (.dwell .nvs) new
      else
        (s.xlatch = none → CmdViolates s v .transition new) ∧
        (∀ x, s.xlatch = some x →
          ∃ t, exec (.wrCmd v) s = .next t ∧
            t = { s with
              cmd := new, delayLost := delayNoted new s, tCmd := 0, tHv := 0, main := t.main, info := t.info
              pend := some (.eraseSector (sectorOf x.addr) (x.bank == .info)) } ∧
            ArrayBecomes (fun b w => (b = .main ∨ x.bank = .info) ∧ inSector (sectorOf x.addr) w = true)
              (fun _ _ => .indet) s t)) ∧
    (∀ k both, Commands s v .meHv .meHold new → s.pend = some (.eraseSector k both) →
      if s.tCmd < s.cfg.timing.me then CmdViolates s v (.dwell .me) new
      else ∃ t, exec (.wrCmd v) s = .next t ∧
        t = { s with cmd := new, delayLost := delayNoted new s, tCmd := 0, pend := none, main := t.main, info := t.info } ∧
        ArrayBecomes (fun b w => (b = .main ∨ both = true) ∧ inSector k w = true ∧ 4 * w < bankSize s.cfg b)
          (fun b w => committed s.cfg b w .erase (cell s b w)) s t)

/-- `CacheCtrl` (47 R236), on a variant with the register: only `MODE` is stored, it reads back zero-extended, neither
access is gated by `Key` nor changes the cache; on a variant without it the model refuses both by name, also while
`BUSY` (notes/assumptions/26.md). -/
def Obligations.CacheRegister : Prop :=
  ∀ (s : State) (v : Word),
    (s.cfg.hasCacheCtrl = true → s.busy = false →
      exec (.wrCache v) s = .next { s with cacheMode := v.extractLsb' 0 2 } ∧
      exec .rdCache s = .next { s with rdata := s.cacheMode.setWidth 32 }) ∧
    (s.cfg.hasCacheCtrl = false →
      exec (.wrCache v) s = .refused .noCacheCtrl ∧ exec .rdCache s = .refused .noCacheCtrl)

/-- `MappedRead` (47 R231), not stalled: a cached word is answered from the cache, stale or not; any other word is
read from the array. Nothing else changes. Once a host has clobbered Delay-Cycles the answer is a draw (70 R285), for
how long is the model's choice (notes/assumptions/34.md); so is that the cache takes only the array's own content, and
when, by `fillPlan` (17.md). -/
def Obligations.MappedRead : Prop :=
  ∀ (s : State) (o : Word), o.toNat < s.cfg.mainSize → o &&& 3#32 = 0#32 → stalled s = false →
    let answer (v : Word) (n : Nat) (t : State) : State :=
      if s.delayLost then { t with rdata := Config.draw n, draws := n + 1 } else { t with rdata := v, draws := n }
    (∀ v, tableGet s.cache (wordIndex o) = some v → exec (.mappedRead o) s = .next (answer v s.draws s)) ∧
    (tableGet s.cache (wordIndex o) = none →
      ∃ t, exec (.mappedRead o) s = .next t ∧
        t = answer (readValue s .main o s.draws) (s.draws + readDraws s .main o)
          { s with settleDue := settling s, fillPlan := s.fillPlan.tail, cache := t.cache } ∧
        (t.cache = s.cache ∨
          (s.fillPlan.head? = some true ∧ cell s .main (wordIndex o) = .val (readValue s .main o s.draws) ∧
            t.cache = tableSet s.cache (wordIndex o) (readValue s .main o s.draws))))

/-- The cache's own steps (47 R232): a fill takes a Main word's current content, an eviction removes its entry; while
the mapped path stalls, or the word is indeterminate, there is no step. -/
def Obligations.CacheAgent : Prop :=
  ∀ (s : State) (w : Nat) (ts : List Turn), configOk s.cfg = true → 4 * w < s.cfg.mainSize →
    (s.sched = .cacheFill w :: ts →
      (∀ v, cell s .main w = .val v → stalled s = false →
        step s = .next { s with sched := ts, cache := tableSet s.cache w v }) ∧
      (cell s .main w = .indet ∨ stalled s = true → step s = .next { s with sched := ts })) ∧
    (s.sched = .cacheEvict w :: ts →
      (∀ v, cell s .main w = .val v → stalled s = false →
        step s = .next { s with sched := ts, cache := tableDrop (· == w) s.cache }) ∧
      (cell s .main w = .indet ∨ stalled s = true → step s = .next { s with sched := ts }))

/-! ### Operations -/

/-- `read_word` (42 R180, R181): the result is the word's value where one is fixed; locked, `Cmd` the shadow, `Adr` the
address, nothing stale; nothing else changes. -/
def Obligations.ReadWord : Prop :=
  ∀ (s : State) (b : Bank) (a : Word), Ready s → a &&& 3#32 = 0#32 → a.toNat + 4 ≤ bankSize s.cfg b →
    ∃ n m l, exec (.readWord (selOf b) a) s =
      .next { completed s [readValue s b a n] s.counts.dcnt l m with
        key := 0#32, cmd := shadowFor s b, adr := a, doStale := 0, tCmd := 0, rcvDue := false
        settleDue := settling s }

/-- `read_half_word` and `read_byte` (42 R182, R183): carved out of the enclosing word, little-endian (20 R65). -/
def Obligations.SubWordReads : Prop :=
  ∀ (s : State) (b : Bank) (a : Word), Ready s →
    (a &&& 1#32 = 0#32 → a.toNat + 2 ≤ bankSize s.cfg b →
      ∃ n m l, exec (.readHalfWord (selOf b) a) s =
        .next { completed s [(readValue s b a n >>> (8 * (a.toNat % 4))) &&& 0xFFFF#32] s.counts.dcnt l m with
          key := 0#32, cmd := shadowFor s b, adr := wordAddr a, doStale := 0, tCmd := 0, rcvDue := false
          settleDue := settling s }) ∧
    (a.toNat + 1 ≤ bankSize s.cfg b →
      ∃ n m l, exec (.readByte (selOf b) a) s =
        .next { completed s [(readValue s b a n >>> (8 * (a.toNat % 4))) &&& 0xFF#32] s.counts.dcnt l m with
          key := 0#32, cmd := shadowFor s b, adr := wordAddr a, doStale := 0, tCmd := 0, rcvDue := false
          settleDue := settling s })

/-- `read_array` (42 R185, R186): the words in the order of the addresses, and the registers as after a `read_word` of
the last one. -/
def Obligations.ReadArray : Prop :=
  ∀ (s : State) (b : Bank) (a : Word) (as : List Word), Ready s → as.length + 1 ≤ s.cfg.maxLen →
    as.length + 1 < 65536 → (∀ x ∈ a :: as, x &&& 3#32 = 0#32 ∧ x.toNat + 4 ≤ bankSize s.cfg b) →
    ∃ ns m l, ns.length = as.length + 1 ∧ exec (.readArray (selOf b) (a :: as)) s =
      .next { completed s (List.zipWith (readValue s b) (a :: as) ns) s.counts.dcnt l m with
        key := 0#32, cmd := shadowFor s b, adr := (a :: as).getLast (by simp), doStale := 0, tCmd := 0
        rcvDue := false, settleDue := settling s }

/-- `program_word` on an unprotected word (44 R200, R201): the word holds what a committed pulse leaves of it (20 R66),
every other byte is as it was. -/
def Obligations.ProgramWord : Prop :=
  ∀ (s : State) (b : Bank) (a v : Word), Ready s → a &&& 3#32 = 0#32 → a.toNat + 4 ≤ bankSize s.cfg b →
    isProtected s.cfg (selOf b) a = false →
    ∃ t d m l, exec (.programWord (selOf b) a v) s = .next t ∧
      t = { completed s [] d l m with
        key := 0#32, cmd := shadowFor s b, adr := a, di := v, doStale := 3, tCmd := s.cfg.timing.rcv
        tHv := s.cfg.timing.pgs + s.cfg.timing.prog + s.cfg.timing.nvh + s.cfg.timing.rcv
        tSettle := s.tSettle + programUs s.cfg, tRcv := s.cfg.timing.rcv, rcvDue := true
        main := t.main, info := t.info } ∧
      ArrayBecomes (fun b' w => b' = b ∧ w = wordIndex a)
        (fun _ w => committed s.cfg b w (.program v) (cell s b w)) s t

/-- The protected skip (44 R201, 46 R222): the word is left as it is and the response is that of a program; a
`program_word` touches nothing but the key, the sub-word forms have done their read. -/
def Obligations.ProtectedSkip : Prop :=
  ∀ (s : State) (a v : Word), Ready s → isProtected s.cfg .info (wordAddr a) = true →
    (a &&& 3#32 = 0#32 → a.toNat + 4 ≤ bankSize s.cfg .info →
      ∃ m l, exec (.programWord .info a v) s = .next { completed s [] s.counts.dcnt l m with key := 0#32 }) ∧
    (a &&& 1#32 = 0#32 → a.toNat + 2 ≤ bankSize s.cfg .info → v.toNat < 0x10000 →
      ∃ m l, exec (.programHalfWord .info a v) s = .next { completed s [] s.counts.dcnt l m with
        key := 0#32, cmd := shadowFor s .info, adr := wordAddr a, doStale := 0, tCmd := 0, rcvDue := false
        settleDue := settling s }) ∧
    (a.toNat + 1 ≤ bankSize s.cfg .info → v.toNat < 0x100 →
      ∃ m l, exec (.programByte .info a v) s = .next { completed s [] s.counts.dcnt l m with
        key := 0#32, cmd := shadowFor s .info, adr := wordAddr a, doStale := 0, tCmd := 0, rcvDue := false
        settleDue := settling s })

/-- `program_half_word` and `program_byte` on an unprotected word (44 R203, R204): the value merged into the word read
is programmed into the enclosing word; every other byte of the array is as it was. -/
def Obligations.SubWordPrograms : Prop :=
  ∀ (s : State) (b : Bank) (a v : Word), Ready s → isProtected s.cfg (selOf b) (wordAddr a) = false →
    let after (i : Instr) (merge : Word → Word) : Prop :=
      ∃ t n d m l, exec i s = .next t ∧
        t = { completed s [] d l m with
          key := 0#32, cmd := shadowFor s b, adr := wordAddr a, di := merge (readValue s b a n), doStale := 3
          tCmd := s.cfg.timing.rcv
          tHv := s.cfg.timing.pgs + s.cfg.timing.prog + s.cfg.timing.nvh + s.cfg.timing.rcv
          tSettle := s.tSettle + programUs s.cfg, tRcv := s.cfg.timing.rcv, rcvDue := true
          settleDue := settling s, main := t.main, info := t.info } ∧
        ArrayBecomes (fun b' w => b' = b ∧ w = wordIndex a)
          (fun _ w => committed s.cfg b w (.program (merge (readValue s b a n))) (cell s b w)) s t
    (a &&& 1#32 = 0#32 → a.toNat + 2 ≤ bankSize s.cfg b → v.toNat < 0x10000 →
      after (.programHalfWord (selOf b) a v) fun w =>
        (w &&& ~~~(0xFFFF#32 <<< (8 * (a.toNat % 4)))) ||| (v <<< (8 * (a.toNat % 4)))) ∧
    (a.toNat + 1 ≤ bankSize s.cfg b → v.toNat < 0x100 →
      after (.programByte (selOf b) a v) fun w =>
        (w &&& ~~~(0xFF#32 <<< (8 * (a.toNat % 4)))) ||| (v <<< (8 * (a.toNat % 4))))

/-- `program_array` (45 R211 to R214): every unprotected element is programmed in turn, the protected ones are skipped;
`Adr` and `DI` are those of the last one programmed, and as they were if none was. -/
def Obligations.ProgramArray : Prop :=
  ∀ (s : State) (b : Bank) (p : Word × Word) (ps : List (Word × Word)), Ready s → ps.length + 1 ≤ s.cfg.maxLen →
    ps.length + 1 < 65536 → (∀ x ∈ p :: ps, x.1 &&& 3#32 = 0#32 ∧ x.1.toNat + 4 ≤ bankSize s.cfg b) →
    let unprot := unprotectedPairs s.cfg b (p :: ps)
    ∃ t d m l, exec (.programArray (selOf b) (p :: ps)) s = .next t ∧
      t = { completed s [] d l m with
        key := 0#32, cmd := shadowFor s b
        adr := (unprot.getLast?.map (·.1)).getD s.adr, di := (unprot.getLast?.map (·.2)).getD s.di
        doStale := t.doStale, tCmd := t.tCmd, tHv := t.tHv, tSettle := t.tSettle, tRcv := t.tRcv, rcvDue := t.rcvDue
        main := t.main, info := t.info } ∧
      (t.rcvDue = true → s.cfg.timing.rcv ≤ t.tRcv) ∧
      ArrayBecomes (fun b' w => b' = b ∧ ∃ x ∈ unprot, wordIndex x.1 = w)
        (fun _ w => programmedCell s.cfg b unprot w (cell s b w)) s t

/-- `erase_page` (43 R191, R192): every word of the page from the starting sector on is erased, a word that hardware
protects as its `HW_PROT_EFFECT` of the indeterminate cell at the commit, which is the model's choice
(notes/assumptions/7.md); released, locked, and reads are reliable at once; every other byte is as it was. -/
def Obligations.ErasePage : Prop :=
  ∀ (s : State) (b : Bank) (a : Word), Ready s → (pageOf a).toNat < bankSize s.cfg b →
    ∃ t d m l, exec (.erasePage (selOf b) a) s = .next t ∧
      t = { completed s [] d l m with
        key := 0#32, cmd := delayOnly s.cmd, adr := pageOf a ||| 0xC#32, di := 0#32, doStale := 3
        tCmd := s.cfg.timing.hv
        tHv := s.cfg.timing.erase + s.cfg.timing.nvh + s.cfg.timing.rcv + s.cfg.timing.hv
        tSettle := s.cfg.timing.rcv + s.cfg.timing.hv, tRcv := s.cfg.timing.rcv + s.cfg.timing.hv
        rcvDue := true, settleDue := true, main := t.main, info := t.info } ∧
      ArrayBecomes
        (fun b' w => b' = b ∧ w / 1024 = a.toNat / 4096 ∧ (firstSector s.cfg (selOf b)).toNat ≤ w % 4)
        (fun _ w => committed s.cfg b w .erase .indet) s t

/-- `erase_all_pages` (43 R194, R195): every word of Main is erased, and with `AllBanks` every word of Info; then,
where the variant says so, the page of Info again; a word that hardware protects as its `HW_PROT_EFFECT`, which is told no
data: the model's choice (notes/assumptions/7.md). Released and locked; with `Main` no byte of Info changes. -/
def Obligations.EraseAllPages : Prop :=
  ∀ (s : State) (all : Bool), Ready s →
    ∃ t d m l, exec (.eraseAllPages (if all then .allBanks else .main)) s = .next t ∧
      t = { completed s [] d l m with
        key := 0#32, cmd := delayOnly s.cmd, adr := 0xC#32, di := 0#32, doStale := 3
        tCmd := t.tCmd, tHv := t.tHv, tSettle := t.tSettle, tRcv := t.tRcv, rcvDue := true, settleDue := true
        main := t.main, info := t.info } ∧
      Settled t ∧ s.cfg.timing.rcv ≤ t.tRcv ∧
      (∀ b w, (b = .main ∨ all = true) → 4 * w < bankSize s.cfg b →
        (¬(b = .info ∧ s.cfg.hasHwInfoProt = true ∧ inFactoryWindow s.cfg (indexAddr w) = true) →
          cell t b w = .val erasedWord) ∧
        (b = .info ∧ s.cfg.hasHwInfoProt = true ∧ inFactoryWindow s.cfg (indexAddr w) = true →
          ∃ pre, cell t b w = hwProtEffect s.cfg .erase pre)) ∧
      (all = false → t.info = s.info)

/-- `set_latency` and `get_latency` (47 R239, R240): only Delay-Cycles changes; it reads back. -/
def Obligations.LatencyOperations : Prop :=
  ∀ (s : State) (v : Word), Ready s →
    (v.toNat < 2 ^ s.cfg.layout.delayW →
      ∃ m l, exec (.setLatency v) s = .next { completed s [] s.counts.dcnt l m with
        key := 0#32, cmd := { s.cmd with delay := v.setWidth 8 }, tCmd := 0 }) ∧
    (∃ m l, exec .getLatency s = .next (completed s [s.cmd.delay.setWidth 32] s.counts.dcnt l m))

/-- `set_cache_mode` and `get_cache_mode` (47 R237, R238), on a variant with the register. -/
def Obligations.CacheModeOperations : Prop :=
  ∀ (s : State) (v : Word), Ready s → s.cfg.hasCacheCtrl = true →
    (v.toNat ≤ 3 → ∃ m l, exec (.setCacheMode v) s = .next { completed s [] s.counts.dcnt l m with
      cacheMode := v.setWidth 2 }) ∧
    (∃ m l, exec .getCacheMode s = .next (completed s [s.cacheMode.setWidth 32] s.counts.dcnt l m))

/-- `update_cache` (47 R234, R235), while the mapped path does not stall: afterwards the cache holds no stale entry, and
no entry the array does not have; nothing but the cache, its plan and a settle time that has passed changes. -/
def Obligations.UpdateCache : Prop :=
  ∀ (s : State), Ready s → stalled s = false →
    ∃ t m l, exec .updateCache s = .next t ∧
      t = { completed s [] s.counts.dcnt l m with
        cache := t.cache, fillPlan := t.fillPlan, settleDue := t.settleDue } ∧
      settling t = settling s ∧
      (∀ w v, (w, v) ∈ t.cache → cell t .main w = .val v) ∧
      (tableSorted s.cache = true → ∀ w v, tableGet s.cache w = some v → cell s .main w = .val v →
        tableGet t.cache w = some v)

/-! ### Laws of the whole machine -/

/-- The micro-programs satisfy every check of the array (70 R296): a request without a fault of the checker completes,
raises no protocol violation, and leaves the condition for the next. A stalled `update_cache` waits instead. -/
def Obligations.Quiescence : Prop :=
  ∀ (s : State) (i : Instr), Ready s → i.wf = true → (requestOf i).isSome = true → expectedFault s i = none →
    (i = .updateCache → stalled s = false) →
    ∃ t, exec i s = .next t ∧ Ready t ∧ t.faulted = s.faulted ∧ t.faultInfo = s.faultInfo ∧
      ∃ rs, t.resp = some ⟨0#32, rs⟩

/-- The lock discipline and the preservation of Delay-Cycles (41 R171, R172): an operation that writes the key ends
locked, the others leave it; none but `set_latency` changes the Delay-Cycles field, at its end or at any line on the
way: every step of the sequencer keeps the field, and keeps it carried by the shadows already read. -/
def Obligations.LockAndDelay : Prop :=
  (∀ (s t : State) (i : Instr) (op : Opcode), Ready s → i.wf = true → requestOf i = some op →
    expectedFault s i = none → (i = .updateCache → stalled s = false) → exec i s = .next t →
    (op ∈ [.getLatency, .updateCache, .setCacheMode, .getCacheMode] → t.key = s.key) ∧
    (op ∉ [.getLatency, .updateCache, .setCacheMode, .getCacheMode] → t.key = 0#32) ∧
    (op ≠ .setLatency → t.cmd.delay = s.cmd.delay)) ∧
  (∀ (s t : State) (op : Opcode) (line : Nat), s.upc = .at op line → op ≠ .setLatency → DelayCarried s →
    seqStep s = .next t → t.cmd.delay = s.cmd.delay ∧ DelayCarried t)

/-- The round trip (44 R205): erase the page, program the word, read it back, for every aligned address in a sector the
erase covers, outside the factory window where hardware protects it. -/
def Obligations.RoundTrip : Prop :=
  ∀ (s : State) (b : Bank) (a v : Word), Ready s → a &&& 3#32 = 0#32 → a.toNat + 4 ≤ bankSize s.cfg b →
    isProtected s.cfg (selOf b) a = false → (firstSector s.cfg (selOf b)).toNat ≤ (sectorOf a).toNat →
    ¬(b = .info ∧ s.cfg.hasHwInfoProt = true ∧ inFactoryWindow s.cfg a = true) →
    ∃ t, execAll [.erasePage (selOf b) a, .programWord (selOf b) a v, .readWord (selOf b) a] s = .next t ∧
      t.resp = some ⟨0#32, [v]⟩

/-- Burst equivalence (45 R215): `program_array` and the sequence of its single-word programs leave the same array, the
same key, address and data; `Cmd` is the shadow after both when an element is unprotected, and after the array form
always. -/
def Obligations.BurstEquivalence : Prop :=
  ∀ (s : State) (b : Bank) (ps : List (Word × Word)), Ready s → ps ≠ [] → ps.length ≤ s.cfg.maxLen →
    ps.length < 65536 → (∀ p ∈ ps, p.1 &&& 3#32 = 0#32 ∧ p.1.toNat + 4 ≤ bankSize s.cfg b) →
    ∃ t u, exec (.programArray (selOf b) ps) s = .next t ∧
      execAll (ps.map fun p => .programWord (selOf b) p.1 p.2) s = .next u ∧
      (∀ b' w, cell t b' w = cell u b' w) ∧ t.key = 0#32 ∧ u.key = 0#32 ∧ t.adr = u.adr ∧ t.di = u.di ∧
      t.cmd = shadowFor s b ∧
      ((∃ p ∈ ps, isProtected s.cfg (selOf b) p.1 = false) → u.cmd = shadowFor s b) ∧
      ((∀ p ∈ ps, isProtected s.cfg (selOf b) p.1 = true) → u.cmd = s.cmd)

/-- The protected no-op (46 R225): on a variant without hardware protection no sequence of program operations and page
erases changes a protected word of Info. -/
def Obligations.ProtectedNoOp : Prop :=
  ∀ (is : List Instr) (s t : State) (w : Nat), Ready s → w < 1024 → isProtected s.cfg .info (indexAddr w) = true →
    (∀ i ∈ is, i.wf = true ∧ ∃ op, requestOf i = some op ∧
      op ∈ [.programByte, .programHalfWord, .programWord, .programArray, .erasePage]) →
    execAll is s = .next t → cell t .info w = cell s .info w

/-- A program operation never turns a 0 bit into 1 (44 R205), but for factory-window words under hardware
protection. -/
def Obligations.ProgramsOnlyClear : Prop :=
  ∀ (s t : State) (i : Instr) (op : Opcode) (b : Bank) (w : Nat) (p q : Word), Ready s → i.wf = true →
    requestOf i = some op → op ∈ [.programByte, .programHalfWord, .programWord, .programArray] →
    exec i s = .next t → cell s b w = .val p → cell t b w = .val q →
    ¬(b = .info ∧ s.cfg.hasHwInfoProt = true ∧ inFactoryWindow s.cfg (indexAddr w) = true) →
    q &&& ~~~p = 0#32
end

