-- ==== Sys2Proof/Laws/State.lean ====
section
/-!
SUPPORT. What each named update of the state does to each field, true by unfolding.
-/

namespace Sys2Proof.Machine

/-! ### `setArray` -/

@[simp] theorem setArray_key (s : State) (b : Bank) (m : List Host.Cell) : (setArray s b m).key = s.key := by cases b <;> rfl
@[simp] theorem setArray_cmd (s : State) (b : Bank) (m : List Host.Cell) : (setArray s b m).cmd = s.cmd := by cases b <;> rfl
@[simp] theorem setArray_adr (s : State) (b : Bank) (m : List Host.Cell) : (setArray s b m).adr = s.adr := by cases b <;> rfl
@[simp] theorem setArray_di (s : State) (b : Bank) (m : List Host.Cell) : (setArray s b m).di = s.di := by cases b <;> rfl
@[simp] theorem setArray_cacheMode (s : State) (b : Bank) (m : List Host.Cell) : (setArray s b m).cacheMode = s.cacheMode := by cases b <;> rfl
@[simp] theorem setArray_busy (s : State) (b : Bank) (m : List Host.Cell) : (setArray s b m).busy = s.busy := by cases b <;> rfl
@[simp] theorem setArray_faulted (s : State) (b : Bank) (m : List Host.Cell) : (setArray s b m).faulted = s.faulted := by cases b <;> rfl
@[simp] theorem setArray_upc (s : State) (b : Bank) (m : List Host.Cell) : (setArray s b m).upc = s.upc := by cases b <;> rfl
@[simp] theorem setArray_lat (s : State) (b : Bank) (m : List Host.Cell) : (setArray s b m).lat = s.lat := by cases b <;> rfl
@[simp] theorem setArray_counts (s : State) (b : Bank) (m : List Host.Cell) : (setArray s b m).counts = s.counts := by cases b <;> rfl
@[simp] theorem setArray_doStale (s : State) (b : Bank) (m : List Host.Cell) : (setArray s b m).doStale = s.doStale := by cases b <;> rfl
@[simp] theorem setArray_tCmd (s : State) (b : Bank) (m : List Host.Cell) : (setArray s b m).tCmd = s.tCmd := by cases b <;> rfl
@[simp] theorem setArray_tHv (s : State) (b : Bank) (m : List Host.Cell) : (setArray s b m).tHv = s.tHv := by cases b <;> rfl
@[simp] theorem setArray_tSettle (s : State) (b : Bank) (m : List Host.Cell) : (setArray s b m).tSettle = s.tSettle := by cases b <;> rfl
@[simp] theorem setArray_tRcv (s : State) (b : Bank) (m : List Host.Cell) : (setArray s b m).tRcv = s.tRcv := by cases b <;> rfl
@[simp] theorem setArray_rcvDue (s : State) (b : Bank) (m : List Host.Cell) : (setArray s b m).rcvDue = s.rcvDue := by cases b <;> rfl
@[simp] theorem setArray_settleDue (s : State) (b : Bank) (m : List Host.Cell) : (setArray s b m).settleDue = s.settleDue := by cases b <;> rfl
@[simp] theorem setArray_xlatch (s : State) (b : Bank) (m : List Host.Cell) : (setArray s b m).xlatch = s.xlatch := by cases b <;> rfl
@[simp] theorem setArray_pend (s : State) (b : Bank) (m : List Host.Cell) : (setArray s b m).pend = s.pend := by cases b <;> rfl
@[simp] theorem setArray_cache (s : State) (b : Bank) (m : List Host.Cell) : (setArray s b m).cache = s.cache := by cases b <;> rfl
@[simp] theorem setArray_coreClkHz (s : State) (b : Bank) (m : List Host.Cell) : (setArray s b m).coreClkHz = s.coreClkHz := by cases b <;> rfl
@[simp] theorem setArray_delayLost (s : State) (b : Bank) (m : List Host.Cell) : (setArray s b m).delayLost = s.delayLost := by cases b <;> rfl
@[simp] theorem setArray_resp (s : State) (b : Bank) (m : List Host.Cell) : (setArray s b m).resp = s.resp := by cases b <;> rfl
@[simp] theorem setArray_rdata (s : State) (b : Bank) (m : List Host.Cell) : (setArray s b m).rdata = s.rdata := by cases b <;> rfl
@[simp] theorem setArray_faultInfo (s : State) (b : Bank) (m : List Host.Cell) : (setArray s b m).faultInfo = s.faultInfo := by cases b <;> rfl
@[simp] theorem setArray_cfg (s : State) (b : Bank) (m : List Host.Cell) : (setArray s b m).cfg = s.cfg := by cases b <;> rfl
@[simp] theorem setArray_port (s : State) (b : Bank) (m : List Host.Cell) : (setArray s b m).port = s.port := by cases b <;> rfl
@[simp] theorem setArray_sched (s : State) (b : Bank) (m : List Host.Cell) : (setArray s b m).sched = s.sched := by cases b <;> rfl
@[simp] theorem setArray_fillPlan (s : State) (b : Bank) (m : List Host.Cell) : (setArray s b m).fillPlan = s.fillPlan := by cases b <;> rfl
@[simp] theorem setArray_draws (s : State) (b : Bank) (m : List Host.Cell) : (setArray s b m).draws = s.draws := by cases b <;> rfl

@[simp] theorem array_setArray_same (s : State) (b : Bank) (m : List Host.Cell) : array (setArray s b m) b = m := by
  cases b <;> rfl

theorem array_setArray_ne (s : State) (b b2 : Bank) (m : List Host.Cell) (h : b2 ≠ b) :
    array (setArray s b m) b2 = array s b2 := by
  cases b <;> cases b2 <;> first | rfl | exact absurd rfl h

/-! ### `setLat` -/

@[simp] theorem setLat_key (s : State) (l : Latches) : (setLat s l).key = s.key := rfl
@[simp] theorem setLat_cmd (s : State) (l : Latches) : (setLat s l).cmd = s.cmd := rfl
@[simp] theorem setLat_adr (s : State) (l : Latches) : (setLat s l).adr = s.adr := rfl
@[simp] theorem setLat_di (s : State) (l : Latches) : (setLat s l).di = s.di := rfl
@[simp] theorem setLat_cacheMode (s : State) (l : Latches) : (setLat s l).cacheMode = s.cacheMode := rfl
@[simp] theorem setLat_busy (s : State) (l : Latches) : (setLat s l).busy = s.busy := rfl
@[simp] theorem setLat_faulted (s : State) (l : Latches) : (setLat s l).faulted = s.faulted := rfl
@[simp] theorem setLat_upc (s : State) (l : Latches) : (setLat s l).upc = s.upc := rfl
@[simp] theorem setLat_lat (s : State) (l : Latches) : (setLat s l).lat = l := rfl
@[simp] theorem setLat_counts (s : State) (l : Latches) : (setLat s l).counts = s.counts := rfl
@[simp] theorem setLat_doStale (s : State) (l : Latches) : (setLat s l).doStale = s.doStale := rfl
@[simp] theorem setLat_tCmd (s : State) (l : Latches) : (setLat s l).tCmd = s.tCmd := rfl
@[simp] theorem setLat_tHv (s : State) (l : Latches) : (setLat s l).tHv = s.tHv := rfl
@[simp] theorem setLat_tSettle (s : State) (l : Latches) : (setLat s l).tSettle = s.tSettle := rfl
@[simp] theorem setLat_tRcv (s : State) (l : Latches) : (setLat s l).tRcv = s.tRcv := rfl
@[simp] theorem setLat_rcvDue (s : State) (l : Latches) : (setLat s l).rcvDue = s.rcvDue := rfl
@[simp] theorem setLat_settleDue (s : State) (l : Latches) : (setLat s l).settleDue = s.settleDue := rfl
@[simp] theorem setLat_xlatch (s : State) (l : Latches) : (setLat s l).xlatch = s.xlatch := rfl
@[simp] theorem setLat_pend (s : State) (l : Latches) : (setLat s l).pend = s.pend := rfl
@[simp] theorem setLat_cache (s : State) (l : Latches) : (setLat s l).cache = s.cache := rfl
@[simp] theorem setLat_main (s : State) (l : Latches) : (setLat s l).main = s.main := rfl
@[simp] theorem setLat_info (s : State) (l : Latches) : (setLat s l).info = s.info := rfl
@[simp] theorem setLat_coreClkHz (s : State) (l : Latches) : (setLat s l).coreClkHz = s.coreClkHz := rfl
@[simp] theorem setLat_delayLost (s : State) (l : Latches) : (setLat s l).delayLost = s.delayLost := rfl
@[simp] theorem setLat_resp (s : State) (l : Latches) : (setLat s l).resp = s.resp := rfl
@[simp] theorem setLat_rdata (s : State) (l : Latches) : (setLat s l).rdata = s.rdata := rfl
@[simp] theorem setLat_faultInfo (s : State) (l : Latches) : (setLat s l).faultInfo = s.faultInfo := rfl
@[simp] theorem setLat_cfg (s : State) (l : Latches) : (setLat s l).cfg = s.cfg := rfl
@[simp] theorem setLat_port (s : State) (l : Latches) : (setLat s l).port = s.port := rfl
@[simp] theorem setLat_sched (s : State) (l : Latches) : (setLat s l).sched = s.sched := rfl
@[simp] theorem setLat_fillPlan (s : State) (l : Latches) : (setLat s l).fillPlan = s.fillPlan := rfl
@[simp] theorem setLat_draws (s : State) (l : Latches) : (setLat s l).draws = s.draws := rfl

/-! ### `wrKey` -/

@[simp] theorem wrKey_key (v : Word) (s : State) : (wrKey v s).key = v := rfl
@[simp] theorem wrKey_cmd (v : Word) (s : State) : (wrKey v s).cmd = s.cmd := rfl
@[simp] theorem wrKey_adr (v : Word) (s : State) : (wrKey v s).adr = s.adr := rfl
@[simp] theorem wrKey_di (v : Word) (s : State) : (wrKey v s).di = s.di := rfl
@[simp] theorem wrKey_cacheMode (v : Word) (s : State) : (wrKey v s).cacheMode = s.cacheMode := rfl
@[simp] theorem wrKey_busy (v : Word) (s : State) : (wrKey v s).busy = s.busy := rfl
@[simp] theorem wrKey_faulted (v : Word) (s : State) : (wrKey v s).faulted = s.faulted := rfl
@[simp] theorem wrKey_upc (v : Word) (s : State) : (wrKey v s).upc = s.upc := rfl
@[simp] theorem wrKey_lat (v : Word) (s : State) : (wrKey v s).lat = s.lat := rfl
@[simp] theorem wrKey_counts (v : Word) (s : State) : (wrKey v s).counts = s.counts := rfl
@[simp] theorem wrKey_doStale (v : Word) (s : State) : (wrKey v s).doStale = s.doStale := rfl
@[simp] theorem wrKey_tCmd (v : Word) (s : State) : (wrKey v s).tCmd = s.tCmd := rfl
@[simp] theorem wrKey_tHv (v : Word) (s : State) : (wrKey v s).tHv = s.tHv := rfl
@[simp] theorem wrKey_tSettle (v : Word) (s : State) : (wrKey v s).tSettle = s.tSettle := rfl
@[simp] theorem wrKey_tRcv (v : Word) (s : State) : (wrKey v s).tRcv = s.tRcv := rfl
@[simp] theorem wrKey_rcvDue (v : Word) (s : State) : (wrKey v s).rcvDue = s.rcvDue := rfl
@[simp] theorem wrKey_settleDue (v : Word) (s : State) : (wrKey v s).settleDue = s.settleDue := rfl
@[simp] theorem wrKey_xlatch (v : Word) (s : State) : (wrKey v s).xlatch = s.xlatch := rfl
@[simp] theorem wrKey_pend (v : Word) (s : State) : (wrKey v s).pend = s.pend := rfl
@[simp] theorem wrKey_cache (v : Word) (s : State) : (wrKey v s).cache = s.cache := rfl
@[simp] theorem wrKey_main (v : Word) (s : State) : (wrKey v s).main = s.main := rfl
@[simp] theorem wrKey_info (v : Word) (s : State) : (wrKey v s).info = s.info := rfl
@[simp] theorem wrKey_coreClkHz (v : Word) (s : State) : (wrKey v s).coreClkHz = s.coreClkHz := rfl
@[simp] theorem wrKey_delayLost (v : Word) (s : State) : (wrKey v s).delayLost = s.delayLost := rfl
@[simp] theorem wrKey_resp (v : Word) (s : State) : (wrKey v s).resp = s.resp := rfl
@[simp] theorem wrKey_rdata (v : Word) (s : State) : (wrKey v s).rdata = s.rdata := rfl
@[simp] theorem wrKey_faultInfo (v : Word) (s : State) : (wrKey v s).faultInfo = s.faultInfo := rfl
@[simp] theorem wrKey_cfg (v : Word) (s : State) : (wrKey v s).cfg = s.cfg := rfl
@[simp] theorem wrKey_port (v : Word) (s : State) : (wrKey v s).port = s.port := rfl
@[simp] theorem wrKey_sched (v : Word) (s : State) : (wrKey v s).sched = s.sched := rfl
@[simp] theorem wrKey_fillPlan (v : Word) (s : State) : (wrKey v s).fillPlan = s.fillPlan := rfl
@[simp] theorem wrKey_draws (v : Word) (s : State) : (wrKey v s).draws = s.draws := rfl

/-! ### `wrCache` -/

@[simp] theorem wrCache_key (v : Word) (s : State) : (wrCache v s).key = s.key := rfl
@[simp] theorem wrCache_cmd (v : Word) (s : State) : (wrCache v s).cmd = s.cmd := rfl
@[simp] theorem wrCache_adr (v : Word) (s : State) : (wrCache v s).adr = s.adr := rfl
@[simp] theorem wrCache_di (v : Word) (s : State) : (wrCache v s).di = s.di := rfl
@[simp] theorem wrCache_cacheMode (v : Word) (s : State) : (wrCache v s).cacheMode = v.setWidth 2 := rfl
@[simp] theorem wrCache_busy (v : Word) (s : State) : (wrCache v s).busy = s.busy := rfl
@[simp] theorem wrCache_faulted (v : Word) (s : State) : (wrCache v s).faulted = s.faulted := rfl
@[simp] theorem wrCache_upc (v : Word) (s : State) : (wrCache v s).upc = s.upc := rfl
@[simp] theorem wrCache_lat (v : Word) (s : State) : (wrCache v s).lat = s.lat := rfl
@[simp] theorem wrCache_counts (v : Word) (s : State) : (wrCache v s).counts = s.counts := rfl
@[simp] theorem wrCache_doStale (v : Word) (s : State) : (wrCache v s).doStale = s.doStale := rfl
@[simp] theorem wrCache_tCmd (v : Word) (s : State) : (wrCache v s).tCmd = s.tCmd := rfl
@[simp] theorem wrCache_tHv (v : Word) (s : State) : (wrCache v s).tHv = s.tHv := rfl
@[simp] theorem wrCache_tSettle (v : Word) (s : State) : (wrCache v s).tSettle = s.tSettle := rfl
@[simp] theorem wrCache_tRcv (v : Word) (s : State) : (wrCache v s).tRcv = s.tRcv := rfl
@[simp] theorem wrCache_rcvDue (v : Word) (s : State) : (wrCache v s).rcvDue = s.rcvDue := rfl
@[simp] theorem wrCache_settleDue (v : Word) (s : State) : (wrCache v s).settleDue = s.settleDue := rfl
@[simp] theorem wrCache_xlatch (v : Word) (s : State) : (wrCache v s).xlatch = s.xlatch := rfl
@[simp] theorem wrCache_pend (v : Word) (s : State) : (wrCache v s).pend = s.pend := rfl
@[simp] theorem wrCache_cache (v : Word) (s : State) : (wrCache v s).cache = s.cache := rfl
@[simp] theorem wrCache_main (v : Word) (s : State) : (wrCache v s).main = s.main := rfl
@[simp] theorem wrCache_info (v : Word) (s : State) : (wrCache v s).info = s.info := rfl
@[simp] theorem wrCache_coreClkHz (v : Word) (s : State) : (wrCache v s).coreClkHz = s.coreClkHz := rfl
@[simp] theorem wrCache_delayLost (v : Word) (s : State) : (wrCache v s).delayLost = s.delayLost := rfl
@[simp] theorem wrCache_resp (v : Word) (s : State) : (wrCache v s).resp = s.resp := rfl
@[simp] theorem wrCache_rdata (v : Word) (s : State) : (wrCache v s).rdata = s.rdata := rfl
@[simp] theorem wrCache_faultInfo (v : Word) (s : State) : (wrCache v s).faultInfo = s.faultInfo := rfl
@[simp] theorem wrCache_cfg (v : Word) (s : State) : (wrCache v s).cfg = s.cfg := rfl
@[simp] theorem wrCache_port (v : Word) (s : State) : (wrCache v s).port = s.port := rfl
@[simp] theorem wrCache_sched (v : Word) (s : State) : (wrCache v s).sched = s.sched := rfl
@[simp] theorem wrCache_fillPlan (v : Word) (s : State) : (wrCache v s).fillPlan = s.fillPlan := rfl
@[simp] theorem wrCache_draws (v : Word) (s : State) : (wrCache v s).draws = s.draws := rfl

/-! ### `draw` -/

@[simp] theorem draw_snd_key (s : State) : ((draw s).2).key = s.key := rfl
@[simp] theorem draw_snd_cmd (s : State) : ((draw s).2).cmd = s.cmd := rfl
@[simp] theorem draw_snd_adr (s : State) : ((draw s).2).adr = s.adr := rfl
@[simp] theorem draw_snd_di (s : State) : ((draw s).2).di = s.di := rfl
@[simp] theorem draw_snd_cacheMode (s : State) : ((draw s).2).cacheMode = s.cacheMode := rfl
@[simp] theorem draw_snd_busy (s : State) : ((draw s).2).busy = s.busy := rfl
@[simp] theorem draw_snd_faulted (s : State) : ((draw s).2).faulted = s.faulted := rfl
@[simp] theorem draw_snd_upc (s : State) : ((draw s).2).upc = s.upc := rfl
@[simp] theorem draw_snd_lat (s : State) : ((draw s).2).lat = s.lat := rfl
@[simp] theorem draw_snd_counts (s : State) : ((draw s).2).counts = s.counts := rfl
@[simp] theorem draw_snd_doStale (s : State) : ((draw s).2).doStale = s.doStale := rfl
@[simp] theorem draw_snd_tCmd (s : State) : ((draw s).2).tCmd = s.tCmd := rfl
@[simp] theorem draw_snd_tHv (s : State) : ((draw s).2).tHv = s.tHv := rfl
@[simp] theorem draw_snd_tSettle (s : State) : ((draw s).2).tSettle = s.tSettle := rfl
@[simp] theorem draw_snd_tRcv (s : State) : ((draw s).2).tRcv = s.tRcv := rfl
@[simp] theorem draw_snd_rcvDue (s : State) : ((draw s).2).rcvDue = s.rcvDue := rfl
@[simp] theorem draw_snd_settleDue (s : State) : ((draw s).2).settleDue = s.settleDue := rfl
@[simp] theorem draw_snd_xlatch (s : State) : ((draw s).2).xlatch = s.xlatch := rfl
@[simp] theorem draw_snd_pend (s : State) : ((draw s).2).pend = s.pend := rfl
@[simp] theorem draw_snd_cache (s : State) : ((draw s).2).cache = s.cache := rfl
@[simp] theorem draw_snd_main (s : State) : ((draw s).2).main = s.main := rfl
@[simp] theorem draw_snd_info (s : State) : ((draw s).2).info = s.info := rfl
@[simp] theorem draw_snd_coreClkHz (s : State) : ((draw s).2).coreClkHz = s.coreClkHz := rfl
@[simp] theorem draw_snd_delayLost (s : State) : ((draw s).2).delayLost = s.delayLost := rfl
@[simp] theorem draw_snd_resp (s : State) : ((draw s).2).resp = s.resp := rfl
@[simp] theorem draw_snd_rdata (s : State) : ((draw s).2).rdata = s.rdata := rfl
@[simp] theorem draw_snd_faultInfo (s : State) : ((draw s).2).faultInfo = s.faultInfo := rfl
@[simp] theorem draw_snd_cfg (s : State) : ((draw s).2).cfg = s.cfg := rfl
@[simp] theorem draw_snd_port (s : State) : ((draw s).2).port = s.port := rfl
@[simp] theorem draw_snd_sched (s : State) : ((draw s).2).sched = s.sched := rfl
@[simp] theorem draw_snd_fillPlan (s : State) : ((draw s).2).fillPlan = s.fillPlan := rfl
@[simp] theorem draw_snd_draws (s : State) : ((draw s).2).draws = s.draws + 1 := rfl

@[simp] theorem draw_fst (s : State) : (draw s).1 = Config.draw s.draws := rfl

/-! ### `advance` -/

@[simp] theorem advance_key (s : State) (us : Nat) : (advance s us).key = s.key := rfl
@[simp] theorem advance_cmd (s : State) (us : Nat) : (advance s us).cmd = s.cmd := rfl
@[simp] theorem advance_adr (s : State) (us : Nat) : (advance s us).adr = s.adr := rfl
@[simp] theorem advance_di (s : State) (us : Nat) : (advance s us).di = s.di := rfl
@[simp] theorem advance_cacheMode (s : State) (us : Nat) : (advance s us).cacheMode = s.cacheMode := rfl
@[simp] theorem advance_busy (s : State) (us : Nat) : (advance s us).busy = s.busy := rfl
@[simp] theorem advance_faulted (s : State) (us : Nat) : (advance s us).faulted = s.faulted := rfl
@[simp] theorem advance_upc (s : State) (us : Nat) : (advance s us).upc = s.upc := rfl
@[simp] theorem advance_lat (s : State) (us : Nat) : (advance s us).lat = s.lat := rfl
@[simp] theorem advance_counts (s : State) (us : Nat) : (advance s us).counts = s.counts := rfl
@[simp] theorem advance_doStale (s : State) (us : Nat) : (advance s us).doStale = s.doStale := rfl
@[simp] theorem advance_tCmd (s : State) (us : Nat) : (advance s us).tCmd = s.tCmd + us := rfl
@[simp] theorem advance_tHv (s : State) (us : Nat) : (advance s us).tHv = s.tHv + us := rfl
@[simp] theorem advance_tSettle (s : State) (us : Nat) : (advance s us).tSettle = s.tSettle + us := rfl
@[simp] theorem advance_tRcv (s : State) (us : Nat) : (advance s us).tRcv = s.tRcv + us := rfl
@[simp] theorem advance_rcvDue (s : State) (us : Nat) : (advance s us).rcvDue = s.rcvDue := rfl
@[simp] theorem advance_settleDue (s : State) (us : Nat) : (advance s us).settleDue = s.settleDue := rfl
@[simp] theorem advance_xlatch (s : State) (us : Nat) : (advance s us).xlatch = s.xlatch := rfl
@[simp] theorem advance_pend (s : State) (us : Nat) : (advance s us).pend = s.pend := rfl
@[simp] theorem advance_cache (s : State) (us : Nat) : (advance s us).cache = s.cache := rfl
@[simp] theorem advance_main (s : State) (us : Nat) : (advance s us).main = s.main := rfl
@[simp] theorem advance_info (s : State) (us : Nat) : (advance s us).info = s.info := rfl
@[simp] theorem advance_coreClkHz (s : State) (us : Nat) : (advance s us).coreClkHz = s.coreClkHz := rfl
@[simp] theorem advance_delayLost (s : State) (us : Nat) : (advance s us).delayLost = s.delayLost := rfl
@[simp] theorem advance_resp (s : State) (us : Nat) : (advance s us).resp = s.resp := rfl
@[simp] theorem advance_rdata (s : State) (us : Nat) : (advance s us).rdata = s.rdata := rfl
@[simp] theorem advance_faultInfo (s : State) (us : Nat) : (advance s us).faultInfo = s.faultInfo := rfl
@[simp] theorem advance_cfg (s : State) (us : Nat) : (advance s us).cfg = s.cfg := rfl
@[simp] theorem advance_port (s : State) (us : Nat) : (advance s us).port = s.port := rfl
@[simp] theorem advance_sched (s : State) (us : Nat) : (advance s us).sched = s.sched := rfl
@[simp] theorem advance_fillPlan (s : State) (us : Nat) : (advance s us).fillPlan = s.fillPlan := rfl
@[simp] theorem advance_draws (s : State) (us : Nat) : (advance s us).draws = s.draws := rfl

/-! ### `delayFor` -/

@[simp] theorem delayFor_key (t : TimingName) (s : State) : (delayFor t s).key = s.key := rfl
@[simp] theorem delayFor_cmd (t : TimingName) (s : State) : (delayFor t s).cmd = s.cmd := rfl
@[simp] theorem delayFor_adr (t : TimingName) (s : State) : (delayFor t s).adr = s.adr := rfl
@[simp] theorem delayFor_di (t : TimingName) (s : State) : (delayFor t s).di = s.di := rfl
@[simp] theorem delayFor_cacheMode (t : TimingName) (s : State) : (delayFor t s).cacheMode = s.cacheMode := rfl
@[simp] theorem delayFor_busy (t : TimingName) (s : State) : (delayFor t s).busy = s.busy := rfl
@[simp] theorem delayFor_faulted (t : TimingName) (s : State) : (delayFor t s).faulted = s.faulted := rfl
@[simp] theorem delayFor_upc (t : TimingName) (s : State) : (delayFor t s).upc = s.upc := rfl
@[simp] theorem delayFor_lat (t : TimingName) (s : State) : (delayFor t s).lat = s.lat := rfl
@[simp] theorem delayFor_counts (t : TimingName) (s : State) : (delayFor t s).counts = { s.counts with dcnt := Config.idleCount s.draws } := rfl
@[simp] theorem delayFor_doStale (t : TimingName) (s : State) : (delayFor t s).doStale = s.doStale := rfl
@[simp] theorem delayFor_tCmd (t : TimingName) (s : State) : (delayFor t s).tCmd = s.tCmd + timingUs s.cfg t := rfl
@[simp] theorem delayFor_tHv (t : TimingName) (s : State) : (delayFor t s).tHv = s.tHv + timingUs s.cfg t := rfl
@[simp] theorem delayFor_tSettle (t : TimingName) (s : State) : (delayFor t s).tSettle = s.tSettle + timingUs s.cfg t := rfl
@[simp] theorem delayFor_tRcv (t : TimingName) (s : State) : (delayFor t s).tRcv = s.tRcv + timingUs s.cfg t := rfl
@[simp] theorem delayFor_rcvDue (t : TimingName) (s : State) : (delayFor t s).rcvDue = s.rcvDue := rfl
@[simp] theorem delayFor_settleDue (t : TimingName) (s : State) : (delayFor t s).settleDue = s.settleDue := rfl
@[simp] theorem delayFor_xlatch (t : TimingName) (s : State) : (delayFor t s).xlatch = s.xlatch := rfl
@[simp] theorem delayFor_pend (t : TimingName) (s : State) : (delayFor t s).pend = s.pend := rfl
@[simp] theorem delayFor_cache (t : TimingName) (s : State) : (delayFor t s).cache = s.cache := rfl
@[simp] theorem delayFor_main (t : TimingName) (s : State) : (delayFor t s).main = s.main := rfl
@[simp] theorem delayFor_info (t : TimingName) (s : State) : (delayFor t s).info = s.info := rfl
@[simp] theorem delayFor_coreClkHz (t : TimingName) (s : State) : (delayFor t s).coreClkHz = s.coreClkHz := rfl
@[simp] theorem delayFor_delayLost (t : TimingName) (s : State) : (delayFor t s).delayLost = s.delayLost := rfl
@[simp] theorem delayFor_resp (t : TimingName) (s : State) : (delayFor t s).resp = s.resp := rfl
@[simp] theorem delayFor_rdata (t : TimingName) (s : State) : (delayFor t s).rdata = s.rdata := rfl
@[simp] theorem delayFor_faultInfo (t : TimingName) (s : State) : (delayFor t s).faultInfo = s.faultInfo := rfl
@[simp] theorem delayFor_cfg (t : TimingName) (s : State) : (delayFor t s).cfg = s.cfg := rfl
@[simp] theorem delayFor_port (t : TimingName) (s : State) : (delayFor t s).port = s.port := rfl
@[simp] theorem delayFor_sched (t : TimingName) (s : State) : (delayFor t s).sched = s.sched := rfl
@[simp] theorem delayFor_fillPlan (t : TimingName) (s : State) : (delayFor t s).fillPlan = s.fillPlan := rfl
@[simp] theorem delayFor_draws (t : TimingName) (s : State) : (delayFor t s).draws = s.draws := rfl

/-! ### `respond` -/

@[simp] theorem respond_key (r : Response) (s : State) : (respond r s).key = s.key := rfl
@[simp] theorem respond_cmd (r : Response) (s : State) : (respond r s).cmd = s.cmd := rfl
@[simp] theorem respond_adr (r : Response) (s : State) : (respond r s).adr = s.adr := rfl
@[simp] theorem respond_di (r : Response) (s : State) : (respond r s).di = s.di := rfl
@[simp] theorem respond_cacheMode (r : Response) (s : State) : (respond r s).cacheMode = s.cacheMode := rfl
@[simp] theorem respond_busy (r : Response) (s : State) : (respond r s).busy = false := rfl
@[simp] theorem respond_faulted (r : Response) (s : State) : (respond r s).faulted = s.faulted := rfl
@[simp] theorem respond_upc (r : Response) (s : State) : (respond r s).upc = .idle := rfl
@[simp] theorem respond_lat (r : Response) (s : State) : (respond r s).lat = Config.freeLatches s.draws := rfl
@[simp] theorem respond_counts (r : Response) (s : State) : (respond r s).counts = s.counts := rfl
@[simp] theorem respond_doStale (r : Response) (s : State) : (respond r s).doStale = s.doStale := rfl
@[simp] theorem respond_tCmd (r : Response) (s : State) : (respond r s).tCmd = s.tCmd := rfl
@[simp] theorem respond_tHv (r : Response) (s : State) : (respond r s).tHv = s.tHv := rfl
@[simp] theorem respond_tSettle (r : Response) (s : State) : (respond r s).tSettle = s.tSettle := rfl
@[simp] theorem respond_tRcv (r : Response) (s : State) : (respond r s).tRcv = s.tRcv := rfl
@[simp] theorem respond_rcvDue (r : Response) (s : State) : (respond r s).rcvDue = s.rcvDue := rfl
@[simp] theorem respond_settleDue (r : Response) (s : State) : (respond r s).settleDue = s.settleDue := rfl
@[simp] theorem respond_xlatch (r : Response) (s : State) : (respond r s).xlatch = s.xlatch := rfl
@[simp] theorem respond_pend (r : Response) (s : State) : (respond r s).pend = s.pend := rfl
@[simp] theorem respond_cache (r : Response) (s : State) : (respond r s).cache = s.cache := rfl
@[simp] theorem respond_main (r : Response) (s : State) : (respond r s).main = s.main := rfl
@[simp] theorem respond_info (r : Response) (s : State) : (respond r s).info = s.info := rfl
@[simp] theorem respond_coreClkHz (r : Response) (s : State) : (respond r s).coreClkHz = s.coreClkHz := rfl
@[simp] theorem respond_delayLost (r : Response) (s : State) : (respond r s).delayLost = s.delayLost := rfl
@[simp] theorem respond_resp (r : Response) (s : State) : (respond r s).resp = some r := rfl
@[simp] theorem respond_rdata (r : Response) (s : State) : (respond r s).rdata = s.rdata := rfl
@[simp] theorem respond_faultInfo (r : Response) (s : State) : (respond r s).faultInfo = s.faultInfo := rfl
@[simp] theorem respond_cfg (r : Response) (s : State) : (respond r s).cfg = s.cfg := rfl
@[simp] theorem respond_port (r : Response) (s : State) : (respond r s).port = s.port := rfl
@[simp] theorem respond_sched (r : Response) (s : State) : (respond r s).sched = s.sched := rfl
@[simp] theorem respond_fillPlan (r : Response) (s : State) : (respond r s).fillPlan = s.fillPlan := rfl
@[simp] theorem respond_draws (r : Response) (s : State) : (respond r s).draws = s.draws + 1 := rfl

/-! ### `raiseFault` -/

@[simp] theorem raiseFault_key (f : FaultInfo) (s : State) : (raiseFault f s).key = 0#32 := rfl
@[simp] theorem raiseFault_cmd (f : FaultInfo) (s : State) : (raiseFault f s).cmd = s.cmd := rfl
@[simp] theorem raiseFault_adr (f : FaultInfo) (s : State) : (raiseFault f s).adr = s.adr := rfl
@[simp] theorem raiseFault_di (f : FaultInfo) (s : State) : (raiseFault f s).di = s.di := rfl
@[simp] theorem raiseFault_cacheMode (f : FaultInfo) (s : State) : (raiseFault f s).cacheMode = s.cacheMode := rfl
@[simp] theorem raiseFault_busy (f : FaultInfo) (s : State) : (raiseFault f s).busy = false := rfl
@[simp] theorem raiseFault_faulted (f : FaultInfo) (s : State) : (raiseFault f s).faulted = true := rfl
@[simp] theorem raiseFault_upc (f : FaultInfo) (s : State) : (raiseFault f s).upc = .idle := rfl
@[simp] theorem raiseFault_lat (f : FaultInfo) (s : State) : (raiseFault f s).lat = Config.freeLatches s.draws := rfl
@[simp] theorem raiseFault_counts (f : FaultInfo) (s : State) : (raiseFault f s).counts = s.counts := rfl
@[simp] theorem raiseFault_doStale (f : FaultInfo) (s : State) : (raiseFault f s).doStale = s.doStale := rfl
@[simp] theorem raiseFault_tCmd (f : FaultInfo) (s : State) : (raiseFault f s).tCmd = s.tCmd := rfl
@[simp] theorem raiseFault_tHv (f : FaultInfo) (s : State) : (raiseFault f s).tHv = s.tHv := rfl
@[simp] theorem raiseFault_tSettle (f : FaultInfo) (s : State) : (raiseFault f s).tSettle = s.tSettle := rfl
@[simp] theorem raiseFault_tRcv (f : FaultInfo) (s : State) : (raiseFault f s).tRcv = s.tRcv := rfl
@[simp] theorem raiseFault_rcvDue (f : FaultInfo) (s : State) : (raiseFault f s).rcvDue = s.rcvDue := rfl
@[simp] theorem raiseFault_settleDue (f : FaultInfo) (s : State) : (raiseFault f s).settleDue = s.settleDue := rfl
@[simp] theorem raiseFault_xlatch (f : FaultInfo) (s : State) : (raiseFault f s).xlatch = s.xlatch := rfl
@[simp] theorem raiseFault_pend (f : FaultInfo) (s : State) : (raiseFault f s).pend = s.pend := rfl
@[simp] theorem raiseFault_cache (f : FaultInfo) (s : State) : (raiseFault f s).cache = s.cache := rfl
@[simp] theorem raiseFault_main (f : FaultInfo) (s : State) : (raiseFault f s).main = s.main := rfl
@[simp] theorem raiseFault_info (f : FaultInfo) (s : State) : (raiseFault f s).info = s.info := rfl
@[simp] theorem raiseFault_coreClkHz (f : FaultInfo) (s : State) : (raiseFault f s).coreClkHz = s.coreClkHz := rfl
@[simp] theorem raiseFault_delayLost (f : FaultInfo) (s : State) : (raiseFault f s).delayLost = s.delayLost := rfl
@[simp] theorem raiseFault_resp (f : FaultInfo) (s : State) : (raiseFault f s).resp = some { status := faultCode f, results := [] } := rfl
@[simp] theorem raiseFault_rdata (f : FaultInfo) (s : State) : (raiseFault f s).rdata = s.rdata := rfl
@[simp] theorem raiseFault_faultInfo (f : FaultInfo) (s : State) : (raiseFault f s).faultInfo = some f := rfl
@[simp] theorem raiseFault_cfg (f : FaultInfo) (s : State) : (raiseFault f s).cfg = s.cfg := rfl
@[simp] theorem raiseFault_port (f : FaultInfo) (s : State) : (raiseFault f s).port = s.port := rfl
@[simp] theorem raiseFault_sched (f : FaultInfo) (s : State) : (raiseFault f s).sched = s.sched := rfl
@[simp] theorem raiseFault_fillPlan (f : FaultInfo) (s : State) : (raiseFault f s).fillPlan = s.fillPlan := rfl
@[simp] theorem raiseFault_draws (f : FaultInfo) (s : State) : (raiseFault f s).draws = s.draws + 1 := rfl

/-! ### `finish` -/

@[simp] theorem finish_key (s : State) : (finish s).key = s.key := rfl
@[simp] theorem finish_cmd (s : State) : (finish s).cmd = s.cmd := rfl
@[simp] theorem finish_adr (s : State) : (finish s).adr = s.adr := rfl
@[simp] theorem finish_di (s : State) : (finish s).di = s.di := rfl
@[simp] theorem finish_cacheMode (s : State) : (finish s).cacheMode = s.cacheMode := rfl
@[simp] theorem finish_busy (s : State) : (finish s).busy = false := rfl
@[simp] theorem finish_faulted (s : State) : (finish s).faulted = s.faulted := rfl
@[simp] theorem finish_upc (s : State) : (finish s).upc = .idle := rfl
@[simp] theorem finish_lat (s : State) : (finish s).lat = Config.freeLatches s.draws := rfl
@[simp] theorem finish_counts (s : State) : (finish s).counts = s.counts := rfl
@[simp] theorem finish_doStale (s : State) : (finish s).doStale = s.doStale := rfl
@[simp] theorem finish_tCmd (s : State) : (finish s).tCmd = s.tCmd := rfl
@[simp] theorem finish_tHv (s : State) : (finish s).tHv = s.tHv := rfl
@[simp] theorem finish_tSettle (s : State) : (finish s).tSettle = s.tSettle := rfl
@[simp] theorem finish_tRcv (s : State) : (finish s).tRcv = s.tRcv := rfl
@[simp] theorem finish_rcvDue (s : State) : (finish s).rcvDue = s.rcvDue := rfl
@[simp] theorem finish_settleDue (s : State) : (finish s).settleDue = s.settleDue := rfl
@[simp] theorem finish_xlatch (s : State) : (finish s).xlatch = s.xlatch := rfl
@[simp] theorem finish_pend (s : State) : (finish s).pend = s.pend := rfl
@[simp] theorem finish_cache (s : State) : (finish s).cache = s.cache := rfl
@[simp] theorem finish_main (s : State) : (finish s).main = s.main := rfl
@[simp] theorem finish_info (s : State) : (finish s).info = s.info := rfl
@[simp] theorem finish_coreClkHz (s : State) : (finish s).coreClkHz = s.coreClkHz := rfl
@[simp] theorem finish_delayLost (s : State) : (finish s).delayLost = s.delayLost := rfl
@[simp] theorem finish_resp (s : State) : (finish s).resp = some { status := 0#32, results := results s } := rfl
@[simp] theorem finish_rdata (s : State) : (finish s).rdata = s.rdata := rfl
@[simp] theorem finish_faultInfo (s : State) : (finish s).faultInfo = s.faultInfo := rfl
@[simp] theorem finish_cfg (s : State) : (finish s).cfg = s.cfg := rfl
@[simp] theorem finish_port (s : State) : (finish s).port = s.port := rfl
@[simp] theorem finish_sched (s : State) : (finish s).sched = s.sched := rfl
@[simp] theorem finish_fillPlan (s : State) : (finish s).fillPlan = s.fillPlan := rfl
@[simp] theorem finish_draws (s : State) : (finish s).draws = s.draws + 1 := rfl

/-! ### `recoveryBegins` -/

@[simp] theorem recoveryBegins_key (k : Bool) (s : State) : (recoveryBegins k s).key = s.key := rfl
@[simp] theorem recoveryBegins_cmd (k : Bool) (s : State) : (recoveryBegins k s).cmd = s.cmd := rfl
@[simp] theorem recoveryBegins_adr (k : Bool) (s : State) : (recoveryBegins k s).adr = s.adr := rfl
@[simp] theorem recoveryBegins_di (k : Bool) (s : State) : (recoveryBegins k s).di = s.di := rfl
@[simp] theorem recoveryBegins_cacheMode (k : Bool) (s : State) : (recoveryBegins k s).cacheMode = s.cacheMode := rfl
@[simp] theorem recoveryBegins_busy (k : Bool) (s : State) : (recoveryBegins k s).busy = s.busy := rfl
@[simp] theorem recoveryBegins_faulted (k : Bool) (s : State) : (recoveryBegins k s).faulted = s.faulted := rfl
@[simp] theorem recoveryBegins_upc (k : Bool) (s : State) : (recoveryBegins k s).upc = s.upc := rfl
@[simp] theorem recoveryBegins_lat (k : Bool) (s : State) : (recoveryBegins k s).lat = s.lat := rfl
@[simp] theorem recoveryBegins_counts (k : Bool) (s : State) : (recoveryBegins k s).counts = s.counts := rfl
@[simp] theorem recoveryBegins_doStale (k : Bool) (s : State) : (recoveryBegins k s).doStale = s.doStale := rfl
@[simp] theorem recoveryBegins_tCmd (k : Bool) (s : State) : (recoveryBegins k s).tCmd = s.tCmd := rfl
@[simp] theorem recoveryBegins_tHv (k : Bool) (s : State) : (recoveryBegins k s).tHv = s.tHv := rfl
@[simp] theorem recoveryBegins_tSettle (k : Bool) (s : State) : (recoveryBegins k s).tSettle = (if k then 0 else s.tSettle) := rfl
@[simp] theorem recoveryBegins_tRcv (k : Bool) (s : State) : (recoveryBegins k s).tRcv = 0 := rfl
@[simp] theorem recoveryBegins_rcvDue (k : Bool) (s : State) : (recoveryBegins k s).rcvDue = true := rfl
@[simp] theorem recoveryBegins_settleDue (k : Bool) (s : State) : (recoveryBegins k s).settleDue = (k || s.settleDue) := rfl
@[simp] theorem recoveryBegins_xlatch (k : Bool) (s : State) : (recoveryBegins k s).xlatch = s.xlatch := rfl
@[simp] theorem recoveryBegins_pend (k : Bool) (s : State) : (recoveryBegins k s).pend = s.pend := rfl
@[simp] theorem recoveryBegins_cache (k : Bool) (s : State) : (recoveryBegins k s).cache = s.cache := rfl
@[simp] theorem recoveryBegins_main (k : Bool) (s : State) : (recoveryBegins k s).main = s.main := rfl
@[simp] theorem recoveryBegins_info (k : Bool) (s : State) : (recoveryBegins k s).info = s.info := rfl
@[simp] theorem recoveryBegins_coreClkHz (k : Bool) (s : State) : (recoveryBegins k s).coreClkHz = s.coreClkHz := rfl
@[simp] theorem recoveryBegins_delayLost (k : Bool) (s : State) : (recoveryBegins k s).delayLost = s.delayLost := rfl
@[simp] theorem recoveryBegins_resp (k : Bool) (s : State) : (recoveryBegins k s).resp = s.resp := rfl
@[simp] theorem recoveryBegins_rdata (k : Bool) (s : State) : (recoveryBegins k s).rdata = s.rdata := rfl
@[simp] theorem recoveryBegins_faultInfo (k : Bool) (s : State) : (recoveryBegins k s).faultInfo = s.faultInfo := rfl
@[simp] theorem recoveryBegins_cfg (k : Bool) (s : State) : (recoveryBegins k s).cfg = s.cfg := rfl
@[simp] theorem recoveryBegins_port (k : Bool) (s : State) : (recoveryBegins k s).port = s.port := rfl
@[simp] theorem recoveryBegins_sched (k : Bool) (s : State) : (recoveryBegins k s).sched = s.sched := rfl
@[simp] theorem recoveryBegins_fillPlan (k : Bool) (s : State) : (recoveryBegins k s).fillPlan = s.fillPlan := rfl
@[simp] theorem recoveryBegins_draws (k : Bool) (s : State) : (recoveryBegins k s).draws = s.draws := rfl

/-! ### `accept` -/

@[simp] theorem accept_key (q : Request) (s : State) : (accept q s).key = s.key := rfl
@[simp] theorem accept_cmd (q : Request) (s : State) : (accept q s).cmd = s.cmd := rfl
@[simp] theorem accept_adr (q : Request) (s : State) : (accept q s).adr = s.adr := rfl
@[simp] theorem accept_di (q : Request) (s : State) : (accept q s).di = s.di := rfl
@[simp] theorem accept_cacheMode (q : Request) (s : State) : (accept q s).cacheMode = s.cacheMode := rfl
@[simp] theorem accept_busy (q : Request) (s : State) : (accept q s).busy = true := rfl
@[simp] theorem accept_faulted (q : Request) (s : State) : (accept q s).faulted = s.faulted := rfl
@[simp] theorem accept_upc (q : Request) (s : State) : (accept q s).upc = s.upc := rfl
@[simp] theorem accept_counts (q : Request) (s : State) : (accept q s).counts = countsOf s.cfg s.coreClkHz s.counts.dcnt := rfl
@[simp] theorem accept_doStale (q : Request) (s : State) : (accept q s).doStale = s.doStale := rfl
@[simp] theorem accept_tCmd (q : Request) (s : State) : (accept q s).tCmd = s.tCmd := rfl
@[simp] theorem accept_tHv (q : Request) (s : State) : (accept q s).tHv = s.tHv := rfl
@[simp] theorem accept_tSettle (q : Request) (s : State) : (accept q s).tSettle = s.tSettle := rfl
@[simp] theorem accept_tRcv (q : Request) (s : State) : (accept q s).tRcv = s.tRcv := rfl
@[simp] theorem accept_rcvDue (q : Request) (s : State) : (accept q s).rcvDue = s.rcvDue := rfl
@[simp] theorem accept_settleDue (q : Request) (s : State) : (accept q s).settleDue = s.settleDue := rfl
@[simp] theorem accept_xlatch (q : Request) (s : State) : (accept q s).xlatch = s.xlatch := rfl
@[simp] theorem accept_pend (q : Request) (s : State) : (accept q s).pend = s.pend := rfl
@[simp] theorem accept_cache (q : Request) (s : State) : (accept q s).cache = s.cache := rfl
@[simp] theorem accept_main (q : Request) (s : State) : (accept q s).main = s.main := rfl
@[simp] theorem accept_info (q : Request) (s : State) : (accept q s).info = s.info := rfl
@[simp] theorem accept_coreClkHz (q : Request) (s : State) : (accept q s).coreClkHz = s.coreClkHz := rfl
@[simp] theorem accept_delayLost (q : Request) (s : State) : (accept q s).delayLost = s.delayLost := rfl
@[simp] theorem accept_resp (q : Request) (s : State) : (accept q s).resp = none := rfl
@[simp] theorem accept_rdata (q : Request) (s : State) : (accept q s).rdata = s.rdata := rfl
@[simp] theorem accept_faultInfo (q : Request) (s : State) : (accept q s).faultInfo = s.faultInfo := rfl
@[simp] theorem accept_cfg (q : Request) (s : State) : (accept q s).cfg = s.cfg := rfl
@[simp] theorem accept_port (q : Request) (s : State) : (accept q s).port = s.port := rfl
@[simp] theorem accept_sched (q : Request) (s : State) : (accept q s).sched = s.sched := rfl
@[simp] theorem accept_fillPlan (q : Request) (s : State) : (accept q s).fillPlan = s.fillPlan := rfl
@[simp] theorem accept_draws (q : Request) (s : State) : (accept q s).draws = s.draws := rfl

/-! ### `noteDelay` -/

@[simp] theorem noteDelay_key (new : CmdWord) (s : State) : (noteDelay new s).key = s.key := rfl
@[simp] theorem noteDelay_cmd (new : CmdWord) (s : State) : (noteDelay new s).cmd = s.cmd := rfl
@[simp] theorem noteDelay_adr (new : CmdWord) (s : State) : (noteDelay new s).adr = s.adr := rfl
@[simp] theorem noteDelay_di (new : CmdWord) (s : State) : (noteDelay new s).di = s.di := rfl
@[simp] theorem noteDelay_cacheMode (new : CmdWord) (s : State) : (noteDelay new s).cacheMode = s.cacheMode := rfl
@[simp] theorem noteDelay_busy (new : CmdWord) (s : State) : (noteDelay new s).busy = s.busy := rfl
@[simp] theorem noteDelay_faulted (new : CmdWord) (s : State) : (noteDelay new s).faulted = s.faulted := rfl
@[simp] theorem noteDelay_upc (new : CmdWord) (s : State) : (noteDelay new s).upc = s.upc := rfl
@[simp] theorem noteDelay_lat (new : CmdWord) (s : State) : (noteDelay new s).lat = s.lat := rfl
@[simp] theorem noteDelay_counts (new : CmdWord) (s : State) : (noteDelay new s).counts = s.counts := rfl
@[simp] theorem noteDelay_doStale (new : CmdWord) (s : State) : (noteDelay new s).doStale = s.doStale := rfl
@[simp] theorem noteDelay_tCmd (new : CmdWord) (s : State) : (noteDelay new s).tCmd = s.tCmd := rfl
@[simp] theorem noteDelay_tHv (new : CmdWord) (s : State) : (noteDelay new s).tHv = s.tHv := rfl
@[simp] theorem noteDelay_tSettle (new : CmdWord) (s : State) : (noteDelay new s).tSettle = s.tSettle := rfl
@[simp] theorem noteDelay_tRcv (new : CmdWord) (s : State) : (noteDelay new s).tRcv = s.tRcv := rfl
@[simp] theorem noteDelay_rcvDue (new : CmdWord) (s : State) : (noteDelay new s).rcvDue = s.rcvDue := rfl
@[simp] theorem noteDelay_settleDue (new : CmdWord) (s : State) : (noteDelay new s).settleDue = s.settleDue := rfl
@[simp] theorem noteDelay_xlatch (new : CmdWord) (s : State) : (noteDelay new s).xlatch = s.xlatch := rfl
@[simp] theorem noteDelay_pend (new : CmdWord) (s : State) : (noteDelay new s).pend = s.pend := rfl
@[simp] theorem noteDelay_cache (new : CmdWord) (s : State) : (noteDelay new s).cache = s.cache := rfl
@[simp] theorem noteDelay_main (new : CmdWord) (s : State) : (noteDelay new s).main = s.main := rfl
@[simp] theorem noteDelay_info (new : CmdWord) (s : State) : (noteDelay new s).info = s.info := rfl
@[simp] theorem noteDelay_coreClkHz (new : CmdWord) (s : State) : (noteDelay new s).coreClkHz = s.coreClkHz := rfl
@[simp] theorem noteDelay_resp (new : CmdWord) (s : State) : (noteDelay new s).resp = s.resp := rfl
@[simp] theorem noteDelay_rdata (new : CmdWord) (s : State) : (noteDelay new s).rdata = s.rdata := rfl
@[simp] theorem noteDelay_faultInfo (new : CmdWord) (s : State) : (noteDelay new s).faultInfo = s.faultInfo := rfl
@[simp] theorem noteDelay_cfg (new : CmdWord) (s : State) : (noteDelay new s).cfg = s.cfg := rfl
@[simp] theorem noteDelay_port (new : CmdWord) (s : State) : (noteDelay new s).port = s.port := rfl
@[simp] theorem noteDelay_sched (new : CmdWord) (s : State) : (noteDelay new s).sched = s.sched := rfl
@[simp] theorem noteDelay_fillPlan (new : CmdWord) (s : State) : (noteDelay new s).fillPlan = s.fillPlan := rfl
@[simp] theorem noteDelay_draws (new : CmdWord) (s : State) : (noteDelay new s).draws = s.draws := rfl
@[simp] theorem noteDelay_delayLost (new : CmdWord) (s : State) :
    (noteDelay new s).delayLost = delayNoted new s := rfl

/-- Locked, nothing is noted. -/
theorem noteDelay_locked {new : CmdWord} {s : State} (h : locked s = true) : noteDelay new s = s := by
  simp only [noteDelay, delayNoted, h, Bool.not_true, Bool.false_and, Bool.or_false]

/-- A write that keeps Delay-Cycles is not noted. -/
theorem noteDelay_same {new : CmdWord} {s : State} (h : new.delay = s.cmd.delay) : noteDelay new s = s := by
  simp only [noteDelay, delayNoted, h, bne_self_eq_false, Bool.and_false, Bool.or_false]

end Sys2Proof.Machine
end

