-- ==== Sys2Proof/Laws/Table.lean ====
section
/-!
SUPPORT. Laws of the sorted tables: a read after a write or a removal, and that both keep the keys rising.
-/

namespace Sys2Proof.Machine

variable {α : Type}

/-- A read after a write: the value written at its key, every other key as before. -/
theorem tableGet_tableSet (m : List (Nat × α)) (a b : Nat) (v : α) :
    tableGet (tableSet m a v) b = if a = b then some v else tableGet m b := by
  induction m with
  | nil => simp [tableSet, tableGet]
  | cons e m ih =>
    obtain ⟨k, u⟩ := e
    simp only [tableSet]
    split_ifs <;> grind [tableGet]

/-- A read after a removal by keys: removed keys have no entry, every other key is as before. -/
theorem tableGet_tableDrop (p : Nat → Bool) (m : List (Nat × α)) (b : Nat) :
    tableGet (tableDrop p m) b = if p b then none else tableGet m b := by
  induction m with
  | nil => simp [tableDrop, tableGet]
  | cons e m ih =>
    obtain ⟨k, u⟩ := e
    simp only [tableDrop, List.filter_cons] at ih ⊢
    by_cases hk : k = b <;> by_cases hp : p k <;> simp_all [tableGet]

/-- Rising keys, as a pairwise fact. -/
theorem tableSorted_iff (m : List (Nat × α)) : tableSorted m = true ↔ m.Pairwise fun x y => x.1 < y.1 := by
  induction m with
  | nil => simp [tableSorted]
  | cons e m ih =>
    obtain ⟨k, u⟩ := e
    cases m with
    | nil => simp [tableSorted]
    | cons e' m =>
      obtain ⟨k', u'⟩ := e'
      simp only [tableSorted, Bool.and_eq_true, decide_eq_true_eq, ih, List.pairwise_cons, List.mem_cons]
      constructor
      · rintro ⟨h1, h2, h3⟩
        refine ⟨?_, h2, h3⟩
        rintro x (rfl | hx)
        · exact h1
        · exact lt_trans h1 (h2 x hx)
      · rintro ⟨h1, h2, h3⟩
        exact ⟨h1 _ (Or.inl rfl), h2, h3⟩

/-- The keys of a table after a write are the old ones and the written one. -/
theorem mem_tableSet {m : List (Nat × α)} {a : Nat} {v : α} {e : Nat × α} (h : e ∈ tableSet m a v) :
    e = (a, v) ∨ e ∈ m := by
  induction m with
  | nil => simpa [tableSet] using h
  | cons x m ih =>
    obtain ⟨k, u⟩ := x
    simp only [tableSet] at h
    split_ifs at h <;> simp only [List.mem_cons] at h ⊢ <;> grind

/-- A write keeps the keys rising. -/
theorem tableSet_sorted {m : List (Nat × α)} (a : Nat) (v : α) (h : tableSorted m = true) :
    tableSorted (tableSet m a v) = true := by
  rw [tableSorted_iff] at h ⊢
  induction m with
  | nil => simp [tableSet]
  | cons x m ih =>
    obtain ⟨k, u⟩ := x
    have hm := List.pairwise_cons.mp h
    simp only [tableSet]
    split_ifs with h1 h2
    · refine List.pairwise_cons.mpr ⟨?_, h⟩
      intro y hy
      rcases List.mem_cons.mp hy with rfl | hy
      · exact h1
      · exact lt_trans h1 (hm.1 y hy)
    · subst h2
      exact List.pairwise_cons.mpr ⟨hm.1, hm.2⟩
    · refine List.pairwise_cons.mpr ⟨?_, ih hm.2⟩
      intro y hy
      rcases mem_tableSet hy with rfl | hy
      · simp only; omega
      · exact hm.1 y hy

/-- A removal keeps the keys rising. -/
theorem tableDrop_sorted {m : List (Nat × α)} (p : Nat → Bool) (h : tableSorted m = true) :
    tableSorted (tableDrop p m) = true := by
  rw [tableSorted_iff] at h ⊢
  exact h.filter _

/-- An entry of a sorted table is what its key reads as. -/
theorem tableGet_of_mem {m : List (Nat × α)} {a : Nat} {v : α} (h : tableSorted m = true) (hm : (a, v) ∈ m) :
    tableGet m a = some v := by
  rw [tableSorted_iff] at h
  induction m with
  | nil => cases hm
  | cons x m ih =>
    obtain ⟨k, u⟩ := x
    have hp := List.pairwise_cons.mp h
    rcases List.mem_cons.mp hm with h1 | h1
    · cases h1; simp [tableGet]
    · have : k < a := hp.1 _ h1
      simp [tableGet, Nat.ne_of_lt this, ih hp.2 h1]

/-- A key that reads as a value has an entry. -/
theorem mem_of_tableGet {m : List (Nat × α)} {a : Nat} {v : α} (h : tableGet m a = some v) : (a, v) ∈ m := by
  induction m with
  | nil => cases h
  | cons x m ih =>
    obtain ⟨k, u⟩ := x
    simp only [tableGet] at h
    split_ifs at h with hk
    · cases h; subst hk; exact List.mem_cons_self ..
    · exact List.mem_cons_of_mem _ (ih h)

end Sys2Proof.Machine
end

