-- ==== Sys2Proof/Laws/Memory.lean ====
section
/-!
SUPPORT. Laws of the array: what each operation leaves in each byte and each cell, and that each keeps the
canonical form.
-/

namespace Sys2Proof.Machine

/-! ### Bytes -/

/-- The `i`-th byte of a word, lowest first (20 R65). -/
def byteOf (v : Word) (i : Nat) : Byte := v.extractLsb' (8 * i) 8

/-- Writing a word writes its four bytes, little-endian, and no other byte. -/
theorem byteAt_setWord (m : List Host.Cell) (w : Nat) (v : Word) (a : Nat) :
    byteAt (setWord m w v) a = if a / 4 = w then some (byteOf v (a % 4)) else byteAt m a := by
  simp only [byteAt, setWord, tableGet_tableSet, byteOf]
  by_cases h : a / 4 = w
  · rw [if_pos h]
    have : a % 4 = 0 ∨ a % 4 = 1 ∨ a % 4 = 2 ∨ a % 4 = 3 := by omega
    rcases this with h' | h' | h' | h' <;> simp only [h'] <;>
      first
      | rw [if_pos (by omega)]
      | rw [if_neg (by omega), if_pos (by omega)]
      | rw [if_neg (by omega), if_neg (by omega), if_pos (by omega)]
      | rw [if_neg (by omega), if_neg (by omega), if_neg (by omega), if_pos (by omega)]
  · rw [if_neg h, if_neg (by omega), if_neg (by omega), if_neg (by omega), if_neg (by omega)]

/-- Forgetting words removes their bytes and no other. -/
theorem byteAt_forgetWords (p : Nat → Bool) (m : List Host.Cell) (a : Nat) :
    byteAt (forgetWords p m) a = if p (a / 4) then none else byteAt m a :=
  tableGet_tableDrop _ m a

/-- Putting a cell changes the bytes of its word only. -/
theorem byteAt_setCell_ne (m : List Host.Cell) (w : Nat) (c : Cell) (a : Nat) (h : a / 4 ≠ w) :
    byteAt (setCell m w c) a = byteAt m a := by
  cases c with
  | val v => simp [setCell, byteAt_setWord, h]
  | indet => simp [setCell, byteAt_forgetWords, h]

/-! ### Cells -/

/-- The four bytes of a word make it up again. -/
theorem bytes_append (v : Word) :
    byteOf v 3 ++ (byteOf v 2 ++ (byteOf v 1 ++ byteOf v 0)) = v := by
  apply BitVec.eq_of_getLsbD_eq
  intro i hi
  simp only [byteOf, BitVec.getLsbD_append, BitVec.getLsbD_extractLsb']
  grind

/-- Two lists with the same bytes in a word have the same cell there. -/
theorem cellAt_congr {m n : List Host.Cell} {w : Nat} (h : ∀ a, a / 4 = w → byteAt m a = byteAt n a) :
    cellAt m w = cellAt n w := by
  simp only [cellAt, h (4 * w) (by omega), h (4 * w + 1) (by omega), h (4 * w + 2) (by omega),
    h (4 * w + 3) (by omega)]

/-- The cell after a word is written: its own value there, every other cell as before. -/
theorem cellAt_setWord (m : List Host.Cell) (w x : Nat) (v : Word) :
    cellAt (setWord m w v) x = if x = w then .val v else cellAt m x := by
  split_ifs with h
  · subst h
    simp only [cellAt, byteAt_setWord, show 4 * x / 4 = x by omega, show (4 * x + 1) / 4 = x by omega,
      show (4 * x + 2) / 4 = x by omega, show (4 * x + 3) / 4 = x by omega, if_true,
      show 4 * x % 4 = 0 by omega, show (4 * x + 1) % 4 = 1 by omega, show (4 * x + 2) % 4 = 2 by omega,
      show (4 * x + 3) % 4 = 3 by omega]
    rw [bytes_append]
  · exact cellAt_congr fun a ha => by rw [byteAt_setWord, if_neg (by omega)]

/-- The cell after words are forgotten. -/
theorem cellAt_forgetWords (p : Nat → Bool) (m : List Host.Cell) (x : Nat) :
    cellAt (forgetWords p m) x = if p x then .indet else cellAt m x := by
  split_ifs with h
  · simp [cellAt, byteAt_forgetWords, show 4 * x / 4 = x by omega, h]
  · exact cellAt_congr fun a ha => by rw [byteAt_forgetWords, ha, if_neg h]

/-- The cell after a cell is put: that cell there, every other as before. -/
theorem cellAt_setCell (m : List Host.Cell) (w x : Nat) (c : Cell) :
    cellAt (setCell m w c) x = if x = w then c else cellAt m x := by
  cases c with
  | val v => simp [setCell, cellAt_setWord]
  | indet => simp [setCell, cellAt_forgetWords]

/-! ### Rows and sectors -/

/-- A row base or-ed with a column is the row's word address in that column (20 R61). -/
theorem wordIndex_row (r : Word) (c : Nat) (hc : c < 256) :
    wordIndex (rowOf r ||| (BitVec.ofNat 32 c <<< 4)) = (rowOf r).toNat / 4 + 4 * c := by
  have h1 : (rowOf r) &&& (BitVec.ofNat 32 c <<< 4) = 0#32 := by
    apply BitVec.eq_of_getLsbD_eq
    intro i hi
    simp only [rowOf, BitVec.getLsbD_and, BitVec.getLsbD_not, BitVec.getLsbD_shiftLeft, BitVec.getLsbD_ofNat,
      Nat.testBit]
    by_cases h4 : i < 4
    · simp [h4]
    · by_cases h12 : i < 12
      · have : i = 4 ∨ i = 5 ∨ i = 6 ∨ i = 7 ∨ i = 8 ∨ i = 9 ∨ i = 10 ∨ i = 11 := by omega
        rcases this with rfl | rfl | rfl | rfl | rfl | rfl | rfl | rfl <;> simp
      · have : c >>> (i - 4) = 0 := by
          rw [Nat.shiftRight_eq_div_pow]
          apply Nat.div_eq_of_lt
          calc c < 2 ^ 8 := by omega
            _ ≤ 2 ^ (i - 4) := Nat.pow_le_pow_right (by norm_num) (by omega)
        simp [this]
  have h2 : (rowOf r ||| (BitVec.ofNat 32 c <<< 4)) = rowOf r + (BitVec.ofNat 32 c <<< 4) := by
    rw [BitVec.add_eq_or_of_and_eq_zero _ _ h1]
  have h3 : (BitVec.ofNat 32 c <<< 4).toNat = 16 * c := by
    simp [BitVec.toNat_shiftLeft, Nat.shiftLeft_eq]; omega
  have h4 : (rowOf r).toNat + 16 * c < 2 ^ 32 := by
    have := BitVec.toNat_add_of_and_eq_zero h1
    have hlt := (rowOf r + (BitVec.ofNat 32 c <<< 4)).isLt
    rw [h3] at this
    omega
  rw [h2, wordIndex, BitVec.toNat_add, h3, Nat.mod_eq_of_lt h4]
  omega

/-- Appending is shifting and adding. -/
theorem toNat_append_add {n k : Nat} (x : BitVec n) (y : BitVec k) :
    (x ++ y).toNat = x.toNat * 2 ^ k + y.toNat := by
  rw [BitVec.toNat_append, ← Nat.shiftLeft_add_eq_or_of_lt y.isLt, Nat.shiftLeft_eq]

/-- `row(a)` in fields: page number, eight zeros, sector, two zeros (20 R61). -/
theorem rowOf_append (a : Word) :
    rowOf a = a.extractLsb' 12 20 ++ (0#8 ++ (a.extractLsb' 2 2 ++ 0#2)) := by
  apply BitVec.eq_of_getLsbD_eq
  intro i hi
  simp only [rowOf, BitVec.getLsbD_and, BitVec.getLsbD_append, BitVec.getLsbD_extractLsb', BitVec.getLsbD_zero,
    BitVec.getLsbD_not]
  interval_cases i <;> simp

/-- `row(a)` as a number. -/
theorem rowOf_toNat (a : Word) : (rowOf a).toNat = a.toNat / 4096 * 4096 + a.toNat / 4 % 4 * 4 := by
  rw [rowOf_append, toNat_append_add, toNat_append_add, toNat_append_add]
  have := a.isLt
  simp only [BitVec.extractLsb'_toNat, Nat.shiftRight_eq_div_pow, BitVec.toNat_ofNat]
  omega

/-- `page(a)` as a number. -/
theorem pageOf_toNat (a : Word) : (pageOf a).toNat = a.toNat / 4096 * 4096 := by
  have h : pageOf a = a.extractLsb' 12 20 ++ 0#12 := by
    apply BitVec.eq_of_getLsbD_eq
    intro i hi
    simp only [pageOf, BitVec.getLsbD_and, BitVec.getLsbD_append, BitVec.getLsbD_extractLsb', BitVec.getLsbD_zero,
      BitVec.getLsbD_not]
    interval_cases i <;> simp
  rw [h, toNat_append_add]
  have := a.isLt
  simp only [BitVec.extractLsb'_toNat, Nat.shiftRight_eq_div_pow, BitVec.toNat_ofNat]
  omega

/-- `a & ~3` as a number. -/
theorem wordAddr_toNat (a : Word) : (wordAddr a).toNat = a.toNat / 4 * 4 := by
  have h : wordAddr a = a.extractLsb' 2 30 ++ 0#2 := by
    apply BitVec.eq_of_getLsbD_eq
    intro i hi
    simp only [wordAddr, BitVec.getLsbD_and, BitVec.getLsbD_append, BitVec.getLsbD_extractLsb', BitVec.getLsbD_zero,
      BitVec.getLsbD_not]
    interval_cases i <;> simp
  rw [h, toNat_append_add]
  have := a.isLt
  simp only [BitVec.extractLsb'_toNat, Nat.shiftRight_eq_div_pow, BitVec.toNat_ofNat]
  omega

@[simp] theorem wordAddr_wordAddr (a : Word) : wordAddr (wordAddr a) = wordAddr a := by
  apply BitVec.eq_of_toNat_eq; simp only [wordAddr_toNat]; omega

@[simp] theorem wordIndex_wordAddr (a : Word) : wordIndex (wordAddr a) = wordIndex a := by
  simp only [wordIndex, wordAddr_toNat]; omega

@[simp] theorem rowOf_rowOf (a : Word) : rowOf (rowOf a) = rowOf a := by
  apply BitVec.eq_of_toNat_eq; simp only [rowOf_toNat]; omega

@[simp] theorem pageOf_rowOf (a : Word) : pageOf (rowOf a) = pageOf a := by
  apply BitVec.eq_of_toNat_eq; simp only [rowOf_toNat, pageOf_toNat]; omega

@[simp] theorem rowOf_wordAddr (a : Word) : rowOf (wordAddr a) = rowOf a := by
  apply BitVec.eq_of_toNat_eq; simp only [rowOf_toNat, wordAddr_toNat]; omega

/-- The word indexes of a row: the page's words of its sector (20 R61). -/
theorem mem_rowWords (r : Word) (w : Nat) :
    w ∈ rowWords (rowOf r) ↔ w / 1024 = r.toNat / 4096 ∧ w % 4 = r.toNat / 4 % 4 := by
  have hr := rowOf_toNat r
  simp only [rowWords, List.mem_map, List.mem_range]
  constructor
  · rintro ⟨c, hc, rfl⟩
    rw [wordIndex_row r c hc]
    omega
  · intro h
    refine ⟨w % 1024 / 4, by omega, ?_⟩
    rw [wordIndex_row r _ (by omega)]
    omega

/-- `inRow` in numbers. -/
theorem inRow_iff (r : Word) (w : Nat) :
    inRow r w = true ↔ w / 1024 = r.toNat / 4096 ∧ w % 4 = r.toNat / 4 % 4 := by
  simp [inRow]

/-- A word is in the row its address has (20 R61). -/
theorem inRow_iff_rowOf (r : Word) (w : Nat) (hw : w < 2 ^ 30) :
    inRow r w = true ↔ rowOf (indexAddr w) = rowOf r := by
  have h : (indexAddr w).toNat = 4 * w := by simp [indexAddr]; omega
  have hr := rowOf_toNat r
  have hi := rowOf_toNat (indexAddr w)
  rw [h] at hi
  have := r.isLt
  rw [inRow_iff, ← BitVec.toNat_inj]
  omega

/-- The rows of `rowWords` and `inRow` are the same words. -/
theorem mem_rowWords_iff_inRow (r : Word) (w : Nat) : w ∈ rowWords (rowOf r) ↔ inRow r w = true := by
  rw [mem_rowWords, inRow_iff]

/-- The word indexes of a sector in a bank (20 R61, R68). -/
theorem mem_sectorWords (k : BitVec 2) (size w : Nat) (h : size % 16 = 0) :
    w ∈ sectorWords k size ↔ 4 * w < size ∧ w % 4 = k.toNat := by
  have := k.isLt
  simp only [sectorWords, List.mem_map, List.mem_range]
  constructor
  · rintro ⟨i, hi, rfl⟩; omega
  · intro hw; exact ⟨w / 4, by omega, by omega⟩

/-- No word index stands twice in a row. -/
theorem rowWords_nodup (r : Word) : (rowWords (rowOf r)).Nodup := by
  rw [rowWords]
  refine List.Nodup.map_on ?_ List.nodup_range
  intro x hx y hy h
  rw [wordIndex_row r x (List.mem_range.mp hx), wordIndex_row r y (List.mem_range.mp hy)] at h
  omega

/-- No word index stands twice in a sector. -/
theorem sectorWords_nodup (k : BitVec 2) (size : Nat) : (sectorWords k size).Nodup :=
  List.Nodup.map (fun x y h => by simpa using h) List.nodup_range

/-! ### Erasing lists of words -/

/-- The cell after a list of words is erased: what the commit leaves in each of them, every other as before. -/
theorem cellAt_eraseWords (c : Config) (b : Bank) (ws : List Nat) (m : List Host.Cell) (x : Nat) (h : ws.Nodup) :
    cellAt (eraseWords c b ws m) x = if x ∈ ws then committed c b x .erase (cellAt m x) else cellAt m x := by
  induction ws with
  | nil => simp [eraseWords]
  | cons w ws ih =>
    have hw := List.nodup_cons.mp h
    have ih := ih hw.2
    simp only [eraseWords, List.foldr_cons] at ih ⊢
    have ihw : cellAt (List.foldr (fun w m => setCell m w (committed c b w .erase (cellAt m w))) m ws) w = cellAt m w := by
      clear ih h
      have : ∀ ws : List Nat, w ∉ ws →
          cellAt (List.foldr (fun w m => setCell m w (committed c b w .erase (cellAt m w))) m ws) w = cellAt m w := by
        intro ws
        induction ws with
        | nil => simp
        | cons y ys ihy =>
          intro hy
          simp only [List.mem_cons, not_or] at hy
          rw [List.foldr_cons, cellAt_setCell, if_neg hy.1, ihy hy.2]
      exact this ws hw.1
    rw [cellAt_setCell, ihw, ih]
    by_cases hx : x = w
    · subst hx; simp
    · simp [hx]

/-- Erasing words leaves every byte outside them. -/
theorem byteAt_eraseWords_ne (c : Config) (b : Bank) (ws : List Nat) (m : List Host.Cell) (a : Nat) (h : a / 4 ∉ ws) :
    byteAt (eraseWords c b ws m) a = byteAt m a := by
  induction ws with
  | nil => simp [eraseWords]
  | cons w ws ih =>
    simp only [List.mem_cons, not_or] at h
    have ih := ih h.2
    simp only [eraseWords, List.foldr_cons] at ih ⊢
    rw [byteAt_setCell_ne _ _ _ _ h.1, ih]

/-! ### The canonical form -/

/-- Canonical form, as three facts. -/
theorem memWf_iff (size : Nat) (m : List Host.Cell) :
    memWf size m = true ↔ tableSorted m = true ∧ (∀ e ∈ m, e.1 < size) ∧
      ∀ a, (byteAt m a).isSome → ∀ i < 4, (byteAt m (4 * (a / 4) + i)).isSome := by
  simp only [memWf, Bool.and_eq_true, List.all_eq_true, decide_eq_true_eq, List.mem_range]
  constructor
  · rintro ⟨h1, h2⟩
    refine ⟨h1, fun e he => (h2 e he).1, fun a ha i hi => ?_⟩
    obtain ⟨v, hv⟩ := Option.isSome_iff_exists.mp ha
    exact (h2 _ (mem_of_tableGet hv)).2 i hi
  · rintro ⟨h1, h2, h3⟩
    refine ⟨h1, fun e he => ⟨h2 e he, fun i hi => ?_⟩⟩
    exact h3 e.1 (Option.isSome_iff_exists.mpr ⟨e.2, tableGet_of_mem h1 he⟩) i hi

/-- Writing a word inside the bank keeps the canonical form. -/
theorem setWord_wf {size : Nat} {m : List Host.Cell} {w : Nat} (v : Word) (h : memWf size m = true)
    (hw : 4 * w + 3 < size) : memWf size (setWord m w v) = true := by
  rw [memWf_iff] at h ⊢
  obtain ⟨h1, h2, h3⟩ := h
  refine ⟨?_, ?_, ?_⟩
  · exact tableSet_sorted _ _ (tableSet_sorted _ _ (tableSet_sorted _ _ (tableSet_sorted _ _ h1)))
  · intro e he
    simp only [setWord] at he
    rcases mem_tableSet he with rfl | he
    · simp only; omega
    rcases mem_tableSet he with rfl | he
    · simp only; omega
    rcases mem_tableSet he with rfl | he
    · simp only; omega
    rcases mem_tableSet he with rfl | he
    · simp only; omega
    exact h2 e he
  · intro a ha i hi
    rw [byteAt_setWord] at ha ⊢
    split_ifs with hx
    · rfl
    · rw [if_neg (by omega)] at ha
      exact h3 a ha i hi

/-- Forgetting words keeps the canonical form. -/
theorem forgetWords_wf {size : Nat} {m : List Host.Cell} (p : Nat → Bool) (h : memWf size m = true) :
    memWf size (forgetWords p m) = true := by
  rw [memWf_iff] at h ⊢
  obtain ⟨h1, h2, h3⟩ := h
  refine ⟨tableDrop_sorted _ h1, fun e he => h2 e (List.mem_of_mem_filter he), ?_⟩
  intro a ha i hi
  rw [byteAt_forgetWords] at ha ⊢
  rw [show (4 * (a / 4) + i) / 4 = a / 4 by omega]
  split_ifs at ha ⊢ with hp
  · simp at ha
  · exact h3 a ha i hi

/-- Putting a cell inside the bank keeps the canonical form. -/
theorem setCell_wf {size : Nat} {m : List Host.Cell} {w : Nat} (c : Cell) (h : memWf size m = true)
    (hw : 4 * w + 3 < size) : memWf size (setCell m w c) = true := by
  cases c with
  | val v => exact setWord_wf v h hw
  | indet => exact forgetWords_wf (· == w) h

/-- Erasing words inside the bank keeps the canonical form. -/
theorem eraseWords_wf {size : Nat} {m : List Host.Cell} (c : Config) (b : Bank) (ws : List Nat)
    (h : memWf size m = true) (hw : ∀ w ∈ ws, 4 * w + 3 < size) : memWf size (eraseWords c b ws m) = true := by
  induction ws with
  | nil => simpa [eraseWords] using h
  | cons w ws ih =>
    simp only [eraseWords, List.foldr_cons]
    exact setCell_wf _ (ih fun x hx => hw x (List.mem_cons_of_mem _ hx)) (hw w (List.mem_cons_self ..))

end Sys2Proof.Machine
end

