-- ==== Sys2Proof/Laws/Abandon.lean ====
section
/-!
SUPPORT. What abandoning a high-voltage sequence leaves (70 R283), and what a protocol violation leaves (41 R166).
-/

namespace Sys2Proof.Machine

/-- Forgetting a row in one bank's list. -/
theorem array_setArray (s : State) (b b' : Bank) (m : List Host.Cell) :
    array (setArray s b m) b' = if b' = b then m else array s b' := by cases b <;> cases b' <;> rfl

/-- What is forgotten of each bank, as a predicate on words. -/
theorem array_forgetSector (s : State) (k : BitVec 2) (both : Bool) (b : Bank) :
    array (forgetSector s k both) b =
      if b = .main ∨ both = true then forgetWords (inSector k) (array s b) else array s b := by
  cases b <;> cases both <;> rfl

/-- The targets of `pend` are forgotten first. -/
def forgetPend (s : State) : State :=
  match s.pend with
  | none => s
  | some (.progWord b w _ _) => setArray s b (forgetWords (· == w) (array s b))
  | some (.eraseRow b r) => forgetRow s b r
  | some (.eraseSector k both) => forgetSector s k both

/-- Then the row or sector under high voltage. -/
def forgetLatched (nvstr : Bool) (s : State) : State :=
  match nvstr, s.xlatch with
  | true, some x =>
    match x.kind with
    | .mass => forgetSector s (sectorOf x.addr) (x.bank == .info)
    | .prog | .erase => forgetRow s x.bank x.addr
  | _, _ => s

theorem abandon_eq (nvstr : Bool) (s : State) : abandon nvstr s = forgetLatched nvstr (forgetPend s) := rfl

/-- Two states differ in the array only. -/
def OnlyArray (s t : State) : Prop := t = { s with main := t.main, info := t.info }

theorem OnlyArray.refl (s : State) : OnlyArray s s := rfl

theorem OnlyArray.trans {s t u : State} (h : OnlyArray s t) (k : OnlyArray t u) : OnlyArray s u := by
  unfold OnlyArray at *
  rw [k, h]

theorem onlyArray_setArray (s : State) (b : Bank) (m : List Host.Cell) : OnlyArray s (setArray s b m) := by
  cases b <;> rfl

theorem onlyArray_forgetSector (s : State) (k : BitVec 2) (both : Bool) : OnlyArray s (forgetSector s k both) := by
  cases both <;> rfl

theorem onlyArray_forgetPend (s : State) : OnlyArray s (forgetPend s) := by
  unfold forgetPend
  split
  · exact .refl s
  · exact onlyArray_setArray ..
  · exact onlyArray_setArray ..
  · exact onlyArray_forgetSector ..

theorem onlyArray_forgetLatched (nvstr : Bool) (s : State) : OnlyArray s (forgetLatched nvstr s) := by
  unfold forgetLatched
  split
  · split
    · exact onlyArray_forgetSector ..
    · exact onlyArray_setArray ..
    · exact onlyArray_setArray ..
  · exact .refl s

/-- Abandoning changes the array only. -/
theorem abandon_frame (nvstr : Bool) (s : State) :
    abandon nvstr s = { s with main := (abandon nvstr s).main, info := (abandon nvstr s).info } := by
  rw [abandon_eq]
  exact (onlyArray_forgetPend s).trans (onlyArray_forgetLatched nvstr _)

/-- The lists after abandoning are the lists before, with the words of 70 R283 forgotten. -/
theorem byteAt_abandon (nvstr : Bool) (s : State) (b : Bank) (a : Nat) :
    byteAt (array (abandon nvstr s) b) a = if abandoned nvstr s b (a / 4) then none else byteAt (array s b) a := by
  have hp : ∀ b, byteAt (array (forgetPend s) b) a =
      if abandoned false s b (a / 4) then none else byteAt (array s b) a := by
    intro b
    unfold forgetPend abandoned
    rcases s.pend with _ | (⟨b', w, p, d⟩ | ⟨b', r⟩ | ⟨k, both⟩)
    · simp
    · simp only [array_setArray]
      by_cases hb : b = b' <;> simp [hb, byteAt_forgetWords]
    · simp only [forgetRow, array_setArray]
      by_cases hb : b = b' <;> simp [hb, byteAt_forgetWords]
    · simp only [array_forgetSector]
      cases b <;> cases both <;> simp [byteAt_forgetWords]
  have hx : (forgetPend s).xlatch = s.xlatch := by rw [onlyArray_forgetPend s]
  rw [abandon_eq]
  unfold forgetLatched
  cases nvstr
  · simp only [hp]
  · rw [hx]
    rcases hxl : s.xlatch with _ | ⟨k, b', x⟩
    · simp only [hp]
      simp [abandoned, hxl]
    · cases k
      · simp only [forgetRow, array_setArray]
        by_cases hb : b = b'
        · subst hb
          rw [if_pos rfl, byteAt_forgetWords, hp b]
          simp only [abandoned, hxl, Bool.false_and, Bool.or_false, Bool.true_and, beq_self_eq_true, Bool.or_eq_true]
          split_ifs <;> simp_all
        · rw [if_neg hb, hp b]
          simp [abandoned, hxl, hb]
      · simp only [forgetRow, array_setArray]
        by_cases hb : b = b'
        · subst hb
          rw [if_pos rfl, byteAt_forgetWords, hp b]
          simp only [abandoned, hxl, Bool.false_and, Bool.or_false, Bool.true_and, beq_self_eq_true, Bool.or_eq_true]
          split_ifs <;> simp_all
        · rw [if_neg hb, hp b]
          simp [abandoned, hxl, hb]
      · simp only [array_forgetSector]
        by_cases hb : b = .main ∨ (b' == Bank.info) = true
        · rw [if_pos hb, byteAt_forgetWords, hp b]
          have hb2 : (b == Bank.main || b' == Bank.info) = true := by simpa using hb
          simp only [abandoned, hxl, Bool.false_and, Bool.or_false, Bool.true_and, hb2, Bool.or_eq_true]
          split_ifs <;> simp_all
        · rw [if_neg hb, hp b]
          have hb2 : (b == Bank.main || b' == Bank.info) = false := by simpa using hb
          simp [abandoned, hxl, hb2]

/-- The cells after abandoning. -/
theorem cell_abandon (nvstr : Bool) (s : State) (b : Bank) (w : Nat) :
    cell (abandon nvstr s) b w = if abandoned nvstr s b w then .indet else cell s b w := by
  simp only [cell]
  split_ifs with h
  · simp [cellAt, byteAt_abandon, show 4 * w / 4 = w by omega, h]
  · exact cellAt_congr fun a ha => by rw [byteAt_abandon, ha, if_neg h]

/-- A violation at a register write: `w` is the state with the register and the accumulators written. -/
theorem violated_violate (k : ProtocolKind) (old new : CmdWord) (s w : State)
    (hw : w = { s with
      cmd := w.cmd, adr := w.adr, di := w.di, doStale := w.doStale, tCmd := w.tCmd, tHv := w.tHv
      tSettle := w.tSettle, tRcv := w.tRcv, rcvDue := w.rcvDue, settleDue := w.settleDue }) :
    Violated k old new s (violate k old new w) ∧ (violate k old new w).cmd = w.cmd ∧
      (violate k old new w).adr = w.adr ∧ (violate k old new w).di = w.di := by
  have hf := abandon_frame (old.nvstr || new.nvstr) w
  have ha : ∀ b, array w b = array s b := by intro b; rw [hw]; cases b <;> rfl
  have hab : ∀ b x, abandoned (old.nvstr || new.nvstr) w b x = abandoned (old.nvstr || new.nvstr) s b x := by
    intro b x; rw [hw]; rfl
  have hav : ∀ b, array (violate k old new w) b = array (abandon (old.nvstr || new.nvstr) w) b := by
    intro b; cases b <;> rfl
  refine ⟨⟨?_, ?_, ?_⟩, ?_, ?_, ?_⟩
  · simp only [violate]
    rw [hf]
    rw [hw]
  · intro b x
    have hc : cell (violate k old new w) b x = cell (abandon (old.nvstr || new.nvstr) w) b x := by
      simp only [cell, hav]
    rw [hc, cell_abandon, hab]
    simp only [cell, ha]
  · intro b a h
    rw [hav, byteAt_abandon, hab, h, ha]
    rfl
  · simp only [violate]; rw [hf]
  · simp only [violate]; rw [hf]
  · simp only [violate]; rw [hf]

/-- The accumulators a violating `Cmd` write starts. -/
theorem violatedClocks_frame (old new : CmdWord) (s : State) :
    violatedClocks old new s = { s with
      doStale := (violatedClocks old new s).doStale, tCmd := 0, tHv := (violatedClocks old new s).tHv
      tSettle := (violatedClocks old new s).tSettle, tRcv := (violatedClocks old new s).tRcv
      rcvDue := (violatedClocks old new s).rcvDue, settleDue := (violatedClocks old new s).settleDue } := by
  simp only [violatedClocks]
  split <;> rfl

end Sys2Proof.Machine
end

