-- ==== Sys2Proof/Laws/Drive.lean ====
section
/-!
SUPPORT. The modes and banks of the CommandWords the micro-programs write (41 R151, R170).
-/

namespace Sys2Proof.Machine

/-- A command shadow: Control-Enable, no drive bit (41 R170). -/
structure Shadow (c : CmdWord) : Prop where
  con : c.con = true
  xe : c.xe = false
  ye : c.ye = false
  se : c.se = false
  erase : c.erase = false
  mas1 : c.mas1 = false
  prog : c.prog = false
  nvstr : c.nvstr = false

/-- The word a prologue assembles is a shadow. -/
theorem shadowOf_delayOnly_shadow (c : CmdWord) (i : Bool) : Shadow (shadowOf (delayOnly c) i) := by
  constructor <;> rfl

/-- The mode each drive pattern decodes to. -/
def driveMode : Drive → Mode
  | .none => .idle
  | .read => .read
  | .progSetup => .pgNvs
  | .progHv => .pgHv
  | .pulse => .pgPulse
  | .hold => .hvHold
  | .eraseSetup => .erNvs
  | .eraseHv => .erHv
  | .massSetup => .meNvs
  | .massHv => .meHv
  | .massHold => .meHold

/-- Every `Cmd` value a micro-program writes under a shadow decodes to the mode meant (70 R296). -/
theorem modeOf_withDrive {c : CmdWord} (h : Shadow c) (d : Drive) : modeOf (withDrive c d) = driveMode d := by
  obtain ⟨h1, h2, h3, h4, h5, h6, h7, h8⟩ := h
  cases d <;> simp [modeOf, withDrive, driveMode, h1, h2, h3, h4, h5, h6, h7, h8]

/-- Releasing `Cmd` to its Delay-Cycles decodes to `M_OFF`. -/
@[simp] theorem modeOf_delayOnly (c : CmdWord) : modeOf (delayOnly c) = .off := rfl

@[simp] theorem withDrive_ifren (c : CmdWord) (d : Drive) : (withDrive c d).ifren = c.ifren := by cases d <;> rfl

@[simp] theorem withDrive_delay (c : CmdWord) (d : Drive) : (withDrive c d).delay = c.delay := by cases d <;> rfl

/-- In `M_OFF` and `M_IDLE` no drive bit is set. -/
theorem drives_clear_of_idle {c : CmdWord} (h : modeOf c = .off ∨ modeOf c = .idle) :
    c.xe = false ∧ c.ye = false ∧ c.se = false ∧ c.prog = false ∧ c.erase = false ∧ c.mas1 = false ∧
      c.nvstr = false := by
  obtain ⟨con, d, xe, ye, se, i, er, m, p, n⟩ := c
  revert h
  cases con <;> cases xe <;> cases ye <;> cases se <;> cases er <;> cases m <;> cases p <;> cases n <;>
    simp [modeOf]

end Sys2Proof.Machine
end

