-- ==== Sys2Proof/Laws/Run.lean ====
section
/-!
SUPPORT. Runs of the sequencer: how single lines make up a run, and that a run of lines that fall through is the
composition of what they do.
-/

namespace Sys2Proof.Machine

/-- `Runs n s t`: `n` steps of the sequencer lead from `s` to `t`, an operation running at each of them. -/
inductive Runs : Nat → State → State → Prop where
  | refl (s : State) : Runs 0 s s
  | step {n : Nat} {s t u : State} (hb : s.busy = true) (hs : seqStep s = .next t) (h : Runs n t u) : Runs (n + 1) s u

/-- Runs compose. -/
theorem Runs.trans {n k : Nat} {s t u : State} (h1 : Runs n s t) (h2 : Runs k t u) : Runs (n + k) s u := by
  induction h1 with
  | refl s => simpa using h2
  | @step n s _ _ hb hs _ ih =>
    have := Runs.step hb hs (ih h2)
    rwa [show n + 1 + k = n + k + 1 by omega]

/-- One step is a run. -/
theorem Runs.one {s t : State} (hb : s.busy = true) (hs : seqStep s = .next t) : Runs 1 s t :=
  .step hb hs (.refl t)

/-- When no operation runs any more, further steps change nothing. -/
theorem runSeq_of_not_busy (n : Nat) {s : State} (h : s.busy = false) : runSeq n s = .next s := by
  cases n <;> simp [runSeq, h]

/-- A run inside the bound is what `runSeq` goes through. -/
theorem runSeq_of_runs {n k : Nat} {s t : State} (h : Runs n s t) : runSeq (n + k) s = runSeq k t := by
  induction h with
  | refl s => simp
  | @step n s t u hb hs _ ih =>
    rw [show n + 1 + k = n + k + 1 by omega, runSeq, if_pos hb, hs]
    exact ih

/-- A run that ends with no operation running is the whole of `runSeq`, with any bound it fits in. -/
theorem runSeq_of_runs_done {n m : Nat} {s t : State} (h : Runs n s t) (ht : t.busy = false) (hm : n ≤ m) :
    runSeq m s = .next t := by
  obtain ⟨k, rfl⟩ := Nat.exists_eq_add_of_le hm
  rw [runSeq_of_runs h, runSeq_of_not_busy k ht]

/-- A line that falls through. -/
theorem seqStep_act {s t : State} {op : Opcode} {line : Nat} {a : Act} (hu : s.upc = .at op line)
    (hl : (program op)[line]? = some (.act a)) (ha : runAct a s = .go t) :
    seqStep s = .next (goLine op (line + 1) t) := by
  simp only [seqStep, hu, hl, ha]

/-- A branch. -/
theorem seqStep_branch {s : State} {op : Opcode} {line : Nat} {b : Branch} (hu : s.upc = .at op line)
    (hl : (program op)[line]? = some (.branch b)) :
    seqStep s =
      match runBranch b s with
      | .next t => .next (goLine op (line + 1) t)
      | .to n t => .next (goLine op n t)
      | .stop t => .next (finish t) := by
  cases hr : runBranch b s <;> simp only [seqStep, hu, hl, hr]

/-- Going to a line inside the program. -/
theorem goLine_inside {op : Opcode} {line : Nat} (s : State) (h : line < (program op).length) :
    goLine op line s = { s with upc := .at op line } := by
  simp [goLine, h]

/-- Going past the last line completes the operation. -/
theorem goLine_past {op : Opcode} {line : Nat} (s : State) (h : (program op).length ≤ line) :
    goLine op line s = finish s := by
  simp [goLine, Nat.not_lt.mpr h]

/-- The lines of a straight piece, one after the other, `UPC` moving on: what they come to if each falls through
and the line behind them is inside the program. -/
def runActs (op : Opcode) (line : Nat) : List Act → State → ActResult
  | [], s => .go s
  | a :: as, s =>
    match runAct a s with
    | .go t => runActs op (line + 1) as { t with upc := .at op (line + 1) }
    | .held => .held
    | .violated f t => .violated f t
    | .refused r => .refused r

/-- The first line of a straight piece. -/
theorem runActs_step {op : Opcode} {line : Nat} {a : Act} {as : List Act} {s t : State} {r : ActResult}
    (h : runAct a s = .go t) (hr : runActs op (line + 1) as { t with upc := .at op (line + 1) } = r) :
    runActs op line (a :: as) s = r := by
  simp only [runActs, h]
  exact hr

/-- A straight piece in two parts. -/
theorem runActs_append {op : Opcode} {as bs : List Act} : ∀ {line : Nat} {s t : State} {r : ActResult},
    runActs op line as s = .go t → runActs op (line + as.length) bs t = r → runActs op line (as ++ bs) s = r := by
  induction as with
  | nil => intro line s t r h hr; simp only [runActs] at h; cases h; exact hr
  | cons a as ih =>
    intro line s t r h hr
    rw [List.cons_append]
    cases ha : runAct a s with
    | go u =>
      simp only [runActs, ha] at h
      refine runActs_step ha (ih h ?_)
      rw [show line + 1 + as.length = line + (as.length + 1) by omega]
      exact hr
    | held => simp only [runActs, ha] at h; cases h
    | violated => simp only [runActs, ha] at h; cases h
    | refused => simp only [runActs, ha] at h; cases h

end Sys2Proof.Machine
end

