-- ==== Sys2Proof/Laws/Kept.lean ====
section
/-!
SUPPORT. What no register transaction and no line of a micro-program changes: the configuration, the inputs, the
position, `BUSY` and what the host sees.
-/

namespace Sys2Proof.Machine

/-- The fields the sequencer's lines leave alone. -/
structure Kept (s t : State) : Prop where
  cfg : t.cfg = s.cfg
  port : t.port = s.port
  sched : t.sched = s.sched
  coreClkHz : t.coreClkHz = s.coreClkHz
  busy : t.busy = s.busy
  upc : t.upc = s.upc
  resp : t.resp = s.resp
  rdata : t.rdata = s.rdata

theorem Kept.refl (s : State) : Kept s s := ⟨rfl, rfl, rfl, rfl, rfl, rfl, rfl, rfl⟩

theorem Kept.trans {s t u : State} (h : Kept s t) (k : Kept t u) : Kept s u :=
  ⟨k.cfg.trans h.cfg, k.port.trans h.port, k.sched.trans h.sched, k.coreClkHz.trans h.coreClkHz,
    k.busy.trans h.busy, k.upc.trans h.upc, k.resp.trans h.resp, k.rdata.trans h.rdata⟩

theorem kept_setArray (s : State) (b : Bank) (m : List Host.Cell) : Kept s (setArray s b m) := by
  cases b <;> exact ⟨rfl, rfl, rfl, rfl, rfl, rfl, rfl, rfl⟩

theorem kept_forgetRow (s : State) (b : Bank) (r : Word) : Kept s (forgetRow s b r) := kept_setArray ..

theorem kept_cellProgram (s : State) (b : Bank) (w : Nat) (c : Cell) (d : Word) : Kept s (cellProgram s b w c d) :=
  kept_setArray ..

theorem kept_rowErase (s : State) (b : Bank) (r : Word) : Kept s (rowErase s b r) := kept_setArray ..

theorem kept_forgetSector (s : State) (k : BitVec 2) (both : Bool) : Kept s (forgetSector s k both) := by
  cases both <;> exact ⟨rfl, rfl, rfl, rfl, rfl, rfl, rfl, rfl⟩

theorem kept_sectorMassErase (s : State) (k : BitVec 2) (both : Bool) : Kept s (sectorMassErase s k both) := by
  cases both <;> exact ⟨rfl, rfl, rfl, rfl, rfl, rfl, rfl, rfl⟩

theorem kept_draw (s : State) : Kept s (draw s).2 := ⟨rfl, rfl, rfl, rfl, rfl, rfl, rfl, rfl⟩

theorem kept_memRead (b : Bank) (a : Word) (s : State) : Kept s (memRead b a s).2 := by
  unfold memRead
  split
  · exact kept_draw s
  · split <;> exact ⟨rfl, rfl, rfl, rfl, rfl, rfl, rfl, rfl⟩

theorem kept_mappedRead (a : Word) (s : State) : Kept s (mappedRead a s).2 := by
  unfold mappedRead
  split
  · exact .refl s
  · have h := kept_memRead .main a s
    dsimp only
    split
    · exact h
    · exact ⟨h.cfg, h.port, h.sched, h.coreClkHz, h.busy, h.upc, h.resp, h.rdata⟩

theorem kept_rdDO {s : State} {r : Word × State} (h : rdDO s = .ok r) : Kept s r.2 := by
  unfold rdDO at h
  split_ifs at h
  · cases h; exact kept_draw s
  · cases h; exact ⟨rfl, rfl, rfl, rfl, rfl, rfl, rfl, rfl⟩
  · cases h; exact kept_memRead ..

theorem kept_abandon (n : Bool) (s : State) : Kept s (abandon n s) := by
  unfold abandon
  have h2 : ∀ t : State, Kept t (match n, t.xlatch with
    | true, some x =>
      match x.kind with
      | .mass => forgetSector t (sectorOf x.addr) (x.bank == .info)
      | .prog | .erase => forgetRow t x.bank x.addr
    | _, _ => t) := by
    intro t
    split
    · split
      · exact kept_forgetSector ..
      · exact kept_forgetRow ..
      · exact kept_forgetRow ..
    · exact .refl t
  have h1 : Kept s (match s.pend with
    | none => s
    | some (.progWord b w _ _) => setArray s b (forgetWords (· == w) (array s b))
    | some (.eraseRow b r) => forgetRow s b r
    | some (.eraseSector k both) => forgetSector s k both) := by
    split
    · exact .refl s
    · exact kept_setArray ..
    · exact kept_forgetRow ..
    · exact kept_forgetSector ..
  exact h1.trans (h2 _)

theorem kept_violate (k : ProtocolKind) (old new : CmdWord) (s : State) : Kept s (violate k old new s) := by
  have h := kept_abandon (old.nvstr || new.nvstr) s
  exact ⟨h.cfg, h.port, h.sched, h.coreClkHz, h.busy, h.upc, h.resp, h.rdata⟩

theorem kept_violatedClocks (old new : CmdWord) (s : State) : Kept s (violatedClocks old new s) := by
  unfold violatedClocks
  dsimp only
  split <;> exact ⟨rfl, rfl, rfl, rfl, rfl, rfl, rfl, rfl⟩

theorem kept_of_eq {s t : State} (h : Reaction.ok s = Reaction.ok t) {u : State} (k : Kept u s) : Kept u t := by
  cases h; exact k

theorem kept_rcvCheck {s t : State} {f : State → Reaction} (h : rcvCheck s f = .ok t)
    (hf : ∀ u v, f u = .ok v → Kept u v) : Kept s t := by
  unfold rcvCheck at h
  split_ifs at h
  have := hf _ _ h
  exact ⟨this.cfg, this.port, this.sched, this.coreClkHz, this.busy, this.upc, this.resp, this.rdata⟩

theorem kept_latchSetup {k : HvKind} {new : CmdWord} {s t : State} (h : latchSetup k new s = .ok t) : Kept s t := by
  cases h; exact ⟨rfl, rfl, rfl, rfl, rfl, rfl, rfl, rfl⟩

theorem kept_programHv {s t : State} (h : programHv s = .ok t) : Kept s t := by
  unfold programHv at h
  split_ifs at h
  cases h; exact ⟨rfl, rfl, rfl, rfl, rfl, rfl, rfl, rfl⟩

/-- A pulse starts (41 R157) exactly on a latch, after the dwell, at a word of the latched bank. -/
theorem pulseStart_eq_ok {s t : State} (h : pulseStart s = .ok t) :
    ∃ x, s.xlatch = some x ∧ s.cfg.timing.pgs ≤ s.tHv ∧ (adrWord s).toNat < bankSize s.cfg x.bank ∧
      t = { setArray s x.bank (forgetWords (· == wordIndex (adrWord s)) (array s x.bank)) with
        pend := some (.progWord x.bank (wordIndex (adrWord s)) (cell s x.bank (wordIndex (adrWord s))) s.di) } := by
  unfold pulseStart at h
  split at h
  · cases h
  · split at h
    · cases h
    · rename_i ht _ x hx
      split at h
      · cases h
      · cases h
        exact ⟨x, hx, Nat.not_lt.mp ht, Nat.not_le.mp (by assumption), rfl⟩

theorem kept_pulseStart {s t : State} (h : pulseStart s = .ok t) : Kept s t := by
  obtain ⟨x, _, _, _, rfl⟩ := pulseStart_eq_ok h
  have k := kept_setArray s x.bank (forgetWords (· == wordIndex (adrWord s)) (array s x.bank))
  exact ⟨k.cfg, k.port, k.sched, k.coreClkHz, k.busy, k.upc, k.resp, k.rdata⟩

theorem kept_pulseEnd {s t : State} (h : pulseEnd s = .ok t) : Kept s t := by
  unfold pulseEnd at h
  split at h
  · split_ifs at h
    rename_i b w pre d _ _
    have k := kept_cellProgram s b w pre d
    cases h
    exact ⟨k.cfg, k.port, k.sched, k.coreClkHz, k.busy, k.upc, k.resp, k.rdata⟩
  · cases h

theorem kept_holdEnd {s t : State} (h : holdEnd s = .ok t) : Kept s t := by
  unfold holdEnd at h
  split_ifs at h
  cases h; exact ⟨rfl, rfl, rfl, rfl, rfl, rfl, rfl, rfl⟩

/-- A row erase starts (41 R160) exactly on a latch, after the dwell, at a page of the latched bank. -/
theorem eraseHv_eq_ok {s t : State} (h : eraseHv s = .ok t) :
    ∃ x, s.xlatch = some x ∧ s.cfg.timing.nvs ≤ s.tCmd ∧ (pageOf x.addr).toNat < bankSize s.cfg x.bank ∧
      t = { forgetRow s x.bank x.addr with tHv := 0, pend := some (.eraseRow x.bank (rowOf x.addr)) } := by
  unfold eraseHv at h
  split at h
  · cases h
  · split at h
    · cases h
    · rename_i ht _ x hx
      split at h
      · cases h
      · cases h
        exact ⟨x, hx, Nat.not_lt.mp ht, Nat.not_le.mp (by assumption), rfl⟩

theorem kept_eraseHv {s t : State} (h : eraseHv s = .ok t) : Kept s t := by
  obtain ⟨x, _, _, _, rfl⟩ := eraseHv_eq_ok h
  have k := kept_forgetRow s x.bank x.addr
  exact ⟨k.cfg, k.port, k.sched, k.coreClkHz, k.busy, k.upc, k.resp, k.rdata⟩

theorem kept_eraseEnd {s t : State} (h : eraseEnd s = .ok t) : Kept s t := by
  unfold eraseEnd at h
  split at h
  · split_ifs at h
    rename_i b r _ _
    have k := kept_rowErase s b r
    cases h
    exact ⟨k.cfg, k.port, k.sched, k.coreClkHz, k.busy, k.upc, k.resp, k.rdata⟩
  · cases h

/-- A mass erase starts (41 R163) exactly on a latch, after the dwell. -/
theorem massHv_eq_ok {s t : State} (h : massHv s = .ok t) :
    ∃ x, s.xlatch = some x ∧ s.cfg.timing.nvs ≤ s.tCmd ∧
      t = { forgetSector s (sectorOf x.addr) (x.bank == .info) with
        tHv := 0, pend := some (.eraseSector (sectorOf x.addr) (x.bank == .info)) } := by
  unfold massHv at h
  split at h
  · cases h
  · split at h
    · cases h
    · rename_i ht _ x hx
      cases h
      exact ⟨x, hx, Nat.not_lt.mp ht, rfl⟩

theorem kept_massHv {s t : State} (h : massHv s = .ok t) : Kept s t := by
  obtain ⟨x, _, _, rfl⟩ := massHv_eq_ok h
  have k := kept_forgetSector s (sectorOf x.addr) (x.bank == .info)
  exact ⟨k.cfg, k.port, k.sched, k.coreClkHz, k.busy, k.upc, k.resp, k.rdata⟩

theorem kept_massEnd {s t : State} (h : massEnd s = .ok t) : Kept s t := by
  unfold massEnd at h
  split at h
  · split_ifs at h
    rename_i x both _ _
    have k := kept_sectorMassErase s x both
    cases h
    exact ⟨k.cfg, k.port, k.sched, k.coreClkHz, k.busy, k.upc, k.resp, k.rdata⟩
  · cases h

theorem kept_massHoldEnd {s t : State} (h : massHoldEnd s = .ok t) : Kept s t := by
  unfold massHoldEnd at h
  split_ifs at h
  cases h; exact ⟨rfl, rfl, rfl, rfl, rfl, rfl, rfl, rfl⟩

/-- The transition table's reactions keep them. -/
theorem kept_transition {mo mn : Mode} {new : CmdWord} {s t : State} (h : transition mo mn new s = .ok t) :
    Kept s t := by
  unfold transition at h
  split at h
  · exact kept_of_eq h (.refl s)
  · exact kept_of_eq h (.refl s)
  · exact kept_rcvCheck h fun u v k => kept_of_eq k ⟨rfl, rfl, rfl, rfl, rfl, rfl, rfl, rfl⟩
  · exact kept_of_eq h (.refl s)
  · exact kept_rcvCheck h fun u v => kept_latchSetup
  · exact kept_programHv h
  · exact kept_pulseStart h
  · exact kept_pulseEnd h
  · exact kept_of_eq h (.refl s)
  · exact kept_holdEnd h
  · exact kept_rcvCheck h fun u v => kept_latchSetup
  · exact kept_eraseHv h
  · exact kept_eraseEnd h
  · exact kept_rcvCheck h fun u v => kept_latchSetup
  · exact kept_massHv h
  · exact kept_massEnd h
  · exact kept_massHoldEnd h
  · cases h

/-- The array's reaction keeps them. -/
theorem kept_react {old new : CmdWord} {s t : State} (h : react old new s = .ok t) : Kept s t := by
  unfold react at h
  split_ifs at h
  · exact kept_of_eq h (.refl s)
  · exact kept_transition h

/-- A `Cmd` write that is done keeps them. -/
theorem kept_wrCmd {new : CmdWord} {s t : State} (h : wrCmd new s = .done t) : Kept s t := by
  unfold wrCmd at h
  split_ifs at h
  · cases h; exact .refl s
  · split at h
    · rename_i u hu
      have k := kept_react hu
      cases h
      exact ⟨k.cfg, k.port, k.sched, k.coreClkHz, k.busy, k.upc, k.resp, k.rdata⟩
    · cases h
    · cases h

/-- An `Adr` write that is done keeps them. -/
theorem kept_wrAdr {v : Word} {s t : State} (h : wrAdr v s = .done t) : Kept s t := by
  unfold wrAdr at h
  dsimp only at h
  split_ifs at h
  · cases h; exact .refl s
  · split at h
    · cases h; exact ⟨rfl, rfl, rfl, rfl, rfl, rfl, rfl, rfl⟩
    · cases h; exact ⟨rfl, rfl, rfl, rfl, rfl, rfl, rfl, rfl⟩
    · cases h; exact ⟨rfl, rfl, rfl, rfl, rfl, rfl, rfl, rfl⟩
    · split_ifs at h
      cases h; exact ⟨rfl, rfl, rfl, rfl, rfl, rfl, rfl, rfl⟩
    · cases h

/-- A `DI` write that is done keeps them. -/
theorem kept_wrDI {v : Word} {s t : State} (h : wrDI v s = .done t) : Kept s t := by
  unfold wrDI at h
  dsimp only at h
  split_ifs at h
  · cases h; exact .refl s
  · split at h <;> cases h
    all_goals exact ⟨rfl, rfl, rfl, rfl, rfl, rfl, rfl, rfl⟩

/-- A line that falls through keeps them. -/
theorem kept_runAct {a : Act} {s t : State} (h : runAct a s = .go t) : Kept s t := by
  have tx : ∀ {r : TxResult}, actTx r = .go t → r = .done t := by
    intro r hr; cases r <;> simp_all [actTx]
  cases a <;> simp only [runAct] at h
  case wrCmd => exact kept_wrCmd (tx h)
  case release => exact kept_wrCmd (tx h)
  case wrAdr => exact kept_wrAdr (tx h)
  case wrDI => exact kept_wrDI (tx h)
  case wrDIZero => exact kept_wrDI (tx h)
  case discard =>
    split at h
    · rename_i v u hu; cases h; exact kept_rdDO hu
    · cases h
  case sample =>
    split at h
    · rename_i v u hu
      have k := kept_rdDO hu
      cases h
      exact ⟨k.cfg, k.port, k.sched, k.coreClkHz, k.busy, k.upc, k.resp, k.rdata⟩
    · cases h
  case refreshRead =>
    split_ifs at h
    cases h
    exact kept_mappedRead ..
  all_goals (cases h; exact ⟨rfl, rfl, rfl, rfl, rfl, rfl, rfl, rfl⟩)

/-- A straight piece of a micro-program, with a line behind it, is a run. -/
theorem runs_acts {op : Opcode} (as : List Act) : ∀ {line : Nat} {s t : State}, s.upc = .at op line →
    s.busy = true → (∀ i (h : i < as.length), (program op)[line + i]? = some (.act as[i])) →
    line + as.length < (program op).length → runActs op line as s = .go t → Runs as.length s t := by
  induction as with
  | nil => intro line s t _ _ _ _ h; simp only [runActs] at h; cases h; exact .refl s
  | cons a as ih =>
    intro line s t hu hb hl hlen h
    simp only [runActs] at h
    split at h
    · rename_i u ha
      have hline : (program op)[line]? = some (.act a) := hl 0 (by simp)
      have hs := seqStep_act hu hline ha
      rw [goLine_inside u (by simp at hlen; omega)] at hs
      refine .step hb hs (ih rfl ?_ ?_ ?_ h)
      · exact (kept_runAct ha).busy.trans hb
      · intro i hi
        have := hl (i + 1) (by simpa using hi)
        rw [show line + 1 + i = line + (i + 1) by omega, this]
        rfl
      · simp only [List.length_cons] at hlen; omega
    · cases h
    · cases h
    · cases h

/-- The same, the piece named by what it cuts out of the program. -/
theorem runs_cut {op : Opcode} (as : List Act) {line : Nat} {s t : State} (hu : s.upc = .at op line)
    (hb : s.busy = true) (hl : ((program op).drop line).take as.length = as.map .act)
    (hlen : line + as.length < (program op).length) (h : runActs op line as s = .go t) : Runs as.length s t := by
  refine runs_acts as hu hb ?_ hlen h
  intro i hi
  have := congrArg (·[i]?) hl
  simpa [hi] using this

/-- A straight piece of a micro-program up to its last line is a run that ends the operation. -/
theorem runs_acts_end {op : Opcode} (as : List Act) {line : Nat} {s t : State} (hu : s.upc = .at op line)
    (hb : s.busy = true) (hl : (program op).drop line = as.map .act) (hne : as ≠ [])
    (h : runActs op line as s = .go t) : Runs as.length s (finish t) := by
  induction as generalizing line s with
  | nil => exact absurd rfl hne
  | cons a as ih =>
    simp only [runActs] at h
    have hdrop : (program op).drop (line + 1) = as.map .act := by
      rw [← List.drop_drop, hl]; rfl
    have hline : (program op)[line]? = some (.act a) := by
      have := congrArg (·[0]?) hl
      simpa using this
    split at h
    · rename_i u ha
      have hs := seqStep_act hu hline ha
      have hbu := (kept_runAct ha).busy.trans hb
      cases as with
      | nil =>
        simp only [runActs] at h
        cases h
        rw [goLine_past u (by simpa using hdrop)] at hs
        exact .step hb hs (.refl _)
      | cons a' as' =>
        have hlen : line + 1 < (program op).length := by
          by_contra hc
          rw [List.drop_eq_nil_of_le (by omega)] at hdrop
          cases hdrop
        rw [goLine_inside u hlen] at hs
        exact .step hb hs (ih rfl hbu hdrop (by simp) h)
    · cases h
    · cases h
    · cases h

end Sys2Proof.Machine
end

