-- ==== Sys2Proof/Laws/Acts.lean ====
section
/-!
SUPPORT. What the `Cmd` writes of the micro-programs do: one lemma per transition a micro-program takes.
-/

namespace Sys2Proof.Machine

/-- The configuration's unlock key unlocks (30 R102). -/
theorem keyUnlock_ne_zero {c : Config} (h : configOk c = true) : c.keyUnlock ≠ 0#32 := by
  simp only [configOk, Bool.and_eq_true, bne_iff_ne] at h
  exact h.2.2.2.1

/-- An unlocked `Cmd` write the array accepts. -/
theorem wrCmd_ok {new : CmdWord} {s t : State} (hk : s.key ≠ 0#32) (h : react s.cmd new { s with cmd := new } = .ok t) :
    wrCmd new s = .done { t with tCmd := 0 } := by
  simp [wrCmd, locked, hk, h]

/-- Between two drive patterns of one shadow the reaction is the transition table's. -/
theorem react_drive {c : CmdWord} (hc : Shadow c) (d e : Drive) (s : State) (h : driveMode d ≠ driveMode e) :
    react (withDrive c d) (withDrive c e) s = transition (driveMode d) (driveMode e) (withDrive c e) s := by
  have hi : driveMode e ≠ .illegal := by cases e <;> simp [driveMode]
  simp [react, modeOf_withDrive hc, hi, h]

/-- A drive line that the transition table accepts. -/
theorem runAct_drive {c : CmdWord} (d e : Drive) {s t : State} (hc : Shadow c) (hl : s.lat.csh = c)
    (hd : s.cmd = withDrive c d) (hk : s.key ≠ 0#32) (hne : driveMode d ≠ driveMode e)
    (h : transition (driveMode d) (driveMode e) (withDrive c e) { s with cmd := withDrive c e } = .ok t) :
    runAct (.wrCmd e) s = .go { t with tCmd := 0 } := by
  simp only [runAct, hl]
  rw [wrCmd_ok (t := t) hk (by rw [hd, react_drive hc d e _ hne]; exact h)]
  rfl

/-- Writing a shadow in `M_OFF` or `M_IDLE` has no array effect (41 R152). -/
theorem wrCmd_shadow {c : CmdWord} {s : State} (hc : Shadow c) (hk : s.key ≠ 0#32)
    (hm : modeOf s.cmd = .off ∨ modeOf s.cmd = .idle) : wrCmd c s = .done { s with cmd := c, tCmd := 0 } := by
  have hd := drives_clear_of_idle hm
  have hmc : modeOf c = .idle := modeOf_withDrive hc .none
  refine wrCmd_ok (t := { s with cmd := c }) hk ?_
  rcases hm with hm | hm <;> simp [react, hm, hmc, hd.1, hc.xe, transition]

/-- Releasing a shadow to its Delay-Cycles has no array effect (41 R152). -/
theorem wrCmd_release {c : CmdWord} {s : State} (w : CmdWord) (hc : Shadow c) (hs : s.cmd = c) (hk : s.key ≠ 0#32) :
    wrCmd (delayOnly w) s = .done { s with cmd := delayOnly w, tCmd := 0 } := by
  have hmc : modeOf c = .idle := modeOf_withDrive hc .none
  refine wrCmd_ok (t := { s with cmd := delayOnly w }) hk ?_
  simp [react, hs, hmc, hc.xe, transition, delayOnly]
  rfl

/-- An `Adr` write in `M_OFF` or `M_IDLE` (41 R144). -/
theorem wrAdr_idle {v : Word} {s : State} (hk : s.key ≠ 0#32) (hm : modeOf s.cmd = .off ∨ modeOf s.cmd = .idle) :
    wrAdr v s = .done { s with adr := v, doStale := 3 } := by
  rcases hm with hm | hm <;> simp [wrAdr, locked, mode, hk, hm]

/-- An `Adr` write inside the row of a programming run (41 R144). -/
theorem wrAdr_run {v : Word} {s : State} {x : XLatch} (hk : s.key ≠ 0#32) (hm : modeOf s.cmd = .pgHv)
    (hx : s.xlatch = some x) (hr : rowOf v = rowOf x.addr) :
    wrAdr v s = .done { s with adr := v, doStale := 3 } := by
  simp [wrAdr, locked, mode, hk, hm, hx, hr]

/-- A `DI` write in `M_OFF`, `M_IDLE` or `M_PG_HV` (41 R145). -/
theorem wrDI_ok {v : Word} {s : State} (hk : s.key ≠ 0#32)
    (hm : modeOf s.cmd = .off ∨ modeOf s.cmd = .idle ∨ modeOf s.cmd = .pgHv) :
    wrDI v s = .done { s with di := v } := by
  rcases hm with hm | hm | hm <;> simp [wrDI, locked, mode, hk, hm]

/-- The recovery check passes once the recovery time has passed (41 R153). -/
theorem rcvCheck_passes {s : State} {f : State → Reaction} (h : s.rcvDue = true → s.cfg.timing.rcv ≤ s.tRcv) :
    rcvCheck s f = f { s with rcvDue := false } := by
  unfold rcvCheck
  rw [if_neg]
  rintro ⟨h1, h2⟩
  exact absurd (h h1) (by omega)

/-- The prologue's `Cmd` write. -/
theorem runAct_shadow {c : CmdWord} {s : State} (hc : Shadow c) (hl : s.lat.csh = c) (hk : s.key ≠ 0#32)
    (hm : modeOf s.cmd = .off ∨ modeOf s.cmd = .idle) :
    runAct (.wrCmd .none) s = .go { s with cmd := c, tCmd := 0 } := by
  simp only [runAct, hl]
  rw [show withDrive c .none = c from rfl, wrCmd_shadow hc hk hm]
  rfl

/-- An address line in `M_OFF` or `M_IDLE`. -/
theorem runAct_wrAdr (x : AdrSrc) {s : State} (hk : s.key ≠ 0#32) (hm : modeOf s.cmd = .off ∨ modeOf s.cmd = .idle) :
    runAct (.wrAdr x) s = .go { s with adr := adrOf s x, doStale := 3 } := by
  simp only [runAct, wrAdr_idle hk hm]
  rfl

/-- The data line in a mode that accepts it. -/
theorem runAct_wrDI {s : State} (hk : s.key ≠ 0#32)
    (hm : modeOf s.cmd = .off ∨ modeOf s.cmd = .idle ∨ modeOf s.cmd = .pgHv) :
    runAct .wrDI s = .go { s with di := s.lat.data } := by
  simp only [runAct, wrDI_ok hk hm]
  rfl

/-- The zero data line in a mode that accepts it. -/
theorem runAct_wrDIZero {s : State} (hk : s.key ≠ 0#32)
    (hm : modeOf s.cmd = .off ∨ modeOf s.cmd = .idle ∨ modeOf s.cmd = .pgHv) :
    runAct .wrDIZero s = .go { s with di := 0#32 } := by
  simp only [runAct, wrDI_ok hk hm]
  rfl

end Sys2Proof.Machine
end

