-- ==== Sys2Proof/Laws/ReadRun.lean ====
section
/-!
SUPPORT. The read sequence (42 R180) as one run, wherever it stands in a micro-program.
-/

namespace Sys2Proof.Machine

/-- The read primitive of the array, in one equation (20 R64). -/
theorem memRead_eq (b : Bank) (a : Word) (s : State) :
    memRead b a s =
      (readValue s b a s.draws, { s with settleDue := settling s, draws := s.draws + readDraws s b a }) := by
  unfold memRead readValue readDraws settling
  rw [wordIndex_wordAddr]
  by_cases h : s.settleDue = true ∧ s.tSettle < s.cfg.timing.hv
  · simp [h.1, h.2, draw]
  · have h' : (s.settleDue && decide (s.tSettle < s.cfg.timing.hv)) = false := by
      simpa [Bool.and_eq_false_iff] using h
    rw [if_neg h, h']
    simp only [Bool.false_eq_true, if_false]
    cases hc : cell s b (wordIndex a) <;> simp [wordOr, drawsOf, draw]

/-- The lines of the read sequence. -/
def readActs : List Act :=
  [.unlock, .readDelay, .shadow, .wrCmd .none, .wrAdr .word, .wrCmd .read, .discard, .discard, .discard, .sample,
   .wrCmd .none, .lock]

/-- The shadow of an operation, from what the registers and latches hold (41 R170). -/
def shadowAt (s : State) : CmdWord := shadowOf (delayOnly s.cmd) (s.lat.bank == .info)

theorem shadowAt_shadow (s : State) : Shadow (shadowAt s) := shadowOf_delayOnly_shadow _ _

@[simp] theorem shadowAt_ifren (s : State) : (shadowAt s).ifren = (s.lat.bank == .info) := by
  simp [shadowAt, shadowOf, delayOnly]

@[simp] theorem bankOf_shadowAt (s : State) (d : Drive) : bankOf (withDrive (shadowAt s) d) = arrayBank s.lat.bank := by
  simp only [bankOf, withDrive_ifren, shadowAt_ifren]
  cases s.lat.bank <;> rfl

/-- A read of `DO` in `M_READ` while reads are still stale (41 R147). -/
theorem rdDO_stale {s : State} (hm : modeOf s.cmd = .read) (h : s.doStale ≠ 0) :
    rdDO s = .ok (Config.draw s.draws, { s with doStale := s.doStale - 1, draws := s.draws + 1 }) := by
  simp [rdDO, mode, hm, h, draw]

/-- A read of `DO` in `M_READ` past the pipeline (41 R147). -/
theorem rdDO_data {s : State} (hm : modeOf s.cmd = .read) (h : s.doStale = 0)
    (hr : (wordAddr s.adr).toNat < bankSize s.cfg (bankOf s.cmd)) :
    rdDO s = .ok (memRead (bankOf s.cmd) s.adr s) := by
  simp [rdDO, mode, hm, h, Nat.not_le.mpr hr]

/-- A discarded read. -/
theorem runAct_discard (n : Fin 4) {s : State} (hm : modeOf s.cmd = .read) (hn : s.doStale = n) (h : n ≠ 0) :
    runAct .discard s = .go { s with doStale := n - 1, draws := s.draws + 1 } := by
  subst hn
  simp only [runAct, rdDO_stale hm h]

/-- The real read. -/
theorem runAct_sample {s : State} (hm : modeOf s.cmd = .read) (h : s.doStale = 0)
    (hr : (wordAddr s.adr).toNat < bankSize s.cfg (bankOf s.cmd)) :
    runAct .sample s = .go
      { s with
        settleDue := settling s
        draws := s.draws + readDraws s (bankOf s.cmd) s.adr
        lat := { s.lat with res := readValue s (bankOf s.cmd) s.adr s.draws } } := by
  simp only [runAct, rdDO_data hm h hr, memRead_eq]
  rfl

/-- The end of the read sequence. -/
def readDone (s : State) (u : Upc) : State :=
  { s with
    key := 0#32
    cmd := shadowAt s
    adr := wordAddr s.lat.addr
    doStale := 0
    tCmd := 0
    rcvDue := false
    settleDue := settling s
    draws := s.draws + 3 + readDraws s (arrayBank s.lat.bank) s.lat.addr
    upc := u
    lat := { s.lat with
      dsh := delayOnly s.cmd
      csh := shadowAt s
      res := readValue s (arrayBank s.lat.bank) s.lat.addr (s.draws + 3) } }

/-- The read sequence from `M_OFF` or `M_IDLE`, any recovery time over, at an address inside the bank. -/
theorem runActs_read (op : Opcode) (line : Nat) (s : State) (hk : s.cfg.keyUnlock ≠ 0#32)
    (hm : modeOf s.cmd = .off ∨ modeOf s.cmd = .idle) (hrcv : s.rcvDue = true → s.cfg.timing.rcv ≤ s.tRcv)
    (ha : (wordAddr s.lat.addr).toNat < bankSize s.cfg (arrayBank s.lat.bank)) :
    runActs op line readActs s = .go (readDone s (.at op (line + 12))) := by
  have hsh := shadowAt_shadow s
  have hidle : modeOf (shadowAt s) = .idle := modeOf_withDrive hsh .none
  have hread : modeOf (withDrive (shadowAt s) .read) = .read := modeOf_withDrive hsh .read
  refine runActs_step rfl ?_
  refine runActs_step rfl ?_
  refine runActs_step rfl ?_
  refine runActs_step (runAct_shadow (c := shadowAt s) hsh rfl hk hm) ?_
  refine runActs_step (runAct_wrAdr .word hk (.inr hidle)) ?_
  refine runActs_step (runAct_drive .none .read hsh rfl rfl hk (by decide) (rcvCheck_passes hrcv)) ?_
  dsimp only [wrKey, setLat]
  refine runActs_step (runAct_discard 3 hread rfl (by decide)) ?_
  refine runActs_step (runAct_discard 2 hread rfl (by decide)) ?_
  refine runActs_step (runAct_discard 1 hread rfl (by decide)) ?_
  refine runActs_step (runAct_sample hread rfl (by simpa [adrOf] using ha)) ?_
  refine runActs_step (runAct_drive .read .none hsh rfl rfl hk (by decide) rfl) ?_
  refine runActs_step rfl ?_
  simp only [runActs, readDone, bankOf_shadowAt, readValue, readDraws, adrOf, wordIndex_wordAddr]
  rfl

/-- The read sequence with one more line behind it. -/
theorem runActs_read_then (op : Opcode) (line : Nat) (s : State) (a : Act) {t : State}
    (hk : s.cfg.keyUnlock ≠ 0#32) (hm : modeOf s.cmd = .off ∨ modeOf s.cmd = .idle)
    (hrcv : s.rcvDue = true → s.cfg.timing.rcv ≤ s.tRcv)
    (ha : (wordAddr s.lat.addr).toNat < bankSize s.cfg (arrayBank s.lat.bank))
    (h : runAct a (readDone s (.at op (line + 12))) = .go t) :
    runActs op line (readActs ++ [a]) s = .go { t with upc := .at op (line + 13) } := by
  refine runActs_append (runActs_read op line s hk hm hrcv ha) ?_
  exact runActs_step h rfl

end Sys2Proof.Machine
end

