-- ==== Sys2Proof/Laws/Accept.lean ====
section
/-!
SUPPORT. Requests: what acceptance leads to, and when each check of the request checker is silent.
-/

namespace Sys2Proof.Machine

/-- The state an accepted request's micro-program starts in (30 R104). -/
def started (q : Request) (s : State) : State := { accept q s with upc := .at q.op 0 }

theorem firstViolation_none {cs : List (Option FaultInfo)} : firstViolation cs = none ↔ ∀ c ∈ cs, c = none := by
  induction cs with
  | nil => simp [firstViolation]
  | cons c cs ih => cases c <;> simp [firstViolation, ih]

theorem checkClock_none {s : State} (h : clockOk s = true) : checkClock s = none := by
  simp only [checkClock, Option.map_eq_none_iff, List.find?_eq_none]
  simp only [clockOk, List.all_eq_true] at h
  intro t ht
  simp [h t ht]

theorem checkOneBank_selOf (b : Bank) : checkOneBank (selOf b) = none := by cases b <;> rfl

@[simp] theorem arrayBank_selOf (b : Bank) : arrayBank (selOf b) = b := by cases b <;> rfl

@[simp] theorem selOf_beq_info (b : Bank) : (selOf b == BankSel.info) = (b == Bank.info) := by cases b <;> rfl

theorem checkAligned_none {mask : Word} {as : List Word} (h : ∀ a ∈ as, a &&& mask = 0#32) :
    checkAligned mask as = none := by
  simp only [checkAligned, Option.map_eq_none_iff, List.findIdx?_eq_none_iff]
  intro a ha
  simp [h a ha]

theorem checkRange_none {s : State} {b : BankSel} {n : Nat} {as : List Word}
    (h : ∀ a ∈ as, a.toNat + n ≤ bankSize s.cfg (arrayBank b)) : checkRange s b n as = none := by
  simp only [checkRange, Option.map_eq_none_iff, List.findIdx?_eq_none_iff]
  intro a ha
  simp [Nat.not_lt.mpr (h a ha)]

theorem checkPage_none {s : State} {b : BankSel} {a : Word} (h : (pageOf a).toNat < bankSize s.cfg (arrayBank b)) :
    checkPage s b a = none := by simp [checkPage, h]

theorem checkBelow_none {v : Word} {n : Nat} (h : v.toNat < n) : checkBelow v n = none := by simp [checkBelow, h]

theorem checkMaxLen_none {s : State} {n : Nat} {h : Word} (hn : n ≤ s.cfg.maxLen) : checkMaxLen s n h = none := by
  simp [checkMaxLen, hn]

theorem checkNonEmpty_none {n : Nat} (h : n ≠ 0) : checkNonEmpty n = none := by simp [checkNonEmpty, h]

theorem checkSupported_none {s : State} {op : Opcode} (h : s.cfg.hasCacheCtrl = true) :
    checkSupported s op = none := by simp [checkSupported, h]

/-- An accepted request with nothing to complain of runs its micro-program to the end in one step. -/
theorem request_runs {i : Instr} {q : Request} {checks : List (Option FaultInfo)} {s t : State} {n : Nat}
    (hr : Ready s) (hc : ∀ c ∈ checks, c = none) (h : Runs n (started q s) t) (ht : t.busy = false)
    (hn : n ≤ 33 * ((started q s).lat.len.toNat + 41)) : request i q checks s = .next t := by
  have hv : firstViolation (checks ++ [checkClock s]) = none := by
    rw [firstViolation_none]
    intro c hm
    rcases List.mem_append.mp hm with hm | hm
    · exact hc c hm
    · rw [List.mem_singleton.mp hm]; exact checkClock_none hr.clock
  have hb : s.busy = false := hr.quiet.notBusy
  simp only [request, hb, hv, hr.noTurns, List.isEmpty_nil, if_true, Bool.false_eq_true, if_false]
  exact runSeq_of_runs_done h ht hn

end Sys2Proof.Machine
end

