-- ==== Sys2Proof/Laws/ProgramRun.lean ====
section
/-!
SUPPORT. The program sequence (44 R200) as one run, wherever it stands in a micro-program.
-/

namespace Sys2Proof.Machine

/-- The setup line of a programming sequence (41 R154). -/
theorem runAct_progSetup {c : CmdWord} {s : State} (hc : Shadow c) (hl : s.lat.csh = c) (hd : s.cmd = c)
    (hk : s.key ≠ 0#32) (hrcv : s.rcvDue = true → s.cfg.timing.rcv ≤ s.tRcv) :
    runAct (.wrCmd .progSetup) s = .go
      { s with
        cmd := withDrive c .progSetup
        rcvDue := false
        xlatch := some { kind := .prog, bank := bankOf c, addr := wordAddr s.adr }
        tCmd := 0 } := by
  have hi : bankOf (withDrive c .progSetup) = bankOf c := by simp [bankOf]
  rw [← hi]
  exact runAct_drive .none .progSetup hc hl hd hk (by decide) (rcvCheck_passes hrcv)

/-- The line that switches program high voltage on (41 R155). -/
theorem runAct_progHv {c : CmdWord} {s : State} (hc : Shadow c) (hl : s.lat.csh = c)
    (hd : s.cmd = withDrive c .progSetup) (hk : s.key ≠ 0#32) (ht : s.cfg.timing.nvs ≤ s.tCmd) :
    runAct (.wrCmd .progHv) s = .go { s with cmd := withDrive c .progHv, tHv := 0, tCmd := 0 } := by
  refine runAct_drive .progSetup .progHv (t := { s with cmd := withDrive c .progHv, tHv := 0 }) hc hl hd hk (by decide) ?_
  simp [transition, driveMode, programHv, Nat.not_lt.mpr ht]

/-- A pulse starts (41 R157). -/
theorem pulseStart_ok {s : State} {x : XLatch} (hx : s.xlatch = some x) (ht : s.cfg.timing.pgs ≤ s.tHv)
    (hr : (wordAddr s.adr).toNat < bankSize s.cfg x.bank) :
    pulseStart s = .ok
      { setArray s x.bank (forgetWords (· == wordIndex s.adr) (array s x.bank)) with
        pend := some (.progWord x.bank (wordIndex s.adr) (cell s x.bank (wordIndex s.adr)) s.di) } := by
  simp [pulseStart, hx, Nat.not_lt.mpr ht, adrWord, Nat.not_le.mpr hr]

/-- A pulse ends and commits (41 R158). -/
theorem pulseEnd_ok {s : State} {b : Bank} {w : Nat} {c : Cell} {d : Word} (hp : s.pend = some (.progWord b w c d))
    (ht : s.cfg.timing.prog ≤ s.tCmd) :
    pulseEnd s = .ok { cellProgram s b w c d with pend := none } := by
  simp [pulseEnd, hp, Nat.not_lt.mpr ht]

/-- A hold ends (41 R159). -/
theorem holdEnd_ok {s : State} (ht : s.cfg.timing.nvh ≤ s.tCmd) :
    holdEnd s = .ok { recoveryBegins (latchedErase s) s with xlatch := none } := by
  simp [holdEnd, Nat.not_lt.mpr ht]

/-- The line that starts a pulse (41 R157). -/
theorem runAct_pulse {c : CmdWord} {s : State} {x : XLatch} (hc : Shadow c) (hl : s.lat.csh = c)
    (hd : s.cmd = withDrive c .progHv) (hk : s.key ≠ 0#32) (hx : s.xlatch = some x) (ht : s.cfg.timing.pgs ≤ s.tHv)
    (hr : (wordAddr s.adr).toNat < bankSize s.cfg x.bank) :
    runAct (.wrCmd .pulse) s = .go
      { setArray s x.bank (forgetWords (· == wordIndex s.adr) (array s x.bank)) with
        cmd := withDrive c .pulse
        pend := some (.progWord x.bank (wordIndex s.adr) (cell s x.bank (wordIndex s.adr)) s.di)
        tCmd := 0 } := by
  refine (runAct_drive .progHv .pulse (t := { setArray s x.bank (forgetWords (· == wordIndex s.adr) (array s x.bank)) with
    cmd := withDrive c .pulse
    pend := some (.progWord x.bank (wordIndex s.adr) (cell s x.bank (wordIndex s.adr)) s.di) }) hc hl hd hk
    (by decide) ?_)
  refine (pulseStart_ok (s := { s with cmd := withDrive c .pulse }) hx ht hr).trans ?_
  cases x.bank <;> rfl

/-- The line that ends a pulse (41 R158). -/
theorem runAct_pulseEnd {c : CmdWord} {s : State} {b : Bank} {w : Nat} {p : Cell} {d : Word} (hc : Shadow c)
    (hl : s.lat.csh = c) (hd : s.cmd = withDrive c .pulse) (hk : s.key ≠ 0#32)
    (hp : s.pend = some (.progWord b w p d)) (ht : s.cfg.timing.prog ≤ s.tCmd) :
    runAct (.wrCmd .progHv) s = .go
      { setArray s b (setCell (array s b) w (committed s.cfg b w (.program d) p)) with
        cmd := withDrive c .progHv
        pend := none
        tCmd := 0 } := by
  refine (runAct_drive .pulse .progHv (t := { setArray s b (setCell (array s b) w
    (committed s.cfg b w (.program d) p)) with cmd := withDrive c .progHv, pend := none }) hc hl hd hk (by decide) ?_)
  refine (pulseEnd_ok (s := { s with cmd := withDrive c .progHv }) hp ht).trans ?_
  cases b <;> rfl

/-- The line that begins the hold of a programming sequence (41 R152). -/
theorem runAct_hold {c : CmdWord} {s : State} (hc : Shadow c) (hl : s.lat.csh = c)
    (hd : s.cmd = withDrive c .progHv) (hk : s.key ≠ 0#32) :
    runAct (.wrCmd .hold) s = .go { s with cmd := withDrive c .hold, tCmd := 0 } :=
  runAct_drive .progHv .hold (t := { s with cmd := withDrive c .hold }) hc hl hd hk (by decide) rfl

/-- The line that ends a hold (41 R159). -/
theorem runAct_holdEnd {c : CmdWord} {s : State} (hc : Shadow c) (hl : s.lat.csh = c)
    (hd : s.cmd = withDrive c .hold) (hk : s.key ≠ 0#32) (ht : s.cfg.timing.nvh ≤ s.tCmd) :
    runAct (.wrCmd .none) s = .go
      { recoveryBegins (latchedErase s) s with cmd := c, xlatch := none, tCmd := 0 } := by
  refine runAct_drive .hold .none (t := { recoveryBegins (latchedErase s) s with cmd := c, xlatch := none }) hc hl hd hk
    (by decide) ?_
  exact holdEnd_ok (s := { s with cmd := withDrive c .none }) ht

/-- The prologue (41 R170). -/
def beginActs : List Act := [.unlock, .readDelay, .shadow, .wrCmd .none]

/-- After the prologue. -/
def begun (s : State) (u : Upc) : State :=
  { s with
    key := s.cfg.keyUnlock
    cmd := shadowAt s
    tCmd := 0
    upc := u
    lat := { s.lat with dsh := delayOnly s.cmd, csh := shadowAt s } }

theorem runActs_begin (op : Opcode) (line : Nat) (s : State) (hk : s.cfg.keyUnlock ≠ 0#32)
    (hm : modeOf s.cmd = .off ∨ modeOf s.cmd = .idle) :
    runActs op line beginActs s = .go (begun s (.at op (line + 4))) := by
  refine runActs_step rfl ?_
  refine runActs_step rfl ?_
  refine runActs_step rfl ?_
  refine runActs_step (runAct_shadow (c := shadowAt s) (shadowAt_shadow s) rfl hk hm) ?_
  rfl

/-- Opening a programming run, but for the run latch (45 R212). -/
def openActs : List Act :=
  [.wrAdr .operand, .wrDI, .wrCmd .progSetup, .delay .nvs, .wrCmd .progHv, .delay .pgs]

/-- A programming run is open: high voltage is on. -/
def opened (s : State) (u : Upc) : State :=
  { s with
    cmd := withDrive s.lat.csh .progHv
    adr := s.lat.addr
    di := s.lat.data
    doStale := 3
    tCmd := s.cfg.timing.pgs
    tHv := s.cfg.timing.pgs
    tSettle := s.tSettle + s.cfg.timing.nvs + s.cfg.timing.pgs
    tRcv := s.tRcv + s.cfg.timing.nvs + s.cfg.timing.pgs
    rcvDue := false
    xlatch := some { kind := .prog, bank := bankOf s.lat.csh, addr := wordAddr s.lat.addr }
    counts := { s.counts with dcnt := Config.idleCount s.draws }
    upc := u }

theorem runActs_open (op : Opcode) (line : Nat) (s : State) (hc : Shadow s.lat.csh) (hd : s.cmd = s.lat.csh)
    (hk : s.key ≠ 0#32) (hrcv : s.rcvDue = true → s.cfg.timing.rcv ≤ s.tRcv) :
    runActs op line openActs s = .go (opened s (.at op (line + 6))) := by
  have hidle : modeOf s.cmd = .idle := by rw [hd]; exact modeOf_withDrive hc .none
  refine runActs_step (runAct_wrAdr .operand hk (.inr hidle)) ?_
  refine runActs_step (runAct_wrDI hk (.inr (.inl hidle))) ?_
  refine runActs_step (runAct_progSetup hc rfl hd hk hrcv) ?_
  refine runActs_step rfl ?_
  refine runActs_step (runAct_progHv hc rfl rfl hk (Nat.le_add_left _ _)) ?_
  refine runActs_step rfl ?_
  simp only [runActs, delayFor, advance, timingUs, opened, adrOf, Nat.zero_add]

/-- One program pulse (45 R214). -/
def pulseActs : List Act := [.wrCmd .pulse, .delay .prog, .wrCmd .progHv]

/-- A bank's list after a pulse on the word at `a` has committed. -/
def pulsedList (s : State) (b : Bank) (a d : Word) : List Host.Cell :=
  setCell (forgetWords (· == wordIndex a) (array s b)) (wordIndex a)
    (committed s.cfg b (wordIndex a) (.program d) (cell s b (wordIndex a)))

/-- After a pulse in bank `b`. -/
def pulsed (s : State) (b : Bank) (u : Upc) : State :=
  { setArray s b (pulsedList s b s.adr s.di) with
    cmd := withDrive s.lat.csh .progHv
    tCmd := 0
    tHv := s.tHv + s.cfg.timing.prog
    tSettle := s.tSettle + s.cfg.timing.prog
    tRcv := s.tRcv + s.cfg.timing.prog
    pend := none
    counts := { s.counts with dcnt := Config.idleCount s.draws }
    upc := u }

theorem runActs_pulse (op : Opcode) (line : Nat) (s : State) (x : XLatch) (hc : Shadow s.lat.csh)
    (hd : s.cmd = withDrive s.lat.csh .progHv) (hk : s.key ≠ 0#32) (hx : s.xlatch = some x)
    (ht : s.cfg.timing.pgs ≤ s.tHv) (hr : (wordAddr s.adr).toNat < bankSize s.cfg x.bank) :
    runActs op line pulseActs s = .go (pulsed s x.bank (.at op (line + 3))) := by
  refine runActs_step (runAct_pulse hc rfl hd hk hx ht hr) ?_
  generalize x.bank = b
  cases b
  · refine runActs_step rfl ?_
    refine runActs_step (runAct_pulseEnd hc rfl rfl hk rfl (Nat.le_add_left _ _)) ?_
    simp only [runActs, delayFor, advance, timingUs, pulsed, setArray, pulsedList, array]
  · refine runActs_step rfl ?_
    refine runActs_step (runAct_pulseEnd hc rfl rfl hk rfl (Nat.le_add_left _ _)) ?_
    simp only [runActs, delayFor, advance, timingUs, pulsed, setArray, pulsedList, array]

/-- Closing a programming run, but for the run latch (45 R213). -/
def closeActs : List Act := [.wrCmd .hold, .delay .nvh, .wrCmd .none, .delay .rcv]

/-- A programming run is closed: the recovery time has passed. -/
def closed (s : State) (u : Upc) : State :=
  { s with
    cmd := s.lat.csh
    tCmd := s.cfg.timing.rcv
    tHv := s.tHv + s.cfg.timing.nvh + s.cfg.timing.rcv
    tSettle := s.tSettle + s.cfg.timing.nvh + s.cfg.timing.rcv
    tRcv := s.cfg.timing.rcv
    rcvDue := true
    xlatch := none
    counts := { s.counts with dcnt := Config.idleCount s.draws }
    upc := u }

theorem runActs_close (op : Opcode) (line : Nat) (s : State) (hc : Shadow s.lat.csh)
    (hd : s.cmd = withDrive s.lat.csh .progHv) (hk : s.key ≠ 0#32) (hx : latchedErase s = false) :
    runActs op line closeActs s = .go (closed s (.at op (line + 4))) := by
  refine runActs_step (runAct_hold hc rfl hd hk) ?_
  refine runActs_step rfl ?_
  refine runActs_step (runAct_holdEnd hc rfl rfl hk (Nat.le_add_left _ _)) ?_
  refine runActs_step rfl ?_
  dsimp only [recoveryBegins]
  generalize hg : latchedErase _ = e
  have he : e = false := hg.symm.trans hx
  subst he
  simp only [runActs, delayFor, advance, timingUs, closed, Nat.zero_add, Bool.false_or, Bool.false_eq_true, if_false]

/-- The lines of the program sequence. -/
def progActs : List Act := beginActs ++ (openActs ++ (pulseActs ++ (closeActs ++ [.lock])))

/-- The end of the program sequence. -/
def programDone (s : State) (u : Upc) : State :=
  { setArray s (arrayBank s.lat.bank) (pulsedList s (arrayBank s.lat.bank) s.lat.addr s.lat.data) with
    key := 0#32
    cmd := shadowAt s
    adr := s.lat.addr
    di := s.lat.data
    doStale := 3
    tCmd := s.cfg.timing.rcv
    tHv := s.cfg.timing.pgs + s.cfg.timing.prog + s.cfg.timing.nvh + s.cfg.timing.rcv
    tSettle := s.tSettle + programUs s.cfg
    tRcv := s.cfg.timing.rcv
    rcvDue := true
    xlatch := none
    pend := none
    counts := { s.counts with dcnt := Config.idleCount s.draws }
    upc := u
    lat := { s.lat with dsh := delayOnly s.cmd, csh := shadowAt s } }

/-- The program sequence from `M_OFF` or `M_IDLE`, any recovery time over, at an address inside the bank. -/
theorem runActs_program (op : Opcode) (line : Nat) (s : State) (hk : s.cfg.keyUnlock ≠ 0#32)
    (hm : modeOf s.cmd = .off ∨ modeOf s.cmd = .idle) (hrcv : s.rcvDue = true → s.cfg.timing.rcv ≤ s.tRcv)
    (ha : (wordAddr s.lat.addr).toNat < bankSize s.cfg (arrayBank s.lat.bank)) :
    runActs op line progActs s = .go (programDone s (.at op (line + 18))) := by
  have hsh := shadowAt_shadow s
  have hbank : bankOf (shadowAt s) = arrayBank s.lat.bank := bankOf_shadowAt s .none
  refine runActs_append (runActs_begin op line s hk hm) ?_
  refine runActs_append (runActs_open op _ (begun s _) hsh rfl hk hrcv) ?_
  refine runActs_append (runActs_pulse op _ (opened (begun s _) _) _ hsh rfl hk rfl (Nat.le_refl _)
    (by rw [show (XLatch.bank _) = _ from hbank]; exact ha)) ?_
  dsimp only [opened, begun]
  rw [hbank]
  generalize hb : arrayBank s.lat.bank = b
  cases b
  · refine runActs_append (runActs_close op _ (pulsed _ _ _) hsh rfl hk rfl) ?_
    refine runActs_step rfl ?_
    simp only [runActs, programDone, hb, closed, pulsed, wrKey, setArray, pulsedList, array, programUs,
      Nat.add_assoc]
    rfl
  · refine runActs_append (runActs_close op _ (pulsed _ _ _) hsh rfl hk rfl) ?_
    refine runActs_step rfl ?_
    simp only [runActs, programDone, hb, closed, pulsed, wrKey, setArray, pulsedList, array, programUs,
      Nat.add_assoc]
    rfl

end Sys2Proof.Machine
end

