-- ==== Sys2Proof/Laws/EraseRun.lean ====
section
/-!
SUPPORT. One sector of a page erase (43 R192) and of a mass erase (43 R194) as one run, and their loops.
-/

namespace Sys2Proof.Machine

/-! ### A row erase -/

/-- The setup line of a row erase (41 R160). -/
theorem runAct_eraseSetup {c : CmdWord} {s : State} {b : Bank} (hc : Shadow c) (hl : s.lat.csh = c) (hd : s.cmd = c)
    (hb : bankOf c = b) (hk : s.key ≠ 0#32) (hrcv : s.rcvDue = true → s.cfg.timing.rcv ≤ s.tRcv) :
    runAct (.wrCmd .eraseSetup) s = .go
      { s with
        cmd := withDrive c .eraseSetup
        rcvDue := false
        xlatch := some { kind := .erase, bank := b, addr := wordAddr s.adr }
        tCmd := 0 } := by
  have hi : bankOf (withDrive c .eraseSetup) = b := by rw [← hb]; simp [bankOf]
  rw [← hi]
  exact runAct_drive .none .eraseSetup hc hl hd hk (by decide) (rcvCheck_passes hrcv)

theorem eraseHv_ok {s : State} {x : XLatch} (hx : s.xlatch = some x) (ht : s.cfg.timing.nvs ≤ s.tCmd)
    (hr : (pageOf x.addr).toNat < bankSize s.cfg x.bank) :
    eraseHv s = .ok { forgetRow s x.bank x.addr with
      tHv := 0, pend := some (.eraseRow x.bank (rowOf x.addr)) } := by
  simp [eraseHv, hx, Nat.not_lt.mpr ht, Nat.not_le.mpr hr]

theorem eraseEnd_ok {s : State} {b : Bank} {r : Word} (hp : s.pend = some (.eraseRow b r))
    (ht : s.cfg.timing.erase ≤ s.tCmd) : eraseEnd s = .ok { rowErase s b r with pend := none } := by
  simp [eraseEnd, hp, Nat.not_lt.mpr ht]

/-- The line that switches erase high voltage on (41 R160). -/
theorem runAct_eraseHv {c : CmdWord} {s : State} {x : XLatch} (hc : Shadow c) (hl : s.lat.csh = c)
    (hd : s.cmd = withDrive c .eraseSetup) (hk : s.key ≠ 0#32) (hx : s.xlatch = some x)
    (ht : s.cfg.timing.nvs ≤ s.tCmd) (hr : (pageOf x.addr).toNat < bankSize s.cfg x.bank) :
    runAct (.wrCmd .eraseHv) s = .go
      { setArray s x.bank (forgetWords (inRow x.addr) (array s x.bank)) with
        cmd := withDrive c .eraseHv
        pend := some (.eraseRow x.bank (rowOf x.addr))
        tHv := 0
        tCmd := 0 } := by
  refine (runAct_drive .eraseSetup .eraseHv (t := { setArray s x.bank (forgetWords (inRow x.addr) (array s x.bank)) with
    cmd := withDrive c .eraseHv
    pend := some (.eraseRow x.bank (rowOf x.addr))
    tHv := 0 }) hc hl hd hk (by decide) ?_)
  refine (eraseHv_ok (s := { s with cmd := withDrive c .eraseHv }) hx ht hr).trans ?_
  cases x.bank <;> rfl

/-- The line that commits a row erase (41 R161). -/
theorem runAct_eraseEnd {c : CmdWord} {s : State} {b : Bank} {r : Word} (hc : Shadow c) (hl : s.lat.csh = c)
    (hd : s.cmd = withDrive c .eraseHv) (hk : s.key ≠ 0#32) (hp : s.pend = some (.eraseRow b r))
    (ht : s.cfg.timing.erase ≤ s.tCmd) :
    runAct (.wrCmd .hold) s = .go
      { setArray s b (eraseWords s.cfg b (rowWords r) (array s b)) with
        cmd := withDrive c .hold
        pend := none
        tCmd := 0 } := by
  refine (runAct_drive .eraseHv .hold (t := { setArray s b (eraseWords s.cfg b (rowWords r) (array s b)) with
    cmd := withDrive c .hold, pend := none }) hc hl hd hk (by decide) ?_)
  refine (eraseEnd_ok (s := { s with cmd := withDrive c .hold }) hp ht).trans ?_
  cases b <;> rfl

/-- The lines of one sector of a page erase behind the prologue, and the page's setup (43 R192 lines 5 to 14). -/
def rowActs : List Act :=
  [.wrAdr .pageSector, .wrDIZero, .wrCmd .eraseSetup, .delay .nvs, .wrCmd .eraseHv, .delay .erase, .wrCmd .hold,
   .delay .nvh, .wrCmd .none, .delay .rcv]

/-- A bank's list after the row of `a` has been erased. -/
def erasedList (c : Config) (b : Bank) (a : Word) (m : List Host.Cell) : List Host.Cell :=
  eraseWords c b (rowWords (rowOf a)) (forgetWords (inRow a) m)

/-- After one sector of a page erase. -/
def rowErased (s : State) (b : Bank) (u : Upc) : State :=
  { setArray s b (erasedList s.cfg b (wordAddr (eraseAddr s.lat.addr s.lat.sec)) (array s b)) with
    cmd := s.lat.csh
    adr := eraseAddr s.lat.addr s.lat.sec
    di := 0#32
    doStale := 3
    tCmd := s.cfg.timing.rcv
    tHv := s.cfg.timing.erase + s.cfg.timing.nvh + s.cfg.timing.rcv
    tSettle := s.cfg.timing.rcv
    tRcv := s.cfg.timing.rcv
    rcvDue := true
    settleDue := true
    xlatch := none
    pend := none
    counts := { s.counts with dcnt := Config.idleCount s.draws }
    upc := u }

theorem runActs_row (op : Opcode) (line : Nat) (s : State) {b : Bank} (hc : Shadow s.lat.csh) (hd : s.cmd = s.lat.csh)
    (hb : bankOf s.lat.csh = b) (hk : s.key ≠ 0#32) (hrcv : s.rcvDue = true → s.cfg.timing.rcv ≤ s.tRcv)
    (hr : (pageOf (wordAddr (eraseAddr s.lat.addr s.lat.sec))).toNat < bankSize s.cfg b) :
    runActs op line rowActs s = .go (rowErased s b (.at op (line + 10))) := by
  have hidle : modeOf s.cmd = .idle := by rw [hd]; exact modeOf_withDrive hc .none
  refine runActs_step (runAct_wrAdr .pageSector hk (.inr hidle)) ?_
  refine runActs_step (runAct_wrDIZero hk (.inr (.inl hidle))) ?_
  refine runActs_step (runAct_eraseSetup hc rfl hd hb hk hrcv) ?_
  refine runActs_step rfl ?_
  dsimp only [delayFor, advance, timingUs, adrOf]
  refine runActs_step (runAct_eraseHv (x := ⟨.erase, b, wordAddr (eraseAddr s.lat.addr s.lat.sec)⟩) hc rfl rfl hk rfl
    (Nat.le_add_left _ _) hr) ?_
  cases b
  · refine runActs_step rfl ?_
    dsimp only [delayFor, advance, timingUs, setArray]
    refine runActs_step (runAct_eraseEnd hc rfl rfl hk rfl (Nat.le_add_left _ _)) ?_
    refine runActs_step rfl ?_
    dsimp only [delayFor, advance, timingUs, setArray]
    refine runActs_step (runAct_holdEnd hc rfl rfl hk (Nat.le_add_left _ _)) ?_
    refine runActs_step rfl ?_
    simp only [runActs, delayFor, advance, timingUs, rowErased, recoveryBegins, Nat.zero_add, setArray, erasedList, array,
      latchedErase, Option.any_some, beq_self_eq_true, Bool.true_or, if_true]
  · refine runActs_step rfl ?_
    dsimp only [delayFor, advance, timingUs, setArray]
    refine runActs_step (runAct_eraseEnd hc rfl rfl hk rfl (Nat.le_add_left _ _)) ?_
    refine runActs_step rfl ?_
    dsimp only [delayFor, advance, timingUs, setArray]
    refine runActs_step (runAct_holdEnd hc rfl rfl hk (Nat.le_add_left _ _)) ?_
    refine runActs_step rfl ?_
    simp only [runActs, delayFor, advance, timingUs, rowErased, recoveryBegins, Nat.zero_add, setArray, erasedList, array,
      latchedErase, Option.any_some, beq_self_eq_true, Bool.true_or, if_true]

/-! ### A mass erase -/

/-- The setup line of a mass erase (41 R163). -/
theorem runAct_massSetup {c : CmdWord} {s : State} {b : Bank} (hc : Shadow c) (hl : s.lat.csh = c) (hd : s.cmd = c)
    (hb : bankOf c = b) (hk : s.key ≠ 0#32) (hrcv : s.rcvDue = true → s.cfg.timing.rcv ≤ s.tRcv) :
    runAct (.wrCmd .massSetup) s = .go
      { s with
        cmd := withDrive c .massSetup
        rcvDue := false
        xlatch := some { kind := .mass, bank := b, addr := wordAddr s.adr }
        tCmd := 0 } := by
  have hi : bankOf (withDrive c .massSetup) = b := by rw [← hb]; simp [bankOf]
  rw [← hi]
  exact runAct_drive .none .massSetup hc hl hd hk (by decide) (rcvCheck_passes hrcv)

theorem massHv_ok {s : State} {x : XLatch} (hx : s.xlatch = some x) (ht : s.cfg.timing.nvs ≤ s.tCmd) :
    massHv s = .ok { forgetSector s (sectorOf x.addr) (x.bank == .info) with
      tHv := 0, pend := some (.eraseSector (sectorOf x.addr) (x.bank == .info)) } := by
  simp [massHv, hx, Nat.not_lt.mpr ht]

theorem massEnd_ok {s : State} {k : BitVec 2} {both : Bool} (hp : s.pend = some (.eraseSector k both))
    (ht : s.cfg.timing.me ≤ s.tCmd) : massEnd s = .ok { sectorMassErase s k both with pend := none } := by
  simp [massEnd, hp, Nat.not_lt.mpr ht]

theorem forgetSector_false (s : State) (k : BitVec 2) :
    forgetSector s k false = { s with main := forgetWords (inSector k) s.main } := rfl

theorem forgetSector_true (s : State) (k : BitVec 2) :
    forgetSector s k true =
      { s with main := forgetWords (inSector k) s.main, info := forgetWords (inSector k) s.info } := rfl

theorem sectorMassErase_false (s : State) (k : BitVec 2) :
    sectorMassErase s k false = { s with main := eraseWords s.cfg .main (sectorWords k s.cfg.mainSize) s.main } := rfl

theorem sectorMassErase_true (s : State) (k : BitVec 2) :
    sectorMassErase s k true =
      { s with
        main := eraseWords s.cfg .main (sectorWords k s.cfg.mainSize) s.main
        info := eraseWords s.cfg .info (sectorWords k pageSize) s.info } := rfl

/-- The line that switches mass erase high voltage on (41 R163). -/
theorem runAct_massHv {c : CmdWord} {s : State} {x : XLatch} {both : Bool} (hc : Shadow c) (hl : s.lat.csh = c)
    (hd : s.cmd = withDrive c .massSetup) (hk : s.key ≠ 0#32) (hx : s.xlatch = some x)
    (hboth : (x.bank == .info) = both) (ht : s.cfg.timing.nvs ≤ s.tCmd) :
    runAct (.wrCmd .massHv) s = .go
      { forgetSector s (sectorOf x.addr) both with
        cmd := withDrive c .massHv
        pend := some (.eraseSector (sectorOf x.addr) both)
        tHv := 0
        tCmd := 0 } := by
  subst hboth
  refine (runAct_drive .massSetup .massHv (t := { forgetSector s (sectorOf x.addr) (x.bank == .info) with
    cmd := withDrive c .massHv
    pend := some (.eraseSector (sectorOf x.addr) (x.bank == .info))
    tHv := 0 }) hc hl hd hk (by decide) ?_)
  refine (massHv_ok (s := { s with cmd := withDrive c .massHv }) hx ht).trans ?_
  generalize (x.bank == .info) = both
  cases both <;> rfl

/-- The line that commits a mass erase (41 R164). -/
theorem runAct_massEnd {c : CmdWord} {s : State} {k : BitVec 2} {both : Bool} (hc : Shadow c) (hl : s.lat.csh = c)
    (hd : s.cmd = withDrive c .massHv) (hk : s.key ≠ 0#32) (hp : s.pend = some (.eraseSector k both))
    (ht : s.cfg.timing.me ≤ s.tCmd) :
    runAct (.wrCmd .massHold) s = .go
      { sectorMassErase s k both with cmd := withDrive c .massHold, pend := none, tCmd := 0 } := by
  refine (runAct_drive .massHv .massHold (t := { sectorMassErase s k both with
    cmd := withDrive c .massHold, pend := none }) hc hl hd hk (by decide) ?_)
  refine (massEnd_ok (s := { s with cmd := withDrive c .massHold }) hp ht).trans ?_
  cases both <;> rfl

/-- The line that ends the hold of a mass erase (41 R165). -/
theorem runAct_massHoldEnd {c : CmdWord} {s : State} (hc : Shadow c) (hl : s.lat.csh = c)
    (hd : s.cmd = withDrive c .massHold) (hk : s.key ≠ 0#32) (ht : s.cfg.timing.nvh1 ≤ s.tCmd) :
    runAct (.wrCmd .none) s = .go { recoveryBegins true s with cmd := c, xlatch := none, tCmd := 0 } := by
  refine runAct_drive .massHold .none (t := { recoveryBegins true s with cmd := c, xlatch := none }) hc hl hd hk
    (by decide) ?_
  simp only [transition, driveMode, massHoldEnd]
  rw [if_neg (Nat.not_lt.mpr ht)]
  rfl

/-- The lines of one sector of a mass erase behind the prologue (43 R194 lines 5 to 14). -/
def massActs : List Act :=
  [.wrAdr .sector, .wrDIZero, .wrCmd .massSetup, .delay .nvs, .wrCmd .massHv, .delay .me, .wrCmd .massHold,
   .delay .nvh1, .wrCmd .none, .delay .rcv]

/-- A bank's list after a sector has been mass erased. -/
def massedList (c : Config) (b : Bank) (k : BitVec 2) (m : List Host.Cell) : List Host.Cell :=
  eraseWords c b (sectorWords k (bankSize c b)) (forgetWords (inSector k) m)

/-- The address a sector of a mass erase works at. -/
def massAdr (k : BitVec 3) : Word := k.setWidth 32 <<< 2

/-- After one sector of a mass erase; `both` says whether Info is erased too. -/
def sectorErased (s : State) (both : Bool) (u : Upc) : State :=
  { s with
    main := massedList s.cfg .main (sectorOf (wordAddr (massAdr s.lat.sec))) s.main
    info := if both then massedList s.cfg .info (sectorOf (wordAddr (massAdr s.lat.sec))) s.info else s.info
    cmd := s.lat.csh
    adr := massAdr s.lat.sec
    di := 0#32
    doStale := 3
    tCmd := s.cfg.timing.rcv
    tHv := s.cfg.timing.me + s.cfg.timing.nvh1 + s.cfg.timing.rcv
    tSettle := s.cfg.timing.rcv
    tRcv := s.cfg.timing.rcv
    rcvDue := true
    settleDue := true
    xlatch := none
    pend := none
    counts := { s.counts with dcnt := Config.idleCount s.draws }
    upc := u }

theorem runActs_sector (op : Opcode) (line : Nat) (s : State) (hc : Shadow s.lat.csh) (hd : s.cmd = s.lat.csh)
    (hk : s.key ≠ 0#32) (hrcv : s.rcvDue = true → s.cfg.timing.rcv ≤ s.tRcv) :
    runActs op line massActs s = .go (sectorErased s s.lat.csh.ifren (.at op (line + 10))) := by
  have hidle : modeOf s.cmd = .idle := by rw [hd]; exact modeOf_withDrive hc .none
  refine runActs_step (runAct_wrAdr .sector hk (.inr hidle)) ?_
  refine runActs_step (runAct_wrDIZero hk (.inr (.inl hidle))) ?_
  cases hi : s.lat.csh.ifren
  · have hb : bankOf s.lat.csh = .main := by simp [bankOf, hi]
    refine runActs_step (runAct_massSetup hc rfl hd hb hk hrcv) ?_
    refine runActs_step rfl ?_
    dsimp only [delayFor, advance, timingUs, adrOf]
    refine runActs_step (runAct_massHv (x := ⟨.mass, .main, wordAddr (massAdr s.lat.sec)⟩) (both := false) hc rfl rfl hk rfl rfl
      (Nat.le_add_left _ _)) ?_
    rw [forgetSector_false]
    refine runActs_step rfl ?_
    dsimp only [delayFor, advance, timingUs]
    refine runActs_step (runAct_massEnd (both := false) hc rfl rfl hk rfl (Nat.le_add_left _ _)) ?_
    rw [sectorMassErase_false]
    refine runActs_step rfl ?_
    dsimp only [delayFor, advance, timingUs]
    refine runActs_step (runAct_massHoldEnd hc rfl rfl hk (Nat.le_add_left _ _)) ?_
    refine runActs_step rfl ?_
    simp only [runActs, delayFor, advance, timingUs, sectorErased, recoveryBegins, Nat.zero_add,
      massedList, bankSize, massAdr, Bool.true_or, if_true, Bool.false_eq_true, if_false]
  · have hb : bankOf s.lat.csh = .info := by simp [bankOf, hi]
    refine runActs_step (runAct_massSetup hc rfl hd hb hk hrcv) ?_
    refine runActs_step rfl ?_
    dsimp only [delayFor, advance, timingUs, adrOf]
    refine runActs_step (runAct_massHv (x := ⟨.mass, .info, wordAddr (massAdr s.lat.sec)⟩) (both := true) hc rfl rfl hk rfl rfl
      (Nat.le_add_left _ _)) ?_
    rw [forgetSector_true]
    refine runActs_step rfl ?_
    dsimp only [delayFor, advance, timingUs]
    refine runActs_step (runAct_massEnd (both := true) hc rfl rfl hk rfl (Nat.le_add_left _ _)) ?_
    rw [sectorMassErase_true]
    refine runActs_step rfl ?_
    dsimp only [delayFor, advance, timingUs]
    refine runActs_step (runAct_massHoldEnd hc rfl rfl hk (Nat.le_add_left _ _)) ?_
    refine runActs_step rfl ?_
    simp only [runActs, delayFor, advance, timingUs, sectorErased, recoveryBegins, Nat.zero_add,
      massedList, bankSize, massAdr, Bool.true_or, if_true]

/-! ### The sector loops -/

/-- The sectors still to do when `n` more follow the current one. -/
def sectorsFrom : Nat → List (BitVec 3)
  | 0 => [3#3]
  | n + 1 => BitVec.ofNat 3 (2 - n) :: sectorsFrom n

/-- A bank's list after the rows of some sectors of a page have been erased in turn. -/
def rowsErased (c : Config) (b : Bank) (a : Word) (ks : List (BitVec 3)) (m : List Host.Cell) : List Host.Cell :=
  ks.foldl (fun m k => erasedList c b (wordAddr (eraseAddr a k)) m) m

/-- A bank's list after some sectors have been mass erased in turn. -/
def sectorsErased (c : Config) (b : Bank) (ks : List (BitVec 3)) (m : List Host.Cell) : List Host.Cell :=
  ks.foldl (fun m k => massedList c b (sectorOf (wordAddr (massAdr k))) m) m

/-- After the sector loop of a page erase, from sector `ks` on. -/
def pageErased (s : State) (b : Bank) (ks : List (BitVec 3)) (u : Upc) : State :=
  { setArray s b (rowsErased s.cfg b s.lat.addr ks (array s b)) with
    key := s.cfg.keyUnlock
    cmd := shadowAt s
    adr := eraseAddr s.lat.addr 3#3
    di := 0#32
    doStale := 3
    tCmd := s.cfg.timing.rcv
    tHv := s.cfg.timing.erase + s.cfg.timing.nvh + s.cfg.timing.rcv
    tSettle := s.cfg.timing.rcv
    tRcv := s.cfg.timing.rcv
    rcvDue := true
    settleDue := true
    xlatch := none
    pend := none
    counts := { s.counts with dcnt := Config.idleCount s.draws }
    upc := u
    lat := { s.lat with dsh := delayOnly s.cmd, csh := shadowAt s, sec := 4#3 } }

theorem runs_sector_branch {op : Opcode} {line loop : Nat} {s : State} (hu : s.upc = .at op line)
    (hb : s.busy = true) (hl : (program op)[line]? = some (.branch (.nextSector loop)))
    (hloop : loop < (program op).length) (hline : line + 1 < (program op).length) :
    Runs 1 s { setLat s { s.lat with sec := s.lat.sec + 1#3 } with
      upc := if s.lat.sec + 1#3 < 4#3 then .at op loop else .at op (line + 1) } := by
  refine .one hb ?_
  rw [seqStep_branch hu hl]
  by_cases h : s.lat.sec + 1#3 < 4#3
  · have hr : runBranch (.nextSector loop) s = .to loop (setLat s { s.lat with sec := s.lat.sec + 1#3 }) := if_pos h
    rw [hr, if_pos h]
    simp only [goLine_inside _ hloop]
  · have hr : runBranch (.nextSector loop) s = .next (setLat s { s.lat with sec := s.lat.sec + 1#3 }) := if_neg h
    rw [hr, if_neg h]
    simp only [goLine_inside _ hline]

/-- One turn of the sector loop of a page erase. -/
def pageTurn (s : State) (b : Bank) (u : Upc) : State :=
  { setArray s b (erasedList s.cfg b (wordAddr (eraseAddr s.lat.addr s.lat.sec)) (array s b)) with
    key := s.cfg.keyUnlock
    cmd := shadowAt s
    adr := eraseAddr s.lat.addr s.lat.sec
    di := 0#32
    doStale := 3
    tCmd := s.cfg.timing.rcv
    tHv := s.cfg.timing.erase + s.cfg.timing.nvh + s.cfg.timing.rcv
    tSettle := s.cfg.timing.rcv
    tRcv := s.cfg.timing.rcv
    rcvDue := true
    settleDue := true
    xlatch := none
    pend := none
    counts := { s.counts with dcnt := Config.idleCount s.draws }
    upc := u
    lat := { s.lat with dsh := delayOnly s.cmd, csh := shadowAt s, sec := s.lat.sec + 1#3 } }

theorem runs_page_turn {op : Opcode} {line : Nat} {b : Bank}
    (hcut : ((program op).drop line).take 14 = (beginActs ++ rowActs).map .act)
    (hbr : (program op)[line + 14]? = some (.branch (.nextSector line))) (hlen : line + 15 < (program op).length)
    {s : State} (hu : s.upc = .at op line) (hb : s.busy = true)
    (hk : s.cfg.keyUnlock ≠ 0#32) (hm : modeOf s.cmd = .off ∨ modeOf s.cmd = .idle)
    (hrcv : s.rcvDue = true → s.cfg.timing.rcv ≤ s.tRcv) (hbank : arrayBank s.lat.bank = b)
    (hr : ∀ k, (pageOf (wordAddr (eraseAddr s.lat.addr k))).toNat < bankSize s.cfg b) :
    Runs 15 s (pageTurn s b (if s.lat.sec + 1#3 < 4#3 then .at op line else .at op (line + 15))) := by
  have hsh := shadowAt_shadow s
  have hsb : bankOf (shadowAt s) = b := by rw [← hbank]; exact bankOf_shadowAt s .none
  have h1 : runActs op line (beginActs ++ rowActs) s = _ :=
    runActs_append (runActs_begin op line s hk hm)
      (runActs_row op _ (begun s _) (b := b) hsh rfl hsb hk hrcv (hr _))
  have r1 := runs_cut (beginActs ++ rowActs) hu hb hcut
    (by simp only [beginActs, rowActs, List.length_append, List.length_cons, List.length_nil]; omega) h1
  have r2 := runs_sector_branch (s := rowErased (begun s (.at op (line + 4))) b (.at op (line + 4 + 10))) rfl
    (by cases b <;> exact hb) hbr (by omega) hlen
  have r := r1.trans r2
  cases b <;>
  · simp only [rowErased, begun, setLat, setArray, array] at r
    simp only [pageTurn, setArray, array]
    exact r

theorem sector_next (n : Nat) (hn : n ≤ 2) :
    BitVec.ofNat 3 (2 - n) + 1#3 = BitVec.ofNat 3 (3 - n) ∧ BitVec.ofNat 3 (2 - n) + 1#3 < 4#3 := by
  have : n = 0 ∨ n = 1 ∨ n = 2 := by omega
  rcases this with rfl | rfl | rfl <;> decide

/-- The sector loop of a page erase: the lines from `line` on are the spec's lines 1 to 15. -/
theorem runs_page {op : Opcode} {line : Nat} {b : Bank}
    (hcut : ((program op).drop line).take 14 = (beginActs ++ rowActs).map .act)
    (hbr : (program op)[line + 14]? = some (.branch (.nextSector line))) (hlen : line + 15 < (program op).length)
    (n : Nat) (hn : n ≤ 3) : ∀ {s : State}, s.upc = .at op line → s.busy = true → s.lat.sec = BitVec.ofNat 3 (3 - n) →
    s.cfg.keyUnlock ≠ 0#32 → (modeOf s.cmd = .off ∨ modeOf s.cmd = .idle) →
    (s.rcvDue = true → s.cfg.timing.rcv ≤ s.tRcv) → arrayBank s.lat.bank = b →
    (∀ k, (pageOf (wordAddr (eraseAddr s.lat.addr k))).toNat < bankSize s.cfg b) →
    Runs (15 * (n + 1)) s (pageErased s b (sectorsFrom n) (.at op (line + 15))) := by
  induction n with
  | zero =>
    intro s hu hb hs hk hm hrcv hbank hr
    have r := runs_page_turn hcut hbr hlen hu hb hk hm hrcv hbank hr
    have hs' : s.lat.sec = 3#3 := hs
    rw [hs', if_neg (by decide)] at r
    cases b <;>
    · simp only [pageTurn, setArray, array, hs'] at r
      simp only [pageErased, setArray, array, sectorsFrom, rowsErased, List.foldl]
      exact r
  | succ n ih =>
    intro s hu hb hs hk hm hrcv hbank hr
    have r := runs_page_turn hcut hbr hlen hu hb hk hm hrcv hbank hr
    have hs' : s.lat.sec = BitVec.ofNat 3 (2 - n) := by rw [hs]; congr 1; omega
    obtain ⟨hn1, hn2⟩ := sector_next n (by omega)
    rw [hs', if_pos hn2] at r
    have hsh := shadowAt_shadow s
    have ih' := ih (by omega) (s := pageTurn s b (.at op line)) (by cases b <;> rfl) (by cases b <;> exact hb)
      (by cases b <;> (simp only [pageTurn, hs']; exact hn1)) (by cases b <;> exact hk)
      (.inr (by cases b <;> exact modeOf_withDrive hsh .none)) (fun _ => by cases b <;> exact Nat.le_refl _)
      (by cases b <;> exact hbank) (fun k => by cases b <;> exact hr k)
    have r2 := r.trans ih'
    rw [show 15 * (n + 1 + 1) = 15 + 15 * (n + 1) by omega]
    cases b <;>
    · simp only [pageErased, pageTurn, setArray, array, hs', rowsErased] at r2
      simp only [pageErased, setArray, array, sectorsFrom, rowsErased, List.foldl]
      exact r2

/-- One turn of the sector loop of a mass erase, under the shadow `c`. -/
def massTurn (s : State) (c : CmdWord) (u : Upc) : State :=
  { s with
    main := massedList s.cfg .main (sectorOf (wordAddr (massAdr s.lat.sec))) s.main
    info := if c.ifren then massedList s.cfg .info (sectorOf (wordAddr (massAdr s.lat.sec))) s.info else s.info
    key := s.cfg.keyUnlock
    cmd := c
    adr := massAdr s.lat.sec
    di := 0#32
    doStale := 3
    tCmd := s.cfg.timing.rcv
    tHv := s.cfg.timing.me + s.cfg.timing.nvh1 + s.cfg.timing.rcv
    tSettle := s.cfg.timing.rcv
    tRcv := s.cfg.timing.rcv
    rcvDue := true
    settleDue := true
    xlatch := none
    pend := none
    counts := { s.counts with dcnt := Config.idleCount s.draws }
    upc := u
    lat := { s.lat with dsh := delayOnly s.cmd, csh := c, sec := s.lat.sec + 1#3 } }

/-- The shadow of a mass erase (43 R194 line 3). -/
def massShadow (s : State) : CmdWord := shadowOf (delayOnly s.cmd) (s.lat.bank == .allBanks)

/-- The prologue of a mass erase. -/
def massBeginActs : List Act := [.unlock, .readDelay, .shadowMass, .wrCmd .none]

/-- After the prologue of a mass erase. -/
def massBegun (s : State) (u : Upc) : State :=
  { s with
    key := s.cfg.keyUnlock
    cmd := massShadow s
    tCmd := 0
    upc := u
    lat := { s.lat with dsh := delayOnly s.cmd, csh := massShadow s } }

theorem runs_mass_turn {op : Opcode} {line : Nat}
    (hcut : ((program op).drop line).take 14 = (massBeginActs ++ massActs).map .act)
    (hbr : (program op)[line + 14]? = some (.branch (.nextSector line))) (hlen : line + 15 < (program op).length)
    {s : State} (hu : s.upc = .at op line) (hb : s.busy = true)
    (hk : s.cfg.keyUnlock ≠ 0#32) (hm : modeOf s.cmd = .off ∨ modeOf s.cmd = .idle)
    (hrcv : s.rcvDue = true → s.cfg.timing.rcv ≤ s.tRcv) :
    Runs 15 s (massTurn s (massShadow s) (if s.lat.sec + 1#3 < 4#3 then .at op line else .at op (line + 15))) := by
  have hsh : Shadow (massShadow s) := shadowOf_delayOnly_shadow _ _
  have h0 : runActs op line massBeginActs s = .go (massBegun s (.at op (line + 4))) := by
    refine runActs_step rfl ?_
    refine runActs_step rfl ?_
    refine runActs_step rfl ?_
    refine runActs_step (runAct_shadow (c := massShadow s) hsh rfl hk hm) ?_
    rfl
  have h1 := runActs_append h0 (runActs_sector op (line + 4) (massBegun s (.at op (line + 4))) hsh rfl hk hrcv)
  have r1 := runs_cut (massBeginActs ++ massActs) hu hb hcut
    (by simp only [massBeginActs, massActs, List.length_append, List.length_cons, List.length_nil]; omega) h1
  have r2 := runs_sector_branch
    (s := sectorErased (massBegun s (.at op (line + 4))) (massShadow s).ifren (.at op (line + 4 + 10))) rfl hb hbr (by omega) hlen
  exact r1.trans r2

/-- After the sector loop of a mass erase, from sector `ks` on, under the shadow `c`. -/
def massErased (s : State) (c : CmdWord) (ks : List (BitVec 3)) (u : Upc) : State :=
  { s with
    main := sectorsErased s.cfg .main ks s.main
    info := if c.ifren then sectorsErased s.cfg .info ks s.info else s.info
    key := s.cfg.keyUnlock
    cmd := c
    adr := massAdr 3#3
    di := 0#32
    doStale := 3
    tCmd := s.cfg.timing.rcv
    tHv := s.cfg.timing.me + s.cfg.timing.nvh1 + s.cfg.timing.rcv
    tSettle := s.cfg.timing.rcv
    tRcv := s.cfg.timing.rcv
    rcvDue := true
    settleDue := true
    xlatch := none
    pend := none
    counts := { s.counts with dcnt := Config.idleCount s.draws }
    upc := u
    lat := { s.lat with dsh := delayOnly s.cmd, csh := c, sec := 4#3 } }

/-- The sector loop of a mass erase: the lines from `line` on are the spec's lines 1 to 15. -/
theorem runs_mass {op : Opcode} {line : Nat}
    (hcut : ((program op).drop line).take 14 = (massBeginActs ++ massActs).map .act)
    (hbr : (program op)[line + 14]? = some (.branch (.nextSector line))) (hlen : line + 15 < (program op).length)
    (n : Nat) (hn : n ≤ 3) : ∀ {s : State}, s.upc = .at op line → s.busy = true → s.lat.sec = BitVec.ofNat 3 (3 - n) →
    s.cfg.keyUnlock ≠ 0#32 → (modeOf s.cmd = .off ∨ modeOf s.cmd = .idle) →
    (s.rcvDue = true → s.cfg.timing.rcv ≤ s.tRcv) →
    Runs (15 * (n + 1)) s (massErased s (massShadow s) (sectorsFrom n) (.at op (line + 15))) := by
  induction n with
  | zero =>
    intro s hu hb hs hk hm hrcv
    have r := runs_mass_turn hcut hbr hlen hu hb hk hm hrcv
    have hs' : s.lat.sec = 3#3 := hs
    rw [hs', if_neg (by decide)] at r
    simp only [massTurn, hs'] at r
    simp only [massErased, sectorsFrom, sectorsErased, List.foldl]
    exact r
  | succ n ih =>
    intro s hu hb hs hk hm hrcv
    have r := runs_mass_turn hcut hbr hlen hu hb hk hm hrcv
    have hs' : s.lat.sec = BitVec.ofNat 3 (2 - n) := by rw [hs]; congr 1; omega
    obtain ⟨hn1, hn2⟩ := sector_next n (by omega)
    rw [hs', if_pos hn2] at r
    have hsh : Shadow (massShadow s) := shadowOf_delayOnly_shadow _ _
    have ih' := ih (by omega) (s := massTurn s (massShadow s) (.at op line)) rfl hb
      (by simp only [massTurn, hs']; exact hn1) hk (.inr (modeOf_withDrive hsh .none)) (fun _ => Nat.le_refl _)
    have r2 := r.trans ih'
    have hc : massShadow (massTurn s (massShadow s) (.at op line)) = massShadow s := rfl
    rw [hc] at r2
    rw [show 15 * (n + 1 + 1) = 15 + 15 * (n + 1) by omega]
    simp only [massErased, massTurn, hs', sectorsErased] at r2
    simp only [massErased, sectorsFrom, sectorsErased, List.foldl]
    cases hi : (massShadow s).ifren
    · simp only [hi, Bool.false_eq_true, if_false] at r2 ⊢
      exact r2
    · simp only [hi, if_true] at r2 ⊢
      exact r2

end Sys2Proof.Machine
end

