-- ==== Sys2Proof/Laws/Cells.lean ====
section
/-!
SUPPORT. What the cell operations of the engines leave in each cell and byte.
-/

namespace Sys2Proof.Machine

/-! ### A program pulse -/

theorem cellAt_pulsedList (s : State) (b : Bank) (a d : Word) (x : Nat) :
    cellAt (pulsedList s b a d) x =
      if x = wordIndex a then committed s.cfg b (wordIndex a) (.program d) (cell s b (wordIndex a))
      else cellAt (array s b) x := by
  simp only [pulsedList, cellAt_setCell, cellAt_forgetWords, beq_iff_eq]
  split_ifs <;> rfl

theorem byteAt_pulsedList (s : State) (b : Bank) (a d : Word) (x : Nat) (h : x / 4 ≠ wordIndex a) :
    byteAt (pulsedList s b a d) x = byteAt (array s b) x := by
  rw [pulsedList, byteAt_setCell_ne _ _ _ _ h, byteAt_forgetWords, if_neg (by simpa using h)]

/-! ### A row erase -/

theorem cellAt_erasedList (c : Config) (b : Bank) (a : Word) (m : List Host.Cell) (x : Nat) :
    cellAt (erasedList c b a m) x = if inRow a x then committed c b x .erase .indet else cellAt m x := by
  rw [erasedList, cellAt_eraseWords _ _ _ _ _ (rowWords_nodup a), cellAt_forgetWords]
  simp only [mem_rowWords_iff_inRow]
  split_ifs <;> rfl

theorem byteAt_erasedList (c : Config) (b : Bank) (a : Word) (m : List Host.Cell) (x : Nat) (h : inRow a (x / 4) = false) :
    byteAt (erasedList c b a m) x = byteAt m x := by
  rw [erasedList, byteAt_eraseWords_ne, byteAt_forgetWords, h]
  · rfl
  · rw [mem_rowWords_iff_inRow, h]; simp

/-- The cell address of an erase as a number (30 R108). -/
theorem eraseAddr_toNat (a : Word) (k : BitVec 3) : (eraseAddr a k).toNat = a.toNat / 4096 * 4096 + 4 * k.toNat := by
  have h : eraseAddr a k = a.extractLsb' 12 20 ++ (0#7 ++ (k ++ 0#2)) := by
    apply BitVec.eq_of_getLsbD_eq
    intro i hi
    simp only [eraseAddr, pageOf, BitVec.getLsbD_or, BitVec.getLsbD_and, BitVec.getLsbD_append,
      BitVec.getLsbD_extractLsb', BitVec.getLsbD_zero, BitVec.getLsbD_not, BitVec.getLsbD_shiftLeft,
      BitVec.getLsbD_setWidth]
    interval_cases i <;> simp
  rw [h, toNat_append_add, toNat_append_add, toNat_append_add]
  have := a.isLt
  simp only [BitVec.extractLsb'_toNat, Nat.shiftRight_eq_div_pow, BitVec.toNat_ofNat]
  omega

theorem inRow_eraseAddr (a : Word) (k : BitVec 3) (hk : k.toNat < 4) (x : Nat) :
    inRow (wordAddr (eraseAddr a k)) x = true ↔ x / 1024 = a.toNat / 4096 ∧ x % 4 = k.toNat := by
  rw [inRow_iff, wordAddr_toNat, eraseAddr_toNat]
  omega

theorem pageOf_eraseAddr (a : Word) (k : BitVec 3) : pageOf (wordAddr (eraseAddr a k)) = pageOf a := by
  apply BitVec.eq_of_toNat_eq
  have := k.isLt
  simp only [pageOf_toNat, wordAddr_toNat, eraseAddr_toNat]
  omega

/-- The rows erased: the page's words in the sectors from `3 - n` on. -/
theorem cellAt_rowsErased (c : Config) (b : Bank) (a : Word) (x : Nat) (n : Nat) (hn : n ≤ 3) :
    ∀ m, cellAt (rowsErased c b a (sectorsFrom n) m) x =
      if x / 1024 = a.toNat / 4096 ∧ 3 - n ≤ x % 4 then committed c b x .erase .indet else cellAt m x := by
  induction n with
  | zero =>
    intro m
    simp only [sectorsFrom, rowsErased, List.foldl, cellAt_erasedList, inRow_eraseAddr a 3#3 (by decide)]
    have : (3#3 : BitVec 3).toNat = 3 := rfl
    rw [this]
    congr 1
    simp only [eq_iff_iff]
    omega
  | succ n ih =>
    intro m
    have ih := ih (by omega) (erasedList c b (wordAddr (eraseAddr a (BitVec.ofNat 3 (2 - n)))) m)
    have hk : (BitVec.ofNat 3 (2 - n)).toNat = 2 - n := by rw [BitVec.toNat_ofNat]; omega
    simp only [sectorsFrom, rowsErased, List.foldl] at ih ⊢
    rw [ih, cellAt_erasedList]
    simp only [inRow_eraseAddr a (BitVec.ofNat 3 (2 - n)) (by omega), hk]
    by_cases h1 : x / 1024 = a.toNat / 4096 ∧ 3 - n ≤ x % 4
    · rw [if_pos h1, if_pos ⟨h1.1, by omega⟩]
    · rw [if_neg h1]
      congr 1
      simp only [eq_iff_iff]
      omega

theorem byteAt_rowsErased (c : Config) (b : Bank) (a : Word) (x : Nat) (n : Nat) (hn : n ≤ 3)
    (h : ¬(x / 4 / 1024 = a.toNat / 4096 ∧ 3 - n ≤ x / 4 % 4)) :
    ∀ m, byteAt (rowsErased c b a (sectorsFrom n) m) x = byteAt m x := by
  induction n with
  | zero =>
    intro m
    simp only [sectorsFrom, rowsErased, List.foldl]
    refine byteAt_erasedList _ _ _ _ _ ?_
    rw [← Bool.not_eq_true, inRow_eraseAddr a 3#3 (by decide)]
    have : (3#3 : BitVec 3).toNat = 3 := rfl
    omega
  | succ n ih =>
    intro m
    have hk : (BitVec.ofNat 3 (2 - n)).toNat = 2 - n := by rw [BitVec.toNat_ofNat]; omega
    have ih := ih (by omega) (by omega) (erasedList c b (wordAddr (eraseAddr a (BitVec.ofNat 3 (2 - n)))) m)
    simp only [sectorsFrom, rowsErased, List.foldl] at ih ⊢
    rw [ih]
    refine byteAt_erasedList _ _ _ _ _ ?_
    rw [← Bool.not_eq_true, inRow_eraseAddr a _ (by omega), hk]
    omega

/-! ### A mass erase -/

theorem cellAt_massedList (c : Config) (b : Bank) (k : BitVec 2) (m : List Host.Cell) (x : Nat)
    (hs : bankSize c b % 16 = 0) (hx : 4 * x < bankSize c b) :
    cellAt (massedList c b k m) x = if x % 4 = k.toNat then committed c b x .erase .indet else cellAt m x := by
  rw [massedList, cellAt_eraseWords _ _ _ _ _ (sectorWords_nodup _ _), cellAt_forgetWords]
  simp only [mem_sectorWords k _ x hs, inSector, hx, true_and, beq_iff_eq]
  split_ifs <;> rfl

theorem sectorOf_massAdr (k : BitVec 3) : sectorOf (wordAddr (massAdr k)) = k.setWidth 2 := by
  revert k; decide

theorem cellAt_sectorsErased (c : Config) (b : Bank) (x : Nat) (hs : bankSize c b % 16 = 0)
    (hx : 4 * x < bankSize c b) (n : Nat) (hn : n ≤ 3) :
    ∀ m, cellAt (sectorsErased c b (sectorsFrom n) m) x =
      if 3 - n ≤ x % 4 then committed c b x .erase .indet else cellAt m x := by
  induction n with
  | zero =>
    intro m
    simp only [sectorsFrom, sectorsErased, List.foldl, sectorOf_massAdr, cellAt_massedList c b _ _ x hs hx]
    have : (BitVec.setWidth 2 (3#3 : BitVec 3)).toNat = 3 := rfl
    rw [this]
    congr 1
    simp only [eq_iff_iff]
    omega
  | succ n ih =>
    intro m
    have ih := ih (by omega) (massedList c b (sectorOf (wordAddr (massAdr (BitVec.ofNat 3 (2 - n))))) m)
    have hk : ((BitVec.ofNat 3 (2 - n)).setWidth 2).toNat = 2 - n := by
      rw [BitVec.toNat_setWidth, BitVec.toNat_ofNat]; omega
    simp only [sectorsFrom, sectorsErased, List.foldl] at ih ⊢
    rw [ih, sectorOf_massAdr, cellAt_massedList c b _ _ x hs hx, hk]
    by_cases h1 : 3 - n ≤ x % 4
    · rw [if_pos h1, if_pos (by omega)]
    · rw [if_neg h1]
      congr 1
      simp only [eq_iff_iff]
      omega

end Sys2Proof.Machine
end

