-- ==== Sys2Proof/Laws/Operations.lean ====
section
/-!
SUPPORT. The micro-programs of the scalar operations as whole runs, from the state acceptance leaves to the end.
-/

namespace Sys2Proof.Machine

/-- What the runs below start from: an operation at its first line, from a quiescent machine. -/
structure AtStart (op : Opcode) (s : State) : Prop where
  upc : s.upc = .at op 0
  busy : s.busy = true
  key : s.cfg.keyUnlock ≠ 0#32
  mode : modeOf s.cmd = .off ∨ modeOf s.cmd = .idle
  recovered : s.rcvDue = true → s.cfg.timing.rcv ≤ s.tRcv

theorem atStart_started {q : Request} {s : State} (h : Ready s) : AtStart q.op (started q s) where
  upc := rfl
  busy := rfl
  key := keyUnlock_ne_zero h.config
  mode := h.quiet.mode
  recovered := h.quiet.recovered

/-! ### Reads -/

theorem runs_readWord {s : State} (h : AtStart .readWord s)
    (ha : (wordAddr s.lat.addr).toNat < bankSize s.cfg (arrayBank s.lat.bank)) :
    Runs 12 s (finish (readDone s (.at .readWord 12))) :=
  runs_acts_end readActs h.upc h.busy rfl (by decide) (runActs_read _ 0 s h.key h.mode h.recovered ha)

theorem runs_readHalfWord {s : State} (h : AtStart .readHalfWord s)
    (ha : (wordAddr s.lat.addr).toNat < bankSize s.cfg (arrayBank s.lat.bank)) :
    Runs 13 s (finish (setLat (readDone s (.at .readHalfWord 13)) { (readDone s (.at .readHalfWord 13)).lat with
      res := carveHalf (readValue s (arrayBank s.lat.bank) s.lat.addr (s.draws + 3)) s.lat.addr })) :=
  runs_acts_end (readActs ++ [Act.carveHalf]) h.upc h.busy rfl (by decide)
    (runActs_read_then _ 0 s .carveHalf h.key h.mode h.recovered ha rfl)

theorem runs_readByte {s : State} (h : AtStart .readByte s)
    (ha : (wordAddr s.lat.addr).toNat < bankSize s.cfg (arrayBank s.lat.bank)) :
    Runs 13 s (finish (setLat (readDone s (.at .readByte 13)) { (readDone s (.at .readByte 13)).lat with
      res := carveByte (readValue s (arrayBank s.lat.bank) s.lat.addr (s.draws + 3)) s.lat.addr })) :=
  runs_acts_end (readActs ++ [Act.carveByte]) h.upc h.busy rfl (by decide)
    (runActs_read_then _ 0 s .carveByte h.key h.mode h.recovered ha rfl)

/-! ### Programs -/

/-- The protection check of `program_word` lets a word through. -/
theorem runs_unprotected {op : Opcode} {line : Nat} {s : State} (hu : s.upc = .at op line) (hb : s.busy = true)
    (hl : (program op)[line]? = some (.branch .protectedEnd)) (hlen : line + 1 < (program op).length)
    (hp : isProtected s.cfg s.lat.bank s.lat.addr = false) :
    Runs 1 s { s with upc := .at op (line + 1) } := by
  refine .one hb ?_
  have hr : runBranch .protectedEnd s = .next s := by simp [runBranch, hp]
  rw [seqStep_branch hu hl, hr]
  simp only [goLine_inside _ hlen]

/-- The protection check of `program_word` skips a word: the lock write, and the operation ends (44 R201). -/
theorem runs_protected {op : Opcode} {line : Nat} {s : State} (hu : s.upc = .at op line) (hb : s.busy = true)
    (hl : (program op)[line]? = some (.branch .protectedEnd)) (hp : isProtected s.cfg s.lat.bank s.lat.addr = true) :
    Runs 1 s (finish (wrKey 0#32 s)) := by
  refine .one hb ?_
  have hr : runBranch .protectedEnd s = .stop (wrKey 0#32 s) := by simp [runBranch, hp]
  rw [seqStep_branch hu hl, hr]

theorem programDone_upc (s : State) (u v : Upc) : programDone { s with upc := u } v = programDone s v := by
  simp only [programDone]
  generalize arrayBank s.lat.bank = b
  cases b <;> rfl

/-- `program_word` from its line 0, wherever that stands (44 R201). -/
theorem runs_programFrom {op : Opcode} {line : Nat} {s : State} (hu : s.upc = .at op line) (hb : s.busy = true)
    (hl : (program op)[line]? = some (.branch .protectedEnd)) (hd : (program op).drop (line + 1) = progActs.map .act)
    (hlen : line + 1 < (program op).length)
    (hk : s.cfg.keyUnlock ≠ 0#32) (hm : modeOf s.cmd = .off ∨ modeOf s.cmd = .idle)
    (hrcv : s.rcvDue = true → s.cfg.timing.rcv ≤ s.tRcv)
    (ha : (wordAddr s.lat.addr).toNat < bankSize s.cfg (arrayBank s.lat.bank))
    (hp : isProtected s.cfg s.lat.bank s.lat.addr = false) :
    Runs 19 s (finish (programDone s (.at op (line + 19)))) := by
  have r1 := runs_unprotected hu hb hl hlen hp
  have r2 := runs_acts_end progActs (s := { s with upc := .at op (line + 1) }) rfl hb hd (by decide)
    (runActs_program op (line + 1) { s with upc := .at op (line + 1) } hk hm hrcv ha)
  rw [programDone_upc] at r2
  exact r1.trans r2

theorem runs_programWord {s : State} (h : AtStart .programWord s)
    (ha : (wordAddr s.lat.addr).toNat < bankSize s.cfg (arrayBank s.lat.bank))
    (hp : isProtected s.cfg s.lat.bank s.lat.addr = false) :
    Runs 19 s (finish (programDone s (.at .programWord 19))) :=
  runs_programFrom h.upc h.busy rfl rfl (by decide) h.key h.mode h.recovered ha hp

/-- The state in which a sub-word program reaches its word program: the read is done, the value is merged. -/
def merged (s : State) (u : Upc) (d : Word) : State :=
  setLat (readDone s u) { (readDone s u).lat with data := d, addr := wordAddr s.lat.addr }

/-- The merged word of `program_byte` (44 R203). -/
def mergedByte (s : State) : Word :=
  mergeByte (readValue s (arrayBank s.lat.bank) s.lat.addr (s.draws + 3)) s.lat.addr s.lat.data

/-- The merged word of `program_half_word` (44 R204). -/
def mergedHalf (s : State) : Word :=
  mergeHalf (readValue s (arrayBank s.lat.bank) s.lat.addr (s.draws + 3)) s.lat.addr s.lat.data

theorem runs_mergeByte {s : State} (h : AtStart .programByte s)
    (ha : (wordAddr s.lat.addr).toNat < bankSize s.cfg (arrayBank s.lat.bank)) :
    Runs 13 s (merged s (.at .programByte 13) (mergedByte s)) :=
  runs_cut (readActs ++ [Act.mergeByte]) h.upc h.busy rfl (by decide)
    (runActs_read_then _ 0 s .mergeByte h.key h.mode h.recovered ha rfl)

theorem runs_mergeHalf {s : State} (h : AtStart .programHalfWord s)
    (ha : (wordAddr s.lat.addr).toNat < bankSize s.cfg (arrayBank s.lat.bank)) :
    Runs 13 s (merged s (.at .programHalfWord 13) (mergedHalf s)) :=
  runs_cut (readActs ++ [Act.mergeHalf]) h.upc h.busy rfl (by decide)
    (runActs_read_then _ 0 s .mergeHalf h.key h.mode h.recovered ha rfl)

theorem modeOf_shadowAt (s : State) : modeOf (shadowAt s) = .idle := modeOf_withDrive (shadowAt_shadow s) .none

theorem runs_programByte {s : State} (h : AtStart .programByte s)
    (ha : (wordAddr s.lat.addr).toNat < bankSize s.cfg (arrayBank s.lat.bank))
    (hp : isProtected s.cfg s.lat.bank (wordAddr s.lat.addr) = false) :
    Runs 32 s (finish (programDone (merged s (.at .programByte 13) (mergedByte s)) (.at .programByte 32))) :=
  (runs_mergeByte h ha).trans
    (runs_programFrom (line := 13) rfl h.busy rfl rfl (by decide) h.key (.inr (modeOf_shadowAt s)) (by intro hf; cases hf)
      (by rw [show (merged s (.at .programByte 13) (mergedByte s)).lat.addr = wordAddr s.lat.addr from rfl,
        wordAddr_wordAddr]; exact ha) hp)

theorem runs_programHalfWord {s : State} (h : AtStart .programHalfWord s)
    (ha : (wordAddr s.lat.addr).toNat < bankSize s.cfg (arrayBank s.lat.bank))
    (hp : isProtected s.cfg s.lat.bank (wordAddr s.lat.addr) = false) :
    Runs 32 s (finish (programDone (merged s (.at .programHalfWord 13) (mergedHalf s)) (.at .programHalfWord 32))) :=
  (runs_mergeHalf h ha).trans
    (runs_programFrom (line := 13) rfl h.busy rfl rfl (by decide) h.key (.inr (modeOf_shadowAt s)) (by intro hf; cases hf)
      (by rw [show (merged s (.at .programHalfWord 13) (mergedHalf s)).lat.addr = wordAddr s.lat.addr from rfl,
        wordAddr_wordAddr]; exact ha) hp)

/-! ### Erases -/

/-- The end of an erase: `Cmd` released, locked, settle time waited out (43 R192 lines 16 to 18). -/
def releaseActs : List Act := [.release, .lock, .delay .hv]

/-- After an erase has ended. -/
def released (s : State) (u : Upc) : State :=
  { s with
    key := 0#32
    cmd := s.lat.dsh
    tCmd := s.cfg.timing.hv
    tHv := s.tHv + s.cfg.timing.hv
    tSettle := s.tSettle + s.cfg.timing.hv
    tRcv := s.tRcv + s.cfg.timing.hv
    counts := { s.counts with dcnt := Config.idleCount s.draws }
    upc := u }

theorem runActs_release (op : Opcode) (line : Nat) (s : State) (w : CmdWord) (hc : Shadow s.cmd)
    (hd : s.lat.dsh = delayOnly w) (hk : s.key ≠ 0#32) :
    runActs op line releaseActs s = .go (released s (.at op (line + 3))) := by
  have h1 : runAct .release s = .go { s with cmd := s.lat.dsh, tCmd := 0 } := by
    simp only [runAct, hd]
    rw [wrCmd_release w hc rfl hk]
    rfl
  refine runActs_step h1 ?_
  refine runActs_step rfl ?_
  refine runActs_step rfl ?_
  simp only [runActs, delayFor, advance, timingUs, released, wrKey, Nat.zero_add]

/-- The sectors `erase_page` erases, by how many follow the first. -/
def sectorsLeft (c : Config) (b : BankSel) : Nat := if b = .info ∧ c.hasHwInfoProt = false then 2 else 3

theorem sectorsLeft_le (c : Config) (b : BankSel) : sectorsLeft c b ≤ 3 := by unfold sectorsLeft; split_ifs <;> omega

theorem firstSector_eq (c : Config) (b : BankSel) : firstSector c b = BitVec.ofNat 3 (3 - sectorsLeft c b) := by
  unfold firstSector sectorsLeft; split_ifs <;> rfl

/-- `erase_page` before its sector loop. -/
def pageBegun (s : State) (u : Upc) : State :=
  { setLat s { s.lat with sec := firstSector s.cfg s.lat.bank } with upc := u }

/-- `erase_page` wherever it stands; `line` is its line 0 (43 R192). -/
theorem runs_erasePageFrom {op : Opcode} {line : Nat} {b : Bank} {s : State} (hu : s.upc = .at op line)
    (hb : s.busy = true) (h0 : (program op)[line]? = some (.act .firstSector))
    (hcut : ((program op).drop (line + 1)).take 14 = (beginActs ++ rowActs).map .act)
    (hbr : (program op)[line + 15]? = some (.branch (.nextSector (line + 1))))
    (hend : (program op).drop (line + 16) = releaseActs.map .act) (hlen : line + 16 < (program op).length)
    (hk : s.cfg.keyUnlock ≠ 0#32) (hm : modeOf s.cmd = .off ∨ modeOf s.cmd = .idle)
    (hrcv : s.rcvDue = true → s.cfg.timing.rcv ≤ s.tRcv) (hbank : arrayBank s.lat.bank = b)
    (hr : (pageOf s.lat.addr).toNat < bankSize s.cfg b) :
    Runs (1 + 15 * (sectorsLeft s.cfg s.lat.bank + 1) + 3) s
      (finish (released (pageErased (pageBegun s (.at op (line + 1))) b (sectorsFrom (sectorsLeft s.cfg s.lat.bank))
        (.at op (line + 16))) (.at op (line + 19)))) := by
  have r1 : Runs 1 s (pageBegun s (.at op (line + 1))) := by
    refine .one hb ?_
    rw [seqStep_act hu h0 rfl, goLine_inside _ (by omega)]
    rfl
  have r2 := runs_page (b := b) hcut (by rw [show line + 1 + 14 = line + 15 by omega]; exact hbr)
    (by omega) (sectorsLeft s.cfg s.lat.bank) (sectorsLeft_le _ _) (s := pageBegun s (.at op (line + 1))) rfl hb
    (firstSector_eq _ _) hk hm hrcv hbank (by intro k; rw [pageOf_eraseAddr]; exact hr)
  have r3 := runs_acts_end (op := op) (line := line + 16) releaseActs
    (s := pageErased (pageBegun s (.at op (line + 1))) b (sectorsFrom (sectorsLeft s.cfg s.lat.bank))
      (.at op (line + 16))) rfl (by cases b <;> exact hb) hend (by decide)
    (runActs_release op (line + 16) _ s.cmd (by cases b <;> exact shadowAt_shadow s) (by cases b <;> rfl)
      (by cases b <;> exact hk))
  exact (r1.trans r2).trans r3

theorem runs_erasePage {s : State} {b : Bank} (h : AtStart .erasePage s) (hbank : arrayBank s.lat.bank = b)
    (hr : (pageOf s.lat.addr).toNat < bankSize s.cfg b) :
    Runs (1 + 15 * (sectorsLeft s.cfg s.lat.bank + 1) + 3) s
      (finish (released (pageErased (pageBegun s (.at .erasePage 1)) b (sectorsFrom (sectorsLeft s.cfg s.lat.bank))
        (.at .erasePage 16)) (.at .erasePage 19))) :=
  runs_erasePageFrom h.upc h.busy rfl rfl rfl rfl (by decide) h.key h.mode h.recovered hbank hr

/-- A mass erase before its sector loop. -/
def massZeroed (s : State) (u : Upc) : State := { setLat s { s.lat with sec := 0#3 } with upc := u }

/-- After a mass erase (43 R194), before the decision of 43 R195. -/
def massDone (s : State) : State :=
  released (massErased (massZeroed s (.at .eraseAllPages 1)) (massShadow s) (sectorsFrom 3) (.at .eraseAllPages 16))
    (.at .eraseAllPages 19)

theorem runs_massErase {s : State} (h : AtStart .eraseAllPages s) : Runs 64 s (massDone s) := by
  have r1 : Runs 1 s (massZeroed s (.at .eraseAllPages 1)) := by
    refine .one h.busy ?_
    rw [seqStep_act h.upc rfl rfl, goLine_inside _ (by decide)]
    rfl
  have r2 := runs_mass (op := .eraseAllPages) (line := 1) rfl rfl (by decide) 3 (by omega)
    (s := massZeroed s (.at .eraseAllPages 1)) rfl h.busy rfl h.key h.mode h.recovered
  have r3 := runs_cut (op := .eraseAllPages) (line := 16) releaseActs
    (s := massErased (massZeroed s (.at .eraseAllPages 1)) (massShadow s) (sectorsFrom 3) (.at .eraseAllPages 16))
    rfl h.busy rfl (by decide)
    (runActs_release .eraseAllPages 16 _ s.cmd (shadowOf_delayOnly_shadow _ _) rfl h.key)
  exact (r1.trans r2).trans r3

theorem runs_eraseAll_alone {s : State} (h : AtStart .eraseAllPages s)
    (hb : ¬(s.lat.bank = .allBanks ∧ s.cfg.massThenPage = true)) : Runs 65 s (finish (massDone s)) := by
  refine (runs_massErase h).trans (.one h.busy ?_)
  have hr : runBranch .thenPage (massDone s) = .stop (massDone s) := if_neg hb
  rw [seqStep_branch (op := .eraseAllPages) (line := 19) rfl rfl, hr]

/-- What the page erase behind a mass erase starts from (43 R195). -/
def thenPage (s : State) : State :=
  { setLat (massDone s) { (massDone s).lat with bank := .info, addr := 0#32 } with upc := .at .eraseAllPages 20 }

theorem runs_eraseAll_then {s : State} (h : AtStart .eraseAllPages s) (hb : s.lat.bank = .allBanks)
    (hc : s.cfg.massThenPage = true) :
    Runs (65 + (1 + 15 * (sectorsLeft s.cfg .info + 1) + 3)) s
      (finish (released (pageErased (pageBegun (thenPage s) (.at .eraseAllPages 21)) .info
        (sectorsFrom (sectorsLeft s.cfg .info)) (.at .eraseAllPages 36)) (.at .eraseAllPages 39))) := by
  have r1 : Runs 65 s (thenPage s) := by
    refine (runs_massErase h).trans (.one h.busy ?_)
    have hr : runBranch .thenPage (massDone s) =
        .next (setLat (massDone s) { (massDone s).lat with bank := .info, addr := 0#32 }) := if_pos ⟨hb, hc⟩
    rw [seqStep_branch (op := .eraseAllPages) (line := 19) rfl rfl, hr]
    simp only [goLine_inside _ (show 19 + 1 < (program .eraseAllPages).length by decide)]
    rfl
  have r2 := runs_erasePageFrom (op := .eraseAllPages) (line := 20) (b := .info) (s := thenPage s) rfl h.busy rfl rfl rfl
    rfl (by decide) h.key (.inl rfl) (fun _ => Nat.le_add_right _ _) rfl
    (show (pageOf 0#32).toNat < pageSize by decide)
  exact r1.trans r2

/-! ### Latency and cache mode -/

/-- `set_latency` (47 R239). -/
def latencySet (s : State) (u : Upc) : State :=
  { s with
    key := 0#32
    cmd := { s.cmd with delay := s.lat.data.setWidth 8 }
    tCmd := 0
    upc := u
    lat := { s.lat with csh := { s.cmd with delay := s.lat.data.setWidth 8 } } }

theorem runs_setLatency {s : State} (h : AtStart .setLatency s) :
    Runs 4 s (finish (latencySet s (.at .setLatency 4))) := by
  refine runs_acts_end [.unlock, .latencyShadow, .wrCmd .none, .lock] h.upc h.busy rfl (by decide) ?_
  refine runActs_step rfl ?_
  refine runActs_step rfl ?_
  have hm : modeOf { s.cmd with delay := s.lat.data.setWidth 8 } = modeOf s.cmd := rfl
  have hw : ∀ {t : State}, t.key ≠ 0#32 → t.cmd = s.cmd → t.lat.csh = { s.cmd with delay := s.lat.data.setWidth 8 } →
      runAct (.wrCmd .none) t = .go { t with cmd := { s.cmd with delay := s.lat.data.setWidth 8 }, tCmd := 0 } := by
    intro t hk hc hl
    have hne : modeOf s.cmd ≠ .illegal := by rcases h.mode with h | h <;> rw [h] <;> decide
    simp only [runAct, hl]
    rw [wrCmd_ok (t := { t with cmd := { s.cmd with delay := s.lat.data.setWidth 8 } }) hk
      (by simp [react, hc, hm, hne, withDrive])]
    rfl
  refine runActs_step (hw h.key rfl rfl) ?_
  refine runActs_step rfl ?_
  rfl

theorem runs_getLatency {s : State} (h : AtStart .getLatency s) :
    Runs 1 s (finish { s with upc := .at .getLatency 1, lat := { s.lat with res := s.cmd.delay.setWidth 32 } }) :=
  runs_acts_end [.latencyResult] h.upc h.busy rfl (by decide) rfl

theorem runs_setCacheMode {s : State} (h : AtStart .setCacheMode s) : Runs 1 s (finish { s with upc := .at .setCacheMode 1, cacheMode := s.lat.data.setWidth 2 }) :=
  runs_acts_end [.setMode] h.upc h.busy rfl (by decide) rfl

theorem runs_getCacheMode {s : State} (h : AtStart .getCacheMode s) :
    Runs 1 s (finish { s with upc := .at .getCacheMode 1, lat := { s.lat with res := s.cacheMode.setWidth 32 } }) :=
  runs_acts_end [.getMode] h.upc h.busy rfl (by decide) rfl

end Sys2Proof.Machine
end

