-- ==== Sys2Proof/Laws/ArrayRun.lean ====
section
/-!
SUPPORT. The loops of `read_array` (42 R185) and `update_cache` (47 R235) as runs.
-/

namespace Sys2Proof.Machine

/-! ### read_array -/

theorem settling_readDone (s : State) (u : Upc) : settling (readDone s u) = settling s := by
  show ((s.settleDue && decide (s.tSettle < s.cfg.timing.hv)) && decide (s.tSettle < s.cfg.timing.hv)) =
    (s.settleDue && decide (s.tSettle < s.cfg.timing.hv))
  rw [Bool.and_assoc, Bool.and_self]

theorem readValue_readDone (s : State) (u : Upc) (b : Bank) (a : Word) (n : Nat) :
    readValue (readDone s u) b a n = readValue s b a n := by
  simp only [readValue, settling_readDone]
  rfl

/-- One element of `read_array` is stored, and the next one is looked up. -/
def readStored (s : State) (u : Upc) : State :=
  { setLat s { s.lat with
      rvec := s.lat.rvec ++ [s.lat.res]
      idx := s.lat.idx + 1#16
      addr := (s.lat.avec[(s.lat.idx + 1#16).toNat]?).getD s.lat.addr } with upc := u }

theorem runs_readElement {s : State} (hu : s.upc = .at .readArray 1) (hb : s.busy = true)
    (hk : s.cfg.keyUnlock ≠ 0#32) (hm : modeOf s.cmd = .off ∨ modeOf s.cmd = .idle)
    (hrcv : s.rcvDue = true → s.cfg.timing.rcv ≤ s.tRcv)
    (ha : (wordAddr s.lat.addr).toNat < bankSize s.cfg (arrayBank s.lat.bank)) :
    Runs 12 s (readDone s (.at .readArray 13)) :=
  runs_cut readActs hu hb rfl (by decide) (runActs_read _ 1 s hk hm hrcv ha)

theorem seqStep_readStored {s : State} (hu : s.upc = .at .readArray 13) :
    seqStep s = .next (if s.lat.idx + 1#16 < s.lat.len then readStored s (.at .readArray 1)
      else finish (readStored s (.at .readArray 13))) := by
  rw [seqStep_branch (op := .readArray) (line := 13) hu rfl]
  by_cases h : s.lat.idx + 1#16 < s.lat.len
  · have hr : runBranch (.storeElement 1) s = .to 1 (readStored s s.upc) := if_pos h
    rw [hr, if_pos h]
    simp only [goLine_inside _ (show 1 < (program .readArray).length by decide)]
    rfl
  · have hr : runBranch (.storeElement 1) s = .next (readStored s s.upc) := if_neg h
    rw [hr, if_neg h]
    simp only [goLine_past _ (show (program .readArray).length ≤ 13 + 1 by decide), hu]

/-- The loop of `read_array` from the element whose address stands in `ADDR`. -/
theorem runs_readLoop : ∀ (as : List Word) (a : Word) {s : State}, s.upc = .at .readArray 1 → s.busy = true →
    s.cfg.keyUnlock ≠ 0#32 → (modeOf s.cmd = .off ∨ modeOf s.cmd = .idle) →
    (s.rcvDue = true → s.cfg.timing.rcv ≤ s.tRcv) → s.lat.addr = a →
    s.lat.avec.drop s.lat.idx.toNat = a :: as → s.lat.len.toNat = s.lat.avec.length →
    (∀ x ∈ a :: as, (wordAddr x).toNat < bankSize s.cfg (arrayBank s.lat.bank)) →
    ∃ (ns : List Nat) (m : Nat) (l : Latches), ns.length = as.length + 1 ∧ l.op = s.lat.op ∧
      l.rvec = s.lat.rvec ++ List.zipWith (fun x n => readValue s (arrayBank s.lat.bank) x n) (a :: as) ns ∧
      Runs (13 * (as.length + 1)) s (finish { s with
        key := 0#32, cmd := shadowAt s, adr := wordAddr ((a :: as).getLast (by simp)), doStale := 0, tCmd := 0
        rcvDue := false, settleDue := settling s, draws := m, lat := l, upc := .at .readArray 13 }) := by
  intro as
  induction as with
  | nil =>
    intro a s hu hb hk hm hrcv had hav hlen hr
    have r1 := runs_readElement hu hb hk hm hrcv (by rw [had]; exact hr a (by simp))
    have hend : ¬ (s.lat.idx + 1#16 < s.lat.len) := by
      have h1 := congrArg List.length hav
      simp only [List.length_drop, List.length_cons, List.length_nil] at h1
      have := s.lat.len.isLt
      rw [BitVec.lt_def, BitVec.toNat_add]
      simp only [BitVec.toNat_ofNat]
      omega
    have r2 : Runs 1 (readDone s (.at .readArray 13))
        (finish (readStored (readDone s (.at .readArray 13)) (.at .readArray 13))) := by
      refine .one hb ?_
      rw [seqStep_readStored rfl]
      exact congrArg _ (if_neg hend)
    refine ⟨[s.draws + 3], s.draws + 3 + readDraws s (arrayBank s.lat.bank) s.lat.addr, (readStored (readDone s (.at .readArray 13)) (.at .readArray 13)).lat, rfl, rfl, ?_, ?_⟩
    · simp only [List.zipWith, ← had]; rfl
    · have := r1.trans r2
      simp only [List.getLast_singleton, ← had]
      exact this
  | cons a' as ih =>
    intro a s hu hb hk hm hrcv had hav hlen hr
    have r1 := runs_readElement hu hb hk hm hrcv (by rw [had]; exact hr a (by simp))
    have h1 := congrArg List.length hav
    simp only [List.length_drop, List.length_cons] at h1
    have hlt := s.lat.len.isLt
    have hidx : (s.lat.idx + 1#16).toNat = s.lat.idx.toNat + 1 := by
      rw [BitVec.toNat_add]
      simp only [BitVec.toNat_ofNat]
      omega
    have hgo : s.lat.idx + 1#16 < s.lat.len := by rw [BitVec.lt_def, hidx]; omega
    have hdrop : s.lat.avec.drop (s.lat.idx.toNat + 1) = a' :: as := by
      rw [← List.drop_drop, hav]; rfl
    have hnext : (s.lat.avec[(s.lat.idx + 1#16).toNat]?).getD s.lat.addr = a' := by
      rw [hidx]
      have := congrArg (·[0]?) hdrop
      simp only [List.getElem?_drop, Nat.add_zero, List.getElem?_cons_zero] at this
      rw [this]; rfl
    have r2 : Runs 1 (readDone s (.at .readArray 13)) (readStored (readDone s (.at .readArray 13)) (.at .readArray 1)) := by
      refine .one hb ?_
      rw [seqStep_readStored rfl]
      exact congrArg _ (if_pos hgo)
    have hcfg : ∀ b a n, readValue (readStored (readDone s (.at .readArray 13)) (.at .readArray 1)) b a n =
        readValue s b a n := fun b a n => readValue_readDone s (.at .readArray 13) b a n
    have hset : settling (readStored (readDone s (.at .readArray 13)) (.at .readArray 1)) = settling s :=
      settling_readDone s (.at .readArray 13)
    obtain ⟨ns, m, l, hns, hop, hrv, r3⟩ := ih a' (s := readStored (readDone s (.at .readArray 13)) (.at .readArray 1))
      rfl hb hk (.inr (modeOf_shadowAt s)) (by intro hf; cases hf) hnext
      (by rw [show (readStored (readDone s (.at .readArray 13)) (.at .readArray 1)).lat.idx.toNat = _ from hidx]
          exact hdrop)
      hlen (fun x hx => hr x (List.mem_cons_of_mem _ hx))
    refine ⟨(s.draws + 3) :: ns, m, l, by simp [hns], hop, ?_, ?_⟩
    · rw [hrv]
      simp only [hcfg]
      show (s.lat.rvec ++ [readValue s (arrayBank s.lat.bank) s.lat.addr (s.draws + 3)]) ++ _ = _
      rw [had, List.append_assoc]
      rfl
    · have := (r1.trans r2).trans r3
      rw [hset] at this
      rw [show 13 * ((a' :: as).length + 1) = 12 + 1 + 13 * (as.length + 1) by simp only [List.length_cons]; omega]
      exact this

/-- `read_array` (42 R185). -/
theorem runs_readArray {s : State} (h : AtStart .readArray s) {a : Word} {as : List Word} (had : s.lat.addr = a)
    (hav : s.lat.avec = a :: as) (hlen : s.lat.len.toNat = s.lat.avec.length)
    (hr : ∀ x ∈ a :: as, (wordAddr x).toNat < bankSize s.cfg (arrayBank s.lat.bank)) :
    ∃ (ns : List Nat) (m : Nat) (l : Latches), ns.length = as.length + 1 ∧ l.op = s.lat.op ∧
      l.rvec = List.zipWith (fun x n => readValue s (arrayBank s.lat.bank) x n) (a :: as) ns ∧
      Runs (1 + 13 * (as.length + 1)) s (finish { s with
        key := 0#32, cmd := shadowAt s, adr := wordAddr ((a :: as).getLast (by simp)), doStale := 0, tCmd := 0
        rcvDue := false, settleDue := settling s, draws := m, lat := l, upc := .at .readArray 13 }) := by
  have r1 : Runs 1 s { setLat s { s.lat with idx := 0#16, rvec := [] } with upc := .at .readArray 1 } := by
    refine .one h.busy ?_
    rw [seqStep_act h.upc rfl rfl, goLine_inside _ (by decide)]
  obtain ⟨ns, m, l, hns, hop, hrv, r2⟩ := runs_readLoop as a
    (s := { setLat s { s.lat with idx := 0#16, rvec := [] } with upc := .at .readArray 1 }) rfl h.busy h.key h.mode
    h.recovered had hav hlen hr
  exact ⟨ns, m, l, hns, hop, hrv, r1.trans r2⟩

/-! ### update_cache -/

/-- What a mapped read leaves: it may settle, draw, use up the fill plan and fill one entry with current content. -/
structure MappedStep (s t : State) : Prop where
  frame : t = { s with settleDue := t.settleDue, draws := t.draws, fillPlan := t.fillPlan, cache := t.cache }
  settling : settling t = settling s
  settle : t.settleDue = true → s.settleDue = true
  entry : ∀ w v, tableGet t.cache w = some v → tableGet s.cache w = some v ∨ cell s .main w = .val v
  kept : ∀ w v, tableGet s.cache w = some v → tableGet t.cache w = some v
  sorted : tableSorted s.cache = true → tableSorted t.cache = true

theorem MappedStep.refl (s : State) : MappedStep s s :=
  ⟨rfl, rfl, id, fun _ _ => .inl, fun _ _ => id, id⟩

theorem MappedStep.cell {s t : State} (h : MappedStep s t) (b : Bank) (w : Nat) : cell t b w = cell s b w := by
  rw [h.frame]; rfl

theorem MappedStep.trans {s t u : State} (h : MappedStep s t) (k : MappedStep t u) : MappedStep s u where
  frame := by rw [k.frame, h.frame]
  settling := k.settling.trans h.settling
  settle := fun x => h.settle (k.settle x)
  entry := fun w v x => (k.entry w v x).elim (h.entry w v) (fun y => .inr (by rw [← h.cell]; exact y))
  kept := fun w v x => k.kept w v (h.kept w v x)
  sorted := fun x => k.sorted (h.sorted x)

theorem mappedStep_mappedRead (a : Word) (s : State) : MappedStep s (mappedRead a s).2 := by
  unfold mappedRead
  cases hg : tableGet s.cache (wordIndex a) with
  | some v => exact .refl s
  | none =>
    have hset : ∀ d : Nat, settling { s with settleDue := settling s, draws := d } = settling s := by
      intro d
      show ((s.settleDue && decide (s.tSettle < s.cfg.timing.hv)) && decide (s.tSettle < s.cfg.timing.hv)) =
        (s.settleDue && decide (s.tSettle < s.cfg.timing.hv))
      rw [Bool.and_assoc, Bool.and_self]
    have hdue : settling s = true → s.settleDue = true := by
      intro h; simp only [Machine.settling, Bool.and_eq_true] at h; exact h.1
    simp only [memRead_eq]
    cases s.fillPlan with
    | nil => exact ⟨rfl, hset 0, hdue, fun _ _ => .inl, fun _ _ => id, id⟩
    | cons fill plan =>
      simp only []
      by_cases hf : (fill && (!(s.settleDue && decide (s.tSettle < s.cfg.timing.hv)) &&
          cell s .main (wordIndex (wordAddr a)) != .indet)) = true
      · simp only [hf, if_true]
        simp only [Bool.and_eq_true, Bool.not_eq_true', bne_iff_ne, wordIndex_wordAddr] at hf
        obtain ⟨_, h1, h2⟩ := hf
        have hv : ∃ v, cell s .main (wordIndex a) = .val v := by
          cases hc : cell s .main (wordIndex a) with
          | val v => exact ⟨v, rfl⟩
          | indet => exact absurd hc h2
        obtain ⟨v, hv⟩ := hv
        have hr : readValue s .main a s.draws = v := by
          simp only [readValue, Machine.settling, h1, hv, wordOr, Bool.false_eq_true, if_false]
        refine ⟨rfl, hset 0, hdue, ?_, ?_, fun h => tableSet_sorted _ _ h⟩
        · intro w u hw
          simp only [tableGet_tableSet, hr] at hw
          split_ifs at hw with he
          · cases hw; subst he; exact .inr hv
          · exact .inl hw
        · intro w u hw
          simp only [tableGet_tableSet]
          rw [if_neg]
          · exact hw
          · rintro rfl; rw [hg] at hw; cases hw
      · simp only [hf]
        exact ⟨rfl, hset 0, hdue, fun _ _ => .inl, fun _ _ => id, id⟩

/-- The refresh reads lie inside Main (47 R235). -/
theorem refreshOffset_lt {s : State} (h : configOk s.cfg = true) (hi : s.lat.idx.toNat < refreshLimit s.cfg) :
    (refreshOffset s).toNat < s.cfg.mainSize := by
  simp only [configOk, Bool.and_eq_true, decide_eq_true_eq] at h
  obtain ⟨-, -, -, -, -, h2, -, -, -, -, -, -, -, -, -, h1⟩ := h
  have hm : s.lat.idx.toNat * s.cfg.cacheRefreshStride.toNat ≤ (refreshLimit s.cfg - 1) * s.cfg.cacheRefreshStride.toNat :=
    Nat.mul_le_mul_right _ (by omega)
  have hlt := s.lat.idx.isLt
  simp only [refreshOffset, BitVec.toNat_add, BitVec.toNat_mul, BitVec.toNat_setWidth]
  rw [Nat.mod_eq_of_lt (show s.lat.idx.toNat < 2 ^ 32 by omega), Nat.mod_eq_of_lt (show s.lat.idx.toNat * _ < 2 ^ 32 by omega),
    Nat.mod_eq_of_lt (by omega)]
  omega

/-- No variant makes more throwaway reads than its parameters allow (47 R235). -/
theorem refreshCount_le (s : State) : refreshCount s ≤ refreshLimit s.cfg ∧ refreshLimit s.cfg ≤ 40 := by
  unfold refreshCount refreshLimit
  split_ifs <;> simp_all

/-- One throwaway read and the decision behind it (47 R235 lines 1 and 2). -/
def refreshTurn (s : State) (u : Upc) : State :=
  { (mappedRead (refreshOffset s) s).2 with
    upc := u
    lat := { s.lat with idx := s.lat.idx + 1#16 } }

theorem runs_refreshTurn {s : State} (hu : s.upc = .at .updateCache 1) (hb : s.busy = true)
    (hc : configOk s.cfg = true) (hst : stalled s = false) (hi : s.lat.idx.toNat < refreshLimit s.cfg) :
    Runs 2 s (refreshTurn s (if (s.lat.idx + 1#16).toNat < refreshCount s then .at .updateCache 1
      else .at .updateCache 3)) := by
  have hf := (mappedStep_mappedRead (refreshOffset s) s).frame
  have h1 : runAct .refreshRead s = .go (mappedRead (refreshOffset s) s).2 := by
    simp only [runAct, Nat.not_le.mpr (refreshOffset_lt hc hi), if_false, hst, Bool.false_eq_true]
  have hb' : (mappedRead (refreshOffset s) s).2.busy = true := by rw [hf]; exact hb
  have hlat : (mappedRead (refreshOffset s) s).2.lat = s.lat := by rw [hf]
  have hcfg : (mappedRead (refreshOffset s) s).2.cfg = s.cfg := by rw [hf]
  have hmode : (mappedRead (refreshOffset s) s).2.cacheMode = s.cacheMode := by rw [hf]
  generalize hv : (mappedRead (refreshOffset s) s).2 = v at *
  have r1 : Runs 1 s { v with upc := .at .updateCache 2 } := by
    refine .one hb ?_
    rw [seqStep_act hu rfl h1, goLine_inside _ (by decide)]
  refine r1.trans (.one hb' ?_)
  rw [seqStep_branch (op := .updateCache) (line := 2) rfl rfl]
  simp only [refreshTurn, hv]
  have hn : refreshCount (setLat { v with upc := .at .updateCache 2 } { v.lat with idx := v.lat.idx + 1#16 }) =
      refreshCount s := by
    simp only [refreshCount, setLat, hcfg, hmode]
  by_cases h : (s.lat.idx + 1#16).toNat < refreshCount s
  · have hr : runBranch (.nextRefresh 1) { v with upc := .at .updateCache 2 } =
        .to 1 (setLat { v with upc := .at .updateCache 2 } { v.lat with idx := v.lat.idx + 1#16 }) := by
      refine if_pos ?_
      rw [hn]; simpa only [setLat, hlat] using h
    rw [hr, if_pos h]
    simp only [goLine_inside _ (show 1 < (program .updateCache).length by decide), setLat, hlat]
  · have hr : runBranch (.nextRefresh 1) { v with upc := .at .updateCache 2 } =
        .next (setLat { v with upc := .at .updateCache 2 } { v.lat with idx := v.lat.idx + 1#16 }) := by
      refine if_neg ?_
      rw [hn]; simpa only [setLat, hlat] using h
    rw [hr, if_neg h]
    simp only [goLine_inside _ (show 2 + 1 < (program .updateCache).length by decide), setLat, hlat]

/-- The throwaway reads of `update_cache` that are left. -/
theorem runs_refreshLoop : ∀ (n : Nat) {s : State}, s.upc = .at .updateCache 1 → s.busy = true →
    configOk s.cfg = true → stalled s = false → s.lat.idx.toNat + n + 1 = refreshCount s →
    ∃ t, MappedStep { s with upc := .at .updateCache 3, lat := t.lat } t ∧ t.lat.op = s.lat.op ∧ Runs (2 * (n + 1)) s t := by
  have key : ∀ (s : State) (u : Upc), MappedStep { s with upc := u, lat := (refreshTurn s u).lat } (refreshTurn s u) := by
    intro s u
    have h := mappedStep_mappedRead (refreshOffset s) s
    refine ⟨?_, h.settling, h.settle, h.entry, h.kept, h.sorted⟩
    have hf := h.frame
    simp only [refreshTurn]
    rw [hf]
  intro n
  induction n with
  | zero =>
    intro s hu hb hc hst hn
    have := refreshCount_le s
    have r := runs_refreshTurn hu hb hc hst (by omega)
    have h1 : (s.lat.idx + 1#16).toNat = s.lat.idx.toNat + 1 := by
      rw [BitVec.toNat_add]; simp only [BitVec.toNat_ofNat]; omega
    rw [if_neg (by omega)] at r
    exact ⟨_, key s _, rfl, r⟩
  | succ n ih =>
    intro s hu hb hc hst hn
    have := refreshCount_le s
    have r := runs_refreshTurn hu hb hc hst (by omega)
    have h1 : (s.lat.idx + 1#16).toNat = s.lat.idx.toNat + 1 := by
      rw [BitVec.toNat_add]; simp only [BitVec.toNat_ofNat]; omega
    rw [if_pos (by omega)] at r
    have hk := key s (.at .updateCache 1)
    have hf := hk.frame
    obtain ⟨t, ht, hop, r2⟩ := ih (s := refreshTurn s (.at .updateCache 1)) rfl (by rw [hf]; exact hb)
      (by rw [hf]; exact hc) (by rw [hf]; exact hst) (by
        have e : refreshCount (refreshTurn s (.at .updateCache 1)) = refreshCount s := by rw [hf]; rfl
        rw [e, show (refreshTurn s (.at .updateCache 1)).lat.idx.toNat = s.lat.idx.toNat + 1 from h1]
        omega)
    refine ⟨t, ?_, hop, ?_⟩
    · refine MappedStep.trans (t := { refreshTurn s (.at .updateCache 1) with
        upc := .at .updateCache 3, lat := t.lat }) ⟨?_, hk.settling, hk.settle, hk.entry, hk.kept, hk.sorted⟩ ht
      rw [hf]
    · rw [show 2 * (n + 1 + 1) = 2 + 2 * (n + 1) by omega]
      exact r.trans r2

/-- `update_cache` (47 R235), while the mapped path is not stalled. -/
theorem runs_updateCache {s : State} (h : AtStart .updateCache s) (hc : configOk s.cfg = true)
    (hst : stalled s = false) :
    ∃ (k : Nat) (t : State), k ≤ 82 ∧
      MappedStep { s with upc := .at .updateCache 3, lat := t.lat } t ∧ t.lat.op = s.lat.op ∧
      Runs k s (finish { t with upc := .at .updateCache 4, cache := freshEntries t }) := by
  have hcount : 5 ≤ refreshCount s ∧ refreshCount s ≤ 40 := by unfold refreshCount; split_ifs <;> omega
  have r1 : Runs 1 s { setLat s { s.lat with idx := 0#16, rvec := [] } with upc := .at .updateCache 1 } := by
    refine .one h.busy ?_
    rw [seqStep_act h.upc rfl rfl, goLine_inside _ (by decide)]
  obtain ⟨t, ht, hop, r2⟩ := runs_refreshLoop (refreshCount s - 1)
    (s := { setLat s { s.lat with idx := 0#16, rvec := [] } with upc := .at .updateCache 1 }) rfl h.busy hc hst
    (by show 0 + _ + 1 = refreshCount s; omega)
  refine ⟨1 + 2 * (refreshCount s - 1 + 1) + 1, t, by omega, ht, hop, (r1.trans r2).trans ?_⟩
  refine runs_acts_end (op := .updateCache) (line := 3) [.refreshDone] (by rw [ht.frame]) (by rw [ht.frame]; exact h.busy) rfl
    (by decide) rfl

end Sys2Proof.Machine
end

