-- ==== Sys2Proof/Laws/BurstRun.lean ====
section
/-!
SUPPORT. The programming bursts of `program_array` (45 R211 to R214) as runs.
-/

namespace Sys2Proof.Machine

/-- What a burst may change between its prologue and its lock write. -/
structure BurstFrame (s t : State) : Prop where
  frame : t = { s with
    cmd := t.cmd, adr := t.adr, di := t.di, doStale := t.doStale, tCmd := t.tCmd, tHv := t.tHv, tSettle := t.tSettle
    tRcv := t.tRcv, rcvDue := t.rcvDue, xlatch := t.xlatch, pend := t.pend, main := t.main, info := t.info
    counts := { s.counts with dcnt := t.counts.dcnt }, lat := t.lat, upc := t.upc }
  lat : t.lat = { s.lat with addr := t.lat.addr, data := t.lat.data, idx := t.lat.idx, run := t.lat.run }

theorem BurstFrame.refl (s : State) : BurstFrame s s := ⟨rfl, rfl⟩

theorem BurstFrame.trans {s t u : State} (h : BurstFrame s t) (k : BurstFrame t u) : BurstFrame s u where
  frame := by rw [k.frame, h.frame]
  lat := by rw [k.lat, h.lat]

theorem BurstFrame.before {s t u : State} (k : BurstFrame t u) (h : BurstFrame s t) : BurstFrame s u := h.trans k

/-- The position of a burst between two elements: a run is open or none is. -/
structure BurstAt (b : Bank) (s : State) : Prop where
  busy : s.busy = true
  key : s.key ≠ 0#32
  shadow : Shadow s.lat.csh
  bank : bankOf s.lat.csh = b
  latBank : arrayBank s.lat.bank = b
  pend : s.pend = none
  run : (s.lat.run = none ∧ s.cmd = s.lat.csh ∧ s.xlatch = none ∧
      (s.rcvDue = true → s.cfg.timing.rcv ≤ s.tRcv)) ∨
    (∃ r x, s.lat.run = some r ∧ s.cmd = withDrive s.lat.csh .progHv ∧ s.xlatch = some x ∧ x.kind = .prog ∧ x.bank = b ∧
      rowOf x.addr = r ∧ s.cfg.timing.pgs ≤ s.tHv ∧ s.rcvDue = false)

/-- An element's address and data are in the latches (45 R211 line 6). -/
def loaded (s : State) (a d : Word) (u : Upc) : State :=
  { s with upc := u, lat := { s.lat with addr := a, data := d } }

theorem runs_load {s : State} {a d : Word} (hu : s.upc = .at .programArray 5) (hb : s.busy = true)
    (ha : s.lat.avec[s.lat.idx.toNat]? = some a) (hd : s.lat.dvec[s.lat.idx.toNat]? = some d) :
    Runs 1 s (loaded s a d (.at .programArray 6)) := by
  refine .one hb ?_
  rw [seqStep_act hu rfl rfl, goLine_inside _ (by decide)]
  simp only [setLat, ha, hd, Option.getD_some, loaded]

/-- A protected element is skipped (45 R211 line 7). -/
theorem runs_skip {s : State} {a d : Word} (hb : s.busy = true)
    (hp : isProtected s.cfg s.lat.bank a = true) :
    Runs 1 (loaded s a d (.at .programArray 6)) (loaded s a d (.at .programArray 25)) := by
  refine .one hb ?_
  have hr : runBranch (.protectedSkip 25) (loaded s a d (.at .programArray 6)) =
      .to 25 (loaded s a d (.at .programArray 6)) := if_pos hp
  rw [seqStep_branch (op := .programArray) (line := 6) rfl rfl, hr]
  simp only [goLine_inside _ (show 25 < (program .programArray).length by decide)]
  rfl

/-- The decision between the three cases of an unprotected element (45 R211 line 8). -/
theorem runs_case {s : State} {a d : Word} (hb : s.busy = true) (hp : isProtected s.cfg s.lat.bank a = false) :
    Runs 2 (loaded s a d (.at .programArray 6)) (loaded s a d (.at .programArray
      (match s.lat.run with
       | some r => if r = rowOf a then 20 else 8
       | none => 13))) := by
  have h1 : Runs 1 (loaded s a d (.at .programArray 6)) (loaded s a d (.at .programArray 7)) := by
    refine .one hb ?_
    have hr : runBranch (.protectedSkip 25) (loaded s a d (.at .programArray 6)) =
        .next (loaded s a d (.at .programArray 6)) := if_neg (by simpa [loaded] using hp)
    rw [seqStep_branch (op := .programArray) (line := 6) rfl rfl, hr]
    simp only [goLine_inside _ (show 6 + 1 < (program .programArray).length by decide)]
    rfl
  refine h1.trans (.one hb ?_)
  rw [seqStep_branch (op := .programArray) (line := 7) rfl rfl]
  rcases hrun : s.lat.run with _ | r
  · have hr : runBranch (.runCase 20 8 13) (loaded s a d (.at .programArray 7)) =
        .to 13 (loaded s a d (.at .programArray 7)) := by
      simp only [runBranch, loaded, hrun]
    rw [hr]
    simp only [goLine_inside _ (show 13 < (program .programArray).length by decide)]
    rfl
  · by_cases h : r = rowOf a
    · have hr : runBranch (.runCase 20 8 13) (loaded s a d (.at .programArray 7)) =
          .to 20 (loaded s a d (.at .programArray 7)) := by
        simp only [runBranch, loaded, hrun, h, if_true]
      rw [hr]
      simp only [goLine_inside _ (show 20 < (program .programArray).length by decide), h, if_true]
      rfl
    · have hr : runBranch (.runCase 20 8 13) (loaded s a d (.at .programArray 7)) =
          .to 8 (loaded s a d (.at .programArray 7)) := by
        simp only [runBranch, loaded, hrun, h, if_false]
      rw [hr]
      simp only [goLine_inside _ (show 8 < (program .programArray).length by decide), h, if_false]
      rfl

/-- A run is closed, the run latch cleared (45 R213), at either place it stands. -/
theorem runs_closeRun {s : State} {b : Bank} {line : Nat} (h : BurstAt b s) (hu : s.upc = .at .programArray line)
    (hl : line = 8 ∨ line = 27) (hrun : s.lat.run ≠ none) :
    ∃ t, Runs 5 s t ∧ BurstFrame s t ∧ BurstAt b t ∧ t.lat.run = none ∧ t.upc = .at .programArray (line + 5) ∧
      t.main = s.main ∧ t.info = s.info ∧ t.adr = s.adr ∧ t.di = s.di ∧ t.lat.addr = s.lat.addr ∧
      t.lat.data = s.lat.data ∧ t.lat.idx = s.lat.idx := by
  rcases h.run with ⟨hn, _⟩ | ⟨r, x, hr, hcmd, hx, hkind, _⟩
  · exact absurd hn hrun
  have hle : latchedErase s = false := by simp [latchedErase, hx, hkind]
  have h1 := runActs_append (runActs_close .programArray line s h.shadow hcmd h.key hle)
    (show runActs .programArray (line + closeActs.length) [.closeRun] _ = _ from runActs_step rfl rfl)
  refine ⟨_, runs_cut (closeActs ++ [Act.closeRun]) hu h.busy ?_ ?_ h1, ⟨rfl, rfl⟩,
    ⟨h.busy, h.key, h.shadow, h.bank, h.latBank, h.pend, .inl ⟨rfl, rfl, rfl, fun _ => Nat.le_refl _⟩⟩, rfl, rfl, rfl, rfl,
    rfl, rfl, rfl, rfl, rfl⟩
  · rcases hl with rfl | rfl <;> rfl
  · rcases hl with rfl | rfl <;> decide

/-- What programming one word does to the array, and what it leaves in `Adr` and `DI`. -/
structure Programs (b : Bank) (a d : Word) (s t : State) : Prop where
  cell : ∀ w, cell t b w = if w = wordIndex a then committed s.cfg b w (.program d) (cell s b w) else cell s b w
  other : ∀ b', b' ≠ b → array t b' = array s b'
  bytes : ∀ x, x / 4 ≠ wordIndex a → byteAt (array t b) x = byteAt (array s b) x
  adr : t.adr = a
  di : t.di = d

/-- A pulse, with a run open on the row of `Adr` (45 R214). -/
theorem runs_pulse {s : State} {b : Bank} {x : XLatch} (hu : s.upc = .at .programArray 22) (hb : s.busy = true)
    (hk : s.key ≠ 0#32) (hc : Shadow s.lat.csh) (hbank : bankOf s.lat.csh = b) (hlb : arrayBank s.lat.bank = b)
    (hcmd : s.cmd = withDrive s.lat.csh .progHv) (hx : s.xlatch = some x) (hkind : x.kind = .prog) (hxb : x.bank = b)
    (hrow : s.lat.run = some (rowOf x.addr)) (ht : s.cfg.timing.pgs ≤ s.tHv) (hdue : s.rcvDue = false)
    (hr : (wordAddr s.adr).toNat < bankSize s.cfg b) :
    ∃ t, Runs 3 s t ∧ BurstFrame s t ∧ BurstAt b t ∧ Programs b s.adr s.di s t ∧ t.upc = .at .programArray 25 ∧
      t.lat = s.lat := by
  have h1 := runActs_pulse .programArray 22 s x hc hcmd hk hx ht (by rw [hxb]; exact hr)
  have r := runs_cut pulseActs hu hb rfl (by decide) h1
  rw [hxb] at r
  refine ⟨_, r, ?_, ?_, ?_, ?_, ?_⟩
  · cases b <;> exact ⟨rfl, rfl⟩
  · have hT : s.cfg.timing.pgs ≤ s.tHv + s.cfg.timing.prog := by omega
    cases b <;> exact ⟨hb, hk, hc, hbank, hlb, rfl, .inr ⟨_, x, hrow, rfl, hx, hkind, hxb, rfl, hT, hdue⟩⟩
  · constructor
    · intro w
      have h2 : cellAt (pulsedList s b s.adr s.di) w = _ := cellAt_pulsedList s b s.adr s.di w
      have h3 : cell (pulsed s b (.at .programArray (22 + 3))) b w = cellAt (pulsedList s b s.adr s.di) w := by
        cases b <;> rfl
      rw [h3, h2]
      by_cases hw : w = wordIndex s.adr
      · subst hw; simp only [if_true]
      · simp only [hw, if_false]; rfl
    · intro b' hb'; cases b <;> cases b' <;> first | rfl | exact absurd rfl hb'
    · intro y hy
      have h2 := byteAt_pulsedList s b s.adr s.di y hy
      rw [← h2]
      cases b <;> rfl
    · cases b <;> rfl
    · cases b <;> rfl
  · cases b <;> rfl
  · cases b <;> rfl

theorem Programs.of_frame {b : Bank} {a d : Word} {s s' t : State} (h : Programs b a d s' t) (hc : s'.cfg = s.cfg)
    (hm : s'.main = s.main) (hi : s'.info = s.info) : Programs b a d s t := by
  have ha : ∀ b, array s' b = array s b := by intro b; cases b <;> assumption
  have hcell : ∀ b w, Machine.cell s' b w = Machine.cell s b w := by intro b w; simp only [Machine.cell, ha]
  exact ⟨fun w => by rw [h.cell w, hc, hcell], fun b' hb => by rw [h.other b' hb, ha],
    fun x hx => by rw [h.bytes x hx, ha], h.adr, h.di⟩

/-- A run is opened and its first word pulsed (45 R212, R214); the element stands in the latches. -/
theorem runs_openPulse {s : State} {b : Bank} (h : BurstAt b s) (hu : s.upc = .at .programArray 13)
    (hrun : s.lat.run = none) (hr : (wordAddr s.lat.addr).toNat < bankSize s.cfg b) :
    ∃ t, Runs 10 s t ∧ BurstFrame s t ∧ BurstAt b t ∧ Programs b s.lat.addr s.lat.data s t ∧
      t.upc = .at .programArray 25 ∧ t.lat.idx = s.lat.idx := by
  rcases h.run with ⟨_, hcmd, hx, hrcv⟩ | ⟨r, x, hn, _⟩
  swap
  · rw [hrun] at hn; cases hn
  have h1 := runActs_open .programArray 13 s h.shadow hcmd h.key hrcv
  have r1 := runs_cut openActs hu h.busy rfl (by decide) h1
  have r2 : Runs 1 (opened s (.at .programArray 19))
      { opened s (.at .programArray 19) with
        upc := .at .programArray 22, lat := { s.lat with run := some (rowOf s.lat.addr) } } := by
    refine .one h.busy ?_
    rw [seqStep_branch (op := .programArray) (line := 19) rfl rfl]
    simp only [runBranch, setLat, goLine_inside _ (show 22 < (program .programArray).length by decide)]
    rfl
  obtain ⟨t, r3, hf, hat, hp, htu, htl⟩ := runs_pulse (b := b)
    (s := { opened s (.at .programArray 19) with
      upc := .at .programArray 22, lat := { s.lat with run := some (rowOf s.lat.addr) } })
    (x := ⟨.prog, bankOf s.lat.csh, wordAddr s.lat.addr⟩) rfl h.busy h.key h.shadow h.bank h.latBank rfl rfl rfl h.bank
    (by simp only [rowOf_wordAddr]) (Nat.le_refl _) rfl hr
  refine ⟨t, (r1.trans r2).trans r3, hf.before ⟨rfl, rfl⟩, hat, hp.of_frame rfl rfl rfl, htu, ?_⟩
  rw [htl]

/-- The next word of an open run is pulsed (45 R211 line 8, R214). -/
theorem runs_samePulse {s : State} {b : Bank} (h : BurstAt b s) (hu : s.upc = .at .programArray 20)
    (hrun : s.lat.run = some (rowOf s.lat.addr)) (hr : (wordAddr s.lat.addr).toNat < bankSize s.cfg b) :
    ∃ t, Runs 5 s t ∧ BurstFrame s t ∧ BurstAt b t ∧ Programs b s.lat.addr s.lat.data s t ∧
      t.upc = .at .programArray 25 ∧ t.lat.idx = s.lat.idx := by
  rcases h.run with ⟨hn, _⟩ | ⟨r, x, hn, hcmd, hx, hkind, hxb, hrow, ht, hdue⟩
  · rw [hrun] at hn; cases hn
  rw [hrun] at hn
  cases hn
  have hm : modeOf s.cmd = .pgHv := by rw [hcmd]; exact modeOf_withDrive h.shadow .progHv
  have h1 : runActs .programArray 20 [.wrAdr .operand, .wrDI] s = .go
      { s with adr := s.lat.addr, di := s.lat.data, doStale := 3, upc := .at .programArray 22 } := by
    refine runActs_step (t := { s with adr := s.lat.addr, doStale := 3 }) ?_ ?_
    · simp only [runAct, adrOf]
      rw [wrAdr_run h.key hm hx hrow.symm]
      rfl
    · refine runActs_step (runAct_wrDI h.key (.inr (.inr hm))) ?_
      rfl
  have r1 := runs_cut [Act.wrAdr .operand, Act.wrDI] hu h.busy rfl (by decide) h1
  obtain ⟨t, r3, hf, hat, hp, htu, htl⟩ := runs_pulse (b := b)
    (s := { s with adr := s.lat.addr, di := s.lat.data, doStale := 3, upc := .at .programArray 22 })
    rfl h.busy h.key h.shadow h.bank h.latBank hcmd hx hkind hxb (by rw [hrow]; exact hrun) ht hdue hr
  refine ⟨t, r1.trans r3, hf.before ⟨rfl, rfl⟩, hat, hp.of_frame rfl rfl rfl, htu, ?_⟩
  rw [htl]

theorem BurstAt.loaded {b : Bank} {s : State} (h : BurstAt b s) (a d : Word) (u : Upc) : BurstAt b (loaded s a d u) :=
  ⟨h.busy, h.key, h.shadow, h.bank, h.latBank, h.pend, h.run⟩

/-- One unprotected element of a burst (45 R211 lines 6 to 9). -/
theorem runs_element {s : State} {b : Bank} {a d : Word} (h : BurstAt b s) (hu : s.upc = .at .programArray 5)
    (ha : s.lat.avec[s.lat.idx.toNat]? = some a) (hd : s.lat.dvec[s.lat.idx.toNat]? = some d)
    (hp : isProtected s.cfg s.lat.bank a = false) (hr : (wordAddr a).toNat < bankSize s.cfg b) :
    ∃ k t, k ≤ 18 ∧ Runs k s t ∧ BurstFrame s t ∧ BurstAt b t ∧ Programs b a d s t ∧ t.upc = .at .programArray 25 ∧
      t.lat.idx = s.lat.idx := by
  have r1 := (runs_load hu h.busy ha hd).trans (runs_case h.busy hp (d := d))
  have fr : ∀ u, BurstFrame s (loaded s a d u) := fun u => ⟨rfl, rfl⟩
  rcases hrun : s.lat.run with _ | r
  · simp only [hrun] at r1
    obtain ⟨t, r2, hf, hat, hpr, htu, hti⟩ := runs_openPulse (h.loaded a d (.at .programArray 13)) rfl hrun hr
    exact ⟨_, t, by omega, r1.trans r2, (fr _).trans hf, hat, hpr.of_frame rfl rfl rfl, htu, hti⟩
  · by_cases hrow : r = rowOf a
    · simp only [hrun, hrow, if_true] at r1
      obtain ⟨t, r2, hf, hat, hpr, htu, hti⟩ := runs_samePulse (h.loaded a d (.at .programArray 20)) rfl
        (by rw [show (Machine.loaded s a d (.at .programArray 20)).lat.run = some r from hrun, hrow]; rfl) hr
      exact ⟨_, t, by omega, r1.trans r2, (fr _).trans hf, hat, hpr.of_frame rfl rfl rfl, htu, hti⟩
    · simp only [hrun, hrow, if_false] at r1
      obtain ⟨t, r2, hf, hat, htn, htu, hm, hi, _, _, hta, htd, hti⟩ := runs_closeRun
        (h.loaded a d (.at .programArray 8)) rfl (.inl rfl) (by
          rw [show (Machine.loaded s a d (.at .programArray 8)).lat.run = some r from hrun]; simp)
      have hcfg : t.cfg = s.cfg := by rw [hf.frame]; rfl
      obtain ⟨v, r3, hf3, hat3, hpr, hvu, hvi⟩ := runs_openPulse hat htu htn (by rw [hta, hcfg]; exact hr)
      rw [hta, htd] at hpr
      exact ⟨_, v, by omega, (r1.trans r2).trans r3, ((fr _).trans hf).trans hf3, hat3, hpr.of_frame hcfg hm hi, hvu,
        hvi.trans hti⟩

/-- What programming some elements in turn does, protected ones skipped (45 R211, 46 R222). -/
structure Bursts (b : Bank) (ps : List (Word × Word)) (s t : State) : Prop where
  cell : ∀ w, cell t b w = programmedCell s.cfg b (unprotectedPairs s.cfg b ps) w (cell s b w)
  other : ∀ b', b' ≠ b → array t b' = array s b'
  bytes : ∀ x, (∀ p ∈ unprotectedPairs s.cfg b ps, x / 4 ≠ wordIndex p.1) →
    byteAt (array t b) x = byteAt (array s b) x
  adr : t.adr = ((unprotectedPairs s.cfg b ps).getLast?.map (·.1)).getD s.adr
  di : t.di = ((unprotectedPairs s.cfg b ps).getLast?.map (·.2)).getD s.di

theorem unprotectedPairs_cons_pos {c : Config} {b : Bank} {p : Word × Word} (ps : List (Word × Word))
    (h : isProtected c (selOf b) p.1 = true) : unprotectedPairs c b (p :: ps) = unprotectedPairs c b ps := by
  simp [unprotectedPairs, h]

theorem unprotectedPairs_cons_neg {c : Config} {b : Bank} {p : Word × Word} (ps : List (Word × Word))
    (h : isProtected c (selOf b) p.1 = false) : unprotectedPairs c b (p :: ps) = p :: unprotectedPairs c b ps := by
  simp [unprotectedPairs, h]

theorem Bursts.nil {b : Bank} {s t : State} (hm : t.main = s.main) (hi : t.info = s.info) (ha : t.adr = s.adr)
    (hd : t.di = s.di) : Bursts b [] s t := by
  have h : ∀ b, array t b = array s b := by intro b; cases b <;> assumption
  exact ⟨fun w => by simp only [Machine.cell, h]; rfl, fun b' _ => h b', fun x _ => by rw [h], ha, hd⟩

theorem Bursts.skip {b : Bank} {p : Word × Word} {ps : List (Word × Word)} {s t : State} (h : Bursts b ps s t)
    (hp : isProtected s.cfg (selOf b) p.1 = true) : Bursts b (p :: ps) s t := by
  have e := unprotectedPairs_cons_pos ps hp
  exact ⟨by rw [e]; exact h.cell, h.other, by rw [e]; exact h.bytes, by rw [e]; exact h.adr, by rw [e]; exact h.di⟩

theorem Bursts.cons {b : Bank} {a d : Word} {ps : List (Word × Word)} {s t u : State} (hp : Programs b a d s t)
    (hprot : isProtected s.cfg (selOf b) a = false) (hc : t.cfg = s.cfg) (h : Bursts b ps t u) :
    Bursts b ((a, d) :: ps) s u := by
  have e := unprotectedPairs_cons_neg (p := (a, d)) ps hprot
  refine ⟨fun w => ?_, fun b' hb => (h.other b' hb).trans (hp.other b' hb), fun x hx => ?_, ?_, ?_⟩
  · rw [h.cell w, hp.cell w, e, hc]
    simp only [programmedCell, List.foldl_cons]
    by_cases hw : w = wordIndex a
    · subst hw; simp only [if_true]
    · rw [if_neg hw, if_neg (fun hh => hw hh.symm)]
  · rw [e] at hx
    rw [h.bytes x (by rw [hc]; exact fun p hp => hx p (List.mem_cons_of_mem _ hp)),
      hp.bytes x (hx (a, d) (List.mem_cons_self ..))]
  · rw [h.adr, e, hc, hp.adr, List.getLast?_cons]
    cases (unprotectedPairs s.cfg b ps).getLast? <;> rfl
  · rw [h.di, e, hc, hp.di, List.getLast?_cons]
    cases (unprotectedPairs s.cfg b ps).getLast? <;> rfl

theorem Bursts.of_same {b : Bank} {ps : List (Word × Word)} {s s' t : State} (h : Bursts b ps s' t)
    (hc : s'.cfg = s.cfg) (hm : s'.main = s.main) (hi : s'.info = s.info) (ha : s'.adr = s.adr) (hd : s'.di = s.di) :
    Bursts b ps s t := by
  have har : ∀ b, array s' b = array s b := by intro b; cases b <;> assumption
  have hcell : ∀ b w, Machine.cell s' b w = Machine.cell s b w := by intro b w; simp only [Machine.cell, har]
  exact ⟨fun w => by rw [h.cell w, hc, hcell], fun b' hb => by rw [h.other b' hb, har],
    fun x hx => by rw [h.bytes x (by rw [hc]; exact hx), har], by rw [h.adr, hc, ha], by rw [h.di, hc, hd]⟩

theorem Bursts.then_same {b : Bank} {ps : List (Word × Word)} {s t u : State} (h : Bursts b ps s t)
    (hm : u.main = t.main) (hi : u.info = t.info) (ha : u.adr = t.adr) (hd : u.di = t.di) : Bursts b ps s u := by
  have har : ∀ b, array u b = array t b := by intro b; cases b <;> assumption
  exact ⟨fun w => by rw [← h.cell w]; simp only [Machine.cell, har], fun b' hb => by rw [har, h.other b' hb],
    fun x hx => by rw [har, h.bytes x hx], by rw [ha, h.adr], by rw [hd, h.di]⟩

theorem getElem?_of_drop {α : Type} {l xs : List α} {i : Nat} {x : α} (h : l.drop i = x :: xs) : l[i]? = some x := by
  have := congrArg (·[0]?) h
  simp only [List.getElem?_drop, Nat.add_zero, List.getElem?_cons_zero] at this
  exact this

/-- Behind an element: the next one, or out of the loop (45 R211 line 10). -/
theorem runs_nextPair {s : State} (hu : s.upc = .at .programArray 25) (hb : s.busy = true) :
    Runs 1 s { s with
      lat := { s.lat with idx := s.lat.idx + 1#16 }
      upc := if s.lat.idx + 1#16 < s.lat.len then .at .programArray 5 else .at .programArray 26 } := by
  refine .one hb ?_
  rw [seqStep_branch hu rfl]
  by_cases h : s.lat.idx + 1#16 < s.lat.len
  · have hr : runBranch (.nextPair 5) s = .to 5 (setLat s { s.lat with idx := s.lat.idx + 1#16 }) := if_pos h
    rw [hr, if_pos h]
    simp only [goLine_inside _ (show 5 < (program .programArray).length by decide), setLat]
  · have hr : runBranch (.nextPair 5) s = .next (setLat s { s.lat with idx := s.lat.idx + 1#16 }) := if_neg h
    rw [hr, if_neg h]
    simp only [goLine_inside _ (show 25 + 1 < (program .programArray).length by decide), setLat]

/-- One element of a burst, protected or not, with its place in the whole effect. -/
theorem runs_anyElement {s : State} {b : Bank} {a d : Word} (h : BurstAt b s) (hu : s.upc = .at .programArray 5)
    (hsel : s.lat.bank = selOf b) (ha : s.lat.avec[s.lat.idx.toNat]? = some a)
    (hd : s.lat.dvec[s.lat.idx.toNat]? = some d) (hr : (wordAddr a).toNat < bankSize s.cfg b) :
    ∃ k t, k ≤ 18 ∧ Runs k s t ∧ BurstFrame s t ∧ BurstAt b t ∧ t.upc = .at .programArray 25 ∧
      t.lat.idx = s.lat.idx ∧ ∀ ps u, Bursts b ps t u → Bursts b ((a, d) :: ps) s u := by
  cases hp : isProtected s.cfg (selOf b) a with
  | false =>
    obtain ⟨k, t, hk, r, hf, hat, hpr, htu, hti⟩ := runs_element h hu ha hd (by rw [hsel]; exact hp) hr
    exact ⟨k, t, hk, r, hf, hat, htu, hti, fun ps u hb => .cons hpr hp (by rw [hf.frame]) hb⟩
  | true =>
    have r := (runs_load hu h.busy ha hd).trans (runs_skip h.busy (by rw [hsel]; exact hp) (d := d))
    refine ⟨2, _, by omega, r, ⟨rfl, rfl⟩, h.loaded a d _, rfl, rfl, fun ps u hb => ?_⟩
    exact (hb.of_same (s := s) rfl rfl rfl rfl rfl).skip hp

/-- The loop of a burst. -/
theorem runs_burstLoop {b : Bank} : ∀ (ps : List (Word × Word)) (a d : Word) {s : State}, BurstAt b s →
    s.upc = .at .programArray 5 → s.lat.bank = selOf b →
    s.lat.avec.drop s.lat.idx.toNat = ((a, d) :: ps).map (·.1) →
    s.lat.dvec.drop s.lat.idx.toNat = ((a, d) :: ps).map (·.2) → s.lat.len.toNat = s.lat.avec.length →
    (∀ p ∈ (a, d) :: ps, (wordAddr p.1).toNat < bankSize s.cfg b) →
    ∃ k t, k ≤ 19 * (ps.length + 1) ∧ Runs k s t ∧ BurstFrame s t ∧ BurstAt b t ∧ t.upc = .at .programArray 26 ∧
      Bursts b ((a, d) :: ps) s t := by
  intro ps
  induction ps with
  | nil =>
    intro a d s h hu hsel hav hdv hlen hr
    have ha : s.lat.avec[s.lat.idx.toNat]? = some a := getElem?_of_drop hav
    have hd : s.lat.dvec[s.lat.idx.toNat]? = some d := getElem?_of_drop hdv
    obtain ⟨k, t, hk, r, hf, hat, htu, hti, hB⟩ := runs_anyElement h hu hsel ha hd (hr (a, d) (by simp))
    have r2 := runs_nextPair htu hat.busy
    have hl : t.lat.len = s.lat.len := by rw [hf.lat]
    have h1 := congrArg List.length hav
    simp only [List.length_drop, List.length_map, List.length_cons, List.length_nil] at h1
    have hlt := s.lat.len.isLt
    have hend : ¬ (t.lat.idx + 1#16 < t.lat.len) := by
      rw [hti, hl, BitVec.lt_def, BitVec.toNat_add]
      simp only [BitVec.toNat_ofNat]
      omega
    rw [if_neg hend] at r2
    refine ⟨k + 1, _, by simp only [List.length_nil]; omega, r.trans r2, hf.trans ⟨rfl, rfl⟩,
      ⟨hat.busy, hat.key, hat.shadow, hat.bank, hat.latBank, hat.pend, hat.run⟩, rfl, hB [] _ (.nil rfl rfl rfl rfl)⟩
  | cons p ps ih =>
    obtain ⟨a', d'⟩ := p
    intro a d s h hu hsel hav hdv hlen hr
    have ha : s.lat.avec[s.lat.idx.toNat]? = some a := getElem?_of_drop hav
    have hd : s.lat.dvec[s.lat.idx.toNat]? = some d := getElem?_of_drop hdv
    obtain ⟨k, t, hk, r, hf, hat, htu, hti, hB⟩ := runs_anyElement h hu hsel ha hd (hr (a, d) (by simp))
    have r2 := runs_nextPair htu hat.busy
    have hl : t.lat.len = s.lat.len := by rw [hf.lat]
    have hva : t.lat.avec = s.lat.avec := by rw [hf.lat]
    have hvd : t.lat.dvec = s.lat.dvec := by rw [hf.lat]
    have hvb : t.lat.bank = s.lat.bank := by rw [hf.lat]
    have hcfg : t.cfg = s.cfg := by rw [hf.frame]
    have h1 := congrArg List.length hav
    simp only [List.length_drop, List.length_map, List.length_cons] at h1
    have hlt := s.lat.len.isLt
    have hidx : (t.lat.idx + 1#16).toNat = s.lat.idx.toNat + 1 := by
      rw [hti, BitVec.toNat_add]
      simp only [BitVec.toNat_ofNat]
      omega
    have hgo : t.lat.idx + 1#16 < t.lat.len := by rw [BitVec.lt_def, hidx, hl]; omega
    rw [if_pos hgo] at r2
    obtain ⟨k2, u, hk2, r3, hf3, hat3, huu, hB3⟩ := ih a' d'
      (s := { t with lat := { t.lat with idx := t.lat.idx + 1#16 }, upc := .at .programArray 5 })
      ⟨hat.busy, hat.key, hat.shadow, hat.bank, hat.latBank, hat.pend, hat.run⟩ rfl (hvb.trans hsel)
      (by simp only [hidx, hva]; rw [← List.drop_drop, hav]; rfl)
      (by simp only [hidx, hvd]; rw [← List.drop_drop, hdv]; rfl)
      (by simp only [hva, hl]; exact hlen)
      (fun p hp => by simp only [hcfg]; exact hr p (List.mem_cons_of_mem _ hp))
    refine ⟨k + 1 + k2, u, by simp only [List.length_cons] at hk2 ⊢; omega, (r.trans r2).trans r3,
      hf.trans (hf3.before ⟨rfl, rfl⟩), hat3, huu, hB _ _ (hB3.of_same rfl rfl rfl rfl rfl)⟩

/-- `program_array` (45 R211). -/
theorem runs_programArray {s : State} {b : Bank} {p : Word × Word} {ps : List (Word × Word)}
    (h : AtStart .programArray s) (hsel : s.lat.bank = selOf b) (hx : s.xlatch = none) (hpend : s.pend = none)
    (hav : s.lat.avec = (p :: ps).map (·.1)) (hdv : s.lat.dvec = (p :: ps).map (·.2))
    (hlen : s.lat.len.toNat = s.lat.avec.length)
    (hr : ∀ q ∈ p :: ps, (wordAddr q.1).toNat < bankSize s.cfg b) :
    ∃ k t, k ≤ 19 * (ps.length + 1) + 12 ∧ Runs k s (finish { t with key := 0#32 }) ∧
      BurstFrame { s with key := s.cfg.keyUnlock, lat := t.lat } t ∧ t.lat.op = s.lat.op ∧ t.cmd = shadowAt s ∧
      t.xlatch = none ∧ t.pend = none ∧ (t.rcvDue = true → t.cfg.timing.rcv ≤ t.tRcv) ∧ Bursts b (p :: ps) s t := by
  obtain ⟨a, d⟩ := p
  have hsh := shadowAt_shadow s
  have hbk : bankOf (shadowAt s) = b := by
    rw [show bankOf (shadowAt s) = arrayBank s.lat.bank from bankOf_shadowAt s .none, hsel, arrayBank_selOf]
  have r1 := runs_cut (op := .programArray) beginActs h.upc h.busy rfl (by decide)
    (runActs_begin .programArray 0 s h.key h.mode)
  have r2 : Runs 1 (begun s (.at .programArray 4)) { begun s (.at .programArray 5) with
      lat := { (begun s (.at .programArray 5)).lat with run := none, idx := 0#16 } } := by
    refine .one h.busy ?_
    rw [seqStep_act (op := .programArray) (line := 4) rfl rfl rfl, goLine_inside _ (by decide)]
    rfl
  obtain ⟨k, t, hk, r3, hf, hat, htu, hB⟩ := runs_burstLoop (b := b) ps a d (s := { begun s (.at .programArray 5) with
      lat := { (begun s (.at .programArray 5)).lat with run := none, idx := 0#16 } })
    ⟨h.busy, h.key, hsh, hbk, by show arrayBank s.lat.bank = b; rw [hsel, arrayBank_selOf], hpend,
      .inl ⟨rfl, rfl, hx, h.recovered⟩⟩ rfl hsel hav hdv hlen hr
  have hcsh : t.lat.csh = shadowAt s := by rw [hf.lat]; rfl
  have hop : t.lat.op = s.lat.op := by rw [hf.lat]; rfl
  -- past the loop: an open run is closed
  have hclose : ∃ k2 v, k2 ≤ 6 ∧ Runs k2 t v ∧ BurstFrame t v ∧ BurstAt b v ∧ v.lat.run = none ∧
      v.upc = .at .programArray 32 ∧ v.main = t.main ∧ v.info = t.info ∧ v.adr = t.adr ∧ v.di = t.di := by
    rcases hrun : t.lat.run with _ | r
    · refine ⟨1, { t with upc := .at .programArray 32 }, by omega, .one hat.busy ?_, ⟨rfl, rfl⟩,
        ⟨hat.busy, hat.key, hat.shadow, hat.bank, hat.latBank, hat.pend, hat.run⟩, hrun, rfl, rfl, rfl, rfl, rfl⟩
      have hb : runBranch (.ifRunOpen 32) t = .to 32 t := if_neg (by simp [hrun])
      rw [seqStep_branch htu rfl, hb]
      simp only [goLine_inside _ (show 32 < (program .programArray).length by decide)]
    · have r4 : Runs 1 t { t with upc := .at .programArray 27 } := by
        refine .one hat.busy ?_
        have hb : runBranch (.ifRunOpen 32) t = .next t := if_pos (by simp [hrun])
        rw [seqStep_branch htu rfl, hb]
        simp only [goLine_inside _ (show 26 + 1 < (program .programArray).length by decide)]
      obtain ⟨v, r5, hf5, hat5, hv, hvu, hm, hi, hva, hvd, _⟩ := runs_closeRun (b := b)
        (s := { t with upc := .at .programArray 27 })
        ⟨hat.busy, hat.key, hat.shadow, hat.bank, hat.latBank, hat.pend, hat.run⟩ rfl (.inr rfl) (by simp [hrun])
      exact ⟨6, v, by omega, r4.trans r5, hf5.before ⟨rfl, rfl⟩, hat5, hv, hvu, hm, hi, hva, hvd⟩
  obtain ⟨k2, v, hk2, r6, hf6, hat6, hvn, hvu, hvm, hvi, hva, hvd⟩ := hclose
  have r7 : Runs 1 v (finish { v with key := 0#32 }) :=
    runs_acts_end (op := .programArray) (line := 32) [.lock] hvu hat6.busy rfl (by decide) (t := { v with
      key := 0#32, upc := .at .programArray 33 }) rfl
  have hft : BurstFrame _ v := hf.trans hf6
  have hvop : v.lat.op = s.lat.op := by rw [hf6.lat]; exact hop
  have hvcsh : v.lat.csh = shadowAt s := by rw [hf6.lat]; exact hcsh
  obtain ⟨_, hvcmd, hvx, hvr⟩ : v.lat.run = none ∧ v.cmd = v.lat.csh ∧ v.xlatch = none ∧
      (v.rcvDue = true → v.cfg.timing.rcv ≤ v.tRcv) := by
    rcases hat6.run with hh | ⟨r, x, hh, _⟩
    · exact hh
    · rw [hvn] at hh; cases hh
  refine ⟨4 + 1 + k + k2 + 1, v, by omega, (((r1.trans r2).trans r3).trans r6).trans r7, ?_, hvop,
    hvcmd.trans hvcsh, hvx, hat6.pend, hvr, ?_⟩
  · refine ⟨?_, rfl⟩
    rw [hft.frame]
    rfl
  · exact (hB.of_same (s := s) rfl rfl rfl rfl rfl).then_same hvm hvi hva hvd

end Sys2Proof.Machine
end

