-- ==== Sys2Proof/Laws/Checker.lean ====
section
/-!
SUPPORT. Every request is one call of `request`, and its checks in the checker's order give the fault that 60 R263
expects.
-/

namespace Sys2Proof.Machine

/-- The operands of a request as acceptance latches them (30 R104). -/
structure Latched (i : Instr) (q : Request) : Prop where
  op : requestOf i = some q.op
  bank : q.bank = (bankOperand i).getD .main
  addr : q.addr = (addressesOf i).headD 0#32
  len : q.len = (elementCount i).getD 0
  avec : ∀ n, elementCount i = some n → q.avec = addressesOf i
  dvec : ∀ b ps, i = .programArray b ps → q.dvec = ps.map (·.2)
  data : ∀ b a v, i = .programByte b a v ∨ i = .programHalfWord b a v ∨ i = .programWord b a v → q.data = v
  value : ∀ v, i = .setLatency v ∨ i = .setCacheMode v → q.data = v

/-- The first of two lists of checks decides first. -/
theorem firstViolation_append (xs ys : List (Option FaultInfo)) :
    firstViolation (xs ++ ys) = (firstViolation xs).or (firstViolation ys) := by
  induction xs with
  | nil => rfl
  | cons x xs ih => cases x <;> simp [firstViolation, ih]

theorem firstViolation_cons (x : Option FaultInfo) (xs : List (Option FaultInfo)) :
    firstViolation (x :: xs) = x.or (firstViolation xs) := by cases x <;> rfl

theorem headD_eq (as : List Word) : (as[0]?).getD 0#32 = as.headD 0#32 := by cases as <;> rfl

theorem checkOneBank_eq (i : Instr) (b : BankSel) (h : ∀ k, i ≠ .eraseAllPages k) :
    checkOneBank b = if admitsBank i b then none else some (.invalidBank b) := by
  cases i <;> first | exact absurd rfl (h _) | (cases b <;> rfl)

theorem checkBelow_eq (v : Word) (n : Nat) :
    checkBelow v n = if n ≤ v.toNat then some (.valueRange v) else none := by
  simp only [checkBelow]
  split_ifs <;> first | rfl | omega

theorem checkMaxLen_eq (s : State) (n : Nat) (h : Word) :
    checkMaxLen s n h = if s.cfg.maxLen < n then some (.illegalRequest h) else none := by
  simp only [checkMaxLen]
  split_ifs <;> first | rfl | omega

/-- A bank the operation does not admit, on the check of 60 R253. -/
theorem checkEraseBank_eq (b : BankSel) :
    checkEraseBank b = if admitsBank (.eraseAllPages b) b then none else some (.invalidBank b) := by
  cases b <;> rfl

theorem checkSupported_eq (s : State) (op : Opcode) :
    checkSupported s op = if s.cfg.hasCacheCtrl then none else some (.unsupported op) := rfl

theorem findIdx?_none_of {α : Type} {p : α → Bool} {as : List α} (h : ∀ a ∈ as, p a = false) :
    as.findIdx? p = none := by
  rw [List.findIdx?_eq_none_iff]; exact h

theorem alignZero (as : List Word) : (as.findIdx? fun a => a &&& 0#32 != 0#32) = none :=
  findIdx?_none_of fun a _ => by simp

set_option linter.unusedSimpArgs false in
/-- The meaning of a request is one acceptance, its operands latched and its checks those of 60 R263. -/
theorem exec_request {i : Instr} (s : State) (h : (requestOf i).isSome = true) :
    ∃ q checks, exec i s = request i q checks s ∧ Latched i q ∧
      firstViolation (checks ++ [checkClock s]) = expectedFault s i := by
  cases i
  case readByte b a =>
    refine ⟨_, _, rfl, ⟨rfl, rfl, rfl, rfl, by simp [elementCount], by simp, by simp, by simp⟩, ?_⟩
    simp only [firstViolation_append, firstViolation_cons, firstViolation, Option.or_none, expectedFault, requestFault,
      elementCount, requestOf, bankOperand, valueBound, addressesOf, alignMask, alignZero, Option.bind_none,
      Option.bind_some, Option.none_or, Option.or_assoc, Option.map_none]
    rw [checkOneBank_eq (.readByte b a) b (by simp)]
    rfl
  case readHalfWord b a =>
    refine ⟨_, _, rfl, ⟨rfl, rfl, rfl, rfl, by simp [elementCount], by simp, by simp, by simp⟩, ?_⟩
    simp only [firstViolation_append, firstViolation_cons, firstViolation, Option.or_none, expectedFault, requestFault,
      elementCount, requestOf, bankOperand, valueBound, addressesOf, alignMask, alignZero, Option.bind_none,
      Option.bind_some, Option.none_or, Option.or_assoc, Option.map_none]
    rw [checkOneBank_eq (.readHalfWord b a) b (by simp)]
    rfl
  case readWord b a =>
    refine ⟨_, _, rfl, ⟨rfl, rfl, rfl, rfl, by simp [elementCount], by simp, by simp, by simp⟩, ?_⟩
    simp only [firstViolation_append, firstViolation_cons, firstViolation, Option.or_none, expectedFault, requestFault,
      elementCount, requestOf, bankOperand, valueBound, addressesOf, alignMask, alignZero, Option.bind_none,
      Option.bind_some, Option.none_or, Option.or_assoc, Option.map_none]
    rw [checkOneBank_eq (.readWord b a) b (by simp)]
    rfl
  case readArray b as =>
    refine ⟨_, _, rfl, ⟨rfl, rfl, headD_eq as, rfl, fun _ _ => rfl, by simp, by simp, by simp⟩, ?_⟩
    simp only [firstViolation_append, firstViolation_cons, firstViolation, Option.or_none, expectedFault, requestFault,
      elementCount, requestOf, bankOperand, valueBound, addressesOf, alignMask, Option.bind_none,
      Option.bind_some, Option.none_or, Option.or_assoc, Option.map_none]
    rw [checkOneBank_eq (.readArray b as) b (by simp), checkMaxLen_eq]
    rfl
  case programByte b a v =>
    refine ⟨_, _, rfl, ⟨rfl, rfl, rfl, rfl, by simp [elementCount], by simp, by simp +contextual, by simp⟩, ?_⟩
    simp only [firstViolation_append, firstViolation_cons, firstViolation, Option.or_none, expectedFault, requestFault,
      elementCount, requestOf, bankOperand, valueBound, addressesOf, alignMask, alignZero, Option.bind_none,
      Option.bind_some, Option.none_or, Option.or_assoc, Option.map_none]
    rw [checkOneBank_eq (.programByte b a v) b (by simp), checkBelow_eq]
    rfl
  case programHalfWord b a v =>
    refine ⟨_, _, rfl, ⟨rfl, rfl, rfl, rfl, by simp [elementCount], by simp, by simp +contextual, by simp⟩, ?_⟩
    simp only [firstViolation_append, firstViolation_cons, firstViolation, Option.or_none, expectedFault, requestFault,
      elementCount, requestOf, bankOperand, valueBound, addressesOf, alignMask, alignZero, Option.bind_none,
      Option.bind_some, Option.none_or, Option.or_assoc, Option.map_none]
    rw [checkOneBank_eq (.programHalfWord b a v) b (by simp), checkBelow_eq]
    rfl
  case programWord b a v =>
    refine ⟨_, _, rfl, ⟨rfl, rfl, rfl, rfl, by simp [elementCount], by simp, by simp +contextual, by simp⟩, ?_⟩
    simp only [firstViolation_append, firstViolation_cons, firstViolation, Option.or_none, expectedFault, requestFault,
      elementCount, requestOf, bankOperand, valueBound, addressesOf, alignMask, alignZero, Option.bind_none,
      Option.bind_some, Option.none_or, Option.or_assoc, Option.map_none]
    rw [checkOneBank_eq (.programWord b a v) b (by simp)]
    rfl
  case programArray b ps =>
    refine ⟨_, _, rfl, ⟨rfl, rfl, headD_eq _, rfl, fun _ _ => rfl, by simp +contextual, by simp, by simp⟩, ?_⟩
    simp only [firstViolation_append, firstViolation_cons, firstViolation, Option.or_none, expectedFault, requestFault,
      elementCount, requestOf, bankOperand, valueBound, addressesOf, alignMask, Option.bind_none,
      Option.bind_some, Option.none_or, Option.or_assoc, Option.map_none]
    rw [checkOneBank_eq (.programArray b ps) b (by simp), checkMaxLen_eq]
    rfl
  case erasePage b a =>
    refine ⟨_, _, rfl, ⟨rfl, rfl, rfl, rfl, by simp [elementCount], by simp, by simp, by simp⟩, ?_⟩
    simp only [firstViolation_append, firstViolation_cons, firstViolation, Option.or_none, expectedFault, requestFault,
      elementCount, requestOf, bankOperand, valueBound, addressesOf, alignMask, alignZero, Option.bind_none,
      Option.bind_some, Option.none_or, Option.or_assoc, Option.map_none]
    rw [checkOneBank_eq (.erasePage b a) b (by simp)]
    have : checkPage s b a = Option.map FaultInfo.addressRange
        (List.findIdx? (outsideBank (.erasePage b a) (bankSize s.cfg (arrayBank b))) [a]) := by
      simp only [checkPage, List.findIdx?_cons, List.findIdx?_nil, outsideBank, decide_eq_true_eq]
      split_ifs <;> first | rfl | omega
    rw [this]
    rfl
  case eraseAllPages b =>
    refine ⟨_, _, rfl, ⟨rfl, rfl, rfl, rfl, by simp [elementCount], by simp, by simp, by simp⟩, ?_⟩
    simp only [firstViolation_append, firstViolation_cons, firstViolation, Option.or_none, expectedFault, requestFault,
      elementCount, requestOf, bankOperand, valueBound, addressesOf, alignMask, Option.bind_none, List.findIdx?_nil,
      Option.bind_some, Option.none_or, Option.or_assoc, Option.map_none]
    rw [checkEraseBank_eq]
    rfl
  case setLatency v =>
    refine ⟨_, _, rfl, ⟨rfl, rfl, rfl, rfl, by simp [elementCount], by simp, by simp, by simp +contextual⟩, ?_⟩
    simp only [firstViolation_append, firstViolation_cons, firstViolation, Option.or_none, expectedFault, requestFault,
      elementCount, requestOf, bankOperand, valueBound, addressesOf, alignMask, Option.bind_none, List.findIdx?_nil,
      Option.bind_some, Option.none_or, Option.or_assoc, Option.map_none]
    rw [checkBelow_eq]
    rfl
  case getLatency =>
    exact ⟨_, _, rfl, ⟨rfl, rfl, rfl, rfl, by simp [elementCount], by simp, by simp, by simp⟩, by
      simp only [List.nil_append, firstViolation_cons, firstViolation, Option.or_none]; rfl⟩
  case updateCache =>
    exact ⟨_, _, rfl, ⟨rfl, rfl, rfl, rfl, by simp [elementCount], by simp, by simp, by simp⟩, by
      simp only [List.nil_append, firstViolation_cons, firstViolation, Option.or_none]; rfl⟩
  case setCacheMode v =>
    refine ⟨_, _, rfl, ⟨rfl, rfl, rfl, rfl, by simp [elementCount], by simp, by simp, by simp +contextual⟩, ?_⟩
    simp only [firstViolation_append, firstViolation_cons, firstViolation, Option.or_none, expectedFault, requestFault,
      elementCount, requestOf, bankOperand, valueBound, addressesOf, alignMask, Option.bind_none, List.findIdx?_nil,
      Option.bind_some, Option.none_or, Option.or_assoc, Option.map_none]
    rw [checkBelow_eq, checkSupported_eq]
    cases s.cfg.hasCacheCtrl <;> rfl
  case getCacheMode =>
    refine ⟨_, _, rfl, ⟨rfl, rfl, rfl, rfl, by simp [elementCount], by simp, by simp, by simp⟩, ?_⟩
    simp only [firstViolation_append, firstViolation_cons, firstViolation, Option.or_none, expectedFault, requestFault,
      elementCount, requestOf, bankOperand, valueBound, addressesOf, alignMask, Option.bind_none, List.findIdx?_nil,
      Option.bind_some, Option.none_or, Option.or_assoc, Option.map_none]
    rw [checkSupported_eq]
    cases s.cfg.hasCacheCtrl <;> rfl
  all_goals exact absurd h (by simp [requestOf])

/-- A request that violates a precondition, with `CHECK_PARAMS`: the fault entry of 60 R262. -/
theorem request_faults {i : Instr} {q : Request} {checks : List (Option FaultInfo)} {s : State} {f : FaultInfo}
    (hb : s.busy = false) (hp : s.cfg.checkParams = true)
    (hv : firstViolation (checks ++ [checkClock s]) = some f) :
    ∃ l n, request i q checks s = .next { s with
      key := 0#32, faulted := true, faultInfo := some f, busy := false, upc := .idle, resp := some ⟨faultCode f, []⟩
      counts := countsOf s.cfg s.coreClkHz s.counts.dcnt, lat := l, draws := n } :=
  ⟨_, _, by simp only [request, hb, hv, hp, Bool.false_eq_true, if_false, if_true]; rfl⟩

/-- The fault of a request is its first cause. -/
theorem faults_of {i : Instr} {s : State} {f : FaultInfo} (hb : s.busy = false) (hp : s.cfg.checkParams = true)
    (hi : (requestOf i).isSome = true) (hf : expectedFault s i = some f) : Faults i s f := by
  obtain ⟨q, cs, he, _, hv⟩ := exec_request s hi
  rw [hf] at hv
  simp only [Faults, he]
  exact request_faults hb hp hv

end Sys2Proof.Machine
end

