-- ==== Sys2Proof/Laws/Command.lean ====
section
/-!
SUPPORT. A host's `Cmd` write: what it answers by the array's reaction (41 R142, R152, R166), and how an array changed in
one bank reads.
-/

namespace Sys2Proof.Machine

/-- An unlocked `Cmd` write while no operation runs answers as the array reacts, a change of Delay-Cycles noted. -/
theorem exec_wrCmd {s : State} {v : Word} {new : CmdWord} (hb : s.busy = false) (hk : s.key ≠ 0#32)
    (hw : unpackCmd s.cfg.layout v = new) :
    exec (.wrCmd v) s =
      match react s.cmd new { s with cmd := new, delayLost := delayNoted new s } with
      | .ok t => .next { t with tCmd := 0 }
      | .violation k => .next (violate k s.cmd new (violatedClocks s.cmd new { s with cmd := new, delayLost := delayNoted new s }))
      | .outside b a => .refused (.arrayRange b a) := by
  subst hw
  have hl : locked (noteDelay (unpackCmd s.cfg.layout v) s) = false := by simpa [locked] using hk
  rw [show exec (.wrCmd v) s = hostWrite (.wrCmd v)
      (fun s => wrCmd (unpackCmd s.cfg.layout v) (noteDelay (unpackCmd s.cfg.layout v) s)) s from rfl, hostWrite,
    if_neg (by simp [hb]), wrCmd, if_neg (by simp [hl])]
  simp only [noteDelay]
  cases react s.cmd (unpackCmd s.cfg.layout v)
    { s with cmd := unpackCmd s.cfg.layout v, delayLost := delayNoted (unpackCmd s.cfg.layout v) s } <;> rfl

/-- A `Cmd` write the array answers with a violation. -/
theorem cmdViolates_of {s : State} {v : Word} {new : CmdWord} {k : ProtocolKind} (hb : s.busy = false)
    (hk : s.key ≠ 0#32) (hw : unpackCmd s.cfg.layout v = new)
    (hr : react s.cmd new { s with cmd := new, delayLost := delayNoted new s } = .violation k) : CmdViolates s v k new := by
  refine ⟨_, by rw [exec_wrCmd hb hk hw, hr], ?_⟩
  have h := violated_violate k s.cmd new (noteDelay new s)
    (violatedClocks s.cmd new { s with cmd := new, delayLost := delayNoted new s }) (by rw [violatedClocks_frame]; rfl)
  refine ⟨h.1, h.2.1.trans ?_, h.2.2.1.trans ?_, h.2.2.2.trans ?_⟩ <;> rw [violatedClocks_frame]

/-- Between two different modes, the second a legal one, the reaction is the transition table's. -/
theorem react_commands {s : State} {v : Word} {mo mn : Mode} {new : CmdWord} (h : Commands s v mo mn new)
    (hne : mo ≠ mn) (hi : mn ≠ .illegal) (t : State) : react s.cmd new t = transition mo mn new t := by
  have h2 : ((s.cmd.xe || new.xe) && s.cmd.ifren != new.ifren) = false := by
    cases hx : (s.cmd.xe || new.xe)
    · rfl
    · simpa using h.bank hx
  simp [react, h.source, h.target, hi, h2, hne]

/-- A new list for one bank, read through its cells and bytes. -/
theorem becomes_setArray {s t : State} {b : Bank} {m : List Host.Cell} {p : Bank → Nat → Prop}
    [∀ b w, Decidable (p b w)] {f : Bank → Nat → Cell} (ht : ∀ b', array t b' = if b' = b then m else array s b')
    (hp : ∀ b' w, p b' w → b' = b) (hc : ∀ w, cellAt m w = if p b w then f b w else cellAt (array s b) w)
    (hb : ∀ a, ¬ p b (a / 4) → byteAt m a = byteAt (array s b) a) : ArrayBecomes p f s t := by
  refine ⟨fun b' w => ?_, fun b' a h => ?_⟩
  · simp only [cell, ht]
    by_cases h : b' = b
    · subst h; rw [if_pos rfl, hc]
    · rw [if_neg h, if_neg (fun hh => h (hp _ _ hh))]
  · rw [ht]
    by_cases h1 : b' = b
    · subst h1; rw [if_pos rfl, hb _ h]
    · rw [if_neg h1]

end Sys2Proof.Machine
end

