-- ==== Sys2Proof/Laws/Completed.lean ====
section
/-!
SUPPORT. From whole runs to completed operations: addresses, carved and merged values, and the state in which a read
or a program leaves the machine.
-/

namespace Sys2Proof.Machine

theorem wa_of_aligned {a : Word} (h : a &&& 3#32 = 0#32) : wordAddr a = a := by
  apply BitVec.eq_of_getLsbD_eq
  intro i hi
  have hb := congrArg (·.getLsbD i) h
  simp only [BitVec.getLsbD_and, BitVec.getLsbD_zero] at hb
  simp only [wordAddr, BitVec.getLsbD_and, BitVec.getLsbD_not]
  interval_cases i <;> simp_all

theorem wa_le (a : Word) : (wordAddr a).toNat ≤ a.toNat := by rw [wordAddr_toNat]; omega

theorem shadow_started (q : Request) (s : State) (b : Bank) (h : q.bank = selOf b) : shadowAt (started q s) = shadowFor s b := by
  simp only [shadowAt, started, accept, h, selOf_beq_info, shadowFor]

theorem arrayBank_started (q : Request) (s : State) (b : Bank) (h : q.bank = selOf b) : arrayBank (started q s).lat.bank = b := by
  simp only [started, accept, h, arrayBank_selOf]

theorem readValue_started (q : Request) (s : State) (b : Bank) (a : Word) (n : Nat) : readValue (started q s) b a n = readValue s b a n := rfl
theorem settling_started (q : Request) (s : State) : settling (started q s) = settling s := rfl

theorem finish_readDone (q : Request) {s : State} (hr : Ready s) (b : Bank) (h : q.bank = selOf b) (u : Upc) (l : Latches) (rs : List Word)
   (hrs : results (setLat (readDone (started q s) u) l) = rs) :
   ∃ m l', finish (setLat (readDone (started q s) u) l) = { completed s rs s.counts.dcnt l' m with
        key := 0#32, cmd := shadowFor s b, adr := wordAddr q.addr, doStale := 0, tCmd := 0, rcvDue := false
        settleDue := settling s } := by
  refine ⟨(finish (setLat (readDone (started q s) u) l)).draws, (finish (setLat (readDone (started q s) u) l)).lat, ?_⟩
  have hi := hr.quiet.atIdle
  have hb := hr.quiet.notBusy
  unfold finish
  rw [hrs]
  simp only [respond, setLat, readDone, completed, hi, hb, shadow_started q s b h]
  rfl

theorem and3_toNat (a : Word) : (a &&& 3#32).toNat = a.toNat % 4 := by
  rw [BitVec.toNat_and]; exact Nat.and_two_pow_sub_one_eq_mod _ 2

theorem and2_of_even {a : Word} (h : a &&& 1#32 = 0#32) : a &&& 2#32 = a &&& 3#32 := by
  apply BitVec.eq_of_getLsbD_eq
  intro i hi
  have hb := congrArg (·.getLsbD i) h
  simp only [BitVec.getLsbD_and, BitVec.getLsbD_zero] at hb ⊢
  interval_cases i <;> simp_all

theorem byteShift_eq (a : Word) : byteShift a = 8 * (a.toNat % 4) := by rw [byteShift, and3_toNat]
theorem halfShift_eq {a : Word} (h : a &&& 1#32 = 0#32) : halfShift a = 8 * (a.toNat % 4) := by
  rw [halfShift, and2_of_even h, and3_toNat]

theorem trunc_eq (w : Word) : (w.setWidth 16).setWidth 32 = w &&& 0xFFFF#32 := by
  apply BitVec.eq_of_toNat_eq
  simp only [BitVec.toNat_setWidth, BitVec.toNat_and]
  rw [show (0xFFFF#32 : Word).toNat = 2^16-1 from rfl, Nat.and_two_pow_sub_one_eq_mod]
  omega
theorem trunc8_eq (w : Word) : (w.setWidth 8).setWidth 32 = w &&& 0xFF#32 := by
  apply BitVec.eq_of_toNat_eq
  simp only [BitVec.toNat_setWidth, BitVec.toNat_and]
  rw [show (0xFF#32 : Word).toNat = 2^8-1 from rfl, Nat.and_two_pow_sub_one_eq_mod]
  omega

theorem even_bank (c : Config) (h : configOk c = true) (b : Bank) : bankSize c b % 4096 = 0 := by
  simp only [configOk, Bool.and_eq_true, decide_eq_true_eq] at h
  have := h.2.2.2.2.1
  cases b
  · exact this
  · norm_num [bankSize, pageSize]

theorem finish_programDone (s0 : State) (b : Bank) (hb : arrayBank s0.lat.bank = b) (u : Upc) (rs : List Word)
    (hrs : results (programDone s0 u) = rs) :
   finish (programDone s0 u) = { s0 with
        resp := some ⟨0#32, rs⟩, busy := false, upc := .idle, lat := Config.freeLatches s0.draws, draws := s0.draws + 1
        key := 0#32, cmd := shadowAt s0, adr := s0.lat.addr, di := s0.lat.data, doStale := 3, tCmd := s0.cfg.timing.rcv
        tHv := s0.cfg.timing.pgs + s0.cfg.timing.prog + s0.cfg.timing.nvh + s0.cfg.timing.rcv
        tSettle := s0.tSettle + programUs s0.cfg, tRcv := s0.cfg.timing.rcv, rcvDue := true, xlatch := none, pend := none
        counts := { s0.counts with dcnt := Config.idleCount s0.draws }
        main := (setArray s0 b (pulsedList s0 b s0.lat.addr s0.lat.data)).main
        info := (setArray s0 b (pulsedList s0 b s0.lat.addr s0.lat.data)).info } := by
  subst hb
  unfold finish
  rw [hrs]
  simp only [respond, programDone]
  generalize arrayBank s0.lat.bank = b
  cases b <;> rfl

theorem becomes_pulsed (s0 s t : State) (b : Bank) (a d : Word) (hc : s0.cfg = s.cfg) (h0 : ∀ b, array s0 b = array s b)
   (ht : ∀ b', array t b' = array (setArray s0 b (pulsedList s0 b a d)) b') :
   ArrayBecomes (fun b' w => b' = b ∧ w = wordIndex a) (fun _ w => committed s.cfg b w (.program d) (cell s b w)) s t := by
  have hcell : ∀ w, cell s0 b w = cell s b w := fun w => by simp only [cell, h0]
  refine becomes_setArray (b := b) (m := pulsedList s0 b a d) ?_ (fun _ _ h => h.1) ?_ ?_
  · intro b'; rw [ht, array_setArray]; simp only [h0]
  · intro w; rw [cellAt_pulsedList, hc, h0]; simp only [true_and, hcell]
    by_cases h : w = wordIndex a
    · subst h; simp
    · simp [h]
  · intro x hx; rw [byteAt_pulsedList _ _ _ _ _ (by simpa using hx), h0]

end Sys2Proof.Machine
end

