-- ==== Sys2Proof/Laws/Encoding.lean ====
section
/-!
SUPPORT. Laws of the encodings: the bits of a CommandWord (30 R101), the fields of a header (30 R103) and the operand
words of `program_array`.
-/

namespace Sys2Proof

/-! ### CommandWord -/

theorem getLsbD_flag (p n : Nat) (b : Bool) :
    (if b then 1#32 <<< p else 0#32 : Word).getLsbD n = (b && decide (n = p) && decide (n < 32)) := by
  cases b
  · simp
  · simp only [if_true, BitVec.getLsbD_shiftLeft, BitVec.getLsbD_one, Bool.true_and]
    by_cases h : n = p
    · subst h; simp
    · by_cases h1 : n < p
      · simp [h, h1]
      · simp [h, h1]; omega

theorem getLsbD_delayMask (k n : Nat) (hk : k ≤ 8) :
    (BitVec.ofNat 32 (2 ^ k - 1)).getLsbD n = decide (n < k) := by
  rw [BitVec.getLsbD_ofNat, Nat.testBit_two_pow_sub_one]
  by_cases h : n < k
  · simp [h]; omega
  · simp [h]

/-- The bits of the word software sees (30 R101). -/
theorem getLsbD_packCmd (l : CmdLayout) (w : CmdWord) (n : Nat) (hd : l.delayW ≤ 8) :
    (packCmd l w).getLsbD n = (decide (n < 32) &&
      ((w.con && decide (n = l.con)) ||
        (decide (l.delay ≤ n) && decide (n < l.delay + l.delayW) && w.delay.getLsbD (n - l.delay)) ||
        (w.xe && decide (n = l.xe)) || (w.ye && decide (n = l.ye)) || (w.se && decide (n = l.se)) ||
        (w.ifren && decide (n = l.ifren)) || (w.erase && decide (n = l.erase)) || (w.mas1 && decide (n = l.mas1)) ||
        (w.prog && decide (n = l.prog)) || (w.nvstr && decide (n = l.nvstr)))) := by
  simp only [packCmd, BitVec.getLsbD_or, getLsbD_flag, BitVec.getLsbD_shiftLeft, BitVec.getLsbD_and,
    BitVec.getLsbD_setWidth, getLsbD_delayMask _ _ hd]
  by_cases hn : n < 32
  · have h1 : n - l.delay < 32 := by omega
    simp only [hn, h1, decide_true, Bool.true_and, Bool.and_true]
    by_cases hle : n < l.delay
    · have : ¬ l.delay ≤ n := by omega
      simp [hle, this]
    · have h3 : l.delay ≤ n := by omega
      have h4 : decide (n - l.delay < l.delayW) = decide (n < l.delay + l.delayW) := by
        rw [decide_eq_decide]; omega
      simp only [hle, h3, h4, decide_true, decide_false, Bool.not_false, Bool.true_and]
      rw [Bool.and_comm (w.delay.getLsbD _)]
  · simp [hn]

/-! ### Headers -/

theorem headerOpcode_scalar (op : Opcode) (b : BankSel) (h : op ≠ .readArray ∧ op ≠ .programArray)
    (hb : b = .main ∨ op ∉ [.setLatency, .getLatency, .updateCache, .setCacheMode, .getCacheMode]) :
    headerOpcode (header op b 0) = some op := by
  cases op <;> cases b <;>
    first
    | rfl
    | exact absurd rfl h.1
    | exact absurd rfl h.2
    | exact absurd hb (by decide)

theorem header_getLsbD (op : Opcode) (b : BankSel) (n i : Nat) (hi : i < 32) :
    (header op b n).getLsbD i =
      (if i < 5 then op.code.getLsbD i
       else if i < 7 then b.code.getLsbD (i - 5)
       else if i < 8 then false
       else if i < 24 then (BitVec.ofNat 16 n).getLsbD (i - 8)
       else false) := by
  simp only [header, BitVec.getLsbD_append, BitVec.getLsbD_zero]
  by_cases h1 : i < 5
  · simp [h1, show i < 24 by omega, show i < 8 by omega, show i < 7 by omega]
  · by_cases h2 : i < 7
    · simp [h1, h2, show i < 24 by omega, show i < 8 by omega, show i - 5 < 2 by omega]
    · by_cases h3 : i < 8
      · simp [h1, h2, h3, show i < 24 by omega]
      · by_cases h4 : i < 24
        · simp [h1, h2, h3, h4, show i - 8 < 16 by omega]
        · simp [h1, h2, h3, h4]

theorem headerBank_header (op : Opcode) (b : BankSel) (n : Nat) : headerBank (header op b n) = b := by
  simp only [headerBank, header_getLsbD op b n 6 (by omega), header_getLsbD op b n 5 (by omega)]
  cases b <;> rfl

theorem headerLen_header (op : Opcode) (b : BankSel) (n : Nat) (hn : n < 65536) :
    headerLen (header op b n) = n := by
  have : (header op b n).extractLsb' 8 16 = BitVec.ofNat 16 n := by
    apply BitVec.eq_of_getLsbD_eq
    intro i hi
    rw [BitVec.getLsbD_extractLsb', header_getLsbD op b n (8 + i) (by omega)]
    simp only [hi, decide_true, Bool.true_and, show ¬ 8 + i < 5 by omega, show ¬ 8 + i < 7 by omega,
      show ¬ 8 + i < 8 by omega, show 8 + i < 24 by omega, if_false, if_true, show 8 + i - 8 = i by omega]
  rw [headerLen, this, BitVec.toNat_ofNat, Nat.mod_eq_of_lt (by omega)]

/-- A header without its `LEN` field. -/
theorem header_and_lenMask (op : Opcode) (b : BankSel) (n : Nat) :
    header op b n &&& 0xFF00009F#32 = header op b 0 &&& 0xFF00009F#32 := by
  apply BitVec.eq_of_getLsbD_eq
  intro i hi
  simp only [BitVec.getLsbD_and, header_getLsbD _ _ _ i hi]
  interval_cases i <;> simp

theorem headerOpcode_array (op : Opcode) (b : BankSel) (n : Nat) (h : op = .readArray ∨ op = .programArray) :
    headerOpcode (header op b n) = some op := by
  have hm := header_and_lenMask op b n
  have hlow : ∀ m p : Word, m &&& 0x1F#32 = 0x1F#32 → p &&& 0x1F#32 ≠ (header op b 0) &&& 0x1F#32 →
      (header op b n &&& m == p) = false := by
    intro m p hmm hp
    rw [beq_eq_false_iff_ne]
    intro he
    apply hp
    rw [← he]
    have e1 : header op b n &&& m &&& 0x1F#32 = header op b n &&& 0x1F#32 := by rw [BitVec.and_assoc, hmm]
    rw [e1]
    have := congrArg (· &&& 0x1F#32) hm
    simp only [BitVec.and_assoc] at this
    exact this
  rcases h with rfl | rfl
  · have hp : (header .readArray b n &&& 0xFF00009F#32 == 0x04#32) = true := by
      rw [hm]; cases b <;> rfl
    simp only [headerOpcode, headerRows, List.find?_cons, hp]
    rw [hlow _ 1#32 (by decide) (by cases b <;> decide), hlow _ 2#32 (by decide) (by cases b <;> decide),
      hlow _ 3#32 (by decide) (by cases b <;> decide)]
    rfl
  · have hp : (header .programArray b n &&& 0xFF00009F#32 == 0x08#32) = true := by
      rw [hm]; cases b <;> rfl
    simp only [headerOpcode, headerRows, List.find?_cons, hp]
    rw [hlow _ 1#32 (by decide) (by cases b <;> decide), hlow _ 2#32 (by decide) (by cases b <;> decide),
      hlow _ 3#32 (by decide) (by cases b <;> decide), hlow _ 4#32 (by decide) (by cases b <;> decide),
      hlow _ 5#32 (by decide) (by cases b <;> decide), hlow _ 6#32 (by decide) (by cases b <;> decide),
      hlow _ 7#32 (by decide) (by cases b <;> decide)]
    rfl

/-- A header with no reserved bit set is made of its fields. -/
theorem header_of_fields {h : Word} {op : Opcode} (h0 : h.extractLsb' 0 5 = op.code) (h7 : h.getLsbD 7 = false)
    (h24 : h.extractLsb' 24 8 = 0#8) : h = header op (headerBank h) (headerLen h) := by
  apply BitVec.eq_of_getLsbD_eq
  intro i hi
  rw [header_getLsbD _ _ _ i hi]
  have e0 := fun j => congrArg (·.getLsbD j) h0
  have e24 := fun j => congrArg (·.getLsbD j) h24
  simp only [BitVec.getLsbD_extractLsb', BitVec.getLsbD_zero] at e0 e24
  split_ifs with c1 c2 c3 c4
  · have := e0 i; simp only [c1, decide_true, Bool.true_and, Nat.zero_add] at this; exact this
  · have hb : (headerBank h).code = h.extractLsb' 5 2 := by
      apply BitVec.eq_of_getLsbD_eq
      intro j hj
      simp only [headerBank, BitVec.getLsbD_extractLsb', hj, decide_true, Bool.true_and]
      interval_cases j <;> cases h6 : h.getLsbD 6 <;> cases h5 : h.getLsbD 5 <;> simp_all [BankSel.code]
    rw [hb, BitVec.getLsbD_extractLsb']
    simp only [show i - 5 < 2 by omega, decide_true, Bool.true_and, show 5 + (i - 5) = i by omega]
  · rw [show i = 7 by omega]; exact h7
  · rw [headerLen, BitVec.getLsbD_ofNat, BitVec.testBit_toNat, BitVec.getLsbD_extractLsb']
    simp only [show i - 8 < 16 by omega, decide_true, Bool.true_and, show 8 + (i - 8) = i by omega]
  · have := e24 (i - 24)
    simpa only [show i - 24 < 8 by omega, decide_true, Bool.true_and, show 24 + (i - 24) = i by omega] using this

/-- What the mask of an array operation tests. -/
theorem match_array {h p : Word} (hm : h &&& 0xFF00009F#32 = p) :
    h.extractLsb' 0 5 = p.extractLsb' 0 5 ∧ h.getLsbD 7 = p.getLsbD 7 ∧ h.extractLsb' 24 8 = p.extractLsb' 24 8 := by
  subst hm
  refine ⟨?_, by simp, ?_⟩ <;>
  · apply BitVec.eq_of_getLsbD_eq
    intro i hi
    simp only [BitVec.getLsbD_extractLsb', BitVec.getLsbD_and]
    interval_cases i <;> simp

/-- What the mask of an operation with a bank operand tests. -/
theorem match_scalar {h p : Word} (hm : h &&& 0xFFFFFF9F#32 = p) :
    h.extractLsb' 0 5 = p.extractLsb' 0 5 ∧ h.getLsbD 7 = p.getLsbD 7 ∧ h.extractLsb' 24 8 = p.extractLsb' 24 8 ∧
      h.extractLsb' 8 16 = p.extractLsb' 8 16 := by
  subst hm
  refine ⟨?_, by simp, ?_, ?_⟩ <;>
  · apply BitVec.eq_of_getLsbD_eq
    intro i hi
    simp only [BitVec.getLsbD_extractLsb', BitVec.getLsbD_and]
    interval_cases i <;> simp

/-! ### Interleaved operand words -/

theorem pairUp_unpair (ps : List (Word × Word)) : pairUp (unpair ps) = some ps := by
  induction ps with
  | nil => rfl
  | cons p ps ih => obtain ⟨a, v⟩ := p; simp [unpair, pairUp, ih]

theorem unpair_of_pairUp : ∀ (ws : List Word) (ps : List (Word × Word)), pairUp ws = some ps → unpair ps = ws
  | [], ps, h => by cases h; rfl
  | [_], ps, h => by cases h
  | a :: v :: ws, ps, h => by
    simp only [pairUp, Option.map_eq_some_iff] at h
    obtain ⟨qs, hq, rfl⟩ := h
    simp [unpair, unpair_of_pairUp ws qs hq]

/-! ### Register addresses -/

/-- An access at a base plus an offset has that offset. -/
@[simp] theorem add_sub_base (a b : Word) : a + b - a = b := by rw [BitVec.add_comm, BitVec.add_sub_cancel]

/-- What a lookup answers: a register of the variant at that offset. -/
theorem registerOf_eq_some {c : Config} {off : Word} {r : RegName} (h : registerOf c off = some r) :
    off = c.regs.offset r ∧ (r = .cache → c.hasCacheCtrl = true) := by
  unfold registerOf at h
  split_ifs at h <;> cases h <;> simp_all [RegMap.offset]

/-- At the offset of a register of the variant there is a register. -/
theorem registerOf_offset {c : Config} {r : RegName} (h : r = .cache → c.hasCacheCtrl = true) :
    (registerOf c (c.regs.offset r)).isSome = true := by
  unfold registerOf
  cases r <;> simp only [RegMap.offset] <;> split_ifs <;> simp_all

/-- It is that register where no two share an address. -/
theorem registerOf_offset_eq {c : Config} {r : RegName} (h : r = .cache → c.hasCacheCtrl = true)
    (hd : Machine.regsDistinct c = true) : registerOf c (c.regs.offset r) = some r := by
  have hn := of_decide_eq_true hd
  unfold registerOf
  cases r <;> cases hc : c.hasCacheCtrl <;> simp [hc, RegMap.offset] at hn h ⊢ <;> grind

end Sys2Proof
end

