-- ==== Sys2Proof/Laws/Invariant.lean ====
section
/-!
SUPPORT. What every register transaction and every line of a micro-program keeps of the invariant, violations
included.
-/

namespace Sys2Proof.Machine

/-- The array lists and the cell operation in flight are in order. -/
def Sound (s : State) : Prop := arraysWf s = true ∧ pendOk s.cfg s.pend = true

/-- What an operation of the register engine keeps. -/
structure Keeps (s t : State) : Prop where
  cfg : t.cfg = s.cfg
  sched : t.sched = s.sched
  coreClkHz : t.coreClkHz = s.coreClkHz
  busy : t.busy = s.busy
  upc : t.upc = s.upc
  cacheMode : t.cacheMode = s.cacheMode
  sound : configOk s.cfg = true → Sound s → Sound t
  cache : tableSorted s.cache = true → tableSorted t.cache = true
  faulted : s.faulted = true → t.faulted = true

theorem Keeps.refl (s : State) : Keeps s s := ⟨rfl, rfl, rfl, rfl, rfl, rfl, fun _ => id, id, id⟩

theorem Keeps.trans {s t u : State} (h : Keeps s t) (k : Keeps t u) : Keeps s u :=
  ⟨k.cfg.trans h.cfg, k.sched.trans h.sched, k.coreClkHz.trans h.coreClkHz, k.busy.trans h.busy, k.upc.trans h.upc,
    k.cacheMode.trans h.cacheMode, fun hc hs => k.sound (by rw [h.cfg]; exact hc) (h.sound hc hs), fun hs => k.cache (h.cache hs),
    fun hf => k.faulted (h.faulted hf)⟩

/-- An update of other fields. -/
theorem keeps_of_same {s t : State} (h1 : t.cfg = s.cfg) (h2 : t.sched = s.sched) (h3 : t.coreClkHz = s.coreClkHz)
    (h4 : t.busy = s.busy) (h5 : t.upc = s.upc) (hm : t.main = s.main) (hi : t.info = s.info) (hp : t.pend = s.pend)
    (hc : t.cache = s.cache) (hd : t.cacheMode = s.cacheMode) (hf : s.faulted = true → t.faulted = true) :
    Keeps s t :=
  ⟨h1, h2, h3, h4, h5, hd, fun _ h => by simpa only [Sound, arraysWf, h1, hm, hi, hp] using h, by rw [hc]; exact id, hf⟩

theorem bankSize_mod (c : Config) (h : configOk c = true) (b : Bank) : bankSize c b % 4096 = 0 := even_bank c h b

/-- The lists of a sound state. -/
theorem Sound.bank {s : State} (h : Sound s) (b : Bank) : memWf (bankSize s.cfg b) (array s b) = true := by
  have := h.1
  simp only [arraysWf, Bool.and_eq_true] at this
  cases b
  · exact this.1
  · exact this.2

theorem Sound.withPend {s : State} (h : Sound s) (p : Option Pend) (hp : pendOk s.cfg p = true) :
    Sound { s with pend := p } := ⟨h.1, hp⟩

/-- Replacing a list by one in canonical form. -/
theorem Sound.setArray {s : State} (h : Sound s) (b : Bank) (m : List Host.Cell)
    (hm : memWf (bankSize s.cfg b) m = true) : Sound (setArray s b m) := by
  cases b
  · exact ⟨Bool.and_eq_true_iff.mpr ⟨hm, h.bank .info⟩, h.2⟩
  · exact ⟨Bool.and_eq_true_iff.mpr ⟨h.bank .main, hm⟩, h.2⟩

theorem Sound.forgetRow {s : State} (h : Sound s) (b : Bank) (r : Word) : Sound (forgetRow s b r) :=
  h.setArray b _ (forgetWords_wf _ (h.bank b))

theorem Sound.forgetSector {s : State} (h : Sound s) (k : BitVec 2) (both : Bool) : Sound (forgetSector s k both) := by
  have h1 := forgetWords_wf (inSector k) (h.bank .main)
  have h2 := forgetWords_wf (inSector k) (h.bank .info)
  cases both
  · exact ⟨Bool.and_eq_true_iff.mpr ⟨h1, h.bank .info⟩, h.2⟩
  · exact ⟨Bool.and_eq_true_iff.mpr ⟨h1, h2⟩, h.2⟩

/-- The words of a sector lie inside the bank. -/
theorem sectorWords_lt {c : Config} (hc : configOk c = true) (b : Bank) (k : BitVec 2) :
    ∀ w ∈ sectorWords k (bankSize c b), 4 * w + 3 < bankSize c b := by
  have hs := bankSize_mod c hc b
  intro w hw
  obtain ⟨i, hi, rfl⟩ := List.mem_map.mp hw
  have := List.mem_range.mp hi
  have := k.isLt
  omega

/-- The words of a row lie inside the bank if its page does. -/
theorem rowWords_lt {c : Config} (hc : configOk c = true) (b : Bank) (r : Word) (h1 : rowOf r = r)
    (h2 : (pageOf r).toNat < bankSize c b) : ∀ w ∈ rowWords r, 4 * w + 3 < bankSize c b := by
  have hs := bankSize_mod c hc b
  intro w hw
  rw [← h1, mem_rowWords_iff_inRow, inRow_iff] at hw
  rw [pageOf_toNat] at h2
  omega

theorem Sound.cellProgram {s : State} (hc : configOk s.cfg = true) (h : Sound s) {b : Bank} {w : Nat} {pre : Cell}
    {d : Word} (hp : s.pend = some (.progWord b w pre d)) : Sound (cellProgram s b w pre d) := by
  refine h.setArray b _ (setCell_wf _ (h.bank b) ?_)
  have h1 := h.2
  rw [hp] at h1
  have h2 : 4 * w < bankSize s.cfg b := by simpa [pendOk] using h1
  have := bankSize_mod s.cfg hc b
  omega

theorem Sound.rowErase {s : State} (hc : configOk s.cfg = true) (h : Sound s) {b : Bank} {r : Word}
    (hp : s.pend = some (.eraseRow b r)) : Sound (rowErase s b r) := by
  have h1 := h.2
  rw [hp] at h1
  simp only [pendOk, Bool.and_eq_true, beq_iff_eq, decide_eq_true_eq] at h1
  exact h.setArray b _ (eraseWords_wf _ _ _ (h.bank b) (rowWords_lt hc b r h1.1 h1.2))

theorem Sound.sectorErase {s : State} (hc : configOk s.cfg = true) (h : Sound s) (k : BitVec 2) (both : Bool) :
    Sound (sectorMassErase s k both) := by
  have h1 := eraseWords_wf s.cfg .main _ (h.bank .main) (sectorWords_lt hc .main k)
  have h2 := eraseWords_wf s.cfg .info _ (h.bank .info) (sectorWords_lt hc .info k)
  cases both
  · exact ⟨Bool.and_eq_true_iff.mpr ⟨h1, h.bank .info⟩, h.2⟩
  · exact ⟨Bool.and_eq_true_iff.mpr ⟨h1, h2⟩, h.2⟩

theorem Sound.abandon {s : State} (h : Sound s) (nvstr : Bool) : Sound (abandon nvstr s) := by
  have h1 : Sound (forgetPend s) := by
    unfold forgetPend
    split
    · exact h
    · exact h.setArray _ _ (forgetWords_wf _ (h.bank _))
    · exact h.forgetRow _ _
    · exact h.forgetSector _ _
  rw [abandon_eq]
  unfold forgetLatched
  split
  · split
    · exact h1.forgetSector _ _
    · exact h1.forgetRow _ _
    · exact h1.forgetRow _ _
  · exact h1

/-- A protocol violation keeps them. -/
theorem keeps_violate (k : ProtocolKind) (old new : CmdWord) (s : State) : Keeps s (violate k old new s) := by
  have hk := kept_violate k old new s
  refine ⟨hk.cfg, hk.sched, hk.coreClkHz, hk.busy, hk.upc, by rw [violate, abandon_frame], fun _ h => ?_, fun h => ?_,
    fun _ => rfl⟩
  · exact ⟨(h.abandon (old.nvstr || new.nvstr)).1, rfl⟩
  · have : (violate k old new s).cache = s.cache := by
      rw [violate, abandon_frame]
    rw [this]; exact h

/-- An update of fields the invariant does not speak of. -/
theorem Keeps.aside {s t u : State} (h : Keeps s t) (h1 : u.cfg = t.cfg := by rfl) (h2 : u.sched = t.sched := by rfl)
    (h3 : u.coreClkHz = t.coreClkHz := by rfl) (h4 : u.busy = t.busy := by rfl) (h5 : u.upc = t.upc := by rfl)
    (hm : u.main = t.main := by rfl) (hi : u.info = t.info := by rfl) (hp : u.pend = t.pend := by rfl)
    (hc : u.cache = t.cache := by rfl) (hd : u.cacheMode = t.cacheMode := by rfl)
    (hf : u.faulted = t.faulted := by rfl) : Keeps s u :=
  h.trans (keeps_of_same h1 h2 h3 h4 h5 hm hi hp hc hd (by rw [hf]; exact id))

/-! ### The transition table -/

theorem keeps_rcvCheck {s t : State} {f : State → Reaction} (h : rcvCheck s f = .ok t)
    (hf : ∀ u v, f u = .ok v → Keeps u v) : Keeps s t := by
  unfold rcvCheck at h
  split_ifs at h
  exact (Keeps.aside (.refl s)).trans (hf _ _ h)

theorem keeps_latchSetup {k : HvKind} {new : CmdWord} {s t : State} (h : latchSetup k new s = .ok t) : Keeps s t := by
  cases h; exact .aside (.refl s)

theorem keeps_of_array {s t : State} (hk : Kept s t) (hc : t.cache = s.cache ∧ t.cacheMode = s.cacheMode ∧ t.faulted = s.faulted)
    (h : configOk s.cfg = true → Sound s → Sound t) : Keeps s t :=
  ⟨hk.cfg, hk.sched, hk.coreClkHz, hk.busy, hk.upc, hc.2.1, h, by rw [hc.1]; exact id, by rw [hc.2.2]; exact id⟩

theorem keeps_pulseStart {s t : State} (h : pulseStart s = .ok t) : Keeps s t := by
  obtain ⟨x, _, _, hr, rfl⟩ := pulseStart_eq_ok h
  refine keeps_of_array (kept_pulseStart h) ?_ fun hc hs => ?_
  · cases x.bank <;> exact ⟨rfl, rfl, rfl⟩
  · refine (hs.setArray x.bank _ (forgetWords_wf _ (hs.bank _))).withPend _ ?_
    rw [(kept_setArray ..).cfg]
    show decide (4 * wordIndex (adrWord s) < bankSize s.cfg x.bank) = true
    rw [decide_eq_true_eq, wordIndex]
    omega

theorem keeps_pulseEnd {s t : State} (h : pulseEnd s = .ok t) : Keeps s t := by
  refine keeps_of_array (kept_pulseEnd h) ?_ fun hc hs => ?_
  · unfold pulseEnd at h
    split at h
    · split_ifs at h
      cases h
      rename_i b w pre d _ _
      cases b <;> exact ⟨rfl, rfl, rfl⟩
    · cases h
  · unfold pulseEnd at h
    split at h
    · split_ifs at h
      cases h
      rename_i hp _
      exact (hs.cellProgram hc hp).withPend none rfl
    · cases h

theorem keeps_eraseHv {s t : State} (h : eraseHv s = .ok t) : Keeps s t := by
  obtain ⟨x, _, _, hr, rfl⟩ := eraseHv_eq_ok h
  refine keeps_of_array (kept_eraseHv h) ?_ fun hc hs => ?_
  · cases x.bank <;> exact ⟨rfl, rfl, rfl⟩
  · refine ⟨(hs.forgetRow x.bank x.addr).1, ?_⟩
    show pendOk (forgetRow s x.bank x.addr).cfg _ = true
    rw [(kept_forgetRow s x.bank x.addr).cfg]
    simp only [pendOk, rowOf_rowOf, pageOf_rowOf, beq_self_eq_true, Bool.true_and, decide_eq_true_eq]
    omega

theorem keeps_eraseEnd {s t : State} (h : eraseEnd s = .ok t) : Keeps s t := by
  refine keeps_of_array (kept_eraseEnd h) ?_ fun hc hs => ?_
  · unfold eraseEnd at h
    split at h
    · split_ifs at h
      cases h
      rename_i b r _ _
      cases b <;> exact ⟨rfl, rfl, rfl⟩
    · cases h
  · unfold eraseEnd at h
    split at h
    · split_ifs at h
      cases h
      rename_i hp _
      exact (hs.rowErase hc hp).withPend none rfl
    · cases h

theorem keeps_massHv {s t : State} (h : massHv s = .ok t) : Keeps s t := by
  obtain ⟨x, _, _, rfl⟩ := massHv_eq_ok h
  refine keeps_of_array (kept_massHv h) ?_ fun hc hs => ?_
  · cases x.bank <;> exact ⟨rfl, rfl, rfl⟩
  · exact ⟨(hs.forgetSector (sectorOf x.addr) (x.bank == .info)).1, rfl⟩

theorem keeps_massEnd {s t : State} (h : massEnd s = .ok t) : Keeps s t := by
  refine keeps_of_array (kept_massEnd h) ?_ fun hc hs => ?_
  · unfold massEnd at h
    split at h
    · split_ifs at h
      cases h
      rename_i k both _ _
      cases both <;> exact ⟨rfl, rfl, rfl⟩
    · cases h
  · unfold massEnd at h
    split at h
    · split_ifs at h
      cases h
      rename_i k both _ _
      exact (hs.sectorErase hc k both).withPend none rfl
    · cases h

theorem keeps_of_eq {s t u : State} (h : Reaction.ok s = Reaction.ok t) (k : Keeps u s) : Keeps u t := by
  cases h; exact k

/-- The transition table's reactions keep them. -/
theorem keeps_transition {mo mn : Mode} {new : CmdWord} {s t : State} (h : transition mo mn new s = .ok t) :
    Keeps s t := by
  unfold transition at h
  split at h
  · exact keeps_of_eq h (.refl s)
  · exact keeps_of_eq h (.refl s)
  · exact keeps_rcvCheck h fun u v k => keeps_of_eq k (.aside (.refl u))
  · exact keeps_of_eq h (.refl s)
  · exact keeps_rcvCheck h fun u v => keeps_latchSetup
  · unfold programHv at h
    split_ifs at h
    exact keeps_of_eq h (.aside (.refl s))
  · exact keeps_pulseStart h
  · exact keeps_pulseEnd h
  · exact keeps_of_eq h (.refl s)
  · unfold holdEnd at h
    split_ifs at h
    exact keeps_of_eq h (.aside (.refl s))
  · exact keeps_rcvCheck h fun u v => keeps_latchSetup
  · exact keeps_eraseHv h
  · exact keeps_eraseEnd h
  · exact keeps_rcvCheck h fun u v => keeps_latchSetup
  · exact keeps_massHv h
  · exact keeps_massEnd h
  · unfold massHoldEnd at h
    split_ifs at h
    exact keeps_of_eq h (.aside (.refl s))
  · cases h

theorem keeps_react {old new : CmdWord} {s t : State} (h : react old new s = .ok t) : Keeps s t := by
  unfold react at h
  split_ifs at h
  · exact keeps_of_eq h (.refl s)
  · exact keeps_transition h

/-! ### Register transactions -/

/-- What a register transaction leaves, done or in violation of the protocol. -/
def TxKeeps (s : State) : TxResult → Prop
  | .done t => Keeps s t
  | .violated _ t => Keeps s t
  | .refused _ => True

/-- A transaction after a change that keeps the invariant. -/
theorem TxKeeps.before {s t : State} {r : TxResult} (h : TxKeeps t r) (k : Keeps s t) : TxKeeps s r := by
  cases r with
  | done u => exact k.trans h
  | violated f u => exact k.trans h
  | refused r => trivial

theorem keeps_noteDelay (new : CmdWord) (s : State) : Keeps s (noteDelay new s) := .aside (.refl s)

theorem keeps_violatedClocks (old new : CmdWord) (s : State) : Keeps s (violatedClocks old new s) := by
  unfold violatedClocks
  dsimp only
  split <;> exact .aside (.refl s)

theorem keeps_wrCmd (new : CmdWord) (s : State) : TxKeeps s (wrCmd new s) := by
  unfold wrCmd
  split_ifs
  · exact .refl s
  · split
    · rename_i t h
      exact (Keeps.trans (Keeps.aside (.refl s)) (keeps_react h)).aside
    · exact (Keeps.trans (Keeps.aside (.refl s)) (keeps_violatedClocks s.cmd new { s with cmd := new })).trans
        (keeps_violate ..)
    · trivial

theorem keeps_wrAdr (v : Word) (s : State) : TxKeeps s (wrAdr v s) := by
  unfold wrAdr
  dsimp only
  split_ifs
  · exact .refl s
  · split
    · exact .aside (.refl s)
    · exact .aside (.refl s)
    · exact .aside (.refl s)
    · split_ifs
      · exact .aside (.refl s)
      · exact (Keeps.aside (.refl s)).trans (keeps_violate ..)
    · exact (Keeps.aside (.refl s)).trans (keeps_violate ..)

theorem keeps_wrDI (v : Word) (s : State) : TxKeeps s (wrDI v s) := by
  unfold wrDI
  dsimp only
  split_ifs
  · exact .refl s
  · split
    all_goals first
      | exact Keeps.aside (.refl s)
      | exact (Keeps.aside (.refl s)).trans (keeps_violate ..)

theorem keeps_memRead (b : Bank) (a : Word) (s : State) : Keeps s (memRead b a s).2 := by
  unfold memRead
  split
  · exact .aside (.refl s)
  · split <;> exact .aside (.refl s)

theorem keeps_rdDO {s : State} {r : Word × State} (h : rdDO s = .ok r) : Keeps s r.2 := by
  unfold rdDO at h
  split_ifs at h
  · cases h; exact .aside (.refl s)
  · cases h; exact .aside (.refl s)
  · cases h; exact keeps_memRead ..

theorem keeps_mappedRead (a : Word) (s : State) : Keeps s (mappedRead a s).2 := by
  unfold mappedRead
  split
  · exact .refl s
  · have h := keeps_memRead .main a s
    dsimp only
    split
    · exact h
    · refine ⟨h.cfg, h.sched, h.coreClkHz, h.busy, h.upc, h.cacheMode, h.sound, fun hc => ?_, h.faulted⟩
      dsimp only
      split_ifs
      · exact tableSet_sorted _ _ (h.cache hc)
      · exact h.cache hc

theorem keeps_mappedAnswer (a : Word) (s : State) : Keeps s (mappedAnswer a s).2 := by
  unfold mappedAnswer
  split_ifs
  · exact (keeps_mappedRead a s).aside
  · exact keeps_mappedRead a s

/-- What a line of a micro-program leaves. -/
def ActKeeps (s : State) : ActResult → Prop
  | .go t => Keeps s t
  | .violated _ t => Keeps s t
  | .held => True
  | .refused _ => True

theorem actKeeps_actTx {s : State} {r : TxResult} (h : TxKeeps s r) : ActKeeps s (actTx r) := by
  cases r <;> exact h

/-- Every line of a micro-program keeps them, but for the one that sets the cache mode. -/
theorem keeps_runAct {a : Act} (s : State) (ha : a ≠ .setMode) : ActKeeps s (runAct a s) := by
  cases a <;> simp only [runAct]
  case setMode => exact absurd rfl ha
  case wrCmd => exact actKeeps_actTx (keeps_wrCmd ..)
  case release => exact actKeeps_actTx (keeps_wrCmd ..)
  case wrAdr => exact actKeeps_actTx (keeps_wrAdr ..)
  case wrDI => exact actKeeps_actTx (keeps_wrDI ..)
  case wrDIZero => exact actKeeps_actTx (keeps_wrDI ..)
  case discard =>
    split
    · rename_i v t h; exact keeps_rdDO h
    · trivial
  case sample =>
    split
    · rename_i v t h; exact (keeps_rdDO h).aside
    · trivial
  case refreshRead =>
    split_ifs
    · trivial
    · trivial
    · exact keeps_mappedRead ..
  case refreshDone =>
    refine ⟨rfl, rfl, rfl, rfl, rfl, rfl, fun _ => id, fun h => ?_, id⟩
    rw [tableSorted_iff] at h ⊢
    exact h.filter _
  all_goals exact Keeps.aside (.refl s)

/-- What a branch leaves, whichever way it goes. -/
def BranchKeeps (s : State) : BranchResult → Prop
  | .next t => Keeps s t
  | .to _ t => Keeps s t
  | .stop t => Keeps s t

theorem keeps_runBranch (b : Branch) (s : State) : BranchKeeps s (runBranch b s) := by
  cases b <;> simp only [runBranch]
  case runCase =>
    split
    · split_ifs <;> exact Keeps.refl s
    · exact Keeps.refl s
  case openRun => exact Keeps.aside (.refl s)
  all_goals split_ifs <;> exact Keeps.aside (.refl s)

/-- Only `set_cache_mode` has the line that sets the mode. -/
theorem setMode_only {op : Opcode} {line : Nat} (h : (program op)[line]? = some (.act .setMode)) :
    op = .setCacheMode := by
  have hm := List.mem_of_getElem? h
  revert hm
  cases op <;> decide

end Sys2Proof.Machine
end

