-- ==== Sys2Proof/Laws/PerInstr.lean ====
section
/-!
SUPPORT. One statement per instruction about its encoding: a request goes to the request port under a header that names
its operation (30 R106), a register transaction and a mapped read are 32-bit bus accesses (30 R113).
-/

namespace Sys2Proof.Laws.Presented

open Sys2Proof.Machine

/-- How an instruction is presented. -/
def Statement (i : Instr) : Prop :=
  ∀ c : Config,
    match encode c i with
    | .request [] => False
    | .request (h :: _) => headerOpcode h = requestOf i
    | .busWrite w _ _ => w = .word ∧ requestOf i = none
    | .busRead w _ => w = .word ∧ requestOf i = none

theorem readByte (b : BankSel) (a : Word) : Statement (.readByte b a) :=
  fun _ => headerOpcode_scalar .readByte b (by decide) (.inr (by decide))
theorem readHalfWord (b : BankSel) (a : Word) : Statement (.readHalfWord b a) :=
  fun _ => headerOpcode_scalar .readHalfWord b (by decide) (.inr (by decide))
theorem readWord (b : BankSel) (a : Word) : Statement (.readWord b a) :=
  fun _ => headerOpcode_scalar .readWord b (by decide) (.inr (by decide))
theorem readArray (b : BankSel) (as : List Word) : Statement (.readArray b as) :=
  fun _ => headerOpcode_array .readArray b as.length (.inl rfl)
theorem programByte (b : BankSel) (a v : Word) : Statement (.programByte b a v) :=
  fun _ => headerOpcode_scalar .programByte b (by decide) (.inr (by decide))
theorem programHalfWord (b : BankSel) (a v : Word) : Statement (.programHalfWord b a v) :=
  fun _ => headerOpcode_scalar .programHalfWord b (by decide) (.inr (by decide))
theorem programWord (b : BankSel) (a v : Word) : Statement (.programWord b a v) :=
  fun _ => headerOpcode_scalar .programWord b (by decide) (.inr (by decide))
theorem programArray (b : BankSel) (ps : List (Word × Word)) : Statement (.programArray b ps) :=
  fun _ => headerOpcode_array .programArray b ps.length (.inr rfl)
theorem erasePage (b : BankSel) (a : Word) : Statement (.erasePage b a) :=
  fun _ => headerOpcode_scalar .erasePage b (by decide) (.inr (by decide))
theorem eraseAllPages (b : BankSel) : Statement (.eraseAllPages b) :=
  fun _ => headerOpcode_scalar .eraseAllPages b (by decide) (.inr (by decide))
theorem setLatency (v : Word) : Statement (.setLatency v) :=
  fun _ => headerOpcode_scalar .setLatency .main (by decide) (.inl rfl)
theorem getLatency : Statement .getLatency :=
  fun _ => headerOpcode_scalar .getLatency .main (by decide) (.inl rfl)
theorem updateCache : Statement .updateCache :=
  fun _ => headerOpcode_scalar .updateCache .main (by decide) (.inl rfl)
theorem setCacheMode (v : Word) : Statement (.setCacheMode v) :=
  fun _ => headerOpcode_scalar .setCacheMode .main (by decide) (.inl rfl)
theorem getCacheMode : Statement .getCacheMode :=
  fun _ => headerOpcode_scalar .getCacheMode .main (by decide) (.inl rfl)
theorem wrCmd (v : Word) : Statement (.wrCmd v) := fun _ => ⟨rfl, rfl⟩
theorem rdCmd : Statement .rdCmd := fun _ => ⟨rfl, rfl⟩
theorem wrAdr (v : Word) : Statement (.wrAdr v) := fun _ => ⟨rfl, rfl⟩
theorem rdAdr : Statement .rdAdr := fun _ => ⟨rfl, rfl⟩
theorem wrDI (v : Word) : Statement (.wrDI v) := fun _ => ⟨rfl, rfl⟩
theorem rdDI : Statement .rdDI := fun _ => ⟨rfl, rfl⟩
theorem rdDO : Statement .rdDO := fun _ => ⟨rfl, rfl⟩
theorem wrDO (v : Word) : Statement (.wrDO v) := fun _ => ⟨rfl, rfl⟩
theorem wrKey (v : Word) : Statement (.wrKey v) := fun _ => ⟨rfl, rfl⟩
theorem rdKey : Statement .rdKey := fun _ => ⟨rfl, rfl⟩
theorem wrCache (v : Word) : Statement (.wrCache v) := fun _ => ⟨rfl, rfl⟩
theorem rdCache : Statement .rdCache := fun _ => ⟨rfl, rfl⟩
theorem mappedRead (o : Word) : Statement (.mappedRead o) := fun _ => ⟨rfl, rfl⟩

end Sys2Proof.Laws.Presented
end

