-- ==== Sys2Proof/Laws/Ready.lean ====
section
/-!
SUPPORT. The pieces completed operations are put together from: readiness kept, what the checker's silence says, and
what bursts and erases do to the array.
-/

namespace Sys2Proof.Machine

/-- A word no element names keeps its cell. -/
theorem programmedCell_same (c : Config) (b : Bank) (ps : List (Word × Word)) (w : Nat) (h : ∀ x ∈ ps, wordIndex x.1 ≠ w) (p : Cell) :
    programmedCell c b ps w p = p := by
  induction ps generalizing p with
  | nil => rfl
  | cons x ps ih =>
    simp only [programmedCell, List.foldl_cons] at ih ⊢
    rw [if_neg (h x (by simp))]
    exact ih (fun y hy => h y (List.mem_cons_of_mem _ hy)) p

/-- What a burst does, as one change of the array. -/
theorem bursts_becomes {b : Bank} {ps : List (Word × Word)} {s t : State} (h : Bursts b ps s t) :
    ArrayBecomes (fun b' w => b' = b ∧ ∃ x ∈ unprotectedPairs s.cfg b ps, wordIndex x.1 = w)
      (fun _ w => programmedCell s.cfg b (unprotectedPairs s.cfg b ps) w (cell s b w)) s t where
  cells := by
    intro b' w
    by_cases hb : b' = b
    · subst hb
      rw [h.cell w]
      split_ifs with hw
      · rfl
      · exact programmedCell_same _ _ _ _ (fun x hx he => hw ⟨rfl, x, hx, he⟩) _
    · rw [if_neg (fun hh => hb hh.1)]
      simp only [cell, h.other b' hb]
  bytes := by
    intro b' a hn
    by_cases hb : b' = b
    · subst hb
      exact h.bytes a (fun p hp he => hn ⟨rfl, p, hp, he.symm⟩)
    · rw [h.other b' hb]

/-- A value below its bound is its own truncation. -/
theorem ext_small (v : Word) (h : v.toNat < 0x10000) : (v.setWidth 16).setWidth 32 = v := by
  apply BitVec.eq_of_toNat_eq
  simp only [BitVec.toNat_setWidth]; omega

theorem ext_small8 (v : Word) (h : v.toNat < 0x100) : (v.setWidth 8).setWidth 32 = v := by
  apply BitVec.eq_of_toNat_eq
  simp only [BitVec.toNat_setWidth]; omega

/-- Whatever keeps configuration, clock and turns and ends quiescent is ready again. -/
theorem ready_of {s t : State} (hr : Ready s) (hc : t.cfg = s.cfg) (hk : t.coreClkHz = s.coreClkHz) (hs : t.sched = s.sched) (hq : Quiescent t) : Ready t where
  config := by rw [hc]; exact hr.config
  clock := by rw [← hr.clock]; simp only [clockOk, hc, hk]
  noTurns := by rw [hs]; exact hr.noTurns
  quiet := hq

/-- The array is idle under the shadow of a bank. -/
theorem mode_shadowFor (s : State) (b : Bank) : modeOf (shadowFor s b) = .idle :=
  modeOf_withDrive (shadowOf_delayOnly_shadow _ _) .none

/-- What a page erase does, as one change of the array. -/
theorem becomes_pageErased (s t : State) (b : Bank) (a : Word) (n : Nat) (hn : n ≤ 3)
   (ht : ∀ b', array t b' = array (setArray s b (rowsErased s.cfg b a (sectorsFrom n) (array s b))) b') :
   ArrayBecomes (fun b' w => b' = b ∧ w / 1024 = a.toNat / 4096 ∧ 3 - n ≤ w % 4)
        (fun _ w => committed s.cfg b w .erase .indet) s t := by
  refine becomes_setArray (b := b) (m := rowsErased s.cfg b a (sectorsFrom n) (array s b)) ?_ (fun _ _ h => h.1) ?_ ?_
  · intro b'; rw [ht, array_setArray]
  · intro w; rw [cellAt_rowsErased _ _ _ _ n hn]; simp only [true_and]
  · intro x hx; exact byteAt_rowsErased _ _ _ _ n hn (by simpa using hx) _

/-- What an erase leaves in a word. -/
theorem committed_erase (c : Config) (b : Bank) (w : Nat) :
   (¬(b = .info ∧ c.hasHwInfoProt = true ∧ inFactoryWindow c (indexAddr w) = true) → committed c b w .erase .indet = .val erasedWord) ∧
   (b = .info ∧ c.hasHwInfoProt = true ∧ inFactoryWindow c (indexAddr w) = true → ∃ pre, committed c b w .erase .indet = hwProtEffect c .erase pre) := by
  constructor
  · intro h; simp only [committed]; rw [if_neg (fun hh => h ⟨hh.2.1, hh.1, hh.2.2⟩)]
  · intro h; exact ⟨.indet, by simp only [committed]; rw [if_pos ⟨h.2.1, h.1, h.2.2⟩]⟩

theorem size_mod16 (c : Config) (h : configOk c = true) (b : Bank) : bankSize c b % 16 = 0 := by
  have := even_bank c h b; omega

/-- Every word of a mass erased bank. -/
theorem cell_massed (s : State) (b : Bank) (w : Nat) (hc : configOk s.cfg = true) (h4 : 4 * w < bankSize s.cfg b) (m) :
   cellAt (sectorsErased s.cfg b (sectorsFrom 3) m) w = committed s.cfg b w .erase .indet := by
  rw [cellAt_sectorsErased _ _ _ (size_mod16 _ hc b) h4 3 (by omega), if_pos (by omega)]

/-- A mass erase, field by field. -/
theorem massDone_eq (q : Request) (s : State) (hq : q.bank = .main ∨ q.bank = .allBanks) : massDone (started q s) =
   { started q s with
     key := 0#32, cmd := delayOnly s.cmd, adr := 0xC#32, di := 0#32, doStale := 3
     tCmd := s.cfg.timing.hv
     tHv := s.cfg.timing.me + s.cfg.timing.nvh1 + s.cfg.timing.rcv + s.cfg.timing.hv
     tSettle := s.cfg.timing.rcv + s.cfg.timing.hv, tRcv := s.cfg.timing.rcv + s.cfg.timing.hv
     rcvDue := true, settleDue := true, xlatch := none, pend := none
     counts := { (started q s).counts with dcnt := Config.idleCount s.draws }
     lat := (massDone (started q s)).lat
     upc := .at .eraseAllPages 19
     main := sectorsErased s.cfg .main (sectorsFrom 3) s.main
     info := if q.bank = .allBanks then sectorsErased s.cfg .info (sectorsFrom 3) s.info else s.info } := by
  rcases hq with h | h
  · simp only [massDone, massErased, massShadow, massZeroed, released, setLat, started, accept, h]; rfl
  · simp only [massDone, massErased, massShadow, massZeroed, released, setLat, started, accept, h]; rfl

/-- Which selectors the operations on one bank admit. -/
theorem admits_one {i : Instr} {b : BankSel} (h : ∀ k, i ≠ .eraseAllPages k) (hb : admitsBank i b = true) : ∃ b', b = selOf b' := by
  cases b
  · exact ⟨.main, rfl⟩
  · exact ⟨.info, rfl⟩
  all_goals (cases i <;> first | exact absurd rfl (h _) | cases hb)

theorem info_of_prot {c : Config} {b : Bank} {a : Word} (h : isProtected c (selOf b) a = true) : b = .info := by
  cases b
  · simp [isProtected, selOf] at h
  · rfl

/-- What the silence of the checker says. -/
theorem expected_none {s : State} {i : Instr} (h : expectedFault s i = none) :
   let c := s.cfg
   (∀ n, elementCount i = some n → n ≤ c.maxLen ∧ n ≠ 0) ∧
   (∀ op, requestOf i = some op → (op = .setCacheMode ∨ op = .getCacheMode) → c.hasCacheCtrl = true) ∧
   (∀ b, bankOperand i = some b → admitsBank i b = true) ∧
   (∀ v n, valueBound c i = some (v, n) → v.toNat < n) ∧
   (∀ a ∈ addressesOf i, a &&& alignMask i = 0#32 ∧ ∀ b, bankOperand i = some b → outsideBank i (bankSize c (arrayBank b)) a = false) := by
  simp only [expectedFault, requestFault, Option.or_eq_none_iff, Option.map_eq_none_iff, List.findIdx?_eq_none_iff, Option.bind_eq_none_iff] at h
  obtain ⟨⟨h1, h2, h3, h4, h5, h6, h7⟩, _⟩ := h
  refine ⟨fun n hn => ⟨?_, ?_⟩, fun op ho hh => ?_, fun b hb => ?_, fun v n hv => ?_, fun a ha => ⟨?_, fun b hb => ?_⟩⟩
  · have := h1 n hn; by_contra hc; simp [show s.cfg.maxLen < n by omega] at this
  · have := h4 n hn; rintro rfl; simp at this
  · have := h2 op ho
    by_contra hc
    rcases hh with rfl | rfl <;> simp [hc] at this
  · have := h3 b hb; by_contra hc; simp [hc] at this
  · have := h5 (v, n) hv; by_contra hc; simp [show n ≤ v.toNat by omega] at this
  · have := h6 a ha; simpa using this
  · have := h7 a ha; rw [hb] at this; simpa using this

theorem committed_erase_val {c : Config} {b : Bank} {w : Nat} (h : ¬(b = .info ∧ c.hasHwInfoProt = true ∧ inFactoryWindow c (indexAddr w) = true)) :
   committed c b w .erase .indet = .val erasedWord := (committed_erase c b w).1 h

/-- What a program pulse leaves in a word with a value. -/
theorem committed_prog_val {c : Config} {b : Bank} {w : Nat} (h : ¬(b = .info ∧ c.hasHwInfoProt = true ∧ inFactoryWindow c (indexAddr w) = true)) (p d : Word) :
   committed c b w (.program d) (.val p) = .val (p &&& d) := by
  simp only [committed]; rw [if_neg (fun hh => h ⟨hh.2.1, hh.1, hh.2.2⟩)]

theorem indexAddr_wordIndex (a : Word) : indexAddr (wordIndex a) = wordAddr a := by
  apply BitVec.eq_of_toNat_eq
  rw [wordAddr_toNat]
  simp only [indexAddr, wordIndex, BitVec.toNat_ofNat]
  have := a.isLt
  omega

theorem sectorOf_toNat (a : Word) : (sectorOf a).toNat = a.toNat / 4 % 4 := by
  simp only [sectorOf, BitVec.extractLsb'_toNat, Nat.shiftRight_eq_div_pow]

theorem prot_info {c : Config} {a : Word} (h : isProtected c .info a = true) : c.hasHwInfoProt = false ∧ sectorOf a = 0#2 := by
  simp only [isProtected, inFactoryWindow] at h
  simp at h
  exact ⟨h.1, h.2.1⟩

end Sys2Proof.Machine
end

