-- ==== Sys2Proof/Laws/StepKeeps.lean ====
section
/-!
SUPPORT. The moves of the agents, one lemma each: what they keep of the invariant.
-/

namespace Sys2Proof.Machine

/-- What a move of any agent but Reset keeps: the configuration, the turns, the clock, the invariant and a `FAULTED`
that is set. -/
structure StepKeeps (s t : State) : Prop where
  cfg : t.cfg = s.cfg
  sched : t.sched = s.sched
  clk : t.coreClkHz = s.coreClkHz
  inv : configOk s.cfg = true → Inv s → Inv t
  faulted : s.faulted = true → t.faulted = true

theorem StepKeeps.refl (s : State) : StepKeeps s s := ⟨rfl, rfl, rfl, fun _ => id, id⟩

theorem StepKeeps.trans {s t u : State} (h : StepKeeps s t) (k : StepKeeps t u) : StepKeeps s u :=
  ⟨k.cfg.trans h.cfg, k.sched.trans h.sched, k.clk.trans h.clk, fun hc hi => k.inv (by rw [h.cfg]; exact hc) (h.inv hc hi),
    fun hf => k.faulted (h.faulted hf)⟩

/-- Operations of the register engine. -/
theorem stepKeeps_keeps {s t : State} (h : Keeps s t) : StepKeeps s t := by
  refine ⟨h.cfg, h.sched, h.coreClkHz, fun hc hi => ?_, h.faulted⟩
  have hs := h.sound hc ⟨hi.arrays, hi.pend⟩
  exact ⟨hs.1, h.cache hi.cacheSorted, hs.2, by rw [h.busy, h.upc]; exact hi.busyUpc, by rw [h.upc]; exact hi.upcLine,
    by rw [h.upc, h.cfg]; exact hi.modeOp, by rw [h.cfg, h.cacheMode]; exact hi.noMode⟩

theorem stepKeeps_respond (r : Response) (s : State) : StepKeeps s (respond r s) := by
  refine ⟨rfl, rfl, rfl, fun _ hi => ⟨hi.arrays, hi.cacheSorted, hi.pend, ?_, rfl, ?_, hi.noMode⟩, id⟩
  · simp [respond]
  · intro n h; cases h

theorem stepKeeps_raise (f : FaultInfo) (s : State) : StepKeeps s (raiseFault f s) :=
  (stepKeeps_keeps (keeps_of_same (s := s) (t := { s with key := 0#32, faulted := true, faultInfo := some f })
    rfl rfl rfl rfl rfl rfl rfl rfl rfl rfl fun _ => rfl)).trans (stepKeeps_respond _ _)

theorem stepKeeps_goLine {op : Opcode} {l n : Nat} {s : State} (h : s.upc = .at op l) : StepKeeps s (goLine op n s) := by
  unfold goLine
  split_ifs with hl
  · refine ⟨rfl, rfl, rfl, fun _ hi => ⟨hi.arrays, hi.cacheSorted, hi.pend, ?_, by simpa [upcOk] using hl, ?_, hi.noMode⟩, id⟩
    · have := hi.busyUpc.mpr (by rw [h]; simp)
      simp [this]
    · intro k hk; cases hk; exact hi.modeOp l h
  · exact stepKeeps_respond _ _

/-- A step of the sequencer. -/
theorem stepKeeps_seqStep {s t : State} (h : seqStep s = .next t) : StepKeeps s t := by
  unfold seqStep at h
  split at h
  · cases h; exact .refl s
  · rename_i op line hu
    split at h
    · cases h
    · rename_i a hl
      by_cases ha : a = .setMode
      · subst ha
        have := setMode_only hl
        subst this
        simp only [runAct] at h
        cases h
        refine StepKeeps.trans (t := wrCache s.lat.data s) ⟨rfl, rfl, rfl, fun _ hi => ⟨hi.arrays, hi.cacheSorted, hi.pend, hi.busyUpc, hi.upcLine, hi.modeOp, ?_⟩, id⟩ (stepKeeps_goLine (l := line) hu)
        intro hn
        have h1 := hi.modeOp line hu
        have h2 : s.cfg.hasCacheCtrl = false := hn
        rw [h1] at h2; cases h2
      · have hk := keeps_runAct s ha
        split at h
        · rename_i v hv
          rw [hv] at hk
          cases h
          exact (stepKeeps_keeps hk).trans (stepKeeps_goLine (l := line) (hk.upc.trans hu))
        · cases h; exact .refl s
        · rename_i f v hv
          rw [hv] at hk
          cases h
          exact (stepKeeps_keeps hk).trans (stepKeeps_raise _ _)
        · cases h
    · rename_i b hl
      have hk := keeps_runBranch b s
      split at h
      all_goals
        rename_i hv
        rw [hv] at hk
        cases h
      · exact (stepKeeps_keeps hk).trans (stepKeeps_goLine (l := line) (hk.upc.trans hu))
      · exact (stepKeeps_keeps hk).trans (stepKeeps_goLine (l := line) (hk.upc.trans hu))
      · exact (stepKeeps_keeps hk).trans (stepKeeps_respond _ _)

theorem stepKeeps_runSeq : ∀ (n : Nat) {s t : State}, runSeq n s = .next t → StepKeeps s t := by
  intro n
  induction n with
  | zero => intro s t h; cases h; exact .refl s
  | succ n ih =>
    intro s t h
    unfold runSeq at h
    split_ifs at h
    · split at h
      · rename_i u hu
        exact (stepKeeps_seqStep hu).trans (ih h)
      · cases h
      · cases h
    · cases h; exact .refl s

theorem stepKeeps_hostWrite {i : Instr} {tx : State → TxResult} {s t : State} (hk : TxKeeps s (tx s)) (h : hostWrite i tx s = .next t) : StepKeeps s t := by
  unfold hostWrite at h
  split_ifs at h
  · cases h; exact stepKeeps_keeps (.aside (.refl s))
  · split at h
    · rename_i u hu; rw [hu] at hk; cases h; exact stepKeeps_keeps hk
    · rename_i u hu; rw [hu] at hk; cases h; exact stepKeeps_keeps hk
    · cases h

theorem stepKeeps_hostRead {i : Instr} {tx : State → Except Refusal (Word × State)} {s t : State} (hk : ∀ r, tx s = .ok r → Keeps s r.2) (h : hostRead i tx s = .next t) : StepKeeps s t := by
  unfold hostRead at h
  split_ifs at h
  · cases h; exact stepKeeps_keeps (.aside (.refl s))
  · split at h
    · rename_i v u hu; cases h; exact stepKeeps_keeps ((hk _ hu).aside)
    · cases h

/-- A request. -/
theorem stepKeeps_request {i : Instr} {s t : State} (hr : (requestOf i).isSome = true) (h : exec i s = .next t) : StepKeeps s t := by
  obtain ⟨q, cs, he, hl, hv⟩ := exec_request (i := i) s hr
  rw [he] at h
  unfold request at h
  by_cases hb : s.busy = true
  · rw [if_pos hb] at h; cases h; exact stepKeeps_keeps (.aside (.refl s))
  · rw [if_neg hb, hv] at h
    have hstart : expectedFault s i = none → StepKeeps s (started q s) := by
      intro hf
      refine ⟨rfl, rfl, rfl, fun _ hi => ⟨hi.arrays, hi.cacheSorted, hi.pend, ?_, ?_, ?_, hi.noMode⟩, id⟩
      · simp [started, accept]
      · show decide (0 < (program q.op).length) = true
        cases q.op <;> rfl
      · intro n hn
        have h1 : q.op = .setCacheMode := by injection hn
        have h2 := hl.op
        rw [h1] at h2
        cases i <;> simp [requestOf] at h2
        cases hcc : s.cfg.hasCacheCtrl with
        | true => exact hcc
        | false => simp [expectedFault, requestFault, requestOf, hcc, elementCount] at hf
    cases hf : expectedFault s i with
    | none =>
      rw [hf] at h
      simp only at h
      split_ifs at h
      · exact (hstart hf).trans (stepKeeps_runSeq _ h)
      · cases h; exact hstart hf
    | some f =>
      rw [hf] at h
      simp only at h
      split_ifs at h
      cases h
      refine StepKeeps.trans ?_ (stepKeeps_respond _ _) (t := { accept q s with key := 0#32, faulted := true, faultInfo := some f, busy := s.busy })
      exact stepKeeps_keeps (keeps_of_same rfl rfl rfl rfl rfl rfl rfl rfl rfl rfl fun _ => rfl)

/-- An instruction. -/
theorem stepKeeps_exec {i : Instr} {s t : State} (h : exec i s = .next t) : StepKeeps s t := by
  cases hr : (requestOf i).isSome with
  | true => exact stepKeeps_request hr h
  | false =>
    cases i <;> try (exact absurd hr Bool.noConfusion)
    case wrCmd v =>
      refine stepKeeps_hostWrite (tx := fun s => wrCmd (unpackCmd s.cfg.layout v) (noteDelay (unpackCmd s.cfg.layout v) s)) ?_ h
      exact (keeps_wrCmd ..).before (keeps_noteDelay ..)
    case rdCmd => exact stepKeeps_hostRead (i := .rdCmd) (tx := fun s => .ok (packCmd s.cfg.layout s.cmd, s)) (fun r h => by cases h; exact .refl s) h
    case wrAdr v => exact stepKeeps_hostWrite (keeps_wrAdr ..) h
    case rdAdr => exact stepKeeps_hostRead (i := .rdAdr) (tx := fun s => .ok (draw s)) (fun r h => by cases h; exact .aside (.refl s)) h
    case wrDI v => exact stepKeeps_hostWrite (keeps_wrDI ..) h
    case rdDI => exact stepKeeps_hostRead (i := .rdDI) (tx := fun s => .ok (draw s)) (fun r h => by cases h; exact .aside (.refl s)) h
    case rdDO => exact stepKeeps_hostRead (fun r h => keeps_rdDO h) h
    case wrDO v => exact stepKeeps_hostWrite (tx := .done) (Keeps.refl s) h
    case wrKey v => exact stepKeeps_hostWrite (tx := fun s => .done (wrKey v s)) (Keeps.aside (.refl s)) h
    case rdKey => exact stepKeeps_hostRead (i := .rdKey) (tx := fun s => .ok (s.key, s)) (fun r h => by cases h; exact .refl s) h
    case wrCache v =>
      have h' : execWrCache v s = .next t := h
      unfold execWrCache hostWrite at h'
      split_ifs at h' with hcc hb
      · cases h'; exact stepKeeps_keeps (.aside (.refl s))
      · cases h'
        refine ⟨rfl, rfl, rfl, fun _ hi => ⟨hi.arrays, hi.cacheSorted, hi.pend, hi.busyUpc, hi.upcLine, hi.modeOp, ?_⟩, id⟩
        intro hn
        have h2 : s.cfg.hasCacheCtrl = false := hn
        rw [hcc] at h2; cases h2
    case rdCache =>
      have h' : execRdCache s = .next t := h
      unfold execRdCache at h'
      split_ifs at h'
      exact stepKeeps_hostRead (i := .rdCache) (tx := fun s => .ok (rdCache s, s)) (fun r h => by cases h; exact .refl s) h'
    case mappedRead o =>
      have h' : execMappedRead o s = .next t := h
      unfold execMappedRead at h'
      split_ifs at h'
      · cases h'; exact stepKeeps_keeps (.aside (.refl s))
      · cases h'; exact stepKeeps_keeps (Keeps.aside (keeps_mappedAnswer o s))

/-- A host's turn. -/
theorem stepKeeps_hostStep {s t : State} (h : hostStep s = .next t) : StepKeeps s t := by
  unfold hostStep at h
  split at h
  · cases h; exact .refl s
  · rename_i tx rest hp
    have h0 : StepKeeps s { s with port := rest } := stepKeeps_keeps (.aside (.refl s))
    refine h0.trans ?_
    split at h
    · exact stepKeeps_exec h
    · rename_i e he
      unfold reject at h
      split at h
      · unfold illegalRequest at h
        split_ifs at h
        · cases h; exact stepKeeps_keeps (.aside (.refl _))
        · cases h
          refine StepKeeps.trans ?_ (stepKeeps_raise _ _)
          exact stepKeeps_keeps (.aside (.refl _))
      all_goals cases h

theorem stepKeeps_fill (w : Nat) (s : State) : StepKeeps s (cacheFill w s) := by
  unfold cacheFill
  split
  · exact stepKeeps_keeps ⟨rfl, rfl, rfl, rfl, rfl, rfl, fun _ => id, fun h => tableSet_sorted _ _ h, id⟩
  · exact .refl s

theorem stepKeeps_evict (w : Nat) (s : State) : StepKeeps s (cacheEvict w s) := by
  unfold cacheEvict
  split_ifs
  · exact stepKeeps_keeps ⟨rfl, rfl, rfl, rfl, rfl, rfl, fun _ => id, fun h => tableDrop_sorted (fun x => x == w) h, id⟩
  · exact .refl s

/-- The Reset event keeps the invariant. -/
theorem inv_resetEvent {s : State} (hi : Inv s) : Inv (resetEvent s) := by
  have hs : Sound (abandon s.cmd.nvstr s) := Sound.abandon ⟨hi.arrays, hi.pend⟩ s.cmd.nvstr
  have hcf : (abandon s.cmd.nvstr s).cfg = s.cfg := by rw [abandon_frame]
  refine ⟨?_, rfl, rfl, ?_, rfl, ?_, fun _ => rfl⟩
  · have := hs.1
    simp only [arraysWf, hcf] at this
    exact this
  · simp [resetEvent, State.resetWith]
  · intro n h; cases h

end Sys2Proof.Machine
end

