-- ==== Sys2Proof/Tests/Slice0.lean ====
section
/-!
SUPPORT. Tests: ill-formed terms, words written out from the encoding tables, the spec's own vectors (95), and a
witness for the hypotheses of every obligation.
-/

namespace Sys2Proof.Tests

/- The tests are elaborated one after the other: each `decide +kernel` waits for the kernel's check of all before it, and
waiting side by side takes one thread and its stack for each. -/
set_option Elab.async false

open Sys2Proof Sys2Proof.Machine

/-! ### Helpers -/

/-- A next state with a property. -/
def runs (o : Host.Outcome State Fault Refusal) (p : State → Bool) : Bool :=
  match o with
  | .next t => p t
  | .fault _ => false
  | .refused _ => false

/-- Instructions one after the other, from a state, and then a property. -/
def runsAll (is : List Instr) (s : State) (p : State → Bool) : Bool := runs (execAll is s) p

/-- After reset, with words in both banks. -/
def withWords (main info : List (Nat × Word)) : State :=
  { State.reset with
    main := main.foldl (fun m e => setWord m (e.1 / 4) e.2) []
    info := info.foldl (fun m e => setWord m (e.1 / 4) e.2) [] }

/-- After reset, unlocked, with a CommandWord. -/
def under (c : CmdWord) : State := { State.reset with key := 1#32, cmd := c }

/-- The drive bits of the modes of 41 R151, with Control-Enable. -/
def cIdle : CmdWord := { con := true }
def cRead : CmdWord := { con := true, xe := true, ye := true, se := true }
def cPgNvs : CmdWord := { con := true, xe := true, prog := true }
def cPgHv : CmdWord := { con := true, xe := true, prog := true, nvstr := true }
def cPulse : CmdWord := { con := true, xe := true, prog := true, nvstr := true, ye := true }
def cHold : CmdWord := { con := true, xe := true, nvstr := true }
def cErNvs : CmdWord := { con := true, xe := true, erase := true }
def cErHv : CmdWord := { con := true, xe := true, erase := true, nvstr := true }
def cMeNvs : CmdWord := { con := true, xe := true, erase := true, mas1 := true }
def cMeHv : CmdWord := { con := true, xe := true, erase := true, mas1 := true, nvstr := true }
def cMeHold : CmdWord := { con := true, xe := true, mas1 := true, nvstr := true }

/-! ### Well-formedness: one ill-formed term for each check -/

theorem test_wf_readArray_too_long : (Instr.readArray .main (List.replicate 65536 0#32)).wf = false := by
  show decide ((List.replicate 65536 0#32).length < 65536) = false
  rw [List.length_replicate]
  decide

theorem test_wf_programArray_too_long :
    (Instr.programArray .main (List.replicate 65536 (0#32, 0#32))).wf = false := by
  show decide ((List.replicate 65536 (0#32, 0#32)).length < 65536) = false
  rw [List.length_replicate]
  decide

theorem test_wf_mappedRead_misaligned : (Instr.mappedRead 0x102#32).wf = false := by decide

/-! ### Words written out from 30 R103, R106, R107, R113 and 20 R80 -/

/-- Decoding under the reference record. -/
def dec (tx : PortTx) : Option Instr :=
  match decode Config.reference tx with
  | .ok i => some i
  | .error _ => none

theorem test_decode_readByte :
    dec (.request [0b00000000_0000000000000000_0_01_00001#32, 0x0FFF#32]) = some (.readByte .info 0x0FFF#32) := by decide
theorem test_decode_readHalfWord :
    dec (.request [0b00000000_0000000000000000_0_00_00010#32, 0x102#32]) = some (.readHalfWord .main 0x102#32) := by
  decide
theorem test_decode_readWord :
    dec (.request [0b00000000_0000000000000000_0_01_00011#32, 0xF00#32]) = some (.readWord .info 0xF00#32) := by decide
theorem test_decode_readArray :
    dec (.request [0b00000000_0000000000000010_0_00_00100#32, 0x100#32, 0x104#32]) =
      some (.readArray .main [0x100#32, 0x104#32]) := by decide
theorem test_decode_programByte :
    dec (.request [0b00000000_0000000000000000_0_00_00101#32, 0x101#32, 0x0F#32]) =
      some (.programByte .main 0x101#32 0x0F#32) := by decide
theorem test_decode_programHalfWord :
    dec (.request [0b00000000_0000000000000000_0_00_00110#32, 0x102#32, 0xFF#32]) =
      some (.programHalfWord .main 0x102#32 0xFF#32) := by decide
theorem test_decode_programWord :
    dec (.request [0b00000000_0000000000000000_0_01_00111#32, 0xF00#32, 0#32]) =
      some (.programWord .info 0xF00#32 0#32) := by decide
theorem test_decode_programArray :
    dec (.request [0b00000000_0000000000000011_0_00_01000#32, 0x100#32, 1#32, 0x110#32, 2#32, 0x120#32, 3#32]) =
      some (.programArray .main [(0x100#32, 1#32), (0x110#32, 2#32), (0x120#32, 3#32)]) := by decide
theorem test_decode_erasePage :
    dec (.request [0b00000000_0000000000000000_0_01_01001#32, 0#32]) = some (.erasePage .info 0#32) := by decide
theorem test_decode_eraseAllPages :
    dec (.request [0b00000000_0000000000000000_0_10_01010#32]) = some (.eraseAllPages .allBanks) := by decide
theorem test_decode_setLatency :
    dec (.request [0b00000000_0000000000000000_0_00_01011#32, 5#32]) = some (.setLatency 5#32) := by decide
theorem test_decode_getLatency :
    dec (.request [0b00000000_0000000000000000_0_00_01100#32]) = some .getLatency := by decide
theorem test_decode_updateCache :
    dec (.request [0b00000000_0000000000000000_0_00_01101#32]) = some .updateCache := by decide
theorem test_decode_setCacheMode :
    dec (.request [0b00000000_0000000000000000_0_00_01110#32, 3#32]) = some (.setCacheMode 3#32) := by decide
theorem test_decode_getCacheMode :
    dec (.request [0b00000000_0000000000000000_0_00_01111#32]) = some .getCacheMode := by decide
theorem test_decode_wrCmd : dec (.busWrite .word 0x40018000#32 0x3041#32) = some (.wrCmd 0x3041#32) := by decide
theorem test_decode_rdCmd : dec (.busRead .word 0x40018000#32) = some .rdCmd := by decide
theorem test_decode_wrAdr : dec (.busWrite .word 0x40018004#32 0x100#32) = some (.wrAdr 0x100#32) := by decide
theorem test_decode_rdAdr : dec (.busRead .word 0x40018004#32) = some .rdAdr := by decide
theorem test_decode_wrDI : dec (.busWrite .word 0x40018008#32 5#32) = some (.wrDI 5#32) := by decide
theorem test_decode_rdDI : dec (.busRead .word 0x40018008#32) = some .rdDI := by decide
theorem test_decode_rdDO : dec (.busRead .word 0x4001800C#32) = some .rdDO := by decide
theorem test_decode_wrDO : dec (.busWrite .word 0x4001800C#32 7#32) = some (.wrDO 7#32) := by decide
theorem test_decode_wrKey : dec (.busWrite .word 0x40018010#32 0x8AAA5551#32) = some (.wrKey 0x8AAA5551#32) := by decide
theorem test_decode_rdKey : dec (.busRead .word 0x40018010#32) = some .rdKey := by decide
theorem test_decode_wrCache : dec (.busWrite .word 0x40018014#32 2#32) = some (.wrCache 2#32) := by decide
theorem test_decode_rdCache : dec (.busRead .word 0x40018014#32) = some .rdCache := by decide
theorem test_decode_mappedRead : dec (.busRead .word 0x08000104#32) = some (.mappedRead 0x104#32) := by decide

/-- Reserved opcodes 0 and 0x10, the reserved bit 7, a reserved bit of 31:24, `LEN` on `read_word`, `BNK` on
`get_latency` (30 R109). -/
theorem test_decode_illegal_headers :
    [0x00000000#32, 0x00000010#32, 0x00000083#32, 0x01000003#32, 0x00000103#32, 0x0000002C#32].all
      (fun h => decide (decode Config.reference (.request [h, 0#32]) = .error (.illegalHeader h))) = true := by decide

/-- The reserved selector 3 is an operand the checker judges, not an illegal header (30 R107, 60 R253). -/
theorem test_decode_reserved_bank :
    dec (.request [0x00000063#32, 0x100#32]) = some (.readWord .reserved 0x100#32) := by decide

/-- A byte access, a misaligned register address, an address outside both windows (20 R72, R81). -/
theorem test_decode_bus_rejects :
    dec (.busRead .byte 0x40018000#32) = none ∧ dec (.busWrite .word 0x40018001#32 0#32) = none ∧
    dec (.busRead .word 0x08020000#32) = none ∧ dec (.busWrite .word 0x08000000#32 0#32) = none := by decide

/-- A descriptor with an operand word missing, one too many, and an odd number for `program_array` (30 R103). -/
theorem test_decode_lengths :
    dec (.request [0x00000003#32]) = none ∧ dec (.request [0x0000000C#32, 0#32]) = none ∧
    dec (.request [0x00000108#32, 0x100#32]) = none ∧ dec (.request []) = none := by decide

/-! ### Addresses, protection, timing (95 2.1, 2.2) -/

theorem test_address_split :
    (pageOf 0x1234#32, rowOf 0x1234#32, sectorOf 0x1234#32) = (0x1000#32, 0x1004#32, 1#2) ∧
    (pageOf 0xFFF#32, rowOf 0xFFF#32, sectorOf 0xFFF#32) = (0#32, 0xC#32, 3#2) ∧
    (pageOf 0x1FFFC#32, rowOf 0x1FFFC#32, sectorOf 0x1FFFC#32) = (0x1F000#32, 0x1F00C#32, 3#2) ∧
    (pageOf 0x110#32, rowOf 0x110#32, sectorOf 0x110#32) = (0#32, 0#32, 0#2) := by decide

theorem test_protected :
    ([0xF00#32, 0xFF0#32, 0xEF0#32, 0xF04#32, 0xFFC#32].map (isProtected Config.reference .info)) =
      [true, true, false, false, false] ∧
    isProtected Config.reference .main 0xF00#32 = false ∧
    isProtected { Config.reference with hasHwInfoProt := true } .info 0xF00#32 = false := by decide

theorem test_counts :
    ([.nvs, .pgs, .prog, .nvh, .rcv, .erase, .me, .nvh1].map (countOf Config.reference 80000000)) =
      [400, 800, 3200, 400, 80, 3200000, 3200000, 8000] ∧
    ([.nvs, .pgs, .prog, .nvh, .rcv, .erase, .me, .nvh1].map (countOf Config.reference 1500000)) =
      [8, 15, 60, 8, 2, 60000, 60000, 150] ∧
    ([.nvs, .pgs, .prog, .nvh, .rcv, .erase, .me, .nvh1].map (countOf Config.reference 32768)) =
      [1, 1, 2, 1, 1, 1311, 1311, 4] := by decide

/-- Every mode of the table of 41 R151, and three words that are none. -/
theorem test_modes :
    [0x0000#32, 0x0001#32, 0x01C1#32, 0x1041#32, 0x3041#32, 0x30C1#32, 0x2041#32, 0x0441#32, 0x2441#32, 0x0C41#32,
      0x2C41#32, 0x2841#32, 0x0040#32, 0x0041#32, 0x03C0#32].map (fun v => modeOf (unpackCmd {} v)) =
    [.off, .idle, .read, .pgNvs, .pgHv, .pgPulse, .hvHold, .erNvs, .erHv, .meNvs, .meHv, .meHold, .illegal, .illegal,
      .illegal] := by decide

/-! ### Register transactions (95 2.3) -/

/-- V1: dropped while locked. -/
theorem test_wrCmd_locked : runs (exec (.wrCmd 1#32) State.reset) (fun t => t.cmd == {}) = true := by decide +kernel

/-- V3: reserved bits are ignored. -/
theorem test_wrCmd_reserved_bits :
    runsAll [.wrKey 0x8AAA5551#32, .wrCmd 0xFFFFC007#32, .rdCmd] State.reset (fun t => t.rdata == 1#32) = true := by
  decide +kernel

/-- V4: `XE` without `CON` violates the protocol, and `Cmd` holds the word. -/
theorem test_wrCmd_illegal_mode :
    runsAll [.wrKey 0x8AAA5551#32, .wrCmd 0x40#32, .rdCmd] State.reset (fun t => t.rdata == 0x40#32 && t.faulted &&
      t.faultInfo == some (.protocolViolation .mode .off .illegal)) = true := by decide +kernel

/-- V6: the fourth read gives the word, and so does the fifth. -/
theorem test_rdDO :
    runsAll [.wrKey 0x8AAA5551#32, .wrCmd 1#32, .wrAdr 0x100#32, .wrCmd 0x1C1#32, .rdDO, .rdDO, .rdDO, .rdDO]
      (withWords [(0x100, 0xDEADBEEF#32)] []) (fun t => t.rdata == 0xDEADBEEF#32) = true ∧
    runsAll [.wrKey 0x8AAA5551#32, .wrCmd 1#32, .wrAdr 0x100#32, .wrCmd 0x1C1#32, .rdDO, .rdDO, .rdDO, .rdDO, .rdDO]
      (withWords [(0x100, 0xDEADBEEF#32)] []) (fun t => t.rdata == 0xDEADBEEF#32) = true := by
  decide +kernel

/-- V7: an address write makes reads stale again. -/
theorem test_wrAdr_stale :
    runsAll [.wrKey 1#32, .wrCmd 1#32, .wrAdr 0x100#32, .wrCmd 0x1C1#32, .rdDO, .rdDO, .rdDO, .wrAdr 0x104#32]
      State.reset (fun t => t.doStale == 3 && t.adr == 0x104#32) = true := by decide +kernel

/-- V9: no dwell before high voltage; the row of `Adr` becomes indeterminate, the next word does not. -/
theorem test_dwell_violation :
    runsAll [.wrKey 1#32, .wrCmd 1#32, .wrCmd 0x1041#32, .wrCmd 0x3041#32] (withWords [(0, 7#32), (4, 8#32)] [])
      (fun t => t.faultInfo == some (.protocolViolation (.dwell .nvs) .pgNvs .pgHv) && cell t .main 0 == .indet &&
        cell t .main 1 == .val 8#32) = true := by decide +kernel

/-- 41 R157, R160, R163: the dwell is checked before anything latched is looked at. -/
theorem test_dwell_before_latch :
    ([(0x3041#32, 0x30C1#32, .protocolViolation (.dwell .pgs) .pgHv .pgPulse),
      (0x0441#32, 0x2441#32, .protocolViolation (.dwell .nvs) .erNvs .erHv),
      (0x0C41#32, 0x2C41#32, .protocolViolation (.dwell .nvs) .meNvs .meHv)].all fun e =>
      runsAll [.wrKey 1#32, .wrCmd e.1, .wrCmd e.2.1] State.reset
        (fun t => t.xlatch == none && t.faultInfo == some e.2.2)) = true := by decide +kernel

/-- V10, V11: between pulses `Adr` may move inside its row only; `DI` is sampled where the pulse starts. -/
theorem test_pulse_address :
    runs (exec (.wrAdr 0x104#32) { under cPgHv with xlatch := some ⟨.prog, .main, 0x100#32⟩ })
      (fun t => t.faultInfo == some (.protocolViolation .adrWrite .pgHv .pgHv) && t.adr == 0x104#32) = true ∧
    runsAll [.wrAdr 0x110#32, .wrDI 6#32, .wrCmd 0x30C1#32]
      { withWords [(0x110, 0xFFFFFFFF#32)] [] with
        key := 1#32, cmd := cPgHv, tHv := 10, xlatch := some ⟨.prog, .main, 0x100#32⟩ }
      (fun t => t.pend == some (.progWord .main 0x44 (.val 0xFFFFFFFF#32) 6#32) && cell t .main 0x44 == .indet &&
        !t.faulted) = true := by decide +kernel

/-- V12, V13: the bank bit may change in `M_IDLE`, not with `XE` set. -/
theorem test_bank_switch :
    runsAll [.wrKey 1#32, .wrCmd 0x201#32, .wrCmd 1#32] State.reset (fun t => !t.faulted) = true ∧
    runsAll [.wrKey 1#32, .wrCmd 1#32, .wrCmd 0x1C1#32, .wrCmd 0x3C1#32] State.reset
      (fun t => t.faultInfo == some (.protocolViolation .bankSwitch .read .read)) = true := by decide +kernel

/-- `DI` cannot be written during a pulse (41 R145). -/
theorem test_wrDI_pulse :
    runs (exec (.wrDI 9#32) (under cPulse)) (fun t => t.faulted && t.di == 9#32) = true := by decide +kernel

/-- `Key` reads back, a write of `DO` is ignored, only `MODE` of `CacheCtrl` is stored (41 R148, R149, 47 R236). -/
theorem test_register_views :
    runsAll [.wrKey 0x8AAA5551#32, .wrDO 7#32, .rdKey] State.reset (fun t => t.rdata == 0x8AAA5551#32) = true ∧
    runsAll [.wrCache 0xFFFFFFFE#32, .rdCache] State.reset (fun t => t.rdata == 2#32) = true ∧
    runsAll [.rdAdr, .rdDI] State.reset (fun t => t.draws == 2) = true := by decide +kernel

/-! ### Operations (95 2.4 to 2.8) -/

/-- The start of the vectors of 95 2.4. -/
def readStart : State :=
  { withWords [(0x100, 0x12345678#32)] [(0xF00, 0x11223344#32)] with cmd := { delay := 3#8 } }

/-- V20, V21. -/
theorem test_read_word :
    runs (exec (.readWord .main 0x100#32) readStart) (fun t => t.resp == some ⟨0#32, [0x12345678#32]⟩ &&
      t.key == 0#32 && packCmd {} t.cmd == 0x19#32 && t.adr == 0x100#32) = true ∧
    runs (exec (.readWord .info 0xF00#32) readStart) (fun t => t.resp == some ⟨0#32, [0x11223344#32]⟩ &&
      packCmd {} t.cmd == 0x219#32) = true := by decide +kernel

/-- V22. -/
theorem test_read_byte :
    ([(0x100#32, 0x78#32), (0x101#32, 0x56#32), (0x102#32, 0x34#32), (0x103#32, 0x12#32)].all fun e =>
      runs (exec (.readByte .main e.1) readStart) (fun t => t.resp == some ⟨0#32, [e.2]⟩)) = true := by decide +kernel

/-- V23. -/
theorem test_read_half_word :
    runs (exec (.readHalfWord .main 0x100#32) readStart) (fun t => t.resp == some ⟨0#32, [0x5678#32]⟩) = true ∧
    runs (exec (.readHalfWord .main 0x102#32) readStart) (fun t => t.resp == some ⟨0#32, [0x1234#32]⟩) = true := by
  decide +kernel

/-- V24. -/
theorem test_read_array :
    runs (exec (.readArray .main [0x100#32, 0x100#32]) readStart)
      (fun t => t.resp == some ⟨0#32, [0x12345678#32, 0x12345678#32]⟩) = true := by decide +kernel

/-- V40, V41, V42. -/
theorem test_program_word :
    runs (exec (.programWord .main 0x200#32 0xCAFEF00D#32) (withWords [(0x200, 0xFFFFFFFF#32)] []))
      (fun t => cell t .main 0x80 == .val 0xCAFEF00D#32 && packCmd {} t.cmd == 1#32 && t.key == 0#32) = true ∧
    runs (exec (.programWord .main 0x200#32 0x0F0F0F0F#32) (withWords [(0x200, 0xCAFEF00D#32)] []))
      (fun t => cell t .main 0x80 == .val 0x0A0E000D#32) = true := by decide +kernel

/-- V43, V44: protected, and just below the window. -/
theorem test_program_word_protected :
    runs (exec (.programWord .info 0xF00#32 0#32) (withWords [] [(0xF00, 0x11223344#32)]))
      (fun t => cell t .info 0x3C0 == .val 0x11223344#32 && t.resp == some ⟨0#32, []⟩ && t.adr == 0#32) = true ∧
    runs (exec (.programWord .info 0xEF0#32 0x55#32) (withWords [] [(0xEF0, 0xFFFFFFFF#32)]))
      (fun t => cell t .info 0x3BC == .val 0x55#32 && packCmd {} t.cmd == 0x201#32) = true := by decide +kernel

/-- V46, V48. -/
theorem test_program_byte :
    runs (exec (.programByte .main 0x101#32 0x0F#32) (withWords [(0x100, 0x12345678#32)] []))
      (fun t => cell t .main 0x40 == .val 0x12340678#32) = true ∧
    runs (exec (.programByte .info 0xF01#32 0#32) (withWords [] [(0xF00, 0x11223344#32)]))
      (fun t => cell t .info 0x3C0 == .val 0x11223344#32 && t.adr == 0xF00#32) = true := by decide +kernel

/-- V47. -/
theorem test_program_half_word :
    runs (exec (.programHalfWord .main 0x102#32 0xFF#32) (withWords [(0x100, 0xFFFFFFFF#32)] []))
      (fun t => cell t .main 0x40 == .val 0x00FFFFFF#32) = true := by decide +kernel

/-- V51 and V52: three runs, and two pulses on one word. -/
theorem test_program_array :
    runs (exec (.programArray .main [(0x100#32, 1#32), (0x104#32, 2#32), (0x110#32, 3#32)])
        (withWords [(0x100, 0xFFFFFFFF#32), (0x104, 0xFFFFFFFF#32), (0x110, 0xFFFFFFFF#32)] []))
      (fun t => cell t .main 0x40 == .val 1#32 && cell t .main 0x41 == .val 2#32 && cell t .main 0x44 == .val 3#32 &&
        t.key == 0#32 && t.cmd == cIdle) = true ∧
    runs (exec (.programArray .main [(0x100#32, 0xF0F0F0F0#32), (0x100#32, 0xFF00FF00#32)])
        (withWords [(0x100, 0xFFFFFFFF#32)] []))
      (fun t => cell t .main 0x40 == .val 0xF000F000#32) = true := by decide +kernel

/-- V55: a protected element is skipped. -/
theorem test_program_array_protected :
    runs (exec (.programArray .info [(0xF00#32, 0#32), (0xEF4#32, 5#32)])
        (withWords [] [(0xF00, 7#32), (0xEF4, 0xFFFFFFFF#32)]))
      (fun t => cell t .info 0x3C0 == .val 7#32 && cell t .info 0x3BD == .val 5#32) = true := by decide +kernel

/-- V30: what a page erase leaves in the registers. -/
theorem test_erase_page_registers :
    runs (exec (.erasePage .main 0x1234#32) State.reset)
      (fun t => t.adr == 0x100C#32 && t.di == 0#32 && t.cmd == {} && t.key == 0#32 && !t.faulted) = true := by
  decide +kernel

/-- 47 R239, R240: only Delay-Cycles changes. -/
theorem test_latency :
    runsAll [.setLatency 5#32, .getLatency] State.reset
      (fun t => t.resp == some ⟨0#32, [5#32]⟩ && packCmd {} t.cmd == 0x28#32 && t.key == 0#32) = true := by
  decide +kernel

/-- 47 R237, R238. -/
theorem test_cache_mode :
    runsAll [.setCacheMode 3#32, .getCacheMode] State.reset
      (fun t => t.resp == some ⟨0#32, [3#32]⟩ && t.cacheMode == 3#2) = true := by decide +kernel

/-- 47 R235: a stale entry is dropped, a current one may stay. -/
theorem test_update_cache :
    runs (exec .updateCache { withWords [(0x100, 1#32), (0x104, 2#32)] [] with cache := [(0x40, 9#32), (0x41, 2#32)] })
      (fun t => t.cache == [(0x41, 2#32)] && t.resp == some ⟨0#32, []⟩) = true := by decide +kernel

/-- 70 R285: a host's `Cmd` write that keeps Delay-Cycles leaves mapped reads alone; one that changes it makes them draws
(each takes a free value), and only until Reset. -/
theorem test_clobbered_delay :
    runsAll [.wrKey 1#32, .wrCmd 1#32, .mappedRead 0x100#32] (withWords [(0x100, 5#32)] [])
      (fun t => t.rdata == 5#32 && t.draws == 0) = true ∧
    runsAll [.wrKey 1#32, .wrCmd 9#32, .wrCmd 1#32, .mappedRead 0x100#32] (withWords [(0x100, 5#32)] [])
      (fun t => t.delayLost && t.draws == 1) = true ∧
    (resetEvent { State.reset with delayLost := true }).delayLost = false := by decide +kernel

/-- 00 R8: on a variant without the cache register only the five refresh reads it makes must lie inside Main. -/
theorem test_refresh_range :
    configOk { Config.reference with hasCacheCtrl := false, cacheRefreshStride := 0x4000#32 } = true ∧
    configOk { Config.reference with cacheRefreshStride := 0x4000#32 } = false := by decide +kernel

/-- V32: on a variant with hardware protection a factory word becomes indeterminate by default. -/
theorem test_hardware_protection :
    (let c := { Config.reference with hasHwInfoProt := true }
     committed c .info (wordIndex 0xFF0#32) .erase (.val 5#32) = .indet ∧
     committed c .info (wordIndex 0xFF4#32) .erase (.val 5#32) = .val 0xFFFFFFFF#32) := by decide

/-- 47 R231: a hit is answered from the cache even when stale; a miss may fill. -/
theorem test_mapped_read :
    runs (exec (.mappedRead 0x100#32) { withWords [(0x100, 1#32)] [] with cache := [(0x40, 9#32)] })
      (fun t => t.rdata == 9#32) = true ∧
    runs (exec (.mappedRead 0x100#32) { withWords [(0x100, 1#32)] [] with fillPlan := [true] })
      (fun t => t.rdata == 1#32 && t.cache == [(0x40, 1#32)]) = true := by decide +kernel

/-- 60 R263: the order of the causes, on a request with three of them. -/
theorem test_fault_order :
    runs (exec (.readWord .allBanks 0x20001#32) State.reset)
      (fun t => t.resp == some ⟨3#32, []⟩ && t.faultInfo == some (.invalidBank .allBanks)) = true ∧
    runs (exec (.readWord .main 0x20001#32) State.reset) (fun t => t.resp == some ⟨1#32, []⟩) = true ∧
    runs (exec (.readWord .main 0x20000#32) State.reset) (fun t => t.resp == some ⟨4#32, []⟩) = true := by
  decide +kernel

/-- 41 R146: a register write is held while an operation runs, and stays in front. -/
theorem test_held :
    runs (exec (.wrKey 5#32) { State.reset with busy := true })
      (fun t => t.key == 0#32 && t.port == [.busWrite .word 0x40018010#32 5#32]) = true := by decide +kernel

/-- 70 R281, R283: a reset in the middle of a pulse. -/
theorem test_reset_pulse :
    runs (step { withWords [(0x100, 1#32), (0x104, 2#32)] [] with
        key := 1#32, cmd := cPulse, xlatch := some ⟨.prog, .main, 0x100#32⟩, busy := true, upc := .at .programWord 12
        pend := some (.progWord .main 0x40 (.val 1#32) 0#32), sched := [.reset] })
      (fun t => cell t .main 0x40 == .indet && cell t .main 0x41 == .val 2#32 && t.key == 0#32 && t.cmd == {} &&
        !t.busy) = true := by decide +kernel

/-- A step runs the word placed for it. -/
theorem test_withFetchWord :
    runs (step (State.reset.withFetchWord 32 0x0000000C)) (fun t => t.resp == some ⟨0#32, [0#32]⟩) = true := by
  decide +kernel

/-- The memory's canonical form: writing leaves it, and what is forgotten is not listed. -/
theorem test_memory_canonical :
    arraysWf (withWords [(0x104, 2#32), (0x100, 1#32), (0x104, 3#32)] []) = true ∧
    forgetWords (· == 0x40) (setWord [] 0x40 5#32) = [] := by decide

/-! ### Witnesses: the hypotheses of each obligation can be met, each clause at a boundary -/

/-- A true property of a next state names the state. -/
theorem runs_next {o : Host.Outcome State Fault Refusal} {p : State → Bool} (h : runs o p = true) :
    ∃ t, o = .next t ∧ p t = true := by
  cases o with
  | next t => exact ⟨t, rfl, h⟩
  | fault => cases h
  | refused => cases h

theorem ready_words (m i : List (Nat × Word)) : Ready (withWords m i) :=
  ⟨(by decide : configOk Config.reference = true), (by decide : clockOk State.reset = true), rfl,
    ⟨rfl, rfl, .inl rfl, rfl, rfl, fun h => by cases h⟩⟩

theorem witness_ready : Ready State.reset := ready_words [] []

theorem witness_decodeEncode :
    regsDistinct Config.reference = true ∧ Config.reference.hasCacheCtrl = true ∧ registerOfInstr .rdCache = some .cache ∧
    (Instr.mappedRead 0x1FFFC#32).wf = true ∧
    (0x1FFFC#32 : Word).toNat < Config.reference.mainSize ∧
    registerAt Config.reference (Config.reference.mainBase + 0x1FFFC#32) = false ∧
    (Instr.programArray .info [(0#32, 1#32)]).wf = true := by decide

/-- 00 R8 asks of the register offsets only that they are word aligned: without the cache register another register may
have its default offset, and where two share one the first of 20 R80 answers (the model's choice, 35.md). -/
theorem test_register_offsets :
    (let c := { Config.reference with hasCacheCtrl := false, regs := { key := 0x14#32 } }
     configOk c = true ∧ regsDistinct c = true ∧ decode c (.busWrite .word 0x40018014#32 7#32) = .ok (.wrKey 7#32)) ∧
    (let c := { Config.reference with regs := { key := 0x14#32 } }
     configOk c = true ∧ regsDistinct c = false ∧ decode c (encode c .rdCache) = .ok .rdKey) := by decide +kernel

/-- 10 R36: without the cache register its address is outside the block, or Main's where the mapped window covers it. -/
theorem test_no_cache_register :
    (let c := { Config.reference with hasCacheCtrl := false }
     decode c (.busRead .word 0x40018014#32) = .error (.unmapped 0x40018014#32) ∧
     decode { c with mainBase := 0x40010000#32 } (.busRead .word 0x40018014#32) = .ok (.mappedRead 0x8014#32)) := by
  decide +kernel

theorem witness_encodeDecode :
    decode Config.reference (.request [0x3#32, 0x100#32]) = .ok (.readWord .main 0x100#32) ∧
    decode Config.reference (.busRead .word 0x40018014#32) = .ok .rdCache ∧ registerOfInstr .rdCache = some .cache := by decide

theorem witness_commandWordRoundTrip : layoutOk {} = true ∧ (7#8 : BitVec 8).toNat < 2 ^ (({} : CmdLayout).delayW) ∧
    layoutBit {} 13 = true ∧ layoutBit {} 5 = true ∧ layoutBit {} 2 = false ∧ layoutBit {} 14 = false := by decide

/-- A state with one request presented. -/
def presenting : State := { State.reset with port := [.request [0xC#32]] }

theorem witness_stepRunsDecoded :
    configOk presenting.cfg = true ∧ presenting.port = .request [0xC#32] :: [] ∧
    decode presenting.cfg (.request [0xC#32]) = .ok .getLatency ∧ presenting.sched = [] ∧ presenting.busy = false ∧
    ({ presenting with sched := [.host] } : State).sched = .host :: [] := by decide

theorem witness_stepRunsDecoded_turns :
    configOk State.reset.cfg = true ∧ State.reset.port = [] ∧ State.reset.sched = [] ∧ State.reset.busy = false ∧
    (let s := { State.reset with busy := true, upc := .at .readWord 0 }
     configOk s.cfg = true ∧ s.sched = [] ∧ s.busy = true) ∧
    ({ State.reset with sched := [.sequencer] } : State).sched = .sequencer :: [] ∧
    ({ State.reset with sched := [.elapse 10] } : State).sched = .elapse 10 :: [] ∧
    ({ State.reset with sched := [.clock 8000000] } : State).sched = .clock 8000000 :: [] := by decide

theorem witness_resetEvent :
    configOk State.reset.cfg = true ∧ ({ under cPulse with sched := [.reset], port := [.request [0xC#32]] } : State).sched =
      .reset :: [] ∧ abandoned true { under cPulse with xlatch := some ⟨.prog, .main, 0x100#32⟩ } .main 0x44 = true ∧
    abandoned true { under cPulse with xlatch := some ⟨.prog, .main, 0x100#32⟩ } .main 0x41 = false := by decide

/-- A state in which an operation runs and a pulse is in flight, with the invariant. -/
def pulsing : State :=
  { withWords [(0x104, 2#32)] [] with
    key := 1#32, cmd := cPulse, busy := true, upc := .at .programWord 12, tCmd := 40
    xlatch := some ⟨.prog, .main, 0x1FFFC#32⟩, pend := some (.progWord .main 0x7FFF (.val 1#32) 0#32) }

theorem witness_stepKeepsInv : Inv pulsing ∧ ∃ t, step pulsing = .next t := by
  refine ⟨⟨by decide +kernel, by decide, by decide, by decide, by decide, fun n h => ?_, fun h => ?_⟩, ?_⟩
  · cases h
  · exact absurd h (by decide)
  obtain ⟨t, h, _⟩ := runs_next (o := step pulsing) (p := fun _ => true) (by decide +kernel)
  exact ⟨t, h⟩

theorem witness_stepKeepsConfig :
    (∃ t, step State.reset = .next t) ∧
    (∃ t, step { State.reset with sched := [.clock 8000000] } = .next t ∧ t.coreClkHz = 8000000) ∧
    (∃ t, step { State.reset with faulted := true } = .next t ∧ t.faulted = true) ∧
    ∃ t, step { State.reset with faulted := true, sched := [.reset] } = .next t ∧ t.faulted = false :=
  ⟨⟨_, rfl⟩, ⟨_, rfl, rfl⟩, ⟨_, rfl, rfl⟩, _, rfl, rfl⟩

theorem witness_busyHolds : pulsing.busy = true ∧ (∀ o, Instr.wrCache 5#32 ≠ .mappedRead o) ∧
    pulsing.cfg.hasCacheCtrl = true :=
  ⟨rfl, (fun _ h => by cases h), rfl⟩

theorem witness_busyHolds_header :
    (let s := { pulsing with port := [.request [0x10#32, 7#32]], sched := [.host] }
     s.busy = true ∧ configOk s.cfg = true ∧ s.port = .request (0x10#32 :: [7#32]) :: [] ∧
     headerOpcode 0x10#32 = none ∧ s.sched = .host :: []) := by decide +kernel

/-- A cache update at its read, stalled. -/
def stalledUpdate : State :=
  { State.reset with
    cmd := cPgHv, busy := true, upc := .at .updateCache 1, lat := { op := .updateCache, idx := 39#16 } }

theorem witness_stallHolds :
    stalledUpdate.cmd.nvstr = true ∧ stalledUpdate.upc = .at .updateCache 1 ∧ (0x1FFFC#32 : Word).toNat < stalledUpdate.cfg.mainSize ∧
    0x1FFFC#32 &&& 3#32 = 0#32 := by decide

theorem witness_stallHolds_con :
    ({ under cIdle with cfg := { Config.reference with mappedStallOnCon := true } } : State).cfg.mappedStallOnCon = true ∧
    (under cIdle).cmd.con = true := by decide

theorem witness_delayStep :
    ({ pulsing with upc := .at .programWord 8 } : State).upc = .at .programWord 8 ∧
    (program .programWord)[8]? = some (.act (.delay .nvs)) ∧ 8 + 1 < (program .programWord).length ∧
    ({ pulsing with upc := .at .erasePage 18 } : State).upc = .at .erasePage 18 ∧
    (program .erasePage)[18]? = some (.act (.delay .hv)) ∧ 18 + 1 = (program .erasePage).length := by decide

/-- A request of each operation that the checker lets through after reset, at the last address it admits. -/
def goodRequests : List (Instr × Opcode) :=
  [(.readByte .main 0x1FFFF#32, .readByte), (.readHalfWord .info 0xFFE#32, .readHalfWord),
   (.readWord .main 0x1FFFC#32, .readWord), (.readArray .info [0xFFC#32], .readArray),
   (.programByte .main 0x1FFFF#32 0xFF#32, .programByte),
   (.programHalfWord .main 0x1FFFE#32 0xFFFF#32, .programHalfWord), (.programWord .info 0xFF0#32 0#32, .programWord),
   (.programArray .main [(0x1FFFC#32, 1#32)], .programArray), (.erasePage .main 0x1FFFF#32, .erasePage),
   (.eraseAllPages .allBanks, .eraseAllPages), (.setLatency 7#32, .setLatency), (.getLatency, .getLatency),
   (.updateCache, .updateCache), (.setCacheMode 3#32, .setCacheMode), (.getCacheMode, .getCacheMode)]

theorem witness_acceptance :
    (goodRequests.all fun e => requestOf e.1 == some e.2 && expectedFault { State.reset with sched := [.sequencer] } e.1 == none) =
      true ∧ State.reset.busy = false ∧ ({ State.reset with sched := [.sequencer] } : State).sched ≠ [] := by
  decide +kernel

theorem witness_checkerDecides :
    (requestOf (.readWord .main 1#32)).isSome = true ∧
    expectedFault State.reset (.readWord .main 1#32) = some (.misaligned 0) ∧ State.reset.cfg.checkParams = true ∧
    expectedFault { State.reset with cfg := { Config.reference with checkParams := false } } (.readWord .main 1#32) =
      some (.misaligned 0) ∧ headerOpcode 0x10#32 = none ∧
    ({ State.reset with port := [.request [0x10#32]] } : State).port = .request (0x10#32 :: []) :: [] := by
  decide +kernel

theorem witness_misaligned :
    State.reset.busy = false ∧ State.reset.cfg.checkParams = true ∧ 2#32 &&& 3#32 ≠ 0#32 ∧ 1#32 &&& 1#32 ≠ 0#32 ∧
    (0xFFFF#32 : Word).toNat < 0x10000 ∧ (∀ p ∈ [(4#32, 0#32)], p.1 &&& 3#32 = (0#32 : Word)) ∧
    1 + 1 + 0 ≤ State.reset.cfg.maxLen ∧ Ready State.reset ∧ (0xFF#32 : Word).toNat < 0x100 ∧
    (0xFFF#32 : Word).toNat + 1 ≤ bankSize State.reset.cfg .info :=
  ⟨rfl, rfl, by decide, by decide, by decide,
    List.forall_mem_singleton.2 (by decide), (show 2 ≤ 65535 by omega), witness_ready, by decide, by decide⟩

theorem witness_invalidBank :
    bankOperand (.readWord .allBanks 0#32) = some .allBanks ∧ bankOperand (.readWord .reserved 0#32) = some .reserved ∧
    bankOperand (.eraseAllPages .info) = some .info ∧ Instr.readWord .allBanks 0#32 ≠ .eraseAllPages .allBanks ∧
    elementCount (.readArray .allBanks []) = some 0 ∧ 0 ≤ State.reset.cfg.maxLen := by decide

theorem witness_addressRange :
    bankSize State.reset.cfg .main < (0x20000#32 : Word).toNat + 1 ∧ bankSize State.reset.cfg .info < (0xFFF#32 : Word).toNat + 2 ∧
    0x1000#32 &&& 1#32 = 0#32 ∧ bankSize State.reset.cfg .info < (0x1000#32 : Word).toNat + 2 ∧
    bankSize State.reset.cfg .main < (0x20000#32 : Word).toNat + 4 ∧ 0x20000#32 &&& 3#32 = 0#32 ∧
    bankSize State.reset.cfg .main ≤ (pageOf 0x20000#32).toNat ∧
    (0x1FFFC#32 : Word).toNat + 4 ≤ bankSize State.reset.cfg .main ∧ 0x1FFFC#32 &&& 3#32 = 0#32 := by decide

theorem witness_illegalRequest :
    (0x10#5 ≤ (0x10#32 : Word).extractLsb' 0 5) ∧ (0x20#32 : Word).extractLsb' 0 5 = 0#5 ∧
    (0x83#32 : Word).getLsbD 7 = true ∧ (0x80000003#32 : Word).extractLsb' 24 8 ≠ 0#8 ∧
    ((0x103#32 : Word).extractLsb' 8 16 ≠ 0#16 ∧ (0x103#32 : Word).extractLsb' 0 5 ≠ 0x04#5 ∧
      (0x103#32 : Word).extractLsb' 0 5 ≠ 0x08#5) ∧
    ((0x2B#32 : Word).extractLsb' 5 2 ≠ 0#2 ∧ 0x0B#5 ≤ (0x2B#32 : Word).extractLsb' 0 5) ∧
    ({ State.reset with cfg := { Config.reference with maxLen := 1 } } : State).cfg.maxLen <
      [(0#32, 0#32), ((4#32 : Word), (0#32 : Word))].length := by decide

theorem witness_clockRange :
    (requestOf .getLatency).isSome = true ∧ requestFault State.reset.cfg .getLatency = none ∧
    ({ State.reset with coreClkHz := 0 } : State).coreClkHz = 0 ∧
    2 ^ 32 ≤ countOf State.reset.cfg 107374182400 .erase ∧ countOf State.reset.cfg 107374182375 .erase < 2 ^ 32 := by
  decide +kernel

theorem witness_valueRange :
    0x100 ≤ (0x100#32 : Word).toNat ∧ 0x10000 ≤ (0x10000#32 : Word).toNat ∧
    2 ^ State.reset.cfg.layout.delayW ≤ (8#32 : Word).toNat ∧ 3 < (4#32 : Word).toNat ∧
    State.reset.cfg.hasCacheCtrl = true := by decide

/-- A variant without the cache register. -/
def noCache : State := { State.reset with cfg := { Config.reference with hasCacheCtrl := false } }

theorem witness_unsupported :
    noCache.busy = false ∧ noCache.cfg.checkParams = true ∧ noCache.cfg.hasCacheCtrl = false := by decide

theorem witness_lockedWritesDropped :
    State.reset.busy = false ∧ State.reset.key = 0#32 ∧
    (wordAddr State.reset.adr).toNat < bankSize State.reset.cfg (bankOf State.reset.cmd) := by decide

theorem witness_addressWrite :
    (under cRead).busy = false ∧ (under cRead).key ≠ 0#32 ∧ mode (under cRead) = .read ∧ mode (under cPgHv) = .pgHv ∧
    rowOf 0xFF0#32 = rowOf 0x100#32 ∧ rowOf 0x1000#32 ≠ rowOf 0x100#32 ∧ mode (under cPulse) = .pgPulse := by decide

theorem witness_dataWrite : mode (under cPgHv) = .pgHv ∧ mode (under cHold) = .hvHold ∧ (under cHold).key ≠ 0#32 := by
  decide

theorem witness_dataRead :
    mode (under cIdle) ≠ .read ∧ mode (under cRead) = .read ∧ (under cRead).doStale ≠ 0 ∧
    ({ under cRead with doStale := 0, adr := 0x1FFFF#32 } : State).doStale = 0 ∧
    (wordAddr 0x1FFFF#32).toNat < bankSize State.reset.cfg (bankOf cRead) := by decide

theorem witness_forbiddenCommands :
    (under cIdle).busy = false ∧ (under cIdle).key ≠ 0#32 ∧ modeOf (unpackCmd {} 0x41#32) = .illegal ∧
    modeOf (unpackCmd {} 0x3C1#32) ≠ .illegal ∧ cRead.xe = true ∧ cRead.ifren ≠ (unpackCmd {} 0x3C1#32).ifren ∧
    (modeOf cIdle, modeOf (unpackCmd {} 0x2041#32)) ∉ legalTransitions ∧
    modeOf cIdle ≠ modeOf (unpackCmd {} 0x2041#32) := by decide

/-- `Commands` as a decidable conjunction. -/
theorem commands_of {s : State} {v : Word} {mo mn : Mode} {new : CmdWord}
    (h : s.busy = false ∧ s.key ≠ 0#32 ∧ unpackCmd s.cfg.layout v = new ∧ modeOf s.cmd = mo ∧ modeOf new = mn ∧
      ((s.cmd.xe || new.xe) = true → s.cmd.ifren = new.ifren)) : Commands s v mo mn new :=
  ⟨h.1, h.2.1, h.2.2.1, h.2.2.2.1, h.2.2.2.2.1, h.2.2.2.2.2⟩

theorem witness_quietCommands :
    Commands (under {}) 0x1#32 .off .idle cIdle ∧ Commands (under cIdle) 0#32 .idle .off {} ∧
    Commands (under cRead) 0x1#32 .read .idle cIdle ∧ Commands (under cPgHv) 0x2041#32 .pgHv .hvHold cHold ∧
    Commands (under cPulse) 0x30C1#32 .pgPulse .pgPulse cPulse :=
  ⟨commands_of (by decide), commands_of (by decide),
   commands_of (by decide), commands_of (by decide),
   commands_of (by decide)⟩

/-- A due recovery time, just short and just over. -/
def recovering (us : Nat) : State := { under cIdle with rcvDue := true, tRcv := us }

theorem witness_recoveryCheck :
    Commands (recovering 0) 0x1C1#32 .idle .read cRead ∧ Commands (recovering 1) 0x1041#32 .idle .pgNvs cPgNvs ∧
    Commands (recovering 1) 0x441#32 .idle .erNvs cErNvs ∧ Commands (recovering 0) 0xC41#32 .idle .meNvs cMeNvs ∧
    (recovering 0).tRcv < (recovering 0).cfg.timing.rcv ∧ ¬ (recovering 1).tRcv < (recovering 1).cfg.timing.rcv :=
  ⟨commands_of (by decide), commands_of (by decide),
   commands_of (by decide), commands_of (by decide),
   by decide, by decide⟩

/-- A CommandWord, with times since the last write and since `NVSTR` rose. -/
def timed (c : CmdWord) (cmd hv : Nat) : State := { under c with tCmd := cmd, tHv := hv }

theorem witness_programHighVoltage :
    Commands (timed cPgNvs 5 0) 0x3041#32 .pgNvs .pgHv cPgHv ∧ Commands (timed cPgNvs 4 0) 0x3041#32 .pgNvs .pgHv cPgHv ∧
    ¬ (timed cPgNvs 5 0).tCmd < (timed cPgNvs 5 0).cfg.timing.nvs ∧ (timed cPgNvs 4 0).tCmd < (timed cPgNvs 4 0).cfg.timing.nvs :=
  ⟨commands_of (by decide), commands_of (by decide),
   by decide, by decide⟩

theorem witness_pulseStart :
    Commands { timed cPgHv 10 10 with xlatch := some ⟨.prog, .main, 0x1FFFC#32⟩, adr := 0x1FFFF#32 } 0x30C1#32 .pgHv .pgPulse
      cPulse ∧ (wordAddr 0x1FFFF#32).toNat < bankSize Config.reference .main ∧
    ¬ (timed cPgHv 10 10).tHv < Config.reference.timing.pgs ∧ (timed cPgHv 9 9).tHv < Config.reference.timing.pgs ∧
    Commands (timed cPgHv 10 10) 0x30C1#32 .pgHv .pgPulse cPulse ∧ (timed cPgHv 10 10).xlatch = none :=
  ⟨commands_of (by decide), by decide, by decide, by decide, commands_of (by decide), rfl⟩

theorem witness_pulseEnd :
    Commands { timed cPulse 40 50 with pend := some (.progWord .main 0x40 (.val 1#32) 0#32) } 0x3041#32 .pgPulse .pgHv cPgHv ∧
    ¬ (timed cPulse 40 50).tCmd < Config.reference.timing.prog ∧ (timed cPulse 39 50).tCmd < Config.reference.timing.prog :=
  ⟨commands_of (by decide), by decide, by decide⟩

theorem witness_holdEnds :
    Commands { timed cHold 5 60 with xlatch := some ⟨.erase, .main, 0#32⟩ } 0x1#32 .hvHold .idle cIdle ∧
    Commands { timed cHold 4 60 with xlatch := some ⟨.prog, .main, 0#32⟩ } 0x1#32 .hvHold .idle cIdle ∧
    Commands (timed cMeHold 100 0) 0x1#32 .meHold .idle cIdle ∧ ¬ 5 < Config.reference.timing.nvh ∧
    4 < Config.reference.timing.nvh ∧ ¬ 100 < Config.reference.timing.nvh1 :=
  ⟨commands_of (by decide), commands_of (by decide),
   commands_of (by decide), by decide, by decide, by decide⟩

theorem witness_rowErase :
    Commands { timed cErNvs 5 0 with xlatch := some ⟨.erase, .main, 0x1F00C#32⟩ } 0x2441#32 .erNvs .erHv cErHv ∧
    (pageOf 0x1F00C#32).toNat < bankSize Config.reference .main ∧
    Commands { timed cErHv 40000 40000 with pend := some (.eraseRow .main 0x1F00C#32) } 0x2041#32 .erHv .hvHold cHold ∧
    pendOk Config.reference (some (.eraseRow .main 0x1F00C#32)) = true ∧ ¬ 40000 < Config.reference.timing.erase ∧
    Commands (timed cErNvs 5 0) 0x2441#32 .erNvs .erHv cErHv ∧ (timed cErNvs 5 0).xlatch = none :=
  ⟨commands_of (by decide), by decide,
   commands_of (by decide), by decide, by decide, commands_of (by decide), rfl⟩

theorem witness_massErase :
    configOk Config.reference = true ∧
    Commands { timed cMeNvs 5 0 with xlatch := some ⟨.mass, .main, 0xC#32⟩ } 0x2C41#32 .meNvs .meHv cMeHv ∧
    Commands { timed cMeHv 40000 40000 with pend := some (.eraseSector 3#2 true) } 0x2841#32 .meHv .meHold cMeHold ∧
    ¬ 40000 < Config.reference.timing.me ∧ 39999 < Config.reference.timing.me ∧
    Commands (timed cMeNvs 5 0) 0x2C41#32 .meNvs .meHv cMeHv ∧ (timed cMeNvs 5 0).xlatch = none :=
  ⟨by decide, commands_of (by decide),
   commands_of (by decide), by decide, by decide, commands_of (by decide), rfl⟩

theorem witness_cacheRegister : State.reset.cfg.hasCacheCtrl = true ∧ noCache.cfg.hasCacheCtrl = false ∧
    State.reset.busy = false ∧ ({ noCache with busy := true } : State).cfg.hasCacheCtrl = false := by decide

theorem witness_mappedRead :
    stalled { State.reset with delayLost := true } = false ∧ (0x1FFFC#32 : Word).toNat < State.reset.cfg.mainSize ∧ 0x1FFFC#32 &&& 3#32 = 0#32 ∧ stalled State.reset = false ∧
    tableGet [(0x7FFF, 9#32)] (wordIndex 0x1FFFC#32) = some 9#32 ∧ tableGet State.reset.cache (wordIndex 0x1FFFC#32) = none := by
  decide

theorem witness_cacheAgent :
    configOk State.reset.cfg = true ∧ 4 * 0x7FFF < State.reset.cfg.mainSize ∧
    ({ State.reset with sched := [.cacheFill 0x7FFF] } : State).sched = .cacheFill 0x7FFF :: [] ∧
    cell (withWords [(0x1FFFC, 5#32)] []) .main 0x7FFF = .val 5#32 ∧ stalled (withWords [] []) = false ∧
    cell State.reset .main 0x7FFF = .indet ∧ stalled (under cPgHv) = true := by decide

theorem witness_readWord :
    Ready State.reset ∧ 0xFFC#32 &&& 3#32 = 0#32 ∧ (0xFFC#32 : Word).toNat + 4 ≤ bankSize State.reset.cfg .info :=
  ⟨witness_ready, by decide⟩

theorem witness_subWordReads :
    Ready State.reset ∧ 0x1FFFE#32 &&& 1#32 = 0#32 ∧ (0x1FFFE#32 : Word).toNat + 2 ≤ bankSize State.reset.cfg .main ∧
    (0x1FFFF#32 : Word).toNat + 1 ≤ bankSize State.reset.cfg .main := ⟨witness_ready, by decide⟩

theorem witness_readArray :
    Ready State.reset ∧ [4#32].length + 1 ≤ State.reset.cfg.maxLen ∧ [4#32].length + 1 < 65536 ∧
    ∀ x ∈ [0#32, (4#32 : Word)], x &&& 3#32 = 0#32 ∧ x.toNat + 4 ≤ bankSize State.reset.cfg .info :=
  ⟨witness_ready, (show 2 ≤ 65535 by omega), (show 2 < 65536 by omega),
    List.forall_mem_cons.2 ⟨by decide, List.forall_mem_singleton.2 (by decide)⟩⟩

theorem witness_programWord :
    Ready State.reset ∧ 0xEFC#32 &&& 3#32 = 0#32 ∧ (0xEFC#32 : Word).toNat + 4 ≤ bankSize State.reset.cfg .info ∧
    isProtected State.reset.cfg (selOf .info) 0xEF0#32 = false ∧ isProtected State.reset.cfg (selOf .main) 0xF00#32 = false :=
  ⟨witness_ready, by decide⟩

theorem witness_protectedSkip :
    Ready State.reset ∧ isProtected State.reset.cfg .info (wordAddr 0xFF0#32) = true ∧ 0xFF0#32 &&& 3#32 = 0#32 ∧
    isProtected State.reset.cfg .info (wordAddr 0xFF2#32) = true ∧ 0xFF2#32 &&& 1#32 = 0#32 ∧
    (0xFF3#32 : Word).toNat + 1 ≤ bankSize State.reset.cfg .info ∧ (0xFFFF#32 : Word).toNat < 0x10000 :=
  ⟨witness_ready, by decide⟩

theorem witness_subWordPrograms :
    Ready State.reset ∧ isProtected State.reset.cfg (selOf .info) (wordAddr 0xEF3#32) = false ∧
    (0xEF3#32 : Word).toNat + 1 ≤ bankSize State.reset.cfg .info ∧ 0xEF2#32 &&& 1#32 = 0#32 ∧
    (0xFF#32 : Word).toNat < 0x100 ∧ (0xFFFF#32 : Word).toNat < 0x10000 := ⟨witness_ready, by decide⟩

theorem witness_programArray :
    Ready State.reset ∧ [(0xF00#32, 0#32)].length + 1 ≤ State.reset.cfg.maxLen ∧
    ∀ x ∈ [((0xEF0#32 : Word), (5#32 : Word)), (0xF00#32, 0#32)], x.1 &&& 3#32 = 0#32 ∧ x.1.toNat + 4 ≤ bankSize State.reset.cfg .info :=
  ⟨witness_ready, (show 2 ≤ 65535 by omega),
    List.forall_mem_cons.2 ⟨by decide, List.forall_mem_singleton.2 (by decide)⟩⟩

theorem witness_erasePage : Ready State.reset ∧ (pageOf 0x1FFFF#32).toNat < bankSize State.reset.cfg .main :=
  ⟨witness_ready, by decide⟩

theorem witness_latency : Ready State.reset ∧ (7#32 : Word).toNat < 2 ^ State.reset.cfg.layout.delayW :=
  ⟨witness_ready, by decide⟩

theorem witness_cacheMode : Ready State.reset ∧ State.reset.cfg.hasCacheCtrl = true ∧ (3#32 : Word).toNat ≤ 3 :=
  ⟨witness_ready, by decide⟩

theorem witness_updateCache : Ready State.reset ∧ stalled State.reset = false ∧ tableSorted State.reset.cache = true :=
  ⟨witness_ready, by decide⟩

theorem witness_quiescence :
    Ready State.reset ∧ stalled State.reset = false ∧ (goodRequests.all fun e =>
      e.1.wf && (requestOf e.1).isSome && expectedFault State.reset e.1 == none) = true :=
  ⟨witness_ready, by decide⟩

/-- A program operation under way, with its shadows read. -/
def carrying : State :=
  { pulsing with
    cmd := { cPulse with delay := 5 }
    lat := { op := .programWord, dsh := { delay := 5 }, csh := { cIdle with delay := 5 } } }

theorem witness_lockAndDelay :
    (∃ t, exec .getLatency State.reset = .next t) ∧
    (∃ t, exec (.programWord .main 0x200#32 0#32) State.reset = .next t) ∧
    DelayCarried carrying ∧
    ∃ t, seqStep carrying = .next t := by
  refine ⟨?_, ?_, ?_, ?_⟩
  · obtain ⟨t, h, _⟩ := runs_next (o := exec .getLatency State.reset) (p := fun _ => true) (by decide +kernel)
    exact ⟨t, h⟩
  · obtain ⟨t, h, _⟩ := runs_next (o := exec (.programWord .main 0x200#32 0#32) State.reset) (p := fun _ => true)
      (by decide +kernel)
    exact ⟨t, h⟩
  · rintro op line h
    cases h
    exact ⟨fun _ => rfl, fun _ => rfl⟩
  · obtain ⟨t, h, _⟩ := runs_next (o := seqStep carrying) (p := fun _ => true)
      (by decide +kernel)
    exact ⟨t, h⟩

theorem witness_roundTrip :
    Ready State.reset ∧ 0xFFC#32 &&& 3#32 = 0#32 ∧ (0xFFC#32 : Word).toNat + 4 ≤ bankSize State.reset.cfg .info ∧
    isProtected State.reset.cfg (selOf .info) 0xFFC#32 = false ∧
    (firstSector State.reset.cfg (selOf .info)).toNat ≤ (sectorOf 0xFFC#32).toNat ∧
    (firstSector State.reset.cfg (selOf .main)).toNat ≤ (sectorOf 0#32).toNat ∧ State.reset.cfg.hasHwInfoProt = false :=
  ⟨witness_ready, by decide⟩

theorem witness_burstEquivalence :
    Ready State.reset ∧ [((0xF00#32 : Word), (0#32 : Word)), (0xEF4#32, 5#32)] ≠ [] ∧
    (∀ p ∈ [((0xF00#32 : Word), (0#32 : Word)), (0xEF4#32, 5#32)], p.1 &&& 3#32 = 0#32 ∧
      p.1.toNat + 4 ≤ bankSize State.reset.cfg .info) ∧
    (∃ p ∈ [((0xF00#32 : Word), (0#32 : Word)), (0xEF4#32, 5#32)], isProtected State.reset.cfg (selOf .info) p.1 = false) ∧
    ∀ p ∈ [((0xF00#32 : Word), (0#32 : Word))], isProtected State.reset.cfg (selOf .info) p.1 = true :=
  ⟨witness_ready, by decide, List.forall_mem_cons.2 ⟨by decide, List.forall_mem_singleton.2 (by decide)⟩,
    ⟨(0xEF4#32, 5#32), by decide, by decide⟩, List.forall_mem_singleton.2 (by decide)⟩

theorem witness_protectedNoOp :
    Ready State.reset ∧ isProtected State.reset.cfg .info (indexAddr 0x3FC) = true ∧
    (∃ t, execAll [.programWord .info 0xFF0#32 0#32, .programByte .info 0xFF1#32 0#32] State.reset = .next t) ∧
    (Instr.programByte .info 0xFF1#32 0#32).wf = true := by
  refine ⟨witness_ready, by decide, ?_, by decide⟩
  obtain ⟨t, h, _⟩ := runs_next
    (o := execAll [.programWord .info 0xFF0#32 0#32, .programByte .info 0xFF1#32 0#32] State.reset) (p := fun _ => true)
    (by decide +kernel)
  exact ⟨t, h⟩

theorem witness_programsOnlyClear :
    ∃ t, exec (.programWord .main 0x200#32 0x0F0F0F0F#32) (withWords [(0x200, 0xCAFEF00D#32)] []) = .next t ∧
      cell t .main 0x80 = .val 0x0A0E000D#32 := by
  obtain ⟨t, h, hp⟩ := runs_next
    (o := exec (.programWord .main 0x200#32 0x0F0F0F0F#32) (withWords [(0x200, 0xCAFEF00D#32)] []))
    (p := fun t => cell t .main 0x80 == .val 0x0A0E000D#32) (by decide +kernel)
  exact ⟨t, h, by simpa using hp⟩

end Sys2Proof.Tests
end

/-!
What one step of the machine is on each agent's turn (00 R9), and what every step keeps.
-/

namespace Sys2Proof.Machine

/-! ### Whose turn it is -/

/-- A step answers only under a configuration record in range (00 R6). -/
theorem configOk_of_step {s t : State} (h : step s = .next t) : configOk s.cfg = true := by
  by_contra hc
  simp [step, hc] at h

/-- A turn of `sched` decides which agent moves. -/
theorem step_of_turn {s : State} {u : Turn} {ts : List Turn} (hc : configOk s.cfg = true) (hs : s.sched = u :: ts) :
    step s = turnStep u { s with sched := ts } := by
  simp [step, hc, hs]

/-- The default turn while an operation runs. -/
theorem step_of_busy {s : State} (hc : configOk s.cfg = true) (hs : s.sched = []) (hb : s.busy = true) :
    step s = seqStep s := by
  simp [step, hc, hs, hb]

/-- The default turn while no operation runs. -/
theorem step_of_not_busy {s : State} (hc : configOk s.cfg = true) (hs : s.sched = []) (hb : s.busy = false) :
    step s = hostStep s := by
  simp [step, hc, hs, hb]

/-! ### What an agent does in its turn -/

theorem hostStep_of_decode {s : State} {tx : PortTx} {rest : List PortTx} {i : Instr} (hp : s.port = tx :: rest)
    (hd : decode s.cfg tx = .ok i) : hostStep s = exec i { s with port := rest } := by
  simp [hostStep, hp, hd]

theorem hostStep_of_no_port {s : State} (hp : s.port = []) : hostStep s = .next s := by
  simp [hostStep, hp]

theorem elapse_of_busy {s : State} (us : Nat) (hb : s.busy = true) : elapse us s = s := by simp [elapse, hb]

theorem elapse_of_not_busy {s : State} (us : Nat) (hb : s.busy = false) : elapse us s = advance s us := by
  simp [elapse, hb]

theorem clockTo_of_busy {s : State} (hz : Nat) (hb : s.busy = true) : clockTo hz s = .refused .clockChange := by
  simp [clockTo, hb]

theorem clockTo_of_not_busy {s : State} (hz : Nat) (hb : s.busy = false) :
    clockTo hz s = .next { s with coreClkHz := hz } := by
  simp [clockTo, hb]

/-- Settles O7: on each turn `step` is that agent's move, and the move is given by its own equation. -/
theorem stepRunsDecoded : Obligations.StepRunsDecoded := by
  intro s hc
  refine ⟨fun tx rest i hp hd => ⟨fun hs hb => ?_, fun ts hs => ?_⟩,
    fun hp => ⟨fun hs hb => ?_, fun ts hs => ?_⟩,
    step_of_busy hc, fun ts hs => step_of_turn hc hs,
    fun us ts hs => ⟨fun hb => ?_, fun hb => ?_⟩, fun hz ts hs => ⟨fun hb => ?_, fun hb => ?_⟩⟩
  · exact (step_of_not_busy hc hs hb).trans (hostStep_of_decode hp hd)
  · exact (step_of_turn hc hs).trans (hostStep_of_decode (s := { s with sched := ts }) hp hd)
  · exact (step_of_not_busy hc hs hb).trans (hostStep_of_no_port hp)
  · exact (step_of_turn hc hs).trans (hostStep_of_no_port (s := { s with sched := ts }) hp)
  · exact (step_of_turn hc hs).trans (congrArg _ (elapse_of_busy (s := { s with sched := ts }) us hb))
  · exact (step_of_turn hc hs).trans (congrArg _ (elapse_of_not_busy (s := { s with sched := ts }) us hb))
  · exact (step_of_turn hc hs).trans (clockTo_of_busy (s := { s with sched := ts }) hz hb)
  · exact (step_of_turn hc hs).trans (clockTo_of_not_busy (s := { s with sched := ts }) hz hb)

/-! ### What every step keeps -/

theorem stepKeeps_elapse (us : Nat) (s : State) : StepKeeps s (elapse us s) := by
  cases hb : s.busy with
  | true => rw [elapse_of_busy us hb]; exact .refl s
  | false => rw [elapse_of_not_busy us hb]; exact stepKeeps_keeps (.aside (.refl s))

/-- Every turn but a Reset and a change of the clock input is a move that keeps what `StepKeeps` lists. -/
theorem turnStep_cases {u : Turn} {s t : State} (h : turnStep u s = .next t) :
    StepKeeps s t ∨ (u = .reset ∧ t = resetEvent s) ∨
      ∃ hz, u = .clock hz ∧ s.busy = false ∧ t = { s with coreClkHz := hz } := by
  cases u with
  | host => exact .inl (stepKeeps_hostStep h)
  | sequencer => exact .inl (stepKeeps_seqStep h)
  | reset => cases h; exact .inr (.inl ⟨rfl, rfl⟩)
  | cacheFill w => cases h; exact .inl (stepKeeps_fill w s)
  | cacheEvict w => cases h; exact .inl (stepKeeps_evict w s)
  | elapse us => cases h; exact .inl (stepKeeps_elapse us s)
  | clock hz =>
    have h' : clockTo hz s = .next t := h
    by_cases hb : s.busy = true
    · rw [clockTo_of_busy hz hb] at h'; cases h'
    · rw [Bool.not_eq_true] at hb
      rw [clockTo_of_not_busy hz hb] at h'; cases h'; exact .inr (.inr ⟨hz, rfl, hb, rfl⟩)

/-- The default turn keeps what any agent's move keeps. -/
theorem stepKeeps_default {s t : State} (hs : s.sched = []) (h : step s = .next t) : StepKeeps s t := by
  have hc := configOk_of_step h
  cases hb : s.busy with
  | true => exact stepKeeps_seqStep (step_of_busy hc hs hb ▸ h)
  | false => exact stepKeeps_hostStep (step_of_not_busy hc hs hb ▸ h)

/-- What a step can be: a move of an agent after its turn (if any) was taken, a Reset, or a change of the clock input. -/
theorem step_cases {s t : State} (h : step s = .next t) :
    StepKeeps { s with sched := t.sched } t ∨
      (∃ ts, s.sched = .reset :: ts ∧ t = resetEvent { s with sched := ts }) ∨
      ∃ hz ts, s.sched = .clock hz :: ts ∧ s.busy = false ∧ t = { s with sched := ts, coreClkHz := hz } := by
  cases hs : s.sched with
  | nil =>
    have k := stepKeeps_default hs h
    rw [k.sched]
    exact .inl k
  | cons u ts =>
    rw [step_of_turn (configOk_of_step h) hs] at h
    obtain k | ⟨rfl, rfl⟩ | ⟨hz, rfl, hb, rfl⟩ := turnStep_cases h
    · rw [k.sched]
      exact .inl k
    · exact .inr (.inl ⟨ts, rfl, rfl⟩)
    · exact .inr (.inr ⟨hz, ts, rfl, hb, rfl⟩)

/-- Settles O12: a move keeps the configuration, the clock and a `FAULTED` that is set; Reset keeps the first two, a
change of the clock input the first and the last. -/
theorem stepKeepsConfig : Obligations.StepKeepsConfig := by
  intro s t h
  obtain k | ⟨ts, hs, rfl⟩ | ⟨hz, ts, hs, -, rfl⟩ := step_cases h
  · exact ⟨k.cfg, .inl k.clk, fun hf => .inl (k.faulted hf)⟩
  · exact ⟨rfl, .inl rfl, fun _ => .inr ⟨ts, hs⟩⟩
  · exact ⟨rfl, .inr ⟨ts, hs⟩, .inl⟩

end Sys2Proof.Machine

/-!
The state right after reset (10 R49), under every configuration and clock.
-/

namespace Sys2Proof.Machine

/-- The delay field does not enter the mode decode (41 R151), so its reset value does not matter. -/
theorem mode_resetWith (c : Config) (hz : Nat) : mode (State.resetWith c hz) = .off := rfl

/-- A bank of which no byte is listed is in canonical form, whatever its size. -/
theorem memWf_nil (size : Nat) : memWf size [] = true := rfl

/-- Both banks are empty after reset. -/
theorem arraysWf_resetWith (c : Config) (hz : Nat) : arraysWf (State.resetWith c hz) = true := by
  have hmain := memWf_nil (bankSize c .main)
  have hinfo := memWf_nil (bankSize c .info)
  exact Bool.and_eq_true_iff.2 ⟨hmain, hinfo⟩

/-- The sequencer is at rest after reset: neither `BUSY` nor on a line. -/
theorem busy_iff_resetWith (c : Config) (hz : Nat) :
    (State.resetWith c hz).busy = true ↔ (State.resetWith c hz).upc ≠ .idle :=
  iff_of_false Bool.false_ne_true (fun h => h rfl)

/-- Settles O8: each entry of the table is a field of `State.resetWith`; the mode is that of its command word. -/
theorem resetValues : Obligations.ResetValues := by
  intro c hz
  refine ⟨rfl, rfl, mode_resetWith c hz, ?_⟩
  and_intros <;> rfl

/-- Settles O10: the array and the cache are empty, no cell operation is in flight, the sequencer is at rest, and the
cache mode is 0 with or without its register. -/
theorem invAtReset : Obligations.InvAtReset := fun c hz =>
  { arrays := arraysWf_resetWith c hz
    cacheSorted := rfl
    pend := rfl
    busyUpc := busy_iff_resetWith c hz
    upcLine := rfl
    modeOp := fun _ h => nomatch h
    noMode := fun _ => rfl }

end Sys2Proof.Machine

/-!
The invariant of the state along every step (20 R62, 10 R27, R28, R46, 47 R230, R236).
-/

namespace Sys2Proof.Machine

/-- The invariant does not speak of the inputs: whose turn comes next, and the clock. -/
theorem Inv.withInputs {s : State} (hi : Inv s) (ts : List Turn) (hz : Nat) :
    Inv { s with sched := ts, coreClkHz := hz } :=
  { arrays := hi.arrays
    cacheSorted := hi.cacheSorted
    pend := hi.pend
    busyUpc := hi.busyUpc
    upcLine := hi.upcLine
    modeOp := hi.modeOp
    noMode := hi.noMode }

/-- Settles O11: taking a turn touches inputs only; an agent's move and Reset keep the invariant, and a change of the
clock input touches inputs only again. -/
theorem stepKeepsInv : Obligations.StepKeepsInv := by
  intro s t hi h
  have hc : configOk s.cfg = true := configOk_of_step h
  obtain hmove | ⟨ts, -, rfl⟩ | ⟨hz, ts, -, -, rfl⟩ := step_cases h
  · exact hmove.inv hc (hi.withInputs t.sched s.coreClkHz)
  · exact inv_resetEvent (hi.withInputs ts s.coreClkHz)
  · exact hi.withInputs ts hz

end Sys2Proof.Machine

/-!
The operation map read by the fields of a header (30 R103, R106).
-/

namespace Sys2Proof

/-- The fields of a header that names `op` (30 R103, R106, R109), said without the map's masks. -/
structure HeaderFields (h : Word) (op : Opcode) : Prop where
  opcode : h.extractLsb' 0 5 = op.code
  bit7 : h.getLsbD 7 = false
  top : h.extractLsb' 24 8 = 0#8
  len : headerLen h ≠ 0 → op = .readArray ∨ op = .programArray
  bank : headerBank h ≠ .main → op ≠ .setLatency ∧ op ≠ .getLatency ∧ op ≠ .updateCache ∧ op ≠ .setCacheMode ∧
    op ≠ .getCacheMode

/-- What the rows of the map have in common: the fixed fields of the pattern, and which of the three masks a row has.
The masks leave open `LEN` and `BNK`, `BNK` only, or nothing. -/
theorem headerRows_fields : ∀ r ∈ headerRows,
    (r.pat.extractLsb' 0 5 = r.op.code ∧ r.pat.getLsbD 7 = false ∧ r.pat.extractLsb' 24 8 = 0#8) ∧
    ((r.mask = 0xFF00009F#32 ∧ (r.op = .readArray ∨ r.op = .programArray)) ∨
     (r.mask = 0xFFFFFF9F#32 ∧ r.pat.extractLsb' 8 16 = 0#16 ∧
       r.op ≠ .setLatency ∧ r.op ≠ .getLatency ∧ r.op ≠ .updateCache ∧ r.op ≠ .setCacheMode ∧ r.op ≠ .getCacheMode) ∨
     (r.mask = 0xFFFFFFFF#32 ∧ headerLen r.pat = 0 ∧ headerBank r.pat = .main)) := by
  decide

/-- A header that matches a row of the map has the fields of the row's operation. -/
theorem headerFields_of_match {h : Word} {r : HeaderRow} (hr : r ∈ headerRows) (hm : h &&& r.mask = r.pat) :
    HeaderFields h r.op := by
  obtain ⟨⟨hop, h7, h24⟩, ⟨hk, harr⟩ | ⟨hk, hlen, hbank⟩ | ⟨hk, hlen, hbank⟩⟩ := headerRows_fields r hr <;> rw [hk] at hm
  · obtain ⟨e0, e7, e24⟩ := match_array hm
    refine ⟨e0.trans hop, e7.trans h7, e24.trans h24, fun _ => harr, fun _ => ?_⟩
    rcases harr with e | e <;> rw [e] <;> decide
  · obtain ⟨e0, e7, e24, e8⟩ := match_scalar hm
    have hz : headerLen h = 0 := congrArg BitVec.toNat (e8.trans hlen)
    exact ⟨e0.trans hop, e7.trans h7, e24.trans h24, fun hn => absurd hz hn, fun _ => hbank⟩
  · obtain rfl : h = r.pat := (BitVec.and_allOnes (x := h)).symm.trans hm
    exact ⟨hop, h7, h24, fun hn => absurd hlen hn, fun hn => absurd hbank hn⟩

theorem headerFields_of_headerOpcode {h : Word} {op : Opcode} (ho : headerOpcode h = some op) : HeaderFields h op := by
  obtain ⟨r, hr, rfl⟩ := Option.map_eq_some_iff.1 ho
  exact headerFields_of_match (List.mem_of_find?_eq_some hr) (by simpa using List.find?_some hr)

/-- A header names the operation whose fields it has: it is the encoder's header for them, which the map finds. -/
theorem headerOpcode_of_headerFields {h : Word} {op : Opcode} (hf : HeaderFields h op) : headerOpcode h = some op := by
  rw [header_of_fields hf.opcode hf.bit7 hf.top]
  by_cases harr : op = .readArray ∨ op = .programArray
  · exact headerOpcode_array op _ _ harr
  · have hlen : headerLen h = 0 := by_contra fun hn => harr (hf.len hn)
    rw [hlen]
    refine headerOpcode_scalar op _ (not_or.1 harr) (or_iff_not_imp_left.2 fun hb => ?_)
    simpa using hf.bank hb

/-- Settles O3: the masks of the map test exactly these fields. -/
theorem operationMap : Obligations.OperationMap := fun _ _ =>
  ⟨fun ho =>
    have hf := headerFields_of_headerOpcode ho
    ⟨hf.opcode, hf.bit7, hf.top, hf.len, hf.bank⟩,
   fun ⟨h0, h7, h24, hlen, hbank⟩ => headerOpcode_of_headerFields ⟨h0, h7, h24, hlen, hbank⟩⟩

end Sys2Proof

/-!
What a host presents for an instruction, and what a transaction decodes to (30 R103, R113, 20 R80, R81).
-/

namespace Sys2Proof

/-! ### Requests -/

/-- The operand words of a request, in the order of 30 R103. -/
def operandsOf : Instr → List Word
  | .readByte _ a | .readHalfWord _ a | .readWord _ a | .erasePage _ a => [a]
  | .programByte _ a v | .programHalfWord _ a v | .programWord _ a v => [a, v]
  | .readArray _ as => as
  | .programArray _ ps => unpair ps
  | .setLatency v | .setCacheMode v => [v]
  | _ => []

open Machine

/-- The descriptor `h :: ops` carries the request `i` for `op`: its operand words, and in the header its bank and its
element count where it has them. -/
structure Carries (h : Word) (op : Opcode) (ops : List Word) (i : Instr) : Prop where
  op : requestOf i = some op
  words : operandsOf i = ops
  bank : ∀ b, bankOperand i = some b → headerBank h = b
  len : ∀ n, elementCount i = some n → headerLen h = n

theorem operands0_eq_ok {h : Word} {i j : Instr} {ops : List Word} :
    operands0 h i ops = .ok j ↔ ops = [] ∧ i = j := by
  rcases ops with _ | ⟨a, as⟩ <;> simp [operands0]

theorem operands1_eq_ok {h : Word} {f : Word → Instr} {j : Instr} {ops : List Word} :
    operands1 h f ops = .ok j ↔ ∃ a, ops = [a] ∧ f a = j := by
  rcases ops with _ | ⟨a, _ | ⟨b, bs⟩⟩ <;> simp [operands1]

theorem operands2_eq_ok {h : Word} {f : Word → Word → Instr} {j : Instr} {ops : List Word} :
    operands2 h f ops = .ok j ↔ ∃ a v, ops = [a, v] ∧ f a v = j := by
  rcases ops with _ | ⟨a, _ | ⟨b, _ | ⟨d, ds⟩⟩⟩ <;> simp [operands2]

/-- The operand words of `read_array` are its addresses, as many as `LEN` says. -/
theorem decodeOperands_readArray {h : Word} {ops : List Word} {j : Instr} :
    decodeOperands h .readArray ops = .ok j ↔ ops.length = headerLen h ∧ .readArray (headerBank h) ops = j := by
  simp only [decodeOperands]
  split_ifs with hl <;> simp [hl]

/-- The operand words of `program_array` are its pairs interleaved, as many pairs as `LEN` says. -/
theorem decodeOperands_programArray {h : Word} {ops : List Word} {j : Instr} :
    decodeOperands h .programArray ops = .ok j ↔
      ∃ ps, pairUp ops = some ps ∧ ps.length = headerLen h ∧ .programArray (headerBank h) ps = j := by
  simp only [decodeOperands]
  cases pairUp ops with
  | none => simp
  | some ps => by_cases hl : ps.length = headerLen h <;> simp [hl]

theorem carries_of_decodeOperands {h : Word} {op : Opcode} {ops : List Word} {i : Instr}
    (hd : decodeOperands h op ops = .ok i) : Carries h op ops i := by
  cases op
  case readArray =>
    obtain ⟨hl, rfl⟩ := decodeOperands_readArray.1 hd
    exact ⟨rfl, rfl, by simp [bankOperand], by simp [elementCount, hl]⟩
  case programArray =>
    obtain ⟨ps, hp, hl, rfl⟩ := decodeOperands_programArray.1 hd
    exact ⟨rfl, unpair_of_pairUp ops ps hp, by simp [bankOperand], by simp [elementCount, hl]⟩
  case eraseAllPages | getLatency | updateCache | getCacheMode =>
    obtain ⟨rfl, rfl⟩ := operands0_eq_ok.1 hd
    exact ⟨rfl, rfl, by simp [bankOperand], by simp [elementCount]⟩
  case programByte | programHalfWord | programWord =>
    obtain ⟨a, v, rfl, rfl⟩ := operands2_eq_ok.1 hd
    exact ⟨rfl, rfl, by simp [bankOperand], by simp [elementCount]⟩
  case readByte | readHalfWord | readWord | erasePage | setLatency | setCacheMode =>
    obtain ⟨a, rfl, rfl⟩ := operands1_eq_ok.1 hd
    exact ⟨rfl, rfl, by simp [bankOperand], by simp [elementCount]⟩

theorem decodeOperands_of_carries {h : Word} {op : Opcode} {ops : List Word} {i : Instr} (hc : Carries h op ops i) :
    decodeOperands h op ops = .ok i := by
  obtain ⟨hop, rfl, hbank, hlen⟩ := hc
  cases i <;> cases hop
  case readArray b as => exact decodeOperands_readArray.2 ⟨(hlen _ rfl).symm, by rw [hbank b rfl]; rfl⟩
  case programArray b ps =>
    exact decodeOperands_programArray.2 ⟨ps, pairUp_unpair ps, (hlen _ rfl).symm, by rw [hbank b rfl]⟩
  case eraseAllPages b => exact (operands0_eq_ok (h := h)).2 ⟨rfl, by rw [hbank b rfl]⟩
  case getLatency | updateCache | getCacheMode => rfl
  case setLatency | setCacheMode => rfl
  case programByte b a v | programHalfWord b a v | programWord b a v =>
    exact (operands2_eq_ok (h := h)).2 ⟨a, v, rfl, by rw [hbank b rfl]⟩
  case readByte b a | readHalfWord b a | readWord b a | erasePage b a =>
    exact (operands1_eq_ok (h := h)).2 ⟨a, rfl, by rw [hbank b rfl]⟩

/-- A descriptor decodes to the request that it carries, under a header of that operation. -/
theorem decode_request_eq_ok {c : Config} {ws : List Word} {i : Instr} :
    decode c (.request ws) = .ok i ↔
      ∃ h op ops, ws = h :: ops ∧ headerOpcode h = some op ∧ Carries h op ops i := by
  constructor
  · intro hd
    cases ws with
    | nil => cases hd
    | cons h ops =>
      simp only [decode, decodeRequest] at hd
      cases ho : headerOpcode h with
      | none => simp [ho] at hd
      | some op => exact ⟨h, op, ops, rfl, ho, carries_of_decodeOperands (by simpa [ho] using hd)⟩
  · rintro ⟨h, op, ops, rfl, ho, hc⟩
    simpa [decode, decodeRequest, ho] using decodeOperands_of_carries hc

/-- The header a request is presented under (30 R103): `BNK` and `LEN` are zero where it has no such operand. -/
def headerOf (op : Opcode) (i : Instr) : Word := header op ((bankOperand i).getD .main) ((elementCount i).getD 0)

theorem encode_request (c : Config) {i : Instr} {op : Opcode} (h : requestOf i = some op) :
    encode c i = .request (headerOf op i :: operandsOf i) := by
  cases i <;> cases h <;> rfl

/-- Only the array operations have an element count. -/
theorem elementCount_isSome {i : Instr} {op : Opcode} (h : requestOf i = some op) :
    (elementCount i).isSome = true ↔ op = .readArray ∨ op = .programArray := by
  cases i <;> cases h <;> simp [elementCount]

/-- The latency and cache operations have no bank. -/
theorem bankOperand_eq_none {i : Instr} {op : Opcode} (h : requestOf i = some op) :
    bankOperand i = none ↔ op ∈ [Opcode.setLatency, .getLatency, .updateCache, .setCacheMode, .getCacheMode] := by
  cases i <;> cases h <;> simp [bankOperand]

/-- Only the element count can keep a request from being well formed: it must fit the 16 bits of `LEN`. -/
theorem wf_iff_of_request {i : Instr} {op : Opcode} (h : requestOf i = some op) :
    i.wf = true ↔ ∀ n, elementCount i = some n → n < 65536 := by
  cases i <;> cases h <;> simp [Instr.wf, elementCount]

/-- A request is no register transaction, so it asks for no CacheCtrl. -/
theorem registerOfInstr_of_request {i : Instr} {op : Opcode} (h : requestOf i = some op) : registerOfInstr i = none := by
  cases i <;> cases h <;> rfl

theorem headerOpcode_headerOf {i : Instr} {op : Opcode} (h : requestOf i = some op) :
    headerOpcode (headerOf op i) = some op := by
  by_cases harr : op = .readArray ∨ op = .programArray
  · exact headerOpcode_array op _ _ harr
  · have hlen : elementCount i = none := by simpa [harr] using elementCount_isSome h
    rw [headerOf, hlen]
    refine headerOpcode_scalar op _ (not_or.1 harr) (or_iff_not_imp_right.2 fun hop => ?_)
    rw [(bankOperand_eq_none h).2 (not_not.1 hop)]
    rfl

theorem carries_headerOf {i : Instr} {op : Opcode} (h : requestOf i = some op) (hw : i.wf = true) :
    Carries (headerOf op i) op (operandsOf i) i where
  op := h
  words := rfl
  bank b hb := by rw [headerOf, headerBank_header, hb, Option.getD_some]
  len n hn := by rw [headerOf, hn, Option.getD_some, headerLen_header _ _ _ ((wf_iff_of_request h).1 hw n hn)]

/-- The header a request was decoded under is the one it is presented under: a field the request has no operand for is
zero, as the map asks. -/
theorem eq_headerOf {h : Word} {op : Opcode} {ops : List Word} {i : Instr} (ho : headerOpcode h = some op)
    (hc : Carries h op ops i) : h = headerOf op i := by
  have hf := headerFields_of_headerOpcode ho
  have hbank : headerBank h = (bankOperand i).getD .main := by
    cases hb : bankOperand i with
    | some b => exact hc.bank b hb
    | none => by_contra hn; simpa [hf.bank hn] using (bankOperand_eq_none hc.op).1 hb
  have hlen : headerLen h = (elementCount i).getD 0 := by
    cases hn : elementCount i with
    | some n => exact hc.len n hn
    | none => by_contra h0; simpa [hn] using (elementCount_isSome hc.op).2 (hf.len h0)
  rw [headerOf, ← hbank, ← hlen]
  exact header_of_fields hf.opcode hf.bit7 hf.top

theorem decode_encode_request (c : Config) {i : Instr} {op : Opcode} (h : requestOf i = some op) (hw : i.wf = true) :
    decode c (encode c i) = .ok i := by
  rw [encode_request c h]
  exact decode_request_eq_ok.2 ⟨_, op, _, rfl, headerOpcode_headerOf h, carries_headerOf h hw⟩

theorem encode_of_decode_request {c : Config} {ws : List Word} {i : Instr} (hd : decode c (.request ws) = .ok i) :
    encode c i = .request ws ∧ i.wf = true ∧ CacheExists c i := by
  obtain ⟨h, op, ops, rfl, ho, hc⟩ := decode_request_eq_ok.1 hd
  refine ⟨?_, (wf_iff_of_request hc.op).2 fun n hn => ?_, fun hr => ?_⟩
  · rw [encode_request c hc.op, ← eq_headerOf ho hc, hc.words]
  · rw [← hc.len n hn]
    exact (h.extractLsb' 8 16).isLt
  · rw [registerOfInstr_of_request hc.op] at hr; cases hr

/-! ### Bus accesses -/

/-- The write of a register (30 R113). -/
def writeInstr : RegName → Word → Instr
  | .cmd => .wrCmd
  | .adr => .wrAdr
  | .di => .wrDI
  | .dout => .wrDO
  | .key => .wrKey
  | .cache => .wrCache

/-- The read of a register (30 R113). -/
def readInstr : RegName → Instr
  | .cmd => .rdCmd
  | .adr => .rdAdr
  | .di => .rdDI
  | .dout => .rdDO
  | .key => .rdKey
  | .cache => .rdCache

/-- The four ways to reach the block: a request, the write and the read of a register, and a mapped read. -/
theorem instr_cases (i : Instr) :
    (∃ op, requestOf i = some op) ∨ (∃ r v, i = writeInstr r v) ∨ (∃ r, i = readInstr r) ∨ ∃ o, i = .mappedRead o := by
  cases i
  case wrCmd v => exact .inr (.inl ⟨.cmd, v, rfl⟩)
  case wrAdr v => exact .inr (.inl ⟨.adr, v, rfl⟩)
  case wrDI v => exact .inr (.inl ⟨.di, v, rfl⟩)
  case wrDO v => exact .inr (.inl ⟨.dout, v, rfl⟩)
  case wrKey v => exact .inr (.inl ⟨.key, v, rfl⟩)
  case wrCache v => exact .inr (.inl ⟨.cache, v, rfl⟩)
  case rdCmd => exact .inr (.inr (.inl ⟨.cmd, rfl⟩))
  case rdAdr => exact .inr (.inr (.inl ⟨.adr, rfl⟩))
  case rdDI => exact .inr (.inr (.inl ⟨.di, rfl⟩))
  case rdDO => exact .inr (.inr (.inl ⟨.dout, rfl⟩))
  case rdKey => exact .inr (.inr (.inl ⟨.key, rfl⟩))
  case rdCache => exact .inr (.inr (.inl ⟨.cache, rfl⟩))
  case mappedRead o => exact .inr (.inr (.inr ⟨o, rfl⟩))
  all_goals exact .inl ⟨_, rfl⟩

@[simp] theorem registerOfInstr_writeInstr (r : RegName) (v : Word) : registerOfInstr (writeInstr r v) = some r := by
  cases r <;> rfl

@[simp] theorem registerOfInstr_readInstr (r : RegName) : registerOfInstr (readInstr r) = some r := by
  cases r <;> rfl

@[simp] theorem wf_writeInstr (r : RegName) (v : Word) : (writeInstr r v).wf = true := by cases r <;> rfl

@[simp] theorem wf_readInstr (r : RegName) : (readInstr r).wf = true := by cases r <;> rfl

@[simp] theorem encode_writeInstr (c : Config) (r : RegName) (v : Word) :
    encode c (writeInstr r v) = .busWrite .word (c.regs.base + c.regs.offset r) v := by
  cases r <;> rfl

@[simp] theorem encode_readInstr (c : Config) (r : RegName) :
    encode c (readInstr r) = .busRead .word (c.regs.base + c.regs.offset r) := by
  cases r <;> rfl

theorem decodeBusWrite_eq_ok {c : Config} {a v : Word} {i : Instr} :
    decodeBusWrite c a v = .ok i ↔ ∃ r, registerOf c (a - c.regs.base) = some r ∧ writeInstr r v = i := by
  simp only [decodeBusWrite]
  cases registerOf c (a - c.regs.base) with
  | none => simp
  | some r => cases r <;> simp [writeInstr]

theorem decodeBusRead_eq_ok {c : Config} {a : Word} {i : Instr} :
    decodeBusRead c a = .ok i ↔
      (∃ r, registerOf c (a - c.regs.base) = some r ∧ readInstr r = i) ∨
      (registerOf c (a - c.regs.base) = none ∧ (a - c.mainBase).toNat < c.mainSize ∧
        (a - c.mainBase) &&& 3#32 = 0#32 ∧ .mappedRead (a - c.mainBase) = i) := by
  simp only [decodeBusRead]
  cases registerOf c (a - c.regs.base) with
  | none => split_ifs with h <;> simp_all
  | some r => cases r <;> simp [readInstr]

/-- The register that answers at an address has that address. -/
theorem base_add_offset {c : Config} {a : Word} {r : RegName} (h : registerOf c (a - c.regs.base) = some r) :
    c.regs.base + c.regs.offset r = a := by
  rw [← (registerOf_eq_some h).1, BitVec.add_comm, BitVec.sub_add_cancel]

theorem encode_of_decodeBusWrite {c : Config} {a v : Word} {i : Instr} (hd : decodeBusWrite c a v = .ok i) :
    encode c i = .busWrite .word a v ∧ i.wf = true ∧ CacheExists c i := by
  obtain ⟨r, hr, rfl⟩ := decodeBusWrite_eq_ok.1 hd
  refine ⟨by rw [encode_writeInstr, base_add_offset hr], wf_writeInstr r v, fun hc => ?_⟩
  exact (registerOf_eq_some hr).2 (by simpa using hc)

theorem encode_of_decodeBusRead {c : Config} {a : Word} {i : Instr} (hd : decodeBusRead c a = .ok i) :
    encode c i = .busRead .word a ∧ i.wf = true ∧ CacheExists c i := by
  obtain ⟨r, hr, rfl⟩ | ⟨-, -, hal, rfl⟩ := decodeBusRead_eq_ok.1 hd
  · refine ⟨by rw [encode_readInstr, base_add_offset hr], wf_readInstr r, fun hc => ?_⟩
    exact (registerOf_eq_some hr).2 (by simpa using hc)
  · refine ⟨?_, decide_eq_true hal, fun hc => nomatch hc⟩
    rw [encode, BitVec.add_comm, BitVec.sub_add_cancel]

/-- Settles O2: port by port, with the register that answers at the address of a bus access. -/
theorem encodeDecode : Obligations.EncodeDecode := by
  intro c tx i hd
  match tx, hd with
  | .request _, hd => exact encode_of_decode_request hd
  | .busWrite .word _ _, hd => exact encode_of_decodeBusWrite hd
  | .busRead .word _, hd => exact encode_of_decodeBusRead hd

/-- An access to the address of a register is answered by a register there: by that register where no two share one. -/
theorem exists_registerOf_address {c : Config} {r : RegName} (h : r = .cache → c.hasCacheCtrl = true) :
    ∃ q, registerOf c (c.regs.base + c.regs.offset r - c.regs.base) = some q ∧ (regsDistinct c = true → q = r) := by
  rw [add_sub_base]
  obtain ⟨q, hq⟩ := Option.isSome_iff_exists.1 (registerOf_offset h)
  exact ⟨q, hq, fun hd => Option.some.inj (hq.symm.trans (registerOf_offset_eq h hd))⟩

theorem decode_encode_writeInstr {c : Config} {r : RegName} (v : Word) (h : r = .cache → c.hasCacheCtrl = true) :
    ∃ q, decode c (encode c (writeInstr r v)) = .ok (writeInstr q v) ∧ (regsDistinct c = true → q = r) := by
  obtain ⟨q, hq, hd⟩ := exists_registerOf_address h
  exact ⟨q, by rw [encode_writeInstr]; exact decodeBusWrite_eq_ok.2 ⟨q, hq, rfl⟩, hd⟩

theorem decode_encode_readInstr {c : Config} {r : RegName} (h : r = .cache → c.hasCacheCtrl = true) :
    ∃ q, decode c (encode c (readInstr r)) = .ok (readInstr q) ∧ (regsDistinct c = true → q = r) := by
  obtain ⟨q, hq, hd⟩ := exists_registerOf_address h
  exact ⟨q, by rw [encode_readInstr]; exact decodeBusRead_eq_ok.2 (.inl ⟨q, hq, rfl⟩), hd⟩

/-- A mapped read clear of the registers is answered by Main (20 R81). -/
theorem decode_encode_mappedRead {c : Config} {o : Word} (hw : (Instr.mappedRead o).wf = true)
    (hm : o.toNat < c.mainSize) (hr : registerAt c (c.mainBase + o) = false) :
    decode c (encode c (.mappedRead o)) = .ok (.mappedRead o) := by
  refine decodeBusRead_eq_ok.2 (.inr ⟨by simpa [registerAt] using hr, ?_⟩)
  rw [add_sub_base]
  exact ⟨hm, of_decide_eq_true hw, rfl⟩

/-- What an instruction's presentation decodes to; which register where two share an address is left open. -/
theorem exists_decode_encode {c : Config} {i : Instr} (hw : i.wf = true)
    (hm : ∀ o, i = .mappedRead o → o.toNat < c.mainSize ∧ registerAt c (c.mainBase + o) = false)
    (hc : CacheExists c i) :
    ∃ j, decode c (encode c i) = .ok j ∧ (regsDistinct c = true → j = i) := by
  obtain ⟨op, hop⟩ | ⟨r, v, rfl⟩ | ⟨r, rfl⟩ | ⟨o, rfl⟩ := instr_cases i
  · exact ⟨i, decode_encode_request c hop hw, fun _ => rfl⟩
  · obtain ⟨q, hq, hd⟩ := decode_encode_writeInstr (r := r) v fun h => hc (by rw [registerOfInstr_writeInstr, h])
    exact ⟨_, hq, fun h => by rw [hd h]⟩
  · obtain ⟨q, hq, hd⟩ := decode_encode_readInstr (r := r) fun h => hc (by rw [registerOfInstr_readInstr, h])
    exact ⟨_, hq, fun h => by rw [hd h]⟩
  · obtain ⟨hlt, hreg⟩ := hm o rfl
    exact ⟨_, decode_encode_mappedRead hw hlt hreg, fun _ => rfl⟩

/-- Settles O1: some instruction is decoded, and it is presented the same since nothing else decodes to it (O2). -/
theorem decodeEncode : Obligations.DecodeEncode := by
  intro c i hw hm hc
  obtain ⟨j, hj, hd⟩ := exists_decode_encode hw hm hc
  exact ⟨fun h => hd h ▸ hj, j, hj, (encodeDecode c _ j hj).1⟩

/-- Settles O6: each of the six words is decoded under the reference record. -/
theorem sampleWords : Obligations.SampleWords := by
  unfold Obligations.SampleWords
  decide

end Sys2Proof
/-!
CommandWord as the word software sees, under every layout (30 R101).
-/

namespace Sys2Proof

/-- The one-bit fields of CommandWord with their places: all but Delay-Cycles. -/
def flagBits (l : CmdLayout) (w : CmdWord) : List (Nat × Bool) :=
  [(l.con, w.con), (l.xe, w.xe), (l.ye, w.ye), (l.se, w.se), (l.ifren, w.ifren), (l.erase, w.erase), (l.mas1, w.mas1),
   (l.prog, w.prog), (l.nvstr, w.nvstr)]

/-- The places of the one-bit fields. -/
def flagPlaces (l : CmdLayout) : List Nat := [l.con, l.xe, l.ye, l.se, l.ifren, l.erase, l.mas1, l.prog, l.nvstr]

/-- A layout in range (00 R8), taken apart. -/
structure LayoutRange (l : CmdLayout) : Prop where
  nodup : (flagPlaces l).Nodup
  place : ∀ p ∈ flagPlaces l, p < 32 ∧ (p < l.delay ∨ l.delay + l.delayW ≤ p)
  width : l.delayW ≤ 8
  delayTop : l.delay + l.delayW ≤ 32

theorem layoutRange_of_layoutOk {l : CmdLayout} (h : Machine.layoutOk l = true) : LayoutRange l := by
  simp only [Machine.layoutOk, Bool.and_eq_true, decide_eq_true_eq, List.all_eq_true, Bool.or_eq_true] at h
  obtain ⟨⟨⟨⟨hn, hp⟩, -⟩, hw⟩, ht⟩ := h
  exact ⟨hn, hp, hw, ht⟩

/-- Of a table without two entries at one place, the entry at a place decides what stands there. -/
theorem any_flag_of_mem {m : List (Nat × Bool)} {p : Nat} {b : Bool} (hn : (m.map (·.1)).Nodup) (hm : (p, b) ∈ m) :
    (m.any fun e => e.2 && decide (p = e.1)) = b := by
  rw [Bool.eq_iff_iff, List.any_eq_true]
  constructor
  · rintro ⟨e, he, hv⟩
    obtain ⟨hv, hp⟩ : e.2 = true ∧ p = e.1 := by simpa using hv
    have : e = (p, b) := List.inj_on_of_nodup_map hn he hm hp.symm
    rw [this] at hv
    exact hv
  · rintro rfl
    exact ⟨_, hm, by simp⟩

theorem any_flag_of_not_mem {m : List (Nat × Bool)} {n : Nat} (hn : n ∉ m.map (·.1)) :
    (m.any fun e => e.2 && decide (n = e.1)) = false := by
  rw [List.any_eq_false]
  intro e he hv
  obtain ⟨-, rfl⟩ : e.2 = true ∧ n = e.1 := by simpa using hv
  exact hn (List.mem_map_of_mem he)

/-- A bit of the word is a one-bit field's or one of Delay-Cycles. -/
theorem getLsbD_packCmd_flagBits (l : CmdLayout) (w : CmdWord) (n : Nat) (hd : l.delayW ≤ 8) :
    (packCmd l w).getLsbD n = (decide (n < 32) &&
      (((flagBits l w).any fun e => e.2 && decide (n = e.1)) ||
        (decide (l.delay ≤ n) && decide (n < l.delay + l.delayW) && w.delay.getLsbD (n - l.delay)))) := by
  rw [getLsbD_packCmd l w n hd]
  simp only [flagBits, List.any_cons, List.any_nil, Bool.or_false]
  ac_rfl

section
variable {l : CmdLayout}

/-- A one-bit field stands at its place. -/
theorem LayoutRange.getLsbD_packCmd_flag (h : LayoutRange l) {w : CmdWord} {p : Nat} {b : Bool}
    (hm : (p, b) ∈ flagBits l w) : (packCmd l w).getLsbD p = b := by
  obtain ⟨hp, hout⟩ := h.place p (List.mem_map_of_mem (f := (·.1)) hm)
  have hdelay : (decide (l.delay ≤ p) && decide (p < l.delay + l.delayW)) = false := by
    rw [← Bool.decide_and]; exact decide_eq_false (by omega)
  rw [getLsbD_packCmd_flagBits l w p h.width, any_flag_of_mem (m := flagBits l w) h.nodup hm, hdelay]
  simp [hp]

/-- Away from the one-bit fields stand the bits of Delay-Cycles, and zeros. -/
theorem LayoutRange.getLsbD_packCmd_of_not_flag (h : LayoutRange l) {w : CmdWord} {n : Nat} (hn : n ∉ flagPlaces l) :
    (packCmd l w).getLsbD n =
      (decide (l.delay ≤ n) && decide (n < l.delay + l.delayW) && w.delay.getLsbD (n - l.delay)) := by
  rw [getLsbD_packCmd_flagBits l w n h.width, any_flag_of_not_mem hn, Bool.false_or]
  by_cases hlt : n < 32
  · simp [hlt]
  · have := h.delayTop
    simp [hlt, show ¬ n < l.delay + l.delayW by omega]

/-- The bits of Delay-Cycles stand from `l.delay` on. -/
theorem LayoutRange.getLsbD_packCmd_delay (h : LayoutRange l) (w : CmdWord) {i : Nat} (hi : i < l.delayW) :
    (packCmd l w).getLsbD (l.delay + i) = w.delay.getLsbD i := by
  have hn : l.delay + i ∉ flagPlaces l := fun hm => by
    obtain ⟨-, hout⟩ := h.place _ hm
    omega
  rw [h.getLsbD_packCmd_of_not_flag hn]
  simp [hi]

/-- The Delay-Cycles field that a written word is taken to hold. -/
theorem LayoutRange.getLsbD_unpackCmd_delay (h : LayoutRange l) (v : Word) (i : Nat) :
    (unpackCmd l v).delay.getLsbD i = (decide (i < l.delayW) && v.getLsbD (l.delay + i)) := by
  have hw := h.width
  simp only [unpackCmd, BitVec.getLsbD_setWidth, BitVec.getLsbD_and, BitVec.getLsbD_ushiftRight,
    getLsbD_delayMask _ _ hw]
  by_cases hi : i < l.delayW
  · simp [hi, show i < 8 by omega]
  · simp [hi]

/-- The Delay-Cycles field of `w` survives where it fits the width. -/
theorem LayoutRange.delay_unpackCmd_packCmd (h : LayoutRange l) {w : CmdWord} (hd : w.delay.toNat < 2 ^ l.delayW) :
    (unpackCmd l (packCmd l w)).delay = w.delay := by
  apply BitVec.eq_of_getLsbD_eq
  intro i _
  rw [h.getLsbD_unpackCmd_delay]
  by_cases hi : i < l.delayW
  · simp [hi, h.getLsbD_packCmd_delay w hi]
  · have : w.delay.toNat < 2 ^ i := hd.trans_le (Nat.pow_le_pow_right (by omega) (by omega))
    simp [hi, BitVec.getLsbD, Nat.testBit_lt_two_pow this]

/-- Every field of `w` is read back from the word it is packed into. -/
theorem LayoutRange.unpackCmd_packCmd (h : LayoutRange l) {w : CmdWord} (hd : w.delay.toNat < 2 ^ l.delayW) :
    unpackCmd l (packCmd l w) = w := by
  have hdelay := h.delay_unpackCmd_packCmd hd
  cases w
  simp only [unpackCmd, CmdWord.mk.injEq] at hdelay ⊢
  exact ⟨h.getLsbD_packCmd_flag (by simp [flagBits]), hdelay, h.getLsbD_packCmd_flag (by simp [flagBits]),
    h.getLsbD_packCmd_flag (by simp [flagBits]), h.getLsbD_packCmd_flag (by simp [flagBits]),
    h.getLsbD_packCmd_flag (by simp [flagBits]), h.getLsbD_packCmd_flag (by simp [flagBits]),
    h.getLsbD_packCmd_flag (by simp [flagBits]), h.getLsbD_packCmd_flag (by simp [flagBits]),
    h.getLsbD_packCmd_flag (by simp [flagBits])⟩

/-- The one-bit fields of a written word are its bits at their places. -/
theorem flagBits_unpackCmd (l : CmdLayout) (v : Word) :
    flagBits l (unpackCmd l v) = (flagPlaces l).map fun p => (p, v.getLsbD p) := rfl

theorem layoutBit_of_flag {n : Nat} (hn : n ∈ flagPlaces l) : Machine.layoutBit l n = true := by
  rw [Machine.layoutBit, Bool.or_eq_true]
  exact .inl (List.contains_iff_mem.2 hn)

theorem layoutBit_of_not_flag {n : Nat} (hn : n ∉ flagPlaces l) :
    Machine.layoutBit l n = (decide (l.delay ≤ n) && decide (n < l.delay + l.delayW)) := by
  have hc : (flagPlaces l).contains n = false := by simpa using hn
  exact (congrArg (· || _) hc).trans (Bool.false_or _)

/-- Of a word the bits of the fields are kept and the others are zero. -/
theorem LayoutRange.getLsbD_packCmd_unpackCmd (h : LayoutRange l) (v : Word) (n : Nat) :
    (packCmd l (unpackCmd l v)).getLsbD n = (v.getLsbD n && Machine.layoutBit l n) := by
  by_cases hn : n ∈ flagPlaces l
  · rw [layoutBit_of_flag hn, Bool.and_true]
    apply h.getLsbD_packCmd_flag
    rw [flagBits_unpackCmd]
    exact List.mem_map_of_mem hn
  · rw [h.getLsbD_packCmd_of_not_flag hn, layoutBit_of_not_flag hn, h.getLsbD_unpackCmd_delay, Bool.and_comm (v.getLsbD n)]
    by_cases hd : l.delay ≤ n ∧ n < l.delay + l.delayW
    · simp [hd.1, hd.2, show n - l.delay < l.delayW by omega]
    · rw [← Bool.decide_and, decide_eq_false hd, Bool.false_and, Bool.false_and]

end

/-- Settles O5: field by field one way, bit by bit the other. -/
theorem commandWordRoundTrip : Obligations.CommandWordRoundTrip := fun _ hl =>
  have h := layoutRange_of_layoutOk hl
  ⟨fun _ => h.unpackCmd_packCmd, h.getLsbD_packCmd_unpackCmd⟩

/-- Settles O4: the bits below 14 one by one, and no field above. -/
theorem commandWordLayout : Obligations.CommandWordLayout := by
  intro w n
  rw [getLsbD_packCmd {} w n (by decide)]
  by_cases hn : n < 14
  · interval_cases n <;> simp
  · obtain ⟨k, rfl⟩ := Nat.exists_eq_add_of_le' (not_lt.1 hn)
    change _ = false
    simp

end Sys2Proof

/-!
Acceptance of a request (30 R104).
-/

namespace Sys2Proof.Machine

/-- A request without a violation, with another agent's turn next, is only accepted. -/
theorem request_accepts {i : Instr} {q : Request} {checks : List (Option FaultInfo)} {s : State}
    (hb : s.busy = false) (hs : s.sched ≠ []) (hv : firstViolation (checks ++ [checkClock s]) = none) :
    request i q checks s = .next (started q s) := by
  simp [request, hb, hv, hs, started]

/-- Settles O16: the state a micro-program starts in, with the latches that the request's operands were put into. -/
theorem acceptance : Obligations.Acceptance := by
  intro s i op hb hs hi hf
  obtain ⟨q, checks, he, hl, hv⟩ := exec_request s (Option.isSome_of_eq_some hi)
  have hop : q.op = op := Option.some.inj (hl.op.symm.trans hi)
  have hlen : (started q s).lat.len.toNat = (elementCount i).getD 0 % 65536 := by
    rw [← hl.len]; exact BitVec.toNat_ofNat _ _
  refine ⟨started q s, he.trans (request_accepts hb hs (hv.trans hf)), ?_, hop, hl.bank, hl.addr, hlen, hl.avec, hl.dvec,
    hl.data, hl.value⟩
  rw [← hop]
  rfl

end Sys2Proof.Machine

/-!
The Delay micro-operation as a step of the sequencer (40 R134).
-/

namespace Sys2Proof.Machine

/-- A Delay line never holds, faults or violates: the time passes and the sequencer goes to the line behind it. -/
theorem seqStep_delay {s : State} {op : Opcode} {line : Nat} {n : TimingName} (hu : s.upc = .at op line)
    (hl : (program op)[line]? = some (.act (.delay n))) :
    seqStep s = .next (goLine op (line + 1) (delayFor n s)) :=
  seqStep_act hu hl rfl

/-- The result words come from the latches alone (30 R105), which a Delay leaves as they are. -/
@[simp] theorem results_delayFor (n : TimingName) (s : State) : results (delayFor n s) = results s := rfl

/-- Settles O15: the Delay is followed by a line of the program, where `UPC` goes, or by none, and then the operation
completes with the latches' results. -/
theorem delayStep : Obligations.DelayStep := by
  intro s op line n hu hl
  have hstep := seqStep_delay hu hl
  refine ⟨Config.idleCount s.draws, fun hinside => ?_, fun hlast => ⟨Config.freeLatches s.draws, ?_⟩⟩
  · rw [hstep, goLine_inside _ hinside]
    rfl
  · rw [hstep, goLine_past _ hlast.ge, finish, results_delayFor]
    rfl

end Sys2Proof.Machine

/-!
A host's register transactions and requests: held while `BUSY` (41 R146, 30 R104), and answered while no operation runs
(41 R140 to R149).
-/

namespace Sys2Proof.Machine

/-! ### Each transaction as a write or a read of the register interface -/

theorem exec_wrCmd_eq (v : Word) (s : State) : exec (.wrCmd v) s =
    hostWrite (.wrCmd v) (fun s => wrCmd (unpackCmd s.cfg.layout v) (noteDelay (unpackCmd s.cfg.layout v) s)) s := rfl

theorem exec_wrDO_eq (v : Word) (s : State) : exec (.wrDO v) s = hostWrite (.wrDO v) .done s := rfl

theorem exec_wrKey_eq (v : Word) (s : State) :
    exec (.wrKey v) s = hostWrite (.wrKey v) (fun s => .done (wrKey v s)) s := rfl

theorem exec_rdCmd_eq (s : State) :
    exec .rdCmd s = hostRead .rdCmd (fun s => .ok (packCmd s.cfg.layout s.cmd, s)) s := rfl

theorem exec_rdAdr_eq (s : State) : exec .rdAdr s = hostRead .rdAdr (fun s => .ok (draw s)) s := rfl

theorem exec_rdDI_eq (s : State) : exec .rdDI s = hostRead .rdDI (fun s => .ok (draw s)) s := rfl

theorem exec_rdKey_eq (s : State) : exec .rdKey s = hostRead .rdKey (fun s => .ok (s.key, s)) s := rfl

/-! ### Held while `BUSY` -/

theorem hostWrite_of_busy {i : Instr} {tx : State → TxResult} {s : State} (hb : s.busy = true) :
    hostWrite i tx s = hold i s := by simp [hostWrite, hb]

theorem hostRead_of_busy {i : Instr} {tx : State → Except Refusal (Word × State)} {s : State} (hb : s.busy = true) :
    hostRead i tx s = hold i s := by simp [hostRead, hb]

theorem request_of_busy {i : Instr} {q : Request} {checks : List (Option FaultInfo)} {s : State} (hb : s.busy = true) :
    request i q checks s = hold i s := by simp [request, hb]

/-- While an operation runs, every instruction but a mapped read is held, where its register exists. -/
theorem exec_of_busy {i : Instr} {s : State} (hb : s.busy = true) (hm : ∀ o, i ≠ .mappedRead o)
    (hc : CacheExists s.cfg i) : exec i s = hold i s := by
  by_cases hr : (requestOf i).isSome = true
  · obtain ⟨q, checks, he, -, -⟩ := exec_request s hr
    exact he.trans (request_of_busy hb)
  · cases i with
    | mappedRead o => exact absurd rfl (hm o)
    | wrCache v => exact (if_pos (hc rfl)).trans (hostWrite_of_busy hb)
    | rdCache => exact (if_pos (hc rfl)).trans (hostRead_of_busy hb)
    | wrCmd v => exact (exec_wrCmd_eq v s).trans (hostWrite_of_busy hb)
    | rdCmd => exact (exec_rdCmd_eq s).trans (hostRead_of_busy hb)
    | wrAdr v => exact hostWrite_of_busy hb
    | rdAdr => exact (exec_rdAdr_eq s).trans (hostRead_of_busy hb)
    | wrDI v => exact hostWrite_of_busy hb
    | rdDI => exact (exec_rdDI_eq s).trans (hostRead_of_busy hb)
    | rdDO => exact hostRead_of_busy hb
    | wrDO v => exact (exec_wrDO_eq v s).trans (hostWrite_of_busy hb)
    | wrKey v => exact (exec_wrKey_eq v s).trans (hostWrite_of_busy hb)
    | rdKey => exact (exec_rdKey_eq s).trans (hostRead_of_busy hb)
    | _ => exact absurd rfl hr

/-- A descriptor under a header that is no operation, on the host's turn. -/
theorem hostStep_of_illegalHeader {s : State} {h : Word} {ws : List Word} {rest : List PortTx}
    (hp : s.port = .request (h :: ws) :: rest) (hh : headerOpcode h = none) :
    hostStep s = illegalRequest (.request (h :: ws)) h { s with port := rest } := by
  have hd : decode s.cfg (.request (h :: ws)) = .error (.illegalHeader h) := by simp [decode, decodeRequest, hh]
  simp only [hostStep, hp, hd, reject]

/-- Settles O13: what is held goes back in front of the port it was taken from. -/
theorem busyHolds : Obligations.BusyHolds := by
  intro s hb
  refine ⟨fun i hm hc => exec_of_busy hb hm hc, fun h ws rest ts hcfg hp hh hs => ?_⟩
  rw [step_of_turn hcfg hs, turnStep, hostStep_of_illegalHeader (s := { s with sched := ts }) hp hh, illegalRequest,
    if_pos hb, ← hp]

/-! ### Answered while no operation runs -/

theorem hostWrite_of_done {i : Instr} {tx : State → TxResult} {s t : State} (hb : s.busy = false)
    (h : tx s = .done t) : hostWrite i tx s = .next t := by simp [hostWrite, hb, h]

theorem hostWrite_of_violated {i : Instr} {tx : State → TxResult} {s t : State} {f : FaultInfo} (hb : s.busy = false)
    (h : tx s = .violated f t) : hostWrite i tx s = .next t := by simp [hostWrite, hb, h]

theorem hostRead_of_ok {i : Instr} {tx : State → Except Refusal (Word × State)} {s t : State} {v : Word}
    (hb : s.busy = false) (h : tx s = .ok (v, t)) : hostRead i tx s = .next { t with rdata := v } := by
  simp [hostRead, hb, h]

theorem hostRead_of_draw {i : Instr} {s : State} (hb : s.busy = false) :
    hostRead i (fun s => .ok (draw s)) s = .next { s with rdata := Config.draw s.draws, draws := s.draws + 1 } := by
  simp [hostRead, hb, draw]

/-- Settles O27: the value each read puts on the bus, and the two writes that no lock gates. -/
theorem registerViews : Obligations.RegisterViews := fun s v hb =>
  ⟨(exec_wrKey_eq v s).trans (hostWrite_of_done hb rfl), (exec_rdKey_eq s).trans (hostRead_of_ok hb rfl),
    (exec_rdCmd_eq s).trans (hostRead_of_ok hb rfl), (exec_rdAdr_eq s).trans (hostRead_of_draw hb),
    (exec_rdDI_eq s).trans (hostRead_of_draw hb), (exec_wrDO_eq v s).trans (hostWrite_of_done hb rfl)⟩

/-! ### Reading `DO` -/

/-- Outside `M_READ` a read of `DO` is a draw (41 R147). -/
theorem rdDO_draw {s : State} (hm : modeOf s.cmd ≠ .read) : rdDO s = .ok (draw s) := by simp [rdDO, mode, hm]

/-- Settles O30: the three cases of a read of `DO`. -/
theorem dataRead : Obligations.DataRead := fun s hb =>
  ⟨fun hm => hostRead_of_ok hb (rdDO_draw hm), fun hm hs => hostRead_of_ok hb (rdDO_stale hm hs),
    fun hm hs hr => hostRead_of_ok hb ((rdDO_data hm hs hr).trans (congrArg _ (memRead_eq _ _ s)))⟩

/-! ### Dropped while locked -/

theorem wrCmd_of_locked {new : CmdWord} {s : State} (h : locked s = true) : wrCmd new s = .done s := by simp [wrCmd, h]

theorem wrAdr_of_locked {v : Word} {s : State} (h : locked s = true) : wrAdr v s = .done s := by simp [wrAdr, h]

theorem wrDI_of_locked {v : Word} {s : State} (h : locked s = true) : wrDI v s = .done s := by simp [wrDI, h]

/-- A read of `DO` answers where the word that `Adr` names is in the bank. -/
theorem exec_rdDO_answers {s : State} (hb : s.busy = false)
    (hr : (wordAddr s.adr).toNat < bankSize s.cfg (bankOf s.cmd)) : ∃ t, exec .rdDO s = .next t := by
  obtain ⟨houtside, hstale, hdata⟩ := dataRead s hb
  by_cases hm : mode s = .read
  · by_cases hs : s.doStale = 0
    · exact ⟨_, hdata hm hs hr⟩
    · exact ⟨_, hstale hm hs⟩
  · exact ⟨_, houtside hm⟩

/-- Settles O26: each write is dropped by its own lock gate; the reads answer as they always do. -/
theorem lockedWritesDropped : Obligations.LockedWritesDropped := by
  intro s v hb hk
  have hl : locked s = true := by simp [locked, hk]
  obtain ⟨-, hrdKey, hrdCmd, hrdAdr, hrdDI, -⟩ := registerViews s v hb
  refine ⟨(exec_wrCmd_eq v s).trans (hostWrite_of_done hb ?_), hostWrite_of_done hb (wrAdr_of_locked hl),
    hostWrite_of_done hb (wrDI_of_locked hl), ?_, exec_rdDO_answers hb⟩
  · rw [noteDelay_locked hl, wrCmd_of_locked hl]
  · simp only [List.forall_mem_cons]
    exact ⟨⟨_, hrdCmd⟩, ⟨_, hrdAdr⟩, ⟨_, hrdDI⟩, ⟨_, hrdKey⟩, by simp⟩

/-! ### Writing `Adr` and `DI` -/

/-- A violation changes the array, `pend` and the record of the fault (41 R166). -/
theorem violate_frame (k : ProtocolKind) (old new : CmdWord) (s : State) :
    violate k old new s = { s with
      main := (violate k old new s).main, info := (violate k old new s).info, pend := none, faulted := true
      faultInfo := some (.protocolViolation k (modeOf old) (modeOf new)) } := by
  conv_lhs => rw [violate, abandon_frame]
  rfl

@[simp] theorem violate_doStale (k : ProtocolKind) (old new : CmdWord) (s : State) :
    (violate k old new s).doStale = s.doStale := by rw [violate_frame]

/-- When a write of `Adr` is accepted (41 R144). -/
def AdrAccepted (v : Word) (s : State) : Prop :=
  mode s = .off ∨ mode s = .idle ∨ mode s = .read ∨ (mode s = .pgHv ∧ ∃ x, s.xlatch = some x ∧ rowOf v = rowOf x.addr)

theorem wrAdr_of_accepted {v : Word} {s : State} (hk : s.key ≠ 0#32) (h : AdrAccepted v s) :
    wrAdr v s = .done { s with adr := v, doStale := 3 } := by
  rcases h with h | h | h | ⟨h, x, hx, hrow⟩
  · exact wrAdr_idle hk (.inl h)
  · exact wrAdr_idle hk (.inr h)
  · simp [wrAdr, locked, hk, h]
  · exact wrAdr_run hk h hx hrow

theorem wrAdr_of_not_accepted {v : Word} {s : State} (hk : s.key ≠ 0#32) (h : ¬ AdrAccepted v s) :
    wrAdr v s = .violated (.protocolViolation .adrWrite (mode s) (mode s))
      (violate .adrWrite s.cmd s.cmd { s with adr := v, doStale := 3 }) := by
  simp only [AdrAccepted, not_or, not_and, not_exists] at h
  obtain ⟨hoff, hidle, hread, hrow⟩ := h
  simp only [wrAdr, locked, beq_iff_eq, hk, if_false]
  split
  case h_1 hm => exact absurd hm hoff
  case h_2 hm => exact absurd hm hidle
  case h_3 hm => exact absurd hm hread
  case h_4 x hm hx => rw [if_neg (hrow hm x hx)]
  case h_5 => rfl

/-- Settles O28: accepted, or the violation of the write that has taken place. -/
theorem addressWrite : Obligations.AddressWrite := by
  intro s v hb hk
  split_ifs with h
  · exact hostWrite_of_done hb (wrAdr_of_accepted hk h)
  · refine ⟨_, hostWrite_of_violated hb (wrAdr_of_not_accepted hk h), (violated_violate _ _ _ _ _ rfl).1, ?_⟩
    rw [violate_doStale]
    exact violate_frame ..

/-- When a write of `DI` is accepted (41 R145). -/
def DataAccepted (s : State) : Prop := mode s = .off ∨ mode s = .idle ∨ mode s = .read ∨ mode s = .pgHv

theorem wrDI_of_accepted {v : Word} {s : State} (hk : s.key ≠ 0#32) (h : DataAccepted s) :
    wrDI v s = .done { s with di := v } := by
  rcases h with h | h | h | h <;> simp [wrDI, locked, hk, h]

theorem wrDI_of_not_accepted {v : Word} {s : State} (hk : s.key ≠ 0#32) (h : ¬ DataAccepted s) :
    wrDI v s = .violated (.protocolViolation .diWrite (mode s) (mode s))
      (violate .diWrite s.cmd s.cmd { s with di := v }) := by
  simp only [DataAccepted, not_or] at h
  obtain ⟨hoff, hidle, hread, hpgHv⟩ := h
  -- the four hypotheses leave only the last case of the definition
  simp only [wrDI, locked, beq_iff_eq, hk, if_false]

/-- Settles O29: accepted, or the violation of the write that has taken place. -/
theorem dataWrite : Obligations.DataWrite := by
  intro s v hb hk
  split_ifs with h
  · exact hostWrite_of_done hb (wrDI_of_accepted hk h)
  · exact ⟨_, hostWrite_of_violated hb (wrDI_of_not_accepted hk h), (violated_violate _ _ _ _ _ rfl).1, violate_frame ..⟩

end Sys2Proof.Machine

/-!
A host's `Cmd` writes (41 R142, R151 to R165): one equation per reaction of the array, on the state with the word written.
-/

namespace Sys2Proof.Machine

/-! ### From the reaction of the array to the answer -/

/-- The state a host's accepted `Cmd` write is reacted to in: the word written, a change of Delay-Cycles noted. -/
def cmdWritten (new : CmdWord) (s : State) : State := { s with cmd := new, delayLost := delayNoted new s }

theorem exec_wrCmd_of_react {s t : State} {v : Word} {new : CmdWord} (hb : s.busy = false) (hk : s.key ≠ 0#32)
    (hw : unpackCmd s.cfg.layout v = new) (hr : react s.cmd new (cmdWritten new s) = .ok t) :
    exec (.wrCmd v) s = .next { t with tCmd := 0 } := by
  have hr : react s.cmd new { s with cmd := new, delayLost := delayNoted new s } = .ok t := hr
  rw [exec_wrCmd hb hk hw, hr]

section
variable {s t : State} {v : Word} {mo mn : Mode} {new : CmdWord}

/-- A transition that the table lets happen. -/
theorem Commands.exec_of_transition (h : Commands s v mo mn new) (hne : mo ≠ mn) (hi : mn ≠ .illegal)
    (ht : transition mo mn new (cmdWritten new s) = .ok t) : exec (.wrCmd v) s = .next { t with tCmd := 0 } :=
  exec_wrCmd_of_react h.free h.unlocked h.word ((react_commands h hne hi _).trans ht)

/-- A transition that the table answers with a violation. -/
theorem Commands.violates_of_transition {k : ProtocolKind} (h : Commands s v mo mn new) (hne : mo ≠ mn)
    (hi : mn ≠ .illegal) (ht : transition mo mn new (cmdWritten new s) = .violation k) : CmdViolates s v k new :=
  cmdViolates_of h.free h.unlocked h.word ((react_commands h hne hi _).trans ht)

end

/-! ### The reactions that need no transition -/

theorem react_of_illegal (old : CmdWord) {new : CmdWord} (s : State) (h : modeOf new = .illegal) :
    react old new s = .violation .mode := by simp [react, h]

theorem react_of_bankSwitch {old new : CmdWord} (s : State) (h : modeOf new ≠ .illegal)
    (hx : (old.xe || new.xe) = true) (hi : old.ifren ≠ new.ifren) : react old new s = .violation .bankSwitch := by
  simp [react, h, hx, hi]

/-- A transition the table of 41 R152 does not list. -/
theorem transition_of_not_legal {mo mn : Mode} (new : CmdWord) (s : State) (h : (mo, mn) ∉ legalTransitions) :
    transition mo mn new s = .violation .transition := by
  unfold transition
  split
  case h_18 => rfl
  all_goals exact absurd (by decide) h

/-- Settles O31: no mode, a change of the bank under `X-Enable`, and a transition that is not in the table. -/
theorem forbiddenCommands : Obligations.ForbiddenCommands := by
  intro s v new hb hk hw
  refine ⟨fun hi => ?_, fun hi hx hbank => ?_, fun hi hbank hne ht => ?_⟩
  · exact cmdViolates_of hb hk hw (react_of_illegal _ _ hi)
  · exact cmdViolates_of hb hk hw (react_of_bankSwitch _ hi hx hbank)
  · exact Commands.violates_of_transition ⟨hb, hk, hw, rfl, rfl, hbank⟩ hne hi (transition_of_not_legal _ _ ht)

/-- The same mode again. -/
theorem react_commands_same {s : State} {v : Word} {m : Mode} {new : CmdWord} (h : Commands s v m m new)
    (hi : m ≠ .illegal) (t : State) : react s.cmd new t = .ok t := by
  have hbank : ((s.cmd.xe || new.xe) && s.cmd.ifren != new.ifren) = false := by
    cases hx : (s.cmd.xe || new.xe)
    · rfl
    · simpa using h.bank hx
  simp [react, h.source, h.target, hi, hbank]

/-- The transitions that only move the mode (41 R152). -/
theorem transition_of_quiet {mo mn : Mode} (new : CmdWord) (s : State)
    (h : (mo, mn) ∈ [(Mode.off, Mode.idle), (.idle, .off), (.read, .idle), (.pgHv, .hvHold)]) :
    mo ≠ mn ∧ transition mo mn new s = .ok s := by
  simp only [List.mem_cons, Prod.mk.injEq, List.not_mem_nil, or_false] at h
  rcases h with ⟨rfl, rfl⟩ | ⟨rfl, rfl⟩ | ⟨rfl, rfl⟩ | ⟨rfl, rfl⟩ <;> exact ⟨by decide, rfl⟩

/-- Settles O32: in the same mode there is no transition; the four others change nothing. -/
theorem quietCommands : Obligations.QuietCommands := by
  intro s v mo mn new h hi hq
  rcases hq with rfl | hq
  · exact exec_wrCmd_of_react h.free h.unlocked h.word (react_commands_same h hi _)
  · obtain ⟨hne, ht⟩ := transition_of_quiet new (cmdWritten new s) hq
    exact h.exec_of_transition hne hi ht

/-! ### Leaving `M_IDLE` -/

theorem rcvCheck_of_due {s : State} (f : State → Reaction) (h : s.rcvDue = true ∧ s.tRcv < s.cfg.timing.rcv) :
    rcvCheck s f = .violation (.dwell .rcv) := if_pos h

theorem rcvCheck_of_not_due {s : State} (f : State → Reaction) (h : ¬ (s.rcvDue = true ∧ s.tRcv < s.cfg.timing.rcv)) :
    rcvCheck s f = f { s with rcvDue := false } := if_neg h

/-- What a transition that raises `X-Enable` leaves, the recovery check passed: reads start stale, a setup is latched
(41 R153, R154, R160, R163). -/
def enteredFromIdle (mn : Mode) (new : CmdWord) (s : State) : State :=
  { s with
    doStale := if mn = .read then 3 else s.doStale
    xlatch :=
      if mn = .read then s.xlatch
      else some ⟨if mn = .pgNvs then .prog else if mn = .erNvs then .erase else .mass, bankOf new, wordAddr s.adr⟩ }

theorem transition_from_idle {mn : Mode} (new : CmdWord) (s : State)
    (h : mn = .read ∨ mn = .pgNvs ∨ mn = .erNvs ∨ mn = .meNvs) :
    transition .idle mn new s = rcvCheck s fun u => .ok (enteredFromIdle mn new u) := by
  rcases h with rfl | rfl | rfl | rfl <;> rfl

/-- Settles O33: the four transitions share the check; behind it, reads start stale or the setup latches. -/
theorem recoveryCheck : Obligations.RecoveryCheck := by
  intro s v mn new h hmn
  have hne : Mode.idle ≠ mn ∧ mn ≠ .illegal := by rcases hmn with rfl | rfl | rfl | rfl <;> decide
  have ht := transition_from_idle new (cmdWritten new s) hmn
  by_cases hdue : s.rcvDue = true ∧ s.tRcv < s.cfg.timing.rcv
  · rw [if_pos hdue]
    exact h.violates_of_transition hne.1 hne.2 (ht.trans (rcvCheck_of_due _ hdue))
  · rw [if_neg hdue]
    exact h.exec_of_transition hne.1 hne.2 (ht.trans (rcvCheck_of_not_due _ hdue))

/-! ### Programming -/

/-- Settles O34: the dwell of the setup, then `t_hv` starts. -/
theorem programHighVoltage : Obligations.ProgramHighVoltage := by
  intro s v new h
  split_ifs with hd
  · exact h.violates_of_transition (by decide) (by decide) (if_pos hd)
  · exact h.exec_of_transition (by decide) (by decide) (if_neg hd)

theorem pulseStart_of_early {s : State} (h : s.tHv < s.cfg.timing.pgs) : pulseStart s = .violation (.dwell .pgs) := if_pos h

theorem pulseStart_of_no_latch {s : State} (ht : s.cfg.timing.pgs ≤ s.tHv) (hx : s.xlatch = none) :
    pulseStart s = .violation .transition := by simp [pulseStart, hx, Nat.not_lt.mpr ht]

/-- Words of one bank made indeterminate. -/
theorem becomes_forgetWords {s t : State} {b : Bank} {p : Nat → Bool} {q : Nat → Prop} [DecidablePred q]
    (hq : ∀ w, p w = true ↔ q w) (ht : ∀ b', array t b' = array (setArray s b (forgetWords p (array s b))) b') :
    ArrayBecomes (fun b' w => b' = b ∧ q w) (fun _ _ => .indet) s t := by
  refine becomes_setArray (b := b) (fun b' => (ht b').trans (array_setArray ..)) (fun _ _ h => h.1) (fun w => ?_)
    fun a ha => ?_
  · simp [cellAt_forgetWords, hq]
  · rw [byteAt_forgetWords, if_neg fun h => ha ⟨rfl, (hq _).mp h⟩]

/-- Settles O35: the dwell comes first, then the latch; the word is captured, then forgotten. -/
theorem CmdWrite.pulseStart : Obligations.PulseStart := by
  intro s v new h
  split_ifs with hd
  · exact h.violates_of_transition (by decide) (by decide) (pulseStart_of_early hd)
  · have hd := Nat.not_lt.mp hd
    refine ⟨fun hx => ?_, fun x hx hr => ?_⟩
    · exact h.violates_of_transition (by decide) (by decide) (pulseStart_of_no_latch (s := cmdWritten new s) hd hx)
    · refine ⟨_, h.exec_of_transition (by decide) (by decide) (pulseStart_ok (s := cmdWritten new s) hx hd hr), ?_, ?_⟩
      · cases x.bank <;> rfl
      · exact becomes_forgetWords (fun _ => beq_iff_eq) fun b' => by cases x.bank <;> cases b' <;> rfl

theorem pulseEnd_of_early {s : State} {b : Bank} {w : Nat} {pre : Cell} {d : Word}
    (hp : s.pend = some (.progWord b w pre d)) (h : s.tCmd < s.cfg.timing.prog) :
    pulseEnd s = .violation (.dwell .prog) := by simp [pulseEnd, hp, h]

/-- One cell of one bank put. -/
theorem becomes_setCell {s t : State} {b : Bank} {w : Nat} {c : Cell}
    (ht : ∀ b', array t b' = array (setArray s b (setCell (array s b) w c)) b') :
    ArrayBecomes (fun b' w' => b' = b ∧ w' = w) (fun _ _ => c) s t := by
  refine becomes_setArray (b := b) (fun b' => (ht b').trans (array_setArray ..)) (fun _ _ h => h.1) (fun w => ?_)
    fun a ha => ?_
  · simp [cellAt_setCell]
  · exact byteAt_setCell_ne _ _ _ _ (by simpa using ha)

/-- Settles O36: the word captured at the pulse's start is committed from what it held then. -/
theorem CmdWrite.pulseEnd : Obligations.PulseEnd := by
  intro s v new b w pre d h hp
  split_ifs with hd
  · exact h.violates_of_transition (by decide) (by decide) (pulseEnd_of_early (s := cmdWritten new s) hp hd)
  · refine ⟨_, h.exec_of_transition (by decide) (by decide)
      (pulseEnd_ok (s := cmdWritten new s) hp (Nat.not_lt.mp hd)), ?_, ?_⟩
    · cases b <;> rfl
    · exact becomes_setCell fun b' => by cases b <;> cases b' <;> rfl

/-! ### Ends of hold -/

theorem latchedErase_iff (s : State) : latchedErase s = true ↔ ∃ x, s.xlatch = some x ∧ x.kind = .erase := by
  simp [latchedErase, Option.any_eq_true]

/-- Settles O37: behind the dwell the recovery time begins, and behind an erase the settle time too. -/
theorem holdEnds : Obligations.HoldEnds := by
  intro s v new
  refine ⟨fun h => ?_, fun h => ?_⟩
  · split_ifs with hd
    · exact h.violates_of_transition (by decide) (by decide) (if_pos hd)
    · have he := h.exec_of_transition (by decide) (by decide)
        (holdEnd_ok (s := cmdWritten new s) (Nat.not_lt.mp hd))
      have hl : latchedErase (cmdWritten new s) = latchedErase s := rfl
      rw [hl] at he
      refine ⟨fun hx => ?_, fun hx => ?_⟩
      · rw [(latchedErase_iff s).mpr hx] at he
        exact he
      · rw [Bool.eq_false_iff.mpr (mt (latchedErase_iff s).mp hx)] at he
        exact he
  · split_ifs with hd
    · exact h.violates_of_transition (by decide) (by decide) (if_pos hd)
    · exact h.exec_of_transition (by decide) (by decide) (if_neg hd)

/-! ### Row erase -/

theorem eraseHv_of_early {s : State} (h : s.tCmd < s.cfg.timing.nvs) : eraseHv s = .violation (.dwell .nvs) := if_pos h

theorem eraseHv_of_no_latch {s : State} (ht : s.cfg.timing.nvs ≤ s.tCmd) (hx : s.xlatch = none) :
    eraseHv s = .violation .transition := by simp [eraseHv, hx, Nat.not_lt.mpr ht]

theorem eraseEnd_of_early {s : State} {b : Bank} {r : Word} (hp : s.pend = some (.eraseRow b r))
    (h : s.tCmd < s.cfg.timing.erase) : eraseEnd s = .violation (.dwell .erase) := by simp [eraseEnd, hp, h]

/-- One row of one bank erased, the row given by its row address. -/
theorem becomes_rowErase {s t : State} {b : Bank} {r : Word} (hr : rowOf r = r)
    (ht : ∀ b', array t b' = array (rowErase s b r) b') :
    ArrayBecomes (fun b' w => b' = b ∧ inRow r w = true) (fun b' w => committed s.cfg b' w .erase (cell s b' w)) s t := by
  have hmem : ∀ w, w ∈ rowWords r ↔ inRow r w = true := fun w => by rw [← mem_rowWords_iff_inRow, hr]
  have hnodup : (rowWords r).Nodup := hr ▸ rowWords_nodup r
  refine becomes_setArray (b := b) (fun b' => (ht b').trans (array_setArray ..)) (fun _ _ h => h.1) (fun w => ?_)
    fun a ha => ?_
  · simp only [cellAt_eraseWords _ _ _ _ _ hnodup, hmem, true_and, cell]
  · exact byteAt_eraseWords_ne _ _ _ _ _ (by simpa [hmem] using ha)

/-- Settles O38: the start forgets the row, the commit erases its 256 words. -/
theorem CmdWrite.rowErase : Obligations.RowErase := by
  intro s v new
  refine ⟨fun h => ?_, fun b r h hp hok => ?_⟩
  · split_ifs with hd
    · exact h.violates_of_transition (by decide) (by decide) (eraseHv_of_early hd)
    · have hd := Nat.not_lt.mp hd
      refine ⟨fun hx => ?_, fun x hx hr => ?_⟩
      · exact h.violates_of_transition (by decide) (by decide) (eraseHv_of_no_latch (s := cmdWritten new s) hd hx)
      · refine ⟨_, h.exec_of_transition (by decide) (by decide) (eraseHv_ok (s := cmdWritten new s) hx hd hr), ?_, ?_⟩
        · cases x.bank <;> rfl
        · exact becomes_forgetWords (fun _ => Iff.rfl) fun b' => by cases x.bank <;> cases b' <;> rfl
  · split_ifs with hd
    · exact h.violates_of_transition (by decide) (by decide) (eraseEnd_of_early (s := cmdWritten new s) hp hd)
    · rw [hp] at hok
      have hr : rowOf r = r := by
        simp only [pendOk, Bool.and_eq_true, beq_iff_eq] at hok
        exact hok.1
      refine ⟨_, h.exec_of_transition (by decide) (by decide)
        (eraseEnd_ok (s := cmdWritten new s) hp (Nat.not_lt.mp hd)), ?_, ?_⟩
      · cases b <;> rfl
      · exact becomes_rowErase hr fun b' => by cases b <;> cases b' <;> rfl

/-! ### Mass erase -/

theorem massHv_of_early {s : State} (h : s.tCmd < s.cfg.timing.nvs) : massHv s = .violation (.dwell .nvs) := if_pos h

theorem massHv_of_no_latch {s : State} (ht : s.cfg.timing.nvs ≤ s.tCmd) (hx : s.xlatch = none) :
    massHv s = .violation .transition := by simp [massHv, hx, Nat.not_lt.mpr ht]

theorem massEnd_of_early {s : State} {k : BitVec 2} {both : Bool} (hp : s.pend = some (.eraseSector k both))
    (h : s.tCmd < s.cfg.timing.me) : massEnd s = .violation (.dwell .me) := by simp [massEnd, hp, h]

/-- The list of each bank after a sector has been mass erased. -/
theorem array_sectorMassErase (s : State) (k : BitVec 2) (both : Bool) (b : Bank) :
    array (sectorMassErase s k both) b =
      if b = .main ∨ both = true then eraseWords s.cfg b (sectorWords k (bankSize s.cfg b)) (array s b) else array s b := by
  cases b <;> cases both <;> rfl

/-- A sector of Main, and of Info where `IFREN` was latched, made indeterminate. -/
theorem becomes_forgetSector {s t : State} {k : BitVec 2} {x : Bank}
    (ht : ∀ b, array t b = array (forgetSector s k (x == .info)) b) :
    ArrayBecomes (fun b w => (b = .main ∨ x = .info) ∧ inSector k w = true) (fun _ _ => .indet) s t := by
  simp only [array_forgetSector, beq_iff_eq] at ht
  refine ⟨fun b w => ?_, fun b a ha => ?_⟩
  · by_cases hb : b = .main ∨ x = .info
    · simp [cell, ht, hb, cellAt_forgetWords]
    · simp [cell, ht, hb]
  · by_cases hb : b = .main ∨ x = .info
    · rw [ht, if_pos hb, byteAt_forgetWords, if_neg fun hk => ha ⟨hb, hk⟩]
    · rw [ht, if_neg hb]

/-- A sector erased, in banks whose sizes are whole numbers of rows of sectors. -/
theorem becomes_sectorMassErase {s t : State} {k : BitVec 2} {both : Bool} (hc : configOk s.cfg = true)
    (ht : ∀ b, array t b = array (sectorMassErase s k both) b) :
    ArrayBecomes (fun b w => (b = .main ∨ both = true) ∧ inSector k w = true ∧ 4 * w < bankSize s.cfg b)
      (fun b w => committed s.cfg b w .erase (cell s b w)) s t := by
  have hmem : ∀ b w, w ∈ sectorWords k (bankSize s.cfg b) ↔ inSector k w = true ∧ 4 * w < bankSize s.cfg b := fun b w => by
    rw [mem_sectorWords k _ w (size_mod16 _ hc b), inSector, beq_iff_eq, and_comm]
  simp only [array_sectorMassErase] at ht
  refine ⟨fun b w => ?_, fun b a ha => ?_⟩
  · by_cases hb : b = .main ∨ both = true
    · simp only [cell, ht, hb, if_true, cellAt_eraseWords _ _ _ _ _ (sectorWords_nodup _ _), hmem, true_and]
    · simp [cell, ht, hb]
  · by_cases hb : b = .main ∨ both = true
    · rw [ht, if_pos hb, byteAt_eraseWords_ne _ _ _ _ _ fun hw => ha ⟨hb, (hmem _ _).mp hw⟩]
    · rw [ht, if_neg hb]

/-- Settles O39: the start forgets the sector, the commit erases its words, in both banks or in Main alone. -/
theorem massErase : Obligations.MassErase := by
  intro s v new hc
  refine ⟨fun h => ?_, fun k both h hp => ?_⟩
  · split_ifs with hd
    · exact h.violates_of_transition (by decide) (by decide) (massHv_of_early hd)
    · have hd := Nat.not_lt.mp hd
      refine ⟨fun hx => ?_, fun x hx => ?_⟩
      · exact h.violates_of_transition (by decide) (by decide) (massHv_of_no_latch (s := cmdWritten new s) hd hx)
      · refine ⟨_, h.exec_of_transition (by decide) (by decide) (massHv_ok (s := cmdWritten new s) hx hd), ?_, ?_⟩
        · cases x.bank == .info <;> rfl
        · exact becomes_forgetSector fun b => by cases x.bank <;> cases b <;> rfl
  · split_ifs with hd
    · exact h.violates_of_transition (by decide) (by decide) (massEnd_of_early (s := cmdWritten new s) hp hd)
    · refine ⟨_, h.exec_of_transition (by decide) (by decide)
        (massEnd_ok (s := cmdWritten new s) hp (Nat.not_lt.mp hd)), ?_, ?_⟩
      · cases both <;> rfl
      · exact becomes_sectorMassErase hc fun b => by cases both <;> cases b <;> rfl

end Sys2Proof.Machine

/-!
Delay-Cycles on the way through a micro-program (41 R171): what each line does to the field and to the two shadows that
carry it, and in which order the micro-programs read and use them.
-/

namespace Sys2Proof.Machine

/-! ### `Cmd` and the latches under a register transaction -/

/-- `Cmd` and the latches are as they were. -/
structure SameShadows (s t : State) : Prop where
  cmd : t.cmd = s.cmd
  lat : t.lat = s.lat

theorem SameShadows.refl (s : State) : SameShadows s s := ⟨rfl, rfl⟩

theorem SameShadows.trans {s t u : State} (h : SameShadows s t) (k : SameShadows t u) : SameShadows s u :=
  ⟨k.cmd.trans h.cmd, k.lat.trans h.lat⟩

theorem sameShadows_of_onlyArray {s t : State} (h : OnlyArray s t) : SameShadows s t := by
  rw [OnlyArray] at h
  exact ⟨by rw [h], by rw [h]⟩

theorem sameShadows_rcvCheck {s t : State} {f : State → Reaction} (h : rcvCheck s f = .ok t)
    (hf : ∀ u v, f u = .ok v → SameShadows u v) : SameShadows s t := by
  unfold rcvCheck at h
  split_ifs at h
  exact SameShadows.trans (t := { s with rcvDue := false }) ⟨rfl, rfl⟩ (hf _ _ h)

theorem sameShadows_latchSetup {k : HvKind} {new : CmdWord} {s t : State} (h : latchSetup k new s = .ok t) :
    SameShadows s t := by cases h; exact ⟨rfl, rfl⟩

/-- No transition of the table writes `Cmd` or a latch (41 R152). -/
theorem sameShadows_transition {mo mn : Mode} {new : CmdWord} {s t : State} (h : transition mo mn new s = .ok t) :
    SameShadows s t := by
  unfold transition at h
  split at h
  case h_3 => exact sameShadows_rcvCheck h fun u v k => by cases k; exact ⟨rfl, rfl⟩
  case h_5 | h_11 | h_14 => exact sameShadows_rcvCheck h fun u v => sameShadows_latchSetup
  case h_6 => unfold programHv at h; split_ifs at h; cases h; exact ⟨rfl, rfl⟩
  case h_7 => obtain ⟨x, -, -, -, rfl⟩ := pulseStart_eq_ok h; exact ⟨setArray_cmd .., setArray_lat ..⟩
  case h_8 =>
    unfold pulseEnd at h
    split at h
    · split_ifs at h; cases h; exact ⟨setArray_cmd .., setArray_lat ..⟩
    · cases h
  case h_10 => unfold holdEnd at h; split_ifs at h; cases h; exact ⟨rfl, rfl⟩
  case h_12 => obtain ⟨x, -, -, -, rfl⟩ := eraseHv_eq_ok h; exact ⟨setArray_cmd .., setArray_lat ..⟩
  case h_13 =>
    unfold eraseEnd at h
    split at h
    · split_ifs at h; cases h; exact ⟨setArray_cmd .., setArray_lat ..⟩
    · cases h
  case h_15 =>
    obtain ⟨x, -, -, rfl⟩ := massHv_eq_ok h
    have k := sameShadows_of_onlyArray (onlyArray_forgetSector s (sectorOf x.addr) (x.bank == .info))
    exact ⟨k.cmd, k.lat⟩
  case h_16 =>
    unfold massEnd at h
    split at h
    · rename_i k both _
      split_ifs at h
      cases h
      cases both <;> exact ⟨rfl, rfl⟩
    · cases h
  case h_17 => unfold massHoldEnd at h; split_ifs at h; cases h; exact ⟨rfl, rfl⟩
  case h_18 => cases h
  all_goals cases h; exact .refl s

theorem sameShadows_react {old new : CmdWord} {s t : State} (h : react old new s = .ok t) : SameShadows s t := by
  unfold react at h
  split_ifs at h
  · cases h; exact .refl s
  · exact sameShadows_transition h

/-- A violation leaves what the register write has left (41 R166). -/
theorem sameShadows_violate (k : ProtocolKind) (old new : CmdWord) (s : State) : SameShadows s (violate k old new s) := by
  rw [violate_frame]; exact ⟨rfl, rfl⟩

theorem sameShadows_violatedClocks (old new : CmdWord) (s : State) : SameShadows s (violatedClocks old new s) := by
  rw [violatedClocks_frame]; exact ⟨rfl, rfl⟩

theorem sameShadows_memRead (b : Bank) (a : Word) (s : State) : SameShadows s (memRead b a s).2 := by
  rw [memRead_eq]; exact ⟨rfl, rfl⟩

theorem sameShadows_rdDO {s : State} {r : Word × State} (h : rdDO s = .ok r) : SameShadows s r.2 := by
  unfold rdDO at h
  split_ifs at h <;> cases h
  · exact ⟨rfl, rfl⟩
  · exact ⟨rfl, rfl⟩
  · exact sameShadows_memRead ..

theorem sameShadows_mappedRead (a : Word) (s : State) : SameShadows s (mappedRead a s).2 := by
  rw [(mappedStep_mappedRead a s).frame]; exact ⟨rfl, rfl⟩

/-- What holds of the state a transaction leaves, done or in violation of the protocol. -/
def TxResult.Leaves (p : State → Prop) : TxResult → Prop
  | .done t => p t
  | .violated _ t => p t
  | .refused _ => True

/-- A `Cmd` write leaves the latches, and in `Cmd` the word written or, dropped, the one before (41 R142, R166). -/
theorem wrCmd_leaves (new : CmdWord) (s : State) :
    (wrCmd new s).Leaves fun t => t.lat = s.lat ∧ (t.cmd = s.cmd ∨ t.cmd = new) := by
  unfold wrCmd
  split_ifs
  · exact ⟨rfl, .inl rfl⟩
  · split
    · rename_i u hu
      have k := sameShadows_react hu
      exact ⟨k.lat, .inr k.cmd⟩
    · rename_i k _
      have k := (sameShadows_violatedClocks s.cmd new { s with cmd := new }).trans (sameShadows_violate k s.cmd new _)
      exact ⟨k.lat, .inr k.cmd⟩
    · trivial

theorem wrAdr_leaves (v : Word) (s : State) : (wrAdr v s).Leaves (SameShadows s) := by
  by_cases hk : s.key = 0#32
  · rw [wrAdr_of_locked (by simp [locked, hk])]
    exact .refl s
  · by_cases ha : AdrAccepted v s
    · rw [wrAdr_of_accepted hk ha]
      exact ⟨rfl, rfl⟩
    · rw [wrAdr_of_not_accepted hk ha]
      exact SameShadows.trans (t := { s with adr := v, doStale := 3 }) ⟨rfl, rfl⟩ (sameShadows_violate ..)

theorem wrDI_leaves (v : Word) (s : State) : (wrDI v s).Leaves (SameShadows s) := by
  by_cases hk : s.key = 0#32
  · rw [wrDI_of_locked (by simp [locked, hk])]
    exact .refl s
  · by_cases ha : DataAccepted s
    · rw [wrDI_of_accepted hk ha]
      exact ⟨rfl, rfl⟩
    · rw [wrDI_of_not_accepted hk ha]
      exact SameShadows.trans (t := { s with di := v }) ⟨rfl, rfl⟩ (sameShadows_violate ..)

/-! ### Delay-Cycles under a line -/

/-- Delay-Cycles is as it was in `Cmd`, in `DSH` and in `CSH`. -/
structure SameDelays (s t : State) : Prop where
  cmd : t.cmd.delay = s.cmd.delay
  dsh : t.lat.dsh.delay = s.lat.dsh.delay
  csh : t.lat.csh.delay = s.lat.csh.delay

theorem SameShadows.delays {s t : State} (h : SameShadows s t) : SameDelays s t :=
  ⟨by rw [h.cmd], by rw [h.lat], by rw [h.lat]⟩

/-- The lines that write `Cmd` from `CSH`. -/
def Act.usesShadow : Act → Bool
  | .wrCmd _ => true
  | _ => false

/-- The lines that build `CSH` from `DSH`. -/
def Act.buildsShadow : Act → Bool
  | .shadow | .shadowMass => true
  | _ => false

/-- What a line does to Delay-Cycles, by the shadows it reads and writes (41 R170, R171). -/
inductive ActDelays (a : Act) (s t : State) : Prop where
  | same (hr : a ≠ .readDelay) (hb : a.buildsShadow = false) (h : SameDelays s t)
  | read (ha : a = .readDelay) (hc : t.cmd = s.cmd) (hd : t.lat.dsh.delay = s.cmd.delay) (hs : t.lat.csh = s.lat.csh)
  | build (ha : a.buildsShadow = true) (hc : t.cmd = s.cmd) (hd : t.lat.dsh = s.lat.dsh)
      (hs : t.lat.csh.delay = s.lat.dsh.delay)
  | use (ha : ∃ d, a = .wrCmd d) (hc : t.cmd.delay = s.lat.csh.delay) (hl : t.lat = s.lat)
  | release (ha : a = .release) (hc : t.cmd.delay = s.lat.dsh.delay) (hl : t.lat = s.lat)

/-- What holds of the state a line that falls through leaves, in violation of the protocol or not. -/
def ActResult.Leaves (p : State → Prop) : ActResult → Prop
  | .go t => p t
  | .violated _ t => p t
  | .held => True
  | .refused _ => True

theorem leaves_actTx {p q : State → Prop} {r : TxResult} (h : r.Leaves p) (hpq : ∀ t, p t → q t) :
    (actTx r).Leaves q := by
  cases r with
  | done t => exact hpq t h
  | violated f t => exact hpq t h
  | refused r => trivial

/-- Every line but the one of `set_latency` that replaces the field (47 R239). -/
theorem runAct_delays {a : Act} (s : State) (ha : a ≠ .latencyShadow) : (runAct a s).Leaves (ActDelays a s) := by
  cases a <;> simp only [runAct]
  case latencyShadow => exact absurd rfl ha
  case readDelay => exact .read rfl rfl rfl rfl
  case shadow | shadowMass => exact .build rfl rfl rfl rfl
  case wrCmd d =>
    refine leaves_actTx (wrCmd_leaves ..) fun t ⟨hl, hc⟩ => hc.elim (fun hc => ?_) fun hc => ?_
    · exact .same (by simp) rfl (SameShadows.delays ⟨hc, hl⟩)
    · exact .use ⟨d, rfl⟩ (by rw [hc, withDrive_delay]) hl
  case release =>
    refine leaves_actTx (wrCmd_leaves ..) fun t ⟨hl, hc⟩ => hc.elim (fun hc => ?_) fun hc => ?_
    · exact .same (by simp) rfl (SameShadows.delays ⟨hc, hl⟩)
    · exact .release rfl (by rw [hc]) hl
  case wrAdr => exact leaves_actTx (wrAdr_leaves ..) fun t h => .same (by simp) rfl h.delays
  case wrDI | wrDIZero => exact leaves_actTx (wrDI_leaves ..) fun t h => .same (by simp) rfl h.delays
  case discard =>
    split
    · rename_i hu
      exact .same (by simp) rfl (sameShadows_rdDO hu).delays
    · trivial
  case sample =>
    split
    · rename_i hu
      have k := (sameShadows_rdDO hu).delays
      exact .same (by simp) rfl ⟨k.cmd, k.dsh, k.csh⟩
    · trivial
  case refreshRead =>
    split_ifs
    · trivial
    · trivial
    · exact .same (by simp) rfl (sameShadows_mappedRead ..).delays
  all_goals exact .same (by simp) rfl ⟨rfl, rfl, rfl⟩

/-- The lines a branch can jump to, where it does not fall through. -/
def Branch.jumps : Branch → List Nat
  | .protectedEnd | .thenPage => []
  | .nextSector n | .storeElement n | .protectedSkip n | .openRun n | .nextPair n | .ifRunOpen n | .nextRefresh n => [n]
  | .runCase same other fresh => [same, other, fresh]

/-- A branch keeps Delay-Cycles, and goes nowhere but to the next line, to one of its jumps or to the end. -/
def BranchDelays (b : Branch) (s : State) : BranchResult → Prop
  | .next t => SameDelays s t
  | .to n t => n ∈ b.jumps ∧ SameDelays s t
  | .stop t => SameDelays s t

theorem runBranch_delays (b : Branch) (s : State) : BranchDelays b s (runBranch b s) := by
  cases b <;> simp only [runBranch]
  case protectedEnd | thenPage => split_ifs <;> exact ⟨rfl, rfl, rfl⟩
  case nextSector | storeElement | protectedSkip | nextPair | nextRefresh =>
    split_ifs
    · exact ⟨List.mem_singleton_self _, rfl, rfl, rfl⟩
    · exact ⟨rfl, rfl, rfl⟩
  case ifRunOpen =>
    split_ifs
    · exact ⟨rfl, rfl, rfl⟩
    · exact ⟨List.mem_singleton_self _, rfl, rfl, rfl⟩
  case openRun => exact ⟨List.mem_singleton_self _, rfl, rfl, rfl⟩
  case runCase =>
    split
    · split_ifs <;> exact ⟨by simp [Branch.jumps], rfl, rfl, rfl⟩
    · exact ⟨by simp [Branch.jumps], rfl, rfl, rfl⟩

/-! ### The order of the lines -/

/-- The field has been read into `DSH` before a line. -/
abbrev DelayRead (op : Opcode) (line : Nat) : Prop := .act .readDelay ∈ (program op).take line

/-- `CSH` has been built before a line. -/
abbrev ShadowBuilt (op : Opcode) (line : Nat) : Prop :=
  .act .shadow ∈ (program op).take line ∨ .act .shadowMass ∈ (program op).take line

/-- Whether a line comes behind those it rests on, and whether a jump skips none of them: `CSH` is built before `Cmd` is
written from it, and the field is read before `CSH` is built from it or `Cmd` released to it. -/
def lineInOrder (op : Opcode) (line : Nat) : Line → Bool
  | .act a =>
    a != .latencyShadow && decide (a.usesShadow = true → ShadowBuilt op line) &&
      decide (a.buildsShadow = true ∨ a = .release → DelayRead op line)
  | .branch b =>
    decide (∀ n ∈ b.jumps, (DelayRead op n → DelayRead op line) ∧ (ShadowBuilt op n → ShadowBuilt op line))

/-- Every micro-program but that of `set_latency` has its lines in order. -/
theorem lineInOrder_of_program {op : Opcode} {line : Nat} {l : Line} (hop : op ≠ .setLatency)
    (hl : (program op)[line]? = some l) : lineInOrder op line l = true := by
  have hall : ((program op).zipIdx.all fun e => lineInOrder op e.2 e.1) = true := by
    cases op with
    | setLatency => exact absurd rfl hop
    | _ => decide
  exact List.all_eq_true.mp hall (l, line) (List.mk_mem_zipIdx_iff_getElem?.mpr hl)

/-- Behind a line that is no read of the field, the field is read only if it was before. -/
theorem delayRead_of_succ {op : Opcode} {line : Nat} {l : Line} (hl : (program op)[line]? = some l)
    (h : l ≠ .act .readDelay) (hs : DelayRead op (line + 1)) : DelayRead op line := by
  simpa [DelayRead, List.take_add_one, hl, h.symm] using hs

/-- Behind a line that does not build the shadow, the shadow is built only if it was before. -/
theorem shadowBuilt_of_succ {op : Opcode} {line : Nat} {l : Line} (hl : (program op)[line]? = some l)
    (h : ∀ a, l = .act a → a.buildsShadow = false) (hs : ShadowBuilt op (line + 1)) : ShadowBuilt op line := by
  have h1 : Line.act .shadow ≠ l := fun he => Bool.noConfusion (h _ he.symm)
  have h2 : Line.act .shadowMass ≠ l := fun he => Bool.noConfusion (h _ he.symm)
  simpa [ShadowBuilt, List.take_add_one, hl, h1, h2] using hs

/-! ### Delay-Cycles under a step of the sequencer -/

/-- What `DelayCarried` says at one line. -/
def CarriedAt (op : Opcode) (line : Nat) (s : State) : Prop :=
  (DelayRead op line → s.lat.dsh.delay = s.cmd.delay) ∧ (ShadowBuilt op line → s.lat.csh.delay = s.cmd.delay)

theorem delayCarried_at {op : Opcode} {line : Nat} {s : State} (h : DelayCarried s) (hu : s.upc = .at op line) :
    CarriedAt op line s := h op line hu

theorem SameDelays.carried {op : Opcode} {line n : Nat} {s t : State} (h : SameDelays s t) (hc : CarriedAt op line s)
    (hr : DelayRead op n → DelayRead op line) (hb : ShadowBuilt op n → ShadowBuilt op line) : CarriedAt op n t :=
  ⟨fun hn => by rw [h.dsh, h.cmd]; exact hc.1 (hr hn), fun hn => by rw [h.csh, h.cmd]; exact hc.2 (hb hn)⟩

/-- A line in its place keeps the field, and keeps it carried to the next line. -/
theorem ActDelays.carried {op : Opcode} {line : Nat} {a : Act} {s t : State} (hop : op ≠ .setLatency)
    (hl : (program op)[line]? = some (.act a)) (hc : CarriedAt op line s) (h : ActDelays a s t) :
    t.cmd.delay = s.cmd.delay ∧ CarriedAt op (line + 1) t := by
  have horder := lineInOrder_of_program hop hl
  simp only [lineInOrder, Bool.and_eq_true, decide_eq_true_eq] at horder
  obtain ⟨⟨-, huse⟩, hread⟩ := horder
  have hrest {u : State} (hr : a ≠ .readDelay) (hb : a.buildsShadow = false) (h : SameDelays s u) :
      u.cmd.delay = s.cmd.delay ∧ CarriedAt op (line + 1) u :=
    ⟨h.cmd, h.carried hc (delayRead_of_succ hl (by simpa using hr)) (shadowBuilt_of_succ hl fun _ he => by cases he; exact hb)⟩
  obtain ⟨hdsh, hcsh⟩ := hc
  cases h with
  | same hr hb h => exact hrest hr hb h
  | read ha hc hd hs =>
    subst ha
    refine ⟨by rw [hc], fun _ => by rw [hd, hc], fun hn => ?_⟩
    rw [hs, hc]
    exact hcsh (shadowBuilt_of_succ hl (fun _ he => by cases he; rfl) hn)
  | build ha hc hd hs =>
    have hdelay := hdsh (hread (.inl ha))
    exact ⟨by rw [hc], fun _ => by rw [hd, hc, hdelay], fun _ => by rw [hs, hc, hdelay]⟩
  | use ha hc hlat =>
    obtain ⟨d, rfl⟩ := ha
    refine hrest (by simp) rfl ⟨?_, by rw [hlat], by rw [hlat]⟩
    rw [hc, hcsh (huse rfl)]
  | release ha hc hlat =>
    subst ha
    refine hrest (by simp) rfl ⟨?_, by rw [hlat], by rw [hlat]⟩
    rw [hc, hdsh (hread (.inr rfl))]

/-- A step of operation `op` keeps the field, carries it on, and stays in the operation or ends it. -/
structure DelayKept (op : Opcode) (s t : State) : Prop where
  delay : t.cmd.delay = s.cmd.delay
  carried : DelayCarried t
  upc : t.upc = .idle ∨ ∃ line, t.upc = .at op line

theorem delayKept_respond {op : Opcode} {s u : State} (r : Response) (h : u.cmd.delay = s.cmd.delay) :
    DelayKept op s (respond r u) :=
  ⟨h, fun _ _ hu => Upc.noConfusion hu, .inl rfl⟩

theorem delayKept_goLine {op : Opcode} {n : Nat} {s u : State} (h : u.cmd.delay = s.cmd.delay)
    (hc : CarriedAt op n u) : DelayKept op s (goLine op n u) := by
  by_cases hn : n < (program op).length
  · rw [goLine_inside u hn]
    exact ⟨h, fun _ _ hu => by cases hu; exact hc, .inr ⟨n, rfl⟩⟩
  · rw [goLine_past u (not_lt.mp hn)]
    exact delayKept_respond _ h

theorem delayKept_seqStep {op : Opcode} {line : Nat} {s t : State} (hop : op ≠ .setLatency) (hu : s.upc = .at op line)
    (hc : DelayCarried s) (h : seqStep s = .next t) : DelayKept op s t := by
  have hat := delayCarried_at hc hu
  simp only [seqStep, hu] at h
  split at h
  · cases h
  · rename_i a hl
    have hk := runAct_delays (a := a) s (by
      have := lineInOrder_of_program hop hl
      simp only [lineInOrder, Bool.and_eq_true, bne_iff_ne] at this
      exact this.1.1)
    split at h
    · rename_i hv
      rw [hv] at hk
      cases h
      obtain ⟨hd, hn⟩ := hk.carried hop hl hat
      exact delayKept_goLine hd hn
    · cases h
      exact ⟨rfl, hc, .inr ⟨line, hu⟩⟩
    · rename_i hv
      rw [hv] at hk
      cases h
      exact delayKept_respond _ (hk.carried hop hl hat).1
    · cases h
  · rename_i b hl
    have hk := runBranch_delays b s
    have hnext := fun (u : State) (k : SameDelays s u) =>
      k.carried hat (delayRead_of_succ hl (by simp)) (shadowBuilt_of_succ hl (by simp))
    have hjump := lineInOrder_of_program hop hl
    simp only [lineInOrder, decide_eq_true_eq] at hjump
    split at h
    all_goals
      rename_i hv
      rw [hv] at hk
      cases h
    · exact delayKept_goLine hk.cmd (hnext _ hk)
    · obtain ⟨hn, hk⟩ := hk
      exact delayKept_goLine hk.cmd (hk.carried hat (hjump _ hn).1 (hjump _ hn).2)
    · exact delayKept_respond _ hk.cmd

/-- A run of one operation keeps the field. -/
theorem Runs.keeps_delay {op : Opcode} (hop : op ≠ .setLatency) {n : Nat} {s t : State} (h : Runs n s t)
    (hu : s.upc = .idle ∨ ∃ line, s.upc = .at op line) (hc : DelayCarried s) : t.cmd.delay = s.cmd.delay := by
  induction h with
  | refl s => rfl
  | @step n s t u hb hs _ ih =>
    rcases hu with hu | ⟨line, hu⟩
    · simp only [seqStep, hu] at hs
      cases hs
      exact ih (.inl hu) hc
    · have k := delayKept_seqStep hop hu hc hs
      exact (ih k.upc k.carried).trans k.delay

end Sys2Proof.Machine

/-!
The lock discipline (41 R172): every micro-program as a whole run, with what `Key` holds at its end.
-/

namespace Sys2Proof.Machine

/-- The operations that write no key. -/
def keyless : List Opcode := [.getLatency, .updateCache, .setCacheMode, .getCacheMode]

/-- The operation that starts in `s` ends within the bound of `runSeq`: locked, or with `Key` as it was where it writes
no key. -/
def EndsLocked (op : Opcode) (s : State) : Prop :=
  ∃ n t, n ≤ stepBound s ∧ Runs n s (finish t) ∧
    (op ∈ keyless → t.key = s.key) ∧ (op ∉ keyless → t.key = 0#32)

section
variable {op : Opcode} {s t : State} {n : Nat}

/-- Every micro-program of at most 1353 steps is inside the bound. -/
theorem endsLocked_of_runs (hop : op ∉ keyless) (hr : Runs n s (finish t)) (hk : t.key = 0#32) (hn : n ≤ 1353) :
    EndsLocked op s :=
  ⟨n, t, by unfold stepBound; omega, hr, fun h => absurd h hop, fun _ => hk⟩

theorem endsLocked_of_keyless (hop : op ∈ keyless) (hr : Runs n s (finish t)) (hk : t.key = s.key) (hn : n ≤ 1353) :
    EndsLocked op s :=
  ⟨n, t, by unfold stepBound; omega, hr, fun _ => hk, fun h => absurd hop h⟩

end

/-! ### Operands the checker lets through -/

/-- An operand inside its bank names a word of the bank (20 R71); that of `erase_page` names a page of it. -/
theorem wordAddr_lt_of_inside {i : Instr} {size : Nat} {a : Word} (h : outsideBank i size a = false)
    (he : ∀ b x, i ≠ .erasePage b x) : (wordAddr a).toNat < size := by
  rw [wordAddr_toNat]
  unfold outsideBank at h
  split at h
  · exact absurd rfl (he _ _)
  all_goals
    rw [decide_eq_false_iff_not] at h
    omega

/-- The word of `ADDR` lies in the bank of the operation. -/
def AddrInBank (s : State) : Prop := (wordAddr s.lat.addr).toNat < bankSize s.cfg (arrayBank s.lat.bank)

/-- An operation with one address operand, but for `erase_page`, starts on a word of its bank. -/
theorem started_addr_lt {i : Instr} {q : Request} {s : State} {b : BankSel} {a : Word} (hf : expectedFault s i = none)
    (hl : Latched i q) (hb : bankOperand i = some b) (ha : addressesOf i = [a]) (he : ∀ b x, i ≠ .erasePage b x) :
    AddrInBank (started q s) := by
  obtain ⟨-, -, -, -, hin⟩ := expected_none hf
  have hbank : (started q s).lat.bank = b := hl.bank.trans (by rw [hb]; rfl)
  have haddr : (started q s).lat.addr = a := hl.addr.trans (by rw [ha]; rfl)
  rw [AddrInBank, hbank, haddr]
  exact wordAddr_lt_of_inside ((hin a (by simp [ha])).2 b hb) he

/-- The latched length of an array operation is its number of elements. -/
theorem started_len {q : Request} {s : State} (h : q.len < 65536) : (started q s).lat.len.toNat = q.len :=
  (BitVec.toNat_ofNat _ _).trans (Nat.mod_eq_of_lt h)

/-! ### The micro-programs -/

section
variable {s : State}

theorem endsLocked_readWord (h : AtStart .readWord s) (ha : AddrInBank s) : EndsLocked .readWord s :=
  endsLocked_of_runs (by decide) (runs_readWord h ha) rfl (by decide)

theorem endsLocked_readHalfWord (h : AtStart .readHalfWord s) (ha : AddrInBank s) : EndsLocked .readHalfWord s :=
  endsLocked_of_runs (by decide) (runs_readHalfWord h ha) rfl (by decide)

theorem endsLocked_readByte (h : AtStart .readByte s) (ha : AddrInBank s) : EndsLocked .readByte s :=
  endsLocked_of_runs (by decide) (runs_readByte h ha) rfl (by decide)

theorem endsLocked_readArray (h : AtStart .readArray s) {a : Word} {as : List Word} (had : s.lat.addr = a)
    (hav : s.lat.avec = a :: as) (hlen : s.lat.len.toNat = s.lat.avec.length)
    (hr : ∀ x ∈ a :: as, (wordAddr x).toNat < bankSize s.cfg (arrayBank s.lat.bank)) : EndsLocked .readArray s := by
  obtain ⟨ns, m, l, -, -, -, hruns⟩ := runs_readArray h had hav hlen hr
  rw [hav, List.length_cons] at hlen
  exact ⟨_, _, by unfold stepBound; omega, hruns, fun h => absurd h (by decide), fun _ => rfl⟩

/-- A protected word ends the operation at once, with the lock write (44 R201). -/
theorem endsLocked_programWord (h : AtStart .programWord s) (ha : AddrInBank s) : EndsLocked .programWord s := by
  cases hp : isProtected s.cfg s.lat.bank s.lat.addr with
  | false => exact endsLocked_of_runs (by decide) (runs_programWord h ha hp) rfl (by decide)
  | true => exact endsLocked_of_runs (by decide) (runs_protected h.upc h.busy rfl hp) rfl (by decide)

theorem endsLocked_programHalfWord (h : AtStart .programHalfWord s) (ha : AddrInBank s) :
    EndsLocked .programHalfWord s := by
  cases hp : isProtected s.cfg s.lat.bank (wordAddr s.lat.addr) with
  | false => exact endsLocked_of_runs (by decide) (runs_programHalfWord h ha hp) rfl (by decide)
  | true =>
    exact endsLocked_of_runs (by decide) ((runs_mergeHalf h ha).trans (runs_protected rfl h.busy rfl hp)) rfl (by decide)

theorem endsLocked_programByte (h : AtStart .programByte s) (ha : AddrInBank s) : EndsLocked .programByte s := by
  cases hp : isProtected s.cfg s.lat.bank (wordAddr s.lat.addr) with
  | false => exact endsLocked_of_runs (by decide) (runs_programByte h ha hp) rfl (by decide)
  | true =>
    exact endsLocked_of_runs (by decide) ((runs_mergeByte h ha).trans (runs_protected rfl h.busy rfl hp)) rfl (by decide)

theorem endsLocked_programArray (h : AtStart .programArray s) {b : Bank} {p : Word × Word} {ps : List (Word × Word)}
    (hsel : s.lat.bank = selOf b) (hx : s.xlatch = none) (hpend : s.pend = none)
    (hav : s.lat.avec = (p :: ps).map (·.1)) (hdv : s.lat.dvec = (p :: ps).map (·.2))
    (hlen : s.lat.len.toNat = s.lat.avec.length)
    (hr : ∀ y ∈ p :: ps, (wordAddr y.1).toNat < bankSize s.cfg b) : EndsLocked .programArray s := by
  obtain ⟨k, t, hk, hruns, -⟩ := runs_programArray h hsel hx hpend hav hdv hlen hr
  rw [hav, List.length_map, List.length_cons] at hlen
  exact ⟨_, _, by unfold stepBound; omega, hruns, fun h => absurd h (by decide), fun _ => rfl⟩

theorem endsLocked_erasePage (h : AtStart .erasePage s)
    (hr : (pageOf s.lat.addr).toNat < bankSize s.cfg (arrayBank s.lat.bank)) : EndsLocked .erasePage s :=
  endsLocked_of_runs (by decide) (runs_erasePage h rfl hr) rfl (by have := sectorsLeft_le s.cfg s.lat.bank; omega)

theorem endsLocked_eraseAllPages (h : AtStart .eraseAllPages s) : EndsLocked .eraseAllPages s := by
  by_cases hb : s.lat.bank = .allBanks ∧ s.cfg.massThenPage = true
  · exact endsLocked_of_runs (by decide) (runs_eraseAll_then h hb.1 hb.2) rfl
      (by have := sectorsLeft_le s.cfg .info; omega)
  · exact endsLocked_of_runs (by decide) (runs_eraseAll_alone h hb) rfl (by decide)

theorem endsLocked_setLatency (h : AtStart .setLatency s) : EndsLocked .setLatency s :=
  endsLocked_of_runs (by decide) (runs_setLatency h) rfl (by decide)

theorem endsLocked_getLatency (h : AtStart .getLatency s) : EndsLocked .getLatency s :=
  endsLocked_of_keyless (by decide) (runs_getLatency h) rfl (by decide)

theorem endsLocked_updateCache (h : AtStart .updateCache s) (hc : configOk s.cfg = true) (hst : stalled s = false) :
    EndsLocked .updateCache s := by
  obtain ⟨k, t, hk, ht, -, hruns⟩ := runs_updateCache h hc hst
  refine endsLocked_of_keyless (by decide) hruns ?_ (by omega)
  change t.key = s.key
  rw [ht.frame]

theorem endsLocked_setCacheMode (h : AtStart .setCacheMode s) : EndsLocked .setCacheMode s :=
  endsLocked_of_keyless (by decide) (runs_setCacheMode h) rfl (by decide)

theorem endsLocked_getCacheMode (h : AtStart .getCacheMode s) : EndsLocked .getCacheMode s :=
  endsLocked_of_keyless (by decide) (runs_getCacheMode h) rfl (by decide)

end

/-- Every accepted request but a stalled `update_cache` runs to its end, and ends as the lock discipline says. -/
theorem started_endsLocked {i : Instr} {op : Opcode} {q : Request} {s : State} (hr : Ready s) (hw : i.wf = true)
    (hi : requestOf i = some op) (hf : expectedFault s i = none) (hst : i = .updateCache → stalled s = false)
    (hl : Latched i q) : EndsLocked op (started q s) := by
  have hop : q.op = op := Option.some.inj (hl.op.symm.trans hi)
  have hat : AtStart op (started q s) := hop ▸ atStart_started hr
  have haddr := fun b a => started_addr_lt (b := b) (a := a) hf hl
  obtain ⟨hcount, -, hadm, -, hin⟩ := expected_none hf
  cases i with
  | readByte b a => cases hi; exact endsLocked_readByte hat (haddr b a rfl rfl (by simp))
  | readHalfWord b a => cases hi; exact endsLocked_readHalfWord hat (haddr b a rfl rfl (by simp))
  | readWord b a => cases hi; exact endsLocked_readWord hat (haddr b a rfl rfl (by simp))
  | readArray b as =>
    cases hi
    cases as with
    | nil => exact absurd rfl (hcount 0 rfl).2
    | cons a as =>
      have hbank : (started q s).lat.bank = b := hl.bank
      have havec : (started q s).lat.avec = a :: as := hl.avec _ rfl
      refine endsLocked_readArray hat hl.addr havec ?_ fun x hx => ?_
      · rw [havec, started_len (hl.len ▸ of_decide_eq_true hw), hl.len]
        rfl
      · rw [hbank]
        exact wordAddr_lt_of_inside ((hin x hx).2 b rfl) (by simp)
  | programByte b a v => cases hi; exact endsLocked_programByte hat (haddr b a rfl rfl (by simp))
  | programHalfWord b a v => cases hi; exact endsLocked_programHalfWord hat (haddr b a rfl rfl (by simp))
  | programWord b a v => cases hi; exact endsLocked_programWord hat (haddr b a rfl rfl (by simp))
  | programArray b ps =>
    cases hi
    obtain ⟨b', rfl⟩ := admits_one (by simp) (hadm b rfl)
    cases ps with
    | nil => exact absurd rfl (hcount 0 rfl).2
    | cons p ps =>
      have havec : (started q s).lat.avec = (p :: ps).map (·.1) := hl.avec _ rfl
      refine endsLocked_programArray hat hl.bank hr.quiet.xlatch hr.quiet.pend havec (hl.dvec _ _ rfl) ?_ fun y hy => ?_
      · rw [havec, started_len (hl.len ▸ of_decide_eq_true hw), hl.len, List.length_map]
        rfl
      · have := wordAddr_lt_of_inside ((hin y.1 (List.mem_map_of_mem hy)).2 _ rfl) (by simp)
        rwa [arrayBank_selOf] at this
  | erasePage b a =>
    cases hi
    have hbank : (started q s).lat.bank = b := hl.bank
    have hadr : (started q s).lat.addr = a := hl.addr
    refine endsLocked_erasePage hat ?_
    rw [hbank, hadr]
    exact not_le.mp (of_decide_eq_false ((hin a (List.mem_singleton_self a)).2 b rfl))
  | eraseAllPages b => cases hi; exact endsLocked_eraseAllPages hat
  | setLatency v => cases hi; exact endsLocked_setLatency hat
  | getLatency => cases hi; exact endsLocked_getLatency hat
  | updateCache => cases hi; exact endsLocked_updateCache hat hr.config (hst rfl)
  | setCacheMode v => cases hi; exact endsLocked_setCacheMode hat
  | getCacheMode => cases hi; exact endsLocked_getCacheMode hat
  | _ => cases hi

/-- Settles O56: a request runs to its end, which is locked where a key was written; each step of the run, and so the run
itself, keeps Delay-Cycles. -/
theorem lockAndDelay : Obligations.LockAndDelay := by
  refine ⟨fun s t i op hr hw hi hf hst he => ?_, fun s t op line hu hop hc h => ?_⟩
  · obtain ⟨q, checks, hq, hl, hv⟩ := exec_request s (Option.isSome_of_eq_some hi)
    obtain rfl : q.op = op := Option.some.inj (hl.op.symm.trans hi)
    obtain ⟨n, u, hn, hruns, hkept, hlocked⟩ := started_endsLocked hr hw hi hf hst hl
    have hchecks : ∀ c ∈ checks, c = none := fun c hc =>
      firstViolation_none.mp (hv.trans hf) c (List.mem_append_left _ hc)
    rw [hq, request_runs hr hchecks hruns rfl hn] at he
    cases he
    refine ⟨hkept, hlocked, fun hop => ?_⟩
    exact hruns.keeps_delay hop (.inr ⟨0, rfl⟩) fun _ _ hu => by cases hu; simp
  · have k := delayKept_seqStep hop hu hc h
    exact ⟨k.delay, k.carried⟩

end Sys2Proof.Machine

/-!
The read engine (spec 42): what a completed read leaves, by the run of its micro-program.
-/

namespace Sys2Proof.Machine

/-! ### Scalar reads (42 R181 to R183) -/

section
variable {s : State} {b : Bank}

/-- An operand of positive width inside the bank starts its operation on a word of the bank. -/
theorem addrInBank_started {q : Request} {width : Nat} (hb : q.bank = selOf b) (hw : 0 < width)
    (ha : q.addr.toNat + width ≤ bankSize s.cfg b) : AddrInBank (started q s) := by
  rw [AddrInBank, arrayBank_started q s b hb]
  have hle := wa_le q.addr
  change (wordAddr q.addr).toNat < bankSize s.cfg b
  omega

/-- Operands inside the bank pass the range check under the selector of the bank. -/
theorem checkRange_selOf_none {as : List Word} {width : Nat} (h : ∀ x ∈ as, x.toNat + width ≤ bankSize s.cfg b) :
    checkRange s (selOf b) width as = none :=
  checkRange_none (by rwa [arrayBank_selOf])

/-- The checks every read of one bank shares but `read_byte`, which is never misaligned (60 R251, R253, R254). -/
theorem readChecks_none {as : List Word} {mask : Word} {width : Nat}
    (h : ∀ x ∈ as, x &&& mask = 0#32 ∧ x.toNat + width ≤ bankSize s.cfg b) :
    ∀ c ∈ [checkOneBank (selOf b), checkAligned mask as, checkRange s (selOf b) width as], c = none := by
  rw [checkOneBank_selOf, checkAligned_none fun x hx => (h x hx).1, checkRange_selOf_none fun x hx => (h x hx).2]
  simp

/-- A scalar read whose run is the read sequence, `f` applied to the word read, completes with what `f` makes of the
word. -/
theorem request_reads {i : Instr} {q : Request} {checks : List (Option FaultInfo)} {u : Upc} {n : Nat} (f : Word → Word)
    (hr : Ready s) (hc : ∀ c ∈ checks, c = none) (hb : q.bank = selOf b)
    (hop : q.op = .readWord ∨ q.op = .readHalfWord ∨ q.op = .readByte) (hn : n ≤ 1353)
    (hrun : Runs n (started q s) (finish (setLat (readDone (started q s) u) { (readDone (started q s) u).lat with
      res := f (readValue (started q s) (arrayBank (started q s).lat.bank) q.addr (s.draws + 3)) }))) :
    ∃ m l, request i q checks s = .next { completed s [f (readValue s b q.addr (s.draws + 3))] s.counts.dcnt l m with
      key := 0#32, cmd := shadowFor s b, adr := wordAddr q.addr, doStale := 0, tCmd := 0, rcvDue := false
      settleDue := settling s } := by
  rw [arrayBank_started q s b hb, readValue_started] at hrun
  have hres : results (setLat (readDone (started q s) u) { (readDone (started q s) u).lat with
      res := f (readValue s b q.addr (s.draws + 3)) }) = [f (readValue s b q.addr (s.draws + 3))] := by
    obtain h | h | h := hop <;> simp [results, readDone, started, accept, h]
  obtain ⟨m, l, hfin⟩ := finish_readDone q hr b hb u _ _ hres
  exact ⟨m, l, (request_runs hr hc hrun rfl (by omega)).trans (congrArg _ hfin)⟩

end

/-- Settles O43: the run is the read sequence alone. -/
theorem readWord : Obligations.ReadWord := by
  intro s b a hr hal hsize
  let q : Request := { op := .readWord, bank := selOf b, addr := a }
  have hrun := runs_readWord (atStart_started (q := q) hr) (addrInBank_started rfl (by decide) hsize)
  obtain ⟨m, l, h⟩ := request_reads (i := .readWord (selOf b) a) id hr
    (readChecks_none (List.forall_mem_singleton.2 ⟨hal, hsize⟩)) rfl (.inl rfl) (by decide) hrun
  rw [show wordAddr q.addr = a from wa_of_aligned hal] at h
  exact ⟨_, m, l, h⟩

/-- Settles O44: behind the read sequence one line carves the half-word or the byte out of the word. -/
theorem subWordReads : Obligations.SubWordReads := by
  intro s b a hr
  refine ⟨fun hal hsize => ?_, fun hsize => ?_⟩
  · let q : Request := { op := .readHalfWord, bank := selOf b, addr := a }
    have hrun := runs_readHalfWord (atStart_started (q := q) hr) (addrInBank_started rfl (by decide) hsize)
    obtain ⟨m, l, h⟩ := request_reads (i := .readHalfWord (selOf b) a) (carveHalf · a) hr
      (readChecks_none (List.forall_mem_singleton.2 ⟨hal, hsize⟩)) rfl (.inr (.inl rfl)) (by decide) hrun
    rw [carveHalf, trunc_eq, halfShift_eq hal] at h
    exact ⟨_, m, l, h⟩
  · let q : Request := { op := .readByte, bank := selOf b, addr := a }
    have hrun := runs_readByte (atStart_started (q := q) hr) (addrInBank_started rfl (by decide) hsize)
    have hchecks : ∀ c ∈ [checkOneBank (selOf b), checkRange s (selOf b) 1 [a]], c = none := by
      rw [checkOneBank_selOf, checkRange_selOf_none (List.forall_mem_singleton.2 hsize)]
      simp
    obtain ⟨m, l, h⟩ := request_reads (i := .readByte (selOf b) a) (carveByte · a) hr hchecks rfl (.inr (.inr rfl))
      (by decide) hrun
    rw [carveByte, trunc8_eq, byteShift_eq] at h
    exact ⟨_, m, l, h⟩

/-! ### `read_array` (42 R185) -/

/-- `read_array` completes with `RVEC`, the registers as its last element left them. -/
theorem finish_readArray {q : Request} {s : State} {b : Bank} {l : Latches} {a : Word} {m line : Nat} (hr : Ready s)
    (hb : q.bank = selOf b) (hop : l.op = .readArray) :
    finish { started q s with
        key := 0#32, cmd := shadowAt (started q s), adr := a, doStale := 0, tCmd := 0, rcvDue := false
        settleDue := settling (started q s), draws := m, lat := l, upc := .at .readArray line } =
      { completed s l.rvec s.counts.dcnt (Config.freeLatches m) (m + 1) with
        key := 0#32, cmd := shadowFor s b, adr := a, doStale := 0, tCmd := 0, rcvDue := false
        settleDue := settling s } := by
  rw [shadow_started q s b hb, settling_started]
  simp only [finish, results, hop, respond, completed, hr.quiet.atIdle, hr.quiet.notBusy]
  rfl

/-- Settles O45: the run stores each element in turn, and leaves the registers as its last read does. -/
theorem readArray : Obligations.ReadArray := by
  intro s b a as hr hmax hlen hel
  let q : Request := { op := .readArray, bank := selOf b, addr := a, len := as.length + 1, avec := a :: as }
  have hbank : arrayBank (started q s).lat.bank = b := arrayBank_started q s b rfl
  have hlatched : (started q s).lat.len.toNat = as.length + 1 := started_len hlen
  have hword : ∀ x ∈ a :: as, (wordAddr x).toNat < bankSize s.cfg (arrayBank (started q s).lat.bank) := by
    intro x hx
    have hin := (hel x hx).2
    have hle := wa_le x
    rw [hbank]
    omega
  obtain ⟨ns, m, l, hns, hop, hvec, hrun⟩ :=
    runs_readArray (atStart_started (q := q) hr) (a := a) (as := as) rfl rfl hlatched hword
  have hchecks : ∀ c ∈ checkMaxLen s (a :: as).length (header .readArray (selOf b) (a :: as).length) ::
      [checkOneBank (selOf b), checkNonEmpty (a :: as).length, checkAligned 3#32 (a :: as),
       checkRange s (selOf b) 4 (a :: as)], c = none := by
    rw [checkMaxLen_none (by simpa using hmax), checkNonEmpty_none (by simp)]
    simpa using readChecks_none hel
  have hlast := wa_of_aligned (hel _ (List.getLast_mem (List.cons_ne_nil a as))).1
  have h := request_runs (i := .readArray (selOf b) (a :: as)) hr hchecks hrun rfl (by rw [hlatched]; omega)
  rw [finish_readArray hr rfl hop, hvec, hbank, hlast] at h
  exact ⟨ns, m + 1, Config.freeLatches m, hns, h⟩

end Sys2Proof.Machine

/-!
The erase engine (spec 43): what a completed erase leaves, by the run of its micro-program.
-/

namespace Sys2Proof.Machine

/-! ### The end of an erase (43 R192, R194) -/

/-- What a completed erase leaves: `adr` is its last cell address, `hv` the time from its last high-voltage start to the
end of its recovery, `main` and `info` the banks. -/
def eraseDone (s : State) (adr : Word) (hv : Nat) (main info : List Host.Cell) : State :=
  { completed s [] (Config.idleCount s.draws) (Config.freeLatches s.draws) (s.draws + 1) with
    key := 0#32, cmd := delayOnly s.cmd, adr := adr, di := 0#32, doStale := 3
    tCmd := s.cfg.timing.hv, tHv := hv + s.cfg.timing.hv
    tSettle := s.cfg.timing.rcv + s.cfg.timing.hv, tRcv := s.cfg.timing.rcv + s.cfg.timing.hv
    rcvDue := true, settleDue := true, main := main, info := info }

/-- Every erase ends with no results, nothing latched or in flight, idle and settled. -/
theorem finish_erase {s t : State} {adr : Word} {hv : Nat} {main info : List Host.Cell} (hr : Ready s) (q : Request)
    (hop : t.lat.op = .erasePage ∨ t.lat.op = .eraseAllPages)
    (ht : t = { started q s with
      key := 0#32, cmd := delayOnly s.cmd, adr := adr, di := 0#32, doStale := 3
      tCmd := s.cfg.timing.hv, tHv := hv + s.cfg.timing.hv
      tSettle := s.cfg.timing.rcv + s.cfg.timing.hv, tRcv := s.cfg.timing.rcv + s.cfg.timing.hv
      rcvDue := true, settleDue := true, xlatch := none, pend := none
      counts := { (started q s).counts with dcnt := Config.idleCount s.draws }
      lat := t.lat, upc := t.upc, main := main, info := info }) :
    finish t = eraseDone s adr hv main info := by
  obtain ⟨hbusy, hidle, -, hpend, hlatch, -⟩ := hr.quiet
  have hres : results t = [] := by obtain h | h := hop <;> simp only [results, h]
  rw [finish, hres, ht]
  simp only [respond, eraseDone, completed, hidle, hbusy, hlatch, hpend]
  rfl

/-! ### `erase_page` (43 R191, R192) -/

/-- The run of `erase_page` (43 R192) ends as every erase. -/
theorem finish_erasePage {s : State} {q : Request} (hr : Ready s) (hop : q.op = .erasePage) (b : Bank)
    (ks : List (BitVec 3)) (u v w : Upc) :
    finish (released (pageErased (pageBegun (started q s) u) b ks v) w) =
      eraseDone s (pageOf q.addr ||| 0xC#32) (s.cfg.timing.erase + s.cfg.timing.nvh + s.cfg.timing.rcv)
        (setArray s b (rowsErased s.cfg b q.addr ks (array s b))).main
        (setArray s b (rowsErased s.cfg b q.addr ks (array s b))).info := by
  cases b <;> exact finish_erase hr q (.inl hop) rfl

theorem firstSector_toNat (c : Config) (b : BankSel) : (firstSector c b).toNat = 3 - sectorsLeft c b := by
  unfold firstSector sectorsLeft; split_ifs <;> rfl

/-- Settles O50: the sector loop erases the page's rows from the starting sector on, in one list of one bank. -/
theorem erasePage : Obligations.ErasePage := by
  intro s b a hr hpage
  let q : Request := { op := .erasePage, bank := selOf b, addr := a }
  have hchecks : ∀ c ∈ [checkOneBank (selOf b), checkPage s (selOf b) a], c = none := by
    rw [checkOneBank_selOf, checkPage_none (by rwa [arrayBank_selOf])]
    simp
  have hleft := sectorsLeft_le s.cfg (selOf b)
  have hrun := runs_erasePage (atStart_started (q := q) hr) (arrayBank_started q s b rfl) hpage
  have hend := request_runs (i := .erasePage (selOf b) a) hr hchecks hrun rfl
    (show 1 + 15 * (sectorsLeft s.cfg (selOf b) + 1) + 3 ≤ 33 * (0 + 41) by omega)
  rw [finish_erasePage hr rfl] at hend
  refine ⟨_, _, _, _, hend, rfl, ?_⟩
  simp only [firstSector_toNat]
  exact becomes_pageErased _ _ _ _ _ hleft fun b' => by cases b' <;> rfl

/-! ### `erase_all_pages` (43 R194, R195) -/

/-- Info behind `erase_all_pages`: erased with `AllBanks`, and its page again where the variant says so (43 R195). -/
def infoErased (s : State) (all : Bool) : List Host.Cell :=
  if all then
    let mass := sectorsErased s.cfg .info (sectorsFrom 3) s.info
    if s.cfg.massThenPage then rowsErased s.cfg .info 0#32 (sectorsFrom (sectorsLeft s.cfg .info)) mass else mass
  else s.info

theorem infoErased_of_alone {s : State} {all : Bool} (h : ¬(all = true ∧ s.cfg.massThenPage = true)) :
    infoErased s all = if all then sectorsErased s.cfg .info (sectorsFrom 3) s.info else s.info := by
  cases all with
  | false => rfl
  | true => exact if_neg fun hc => h ⟨rfl, hc⟩

theorem infoErased_of_then {s : State} (h : s.cfg.massThenPage = true) :
    infoErased s true = rowsErased s.cfg .info 0#32 (sectorsFrom (sectorsLeft s.cfg .info))
      (sectorsErased s.cfg .info (sectorsFrom 3) s.info) := if_pos h

/-- Erasing the page of Info again changes no cell of it. -/
theorem cell_infoErased {s : State} (hc : configOk s.cfg = true) {w : Nat} (hw : 4 * w < bankSize s.cfg .info) :
    cellAt (infoErased s true) w = committed s.cfg .info w .erase .indet := by
  have hmass := cell_massed s .info w hc hw s.info
  by_cases h : s.cfg.massThenPage = true
  · rw [infoErased_of_then h, cellAt_rowsErased _ _ _ _ _ (sectorsLeft_le ..), hmass, ite_self]
  · rwa [infoErased_of_alone fun hh => h hh.2, if_pos rfl]

/-- The request of `erase_all_pages`. -/
def eraseAllRequest (all : Bool) : Request := { op := .eraseAllPages, bank := if all then .allBanks else .main }

/-- A run that ends with the mass erase (43 R194) ends as every erase. -/
theorem finish_massDone {s : State} (hr : Ready s) (all : Bool) :
    finish (massDone (started (eraseAllRequest all) s)) =
      eraseDone s 0xC#32 (s.cfg.timing.me + s.cfg.timing.nvh1 + s.cfg.timing.rcv)
        (sectorsErased s.cfg .main (sectorsFrom 3) s.main)
        (if all then sectorsErased s.cfg .info (sectorsFrom 3) s.info else s.info) := by
  cases all
  · exact finish_erase hr _ (.inr rfl) (massDone_eq _ s (.inl rfl))
  · exact finish_erase hr _ (.inr rfl) (massDone_eq _ s (.inr rfl))

/-- A run that ends with the page erase of Info behind the mass erase (43 R195) ends as every erase. -/
theorem finish_thenPage {s : State} (hr : Ready s) (ks : List (BitVec 3)) (u v w : Upc) :
    finish (released (pageErased (pageBegun (thenPage (started (eraseAllRequest true) s)) u) .info ks v) w) =
      eraseDone s 0xC#32 (s.cfg.timing.erase + s.cfg.timing.nvh + s.cfg.timing.rcv)
        (sectorsErased s.cfg .main (sectorsFrom 3) s.main)
        (rowsErased s.cfg .info 0#32 ks (sectorsErased s.cfg .info (sectorsFrom 3) s.info)) := by
  have hadr : pageOf 0#32 ||| 0xC#32 = 0xC#32 := by decide
  rw [← hadr]
  exact finish_erase hr (eraseAllRequest true) (.inr rfl) rfl

/-- `erase_all_pages` runs to its end, whether its last erase is the mass erase or the page erase behind it. -/
theorem runs_eraseAll {s : State} (hr : Ready s) (all : Bool) :
    ∃ n hv, n ≤ 1353 ∧ Runs n (started (eraseAllRequest all) s)
      (eraseDone s 0xC#32 hv (sectorsErased s.cfg .main (sectorsFrom 3) s.main) (infoErased s all)) := by
  have hstart : AtStart .eraseAllPages (started (eraseAllRequest all) s) := atStart_started (q := eraseAllRequest all) hr
  have hbank : (started (eraseAllRequest all) s).lat.bank = .allBanks ↔ all = true := by
    cases all <;> simp [started, accept, eraseAllRequest]
  by_cases h : all = true ∧ s.cfg.massThenPage = true
  · obtain ⟨rfl, hc⟩ := h
    have hrun := runs_eraseAll_then hstart (hbank.mpr rfl) hc
    rw [finish_thenPage hr] at hrun
    rw [infoErased_of_then hc]
    have hleft : sectorsLeft (started (eraseAllRequest true) s).cfg .info ≤ 3 := sectorsLeft_le ..
    exact ⟨_, _, by omega, hrun⟩
  · have hrun := runs_eraseAll_alone hstart fun hh => h ⟨hbank.mp hh.1, hh.2⟩
    rw [finish_massDone hr] at hrun
    rw [infoErased_of_alone h]
    exact ⟨_, _, by decide, hrun⟩

/-- Settles O51: the mass erase leaves every word of a bank as an erase does, and a page erase of Info behind it changes
no cell. -/
theorem eraseAllPages : Obligations.EraseAllPages := by
  intro s all hr
  obtain ⟨n, hv, hn, hrun⟩ := runs_eraseAll hr all
  have hchecks : ∀ c ∈ [checkEraseBank (if all then .allBanks else .main)], c = none := by
    cases all <;> simp [checkEraseBank]
  have hend := request_runs (i := .eraseAllPages (if all then .allBanks else .main)) hr hchecks hrun hr.quiet.notBusy hn
  refine ⟨_, _, _, _, hend, rfl, fun _ => Nat.le_add_left _ _, Nat.le_add_right _ _, fun b w hb hw => ?_, ?_⟩
  · have hcell : cell (eraseDone s 0xC#32 hv (sectorsErased s.cfg .main (sectorsFrom 3) s.main) (infoErased s all)) b w =
        committed s.cfg b w .erase .indet := by
      cases b with
      | main => exact cell_massed s .main w hr.config hw s.main
      | info =>
        obtain rfl : all = true := hb.resolve_left (by decide)
        exact cell_infoErased hr.config hw
    rw [hcell]
    exact committed_erase ..
  · rintro rfl
    rfl

end Sys2Proof.Machine

/-!
The program engine (spec 44): what a completed program leaves, by the run of its micro-program.
-/

namespace Sys2Proof.Machine

/-! ### The end of a scalar program (44 R200) -/

/-- What a completed program of `d` into the word at `a` leaves: `settle` is what its read, if it has one, left of
`settle_due`, `n` the counter of free values at its end. -/
def programEnd (s : State) (b : Bank) (a d : Word) (settle : Bool) (n : Nat) : State :=
  { completed s [] (Config.idleCount n) (Config.freeLatches n) (n + 1) with
    key := 0#32, cmd := shadowFor s b, adr := a, di := d, doStale := 3, tCmd := s.cfg.timing.rcv
    tHv := s.cfg.timing.pgs + s.cfg.timing.prog + s.cfg.timing.nvh + s.cfg.timing.rcv
    tSettle := s.tSettle + programUs s.cfg, tRcv := s.cfg.timing.rcv, rcvDue := true, settleDue := settle
    main := (setArray s b (pulsedList s b a d)).main, info := (setArray s b (pulsedList s b a d)).info }

/-- One word of the array has been programmed, every other byte is as it was. -/
theorem becomes_programEnd (s : State) (b : Bank) (a d : Word) (settle : Bool) (n : Nat) :
    ArrayBecomes (fun b' w => b' = b ∧ w = wordIndex a) (fun _ w => committed s.cfg b w (.program d) (cell s b w)) s
      (programEnd s b a d settle n) :=
  becomes_pulsed s s _ b a d rfl (fun _ => rfl) fun b' => by cases b' <;> rfl

/-- The scalar programs. -/
abbrev ScalarProgram (op : Opcode) : Prop := op = .programWord ∨ op = .programHalfWord ∨ op = .programByte

/-- A scalar program has no result words (30 R105). -/
theorem results_of_scalarProgram {s : State} (h : ScalarProgram s.lat.op) : results s = [] := by
  obtain h | h | h := h <;> simp only [results, h]

/-- The operation stands before its program sequence: of the state it was accepted in, at most its read has changed
anything. -/
structure BeforeProgram (q : Request) (s s' : State) : Prop where
  frame : s' = { started q s with
    key := s'.key, cmd := s'.cmd, adr := s'.adr, doStale := s'.doStale, tCmd := s'.tCmd, rcvDue := s'.rcvDue
    settleDue := s'.settleDue, draws := s'.draws, upc := s'.upc, lat := s'.lat }
  op : s'.lat.op = q.op
  bank : s'.lat.bank = q.bank
  delay : s'.cmd.delay = s.cmd.delay

theorem BeforeProgram.shadow {q : Request} {s s' : State} {b : Bank} (h : BeforeProgram q s s')
    (hb : q.bank = selOf b) : shadowAt s' = shadowFor s b := by
  simp only [shadowAt, shadowFor, delayOnly, h.delay, h.bank, hb, selOf_beq_info]

theorem finish_of_beforeProgram {q : Request} {s s' : State} {b : Bank} (h : BeforeProgram q s s') (hr : Ready s)
    (hb : q.bank = selOf b) (hop : ScalarProgram q.op) (u : Upc) :
    finish (programDone s' u) = programEnd s b s'.lat.addr s'.lat.data s'.settleDue s'.draws := by
  obtain ⟨hbusy, hidle, -, hpend, hlatch, -⟩ := hr.quiet
  have hbank : arrayBank s'.lat.bank = b := by rw [h.bank, hb, arrayBank_selOf]
  have hres : results (programDone s' u) = [] :=
    results_of_scalarProgram (by rw [show (programDone s' u).lat.op = q.op from h.op]; exact hop)
  rw [finish_programDone s' b hbank u [] hres, h.shadow hb]
  generalize s'.lat.addr = a, s'.lat.data = d
  rw [h.frame]
  simp only [programEnd, completed, hbusy, hidle, hpend, hlatch]
  cases b <;> rfl

theorem beforeProgram_started {q : Request} {s : State} : BeforeProgram q s (started q s) := ⟨rfl, rfl, rfl, rfl⟩

theorem beforeProgram_merged {q : Request} {s : State} (u : Upc) (d : Word) :
    BeforeProgram q s (merged (started q s) u d) := ⟨rfl, rfl, rfl, rfl⟩

/-! ### Scalar programs of an unprotected word (44 R201, R203, R204) -/

section
variable {s : State} {b : Bank} {a v : Word}

/-- The checks `program_half_word` and `program_byte` share with every read, and the one of the value (60 R259). -/
theorem valueChecks_none {checks : List (Option FaultInfo)} {bound : Nat} (hv : v.toNat < bound)
    (h : ∀ c ∈ checkOneBank (selOf b) :: checks, c = none) :
    ∀ c ∈ checkOneBank (selOf b) :: checkBelow v bound :: checks, c = none := by
  simpa [checkBelow_none hv] using h

/-- The checks of `program_word` (60 R251, R254). -/
theorem programWordChecks_none (hal : a &&& 3#32 = 0#32) (hsize : a.toNat + 4 ≤ bankSize s.cfg b) :
    ∀ c ∈ [checkOneBank (selOf b), checkAligned 3#32 [a], checkRange s (selOf b) 4 [a]], c = none :=
  readChecks_none (List.forall_mem_singleton.2 ⟨hal, hsize⟩)

/-- The checks of `program_half_word` (60 R251, R254, R259). -/
theorem programHalfChecks_none (hal : a &&& 1#32 = 0#32) (hsize : a.toNat + 2 ≤ bankSize s.cfg b)
    (hv : v.toNat < 0x10000) :
    ∀ c ∈ [checkOneBank (selOf b), checkBelow v 0x10000, checkAligned 1#32 [a], checkRange s (selOf b) 2 [a]],
      c = none :=
  valueChecks_none hv (readChecks_none (List.forall_mem_singleton.2 ⟨hal, hsize⟩))

/-- The checks of `program_byte` (60 R254, R259). -/
theorem programByteChecks_none (hsize : a.toNat + 1 ≤ bankSize s.cfg b) (hv : v.toNat < 0x100) :
    ∀ c ∈ [checkOneBank (selOf b), checkBelow v 0x100, checkRange s (selOf b) 1 [a]], c = none := by
  refine valueChecks_none hv ?_
  rw [checkOneBank_selOf, checkRange_selOf_none (List.forall_mem_singleton.2 hsize)]
  simp

/-- `program_word` programs its word. -/
theorem exec_programWord (hr : Ready s) (hal : a &&& 3#32 = 0#32) (hsize : a.toNat + 4 ≤ bankSize s.cfg b)
    (hp : isProtected s.cfg (selOf b) a = false) :
    ∃ n, exec (.programWord (selOf b) a v) s = .next (programEnd s b a v s.settleDue n) := by
  let q : Request := { op := .programWord, bank := selOf b, addr := a, data := v }
  have hrun := runs_programWord (atStart_started (q := q) hr) (addrInBank_started rfl (by decide) hsize) hp
  rw [finish_of_beforeProgram beforeProgram_started hr rfl (.inl rfl)] at hrun
  exact ⟨_, request_runs hr (programWordChecks_none hal hsize) hrun hr.quiet.notBusy (by omega)⟩

/-- `program_half_word` programs the word it has merged its value into. -/
theorem exec_programHalfWord (hr : Ready s) (hal : a &&& 1#32 = 0#32) (hsize : a.toNat + 2 ≤ bankSize s.cfg b)
    (hv : v.toNat < 0x10000) (hp : isProtected s.cfg (selOf b) (wordAddr a) = false) :
    ∃ k n, exec (.programHalfWord (selOf b) a v) s =
      .next (programEnd s b (wordAddr a) (mergeHalf (readValue s b a k) a v) (settling s) n) := by
  let q : Request := { op := .programHalfWord, bank := selOf b, addr := a, data := v }
  have hrun := runs_programHalfWord (atStart_started (q := q) hr) (addrInBank_started rfl (by decide) hsize) hp
  rw [finish_of_beforeProgram (beforeProgram_merged _ _) hr rfl (.inr (.inl rfl)), mergedHalf,
    arrayBank_started q s b rfl] at hrun
  exact ⟨_, _, request_runs hr (programHalfChecks_none hal hsize hv) hrun hr.quiet.notBusy (by omega)⟩

/-- `program_byte` programs the word it has merged its value into. -/
theorem exec_programByte (hr : Ready s) (hsize : a.toNat + 1 ≤ bankSize s.cfg b) (hv : v.toNat < 0x100)
    (hp : isProtected s.cfg (selOf b) (wordAddr a) = false) :
    ∃ k n, exec (.programByte (selOf b) a v) s =
      .next (programEnd s b (wordAddr a) (mergeByte (readValue s b a k) a v) (settling s) n) := by
  let q : Request := { op := .programByte, bank := selOf b, addr := a, data := v }
  have hrun := runs_programByte (atStart_started (q := q) hr) (addrInBank_started rfl (by decide) hsize) hp
  rw [finish_of_beforeProgram (beforeProgram_merged _ _) hr rfl (.inr (.inr rfl)), mergedByte,
    arrayBank_started q s b rfl] at hrun
  exact ⟨_, _, request_runs hr (programByteChecks_none hsize hv) hrun hr.quiet.notBusy (by omega)⟩

end

/-- Settles O46: the operation is the program sequence behind its protection check. -/
theorem programWord : Obligations.ProgramWord := by
  intro s b a v hr hal hsize hp
  obtain ⟨n, h⟩ := exec_programWord (v := v) hr hal hsize hp
  exact ⟨_, _, _, _, h, rfl, becomes_programEnd ..⟩

/-- Settles O48: behind the read sequence one line merges the value, and `program_word` follows (30 R108). -/
theorem subWordPrograms : Obligations.SubWordPrograms := by
  intro s b a v hr hp
  refine ⟨fun hal hsize hv => ?_, fun hsize hv => ?_⟩
  · obtain ⟨k, n, h⟩ := exec_programHalfWord hr hal hsize hv hp
    rw [mergeHalf, ext_small v hv, halfShift_eq hal] at h
    exact ⟨_, k, _, _, _, h, rfl, wordIndex_wordAddr a ▸ becomes_programEnd ..⟩
  · obtain ⟨k, n, h⟩ := exec_programByte hr hsize hv hp
    rw [mergeByte, ext_small8 v hv, byteShift_eq] at h
    exact ⟨_, k, _, _, _, h, rfl, wordIndex_wordAddr a ▸ becomes_programEnd ..⟩

/-! ### Scalar programs of a protected word (44 R201, 46 R222) -/

section
variable {s : State} {b : Bank} {a v : Word}

/-- A `program_word` that is skipped has written the key and nothing else. -/
theorem finish_skipped {q : Request} (hr : Ready s) (hop : q.op = .programWord) :
    ∃ m l, finish (wrKey 0#32 (started q s)) = { completed s [] s.counts.dcnt l m with key := 0#32 } := by
  obtain ⟨hbusy, hidle, -, -, -, -⟩ := hr.quiet
  have hres : results (wrKey 0#32 (started q s)) = [] := results_of_scalarProgram (.inl hop)
  refine ⟨s.draws + 1, Config.freeLatches s.draws, ?_⟩
  rw [finish, hres]
  simp only [respond, completed, hbusy, hidle]
  rfl

/-- `program_word` skips a protected word. -/
theorem exec_programWord_protected (hr : Ready s) (hal : a &&& 3#32 = 0#32) (hsize : a.toNat + 4 ≤ bankSize s.cfg b)
    (hp : isProtected s.cfg (selOf b) a = true) :
    ∃ m l, exec (.programWord (selOf b) a v) s =
      .next { completed s [] s.counts.dcnt l m with key := 0#32 } := by
  let q : Request := { op := .programWord, bank := selOf b, addr := a, data := v }
  have hrun : Runs 1 (started q s) _ := runs_protected (op := .programWord) (line := 0) rfl rfl rfl hp
  obtain ⟨m, l, hfin⟩ := finish_skipped (q := q) hr rfl
  exact ⟨m, l, (request_runs hr (programWordChecks_none hal hsize) hrun rfl (by omega)).trans (congrArg _ hfin)⟩

/-- What a sub-word program that is skipped leaves: what its read has left. -/
def skippedEnd (s : State) (b : Bank) (a : Word) (l : Latches) (m : Nat) : State :=
  { completed s [] s.counts.dcnt l m with
    key := 0#32, cmd := shadowFor s b, adr := wordAddr a, doStale := 0, tCmd := 0, rcvDue := false
    settleDue := settling s }

/-- A sub-word program that is skipped ends as its read does: the read has locked already, and the value merged into
its latch goes nowhere. -/
theorem finish_mergedSkipped {q : Request} (hr : Ready s) (hb : q.bank = selOf b) (hop : ScalarProgram q.op) (u : Upc)
    (d : Word) : ∃ m l, finish (wrKey 0#32 (merged (started q s) u d)) = skippedEnd s b q.addr l m :=
  finish_readDone q hr b hb u _ [] (results_of_scalarProgram hop)

/-- `program_half_word` skips a protected word after its read. -/
theorem exec_programHalfWord_protected (hr : Ready s) (hal : a &&& 1#32 = 0#32)
    (hsize : a.toNat + 2 ≤ bankSize s.cfg b) (hv : v.toNat < 0x10000)
    (hp : isProtected s.cfg (selOf b) (wordAddr a) = true) :
    ∃ m l, exec (.programHalfWord (selOf b) a v) s = .next (skippedEnd s b a l m) := by
  let q : Request := { op := .programHalfWord, bank := selOf b, addr := a, data := v }
  have hread := runs_mergeHalf (atStart_started (q := q) hr) (addrInBank_started rfl (by decide) hsize)
  have hrun := hread.trans (runs_protected (op := .programHalfWord) (line := 13) rfl rfl rfl hp)
  obtain ⟨m, l, hfin⟩ := finish_mergedSkipped (q := q) hr rfl (.inr (.inl rfl)) _ _
  exact ⟨m, l, (request_runs hr (programHalfChecks_none hal hsize hv) hrun rfl (by omega)).trans (congrArg _ hfin)⟩

/-- `program_byte` skips a protected word after its read. -/
theorem exec_programByte_protected (hr : Ready s) (hsize : a.toNat + 1 ≤ bankSize s.cfg b) (hv : v.toNat < 0x100)
    (hp : isProtected s.cfg (selOf b) (wordAddr a) = true) :
    ∃ m l, exec (.programByte (selOf b) a v) s = .next (skippedEnd s b a l m) := by
  let q : Request := { op := .programByte, bank := selOf b, addr := a, data := v }
  have hread := runs_mergeByte (atStart_started (q := q) hr) (addrInBank_started rfl (by decide) hsize)
  have hrun := hread.trans (runs_protected (op := .programByte) (line := 13) rfl rfl rfl hp)
  obtain ⟨m, l, hfin⟩ := finish_mergedSkipped (q := q) hr rfl (.inr (.inr rfl)) _ _
  exact ⟨m, l, (request_runs hr (programByteChecks_none hsize hv) hrun rfl (by omega)).trans (congrArg _ hfin)⟩

end

/-- Settles O47: the protection check ends the operation in front of the program sequence. -/
theorem protectedSkip : Obligations.ProtectedSkip := by
  intro s a v hr hp
  refine ⟨fun hal hsize => ?_, fun hal hsize hv => ?_, fun hsize hv => ?_⟩
  · exact exec_programWord_protected (b := .info) hr hal hsize (wa_of_aligned hal ▸ hp)
  · exact exec_programHalfWord_protected (b := .info) hr hal hsize hv hp
  · exact exec_programByte_protected (b := .info) hr hsize hv hp

end Sys2Proof.Machine

/-!
The round trip of a word: erase its page, program it, read it (44 R205).
-/

namespace Sys2Proof.Machine

/-- Between operations, with reads reliable, the word at `a` holds `p`. -/
structure WordHolds (s : State) (b : Bank) (a p : Word) : Prop where
  ready : Ready s
  settled : Settled s
  cell : cell s b (wordIndex a) = .val p

theorem settling_of_settled {s : State} (h : Settled s) : settling s = false := by
  simpa [settling, Settled] using h

/-- A word that holds a value reads as it, whatever is drawn. -/
theorem WordHolds.readValue {s : State} {b : Bank} {a p : Word} (h : WordHolds s b a p) (n : Nat) :
    readValue s b a n = p := by
  rw [Machine.readValue, settling_of_settled h.settled, h.cell]
  rfl

/-- A word inside its bank lies in a page inside the bank. -/
theorem pageOf_lt {a : Word} {size : Nat} (h : a.toNat + 4 ≤ size) : (pageOf a).toNat < size := by
  rw [pageOf_toNat]
  omega

/-- Hardware does not protect the word: Main, a variant without that protection, or outside the factory window. -/
def NotHwProtected (c : Config) (b : Bank) (w : Nat) : Prop :=
  ¬(b = .info ∧ c.hasHwInfoProt = true ∧ inFactoryWindow c (indexAddr w) = true)

section
variable {s : State} {b : Bank} {a : Word}

/-- An aligned address is the byte address of its word, so what is said of it is said of the word. -/
theorem notHwProtected_wordIndex {c : Config} (hal : a &&& 3#32 = 0#32)
    (hw : ¬(b = .info ∧ c.hasHwInfoProt = true ∧ inFactoryWindow c a = true)) :
    NotHwProtected c b (wordIndex a) := by
  rwa [NotHwProtected, indexAddr_wordIndex, wa_of_aligned hal]

/-- `erase_page` leaves the words of its page erased, from the starting sector on. -/
theorem exec_erasePage_holds (hr : Ready s) (hsize : a.toNat + 4 ≤ bankSize s.cfg b)
    (hsec : (firstSector s.cfg (selOf b)).toNat ≤ (sectorOf a).toNat) (hw : NotHwProtected s.cfg b (wordIndex a)) :
    ∃ t, exec (.erasePage (selOf b) a) s = .next t ∧ t.cfg = s.cfg ∧ WordHolds t b a erasedWord := by
  obtain ⟨t, d, m, l, he, ht, hbecomes⟩ := erasePage s b a hr (pageOf_lt hsize)
  refine ⟨t, he, by rw [ht]; rfl, ?_, ?_, ?_⟩
  · refine ready_of hr (by rw [ht]; rfl) (by rw [ht]; rfl) (by rw [ht]; rfl) ?_
    rw [ht]
    exact ⟨hr.quiet.notBusy, hr.quiet.atIdle, .inl (modeOf_delayOnly _), hr.quiet.pend, hr.quiet.xlatch,
      fun _ => Nat.le_add_right _ _⟩
  · rw [ht]
    exact fun _ => Nat.le_add_left _ _
  · have hin : wordIndex a / 1024 = a.toNat / 4096 ∧ (firstSector s.cfg (selOf b)).toNat ≤ wordIndex a % 4 := by
      rw [sectorOf_toNat] at hsec
      exact ⟨by rw [wordIndex, Nat.div_div_eq_div_mul], hsec⟩
    rw [hbecomes.cells, if_pos ⟨rfl, hin⟩, committed_erase_val hw]

/-- `program_word` leaves the AND of what its word held and the data. -/
theorem exec_programWord_holds {p v : Word} (h : WordHolds s b a p) (hal : a &&& 3#32 = 0#32)
    (hsize : a.toNat + 4 ≤ bankSize s.cfg b) (hp : isProtected s.cfg (selOf b) a = false)
    (hw : NotHwProtected s.cfg b (wordIndex a)) :
    ∃ t, exec (.programWord (selOf b) a v) s = .next t ∧ t.cfg = s.cfg ∧ WordHolds t b a (p &&& v) := by
  obtain ⟨hr, hset, hcell⟩ := h
  obtain ⟨n, he⟩ := exec_programWord (v := v) hr hal hsize hp
  refine ⟨_, he, rfl, ready_of hr rfl rfl rfl ?_, fun hs => ?_, ?_⟩
  · exact ⟨hr.quiet.notBusy, hr.quiet.atIdle, .inr (mode_shadowFor s b), hr.quiet.pend, hr.quiet.xlatch,
      fun _ => Nat.le_refl _⟩
  · exact Nat.le_add_right_of_le (hset hs)
  · rw [(becomes_programEnd ..).cells, if_pos ⟨rfl, rfl⟩, hcell, committed_prog_val hw]

/-- `read_word` answers with what its word holds. -/
theorem exec_readWord_holds {p : Word} (h : WordHolds s b a p) (hal : a &&& 3#32 = 0#32)
    (hsize : a.toNat + 4 ≤ bankSize s.cfg b) :
    ∃ t, exec (.readWord (selOf b) a) s = .next t ∧ t.resp = some ⟨0#32, [p]⟩ := by
  obtain ⟨n, m, l, he⟩ := readWord s b a h.ready hal hsize
  rw [h.readValue n] at he
  exact ⟨_, he, rfl⟩

end

/-- Settles O57: erased, the word ANDed with the data is the data, and its read is reliable. -/
theorem roundTrip : Obligations.RoundTrip := by
  intro s b a v hr hal hsize hp hsec hw
  have hw := notHwProtected_wordIndex hal hw
  obtain ⟨t, he, ht, herased⟩ := exec_erasePage_holds hr hsize hsec hw
  rw [← ht] at hsize hp hw
  obtain ⟨u, hprog, hu, hprogrammed⟩ := exec_programWord_holds (v := v) herased hal hsize hp hw
  rw [← hu] at hsize
  obtain ⟨x, hread, hx⟩ := exec_readWord_holds hprogrammed hal hsize
  have hand : erasedWord &&& v = v := BitVec.allOnes_and
  rw [hand] at hx
  exact ⟨x, by simp only [execAll, he, hprog, hread], hx⟩

end Sys2Proof.Machine

/-!
Programs only clear bits (20 R63, R66, 44 R205): of a cell, of a burst, and of every program request.
-/

namespace Sys2Proof.Machine

/-! ### One cell -/

/-- A value stays a value and none of its 0 bits becomes 1. -/
def OnlyClears (pre post : Cell) : Prop := ∀ p, pre = .val p → ∃ q, post = .val q ∧ q &&& ~~~p = 0#32

theorem OnlyClears.refl (c : Cell) : OnlyClears c c := fun p h => ⟨p, h, BitVec.and_not_self p⟩

/-- A bit that is set in `r` is set in `q`, and so in `p`. -/
theorem and_not_trans {p q r : Word} (hq : q &&& ~~~p = 0#32) (hr : r &&& ~~~q = 0#32) : r &&& ~~~p = 0#32 := by
  apply BitVec.eq_of_getLsbD_eq
  intro i hi
  have hqi := congrArg (·.getLsbD i) hq
  have hri := congrArg (·.getLsbD i) hr
  simp only [BitVec.getLsbD_and, BitVec.getLsbD_not, BitVec.getLsbD_zero, hi, decide_true, Bool.true_and] at hqi hri ⊢
  cases hpi : p.getLsbD i <;> simp_all

theorem OnlyClears.trans {c d e : Cell} (h : OnlyClears c d) (k : OnlyClears d e) : OnlyClears c e := by
  intro p hp
  obtain ⟨q, hq, hpq⟩ := h p hp
  obtain ⟨r, hr, hqr⟩ := k q hq
  exact ⟨r, hr, and_not_trans hpq hqr⟩

/-- A committed program leaves the AND of the old value and the data. -/
theorem onlyClears_committed {c : Config} {b : Bank} {w : Nat} (h : NotHwProtected c b w) (d : Word) (pre : Cell) :
    OnlyClears pre (committed c b w (.program d) pre) := by
  rintro p rfl
  refine ⟨p &&& d, committed_prog_val h p d, ?_⟩
  rw [BitVec.and_comm p d, BitVec.and_assoc, BitVec.and_not_self]
  exact BitVec.and_zero

/-- Programs in turn only clear bits. -/
theorem onlyClears_programmedCell {c : Config} {b : Bank} {w : Nat} (h : NotHwProtected c b w)
    (ps : List (Word × Word)) (pre : Cell) : OnlyClears pre (programmedCell c b ps w pre) := by
  induction ps generalizing pre with
  | nil => exact .refl pre
  | cons x xs ih =>
    have hx : OnlyClears pre (if wordIndex x.1 = w then committed c b w (.program x.2) pre else pre) := by
      split_ifs
      · exact onlyClears_committed h x.2 pre
      · exact .refl pre
    exact hx.trans (ih _)

/-! ### The array -/

/-- Every cell but those that hardware protects only loses bits. -/
def ArrayClears (s t : State) : Prop :=
  ∀ b w, NotHwProtected s.cfg b w → OnlyClears (cell s b w) (cell t b w)

theorem ArrayClears.of_same {s t : State} (h : ∀ b w, cell t b w = cell s b w) : ArrayClears s t :=
  fun b w _ => h b w ▸ .refl _

/-- A program of one word. -/
theorem arrayClears_programEnd {s : State} {b : Bank} {a d : Word} {settle : Bool} {n : Nat} :
    ArrayClears s (programEnd s b a d settle n) := by
  intro b' w hw
  rw [(becomes_programEnd ..).cells]
  split_ifs with h
  · obtain ⟨rfl, -⟩ := h
    exact onlyClears_committed hw d _
  · exact .refl _

/-- A burst of programs. -/
theorem Bursts.arrayClears {b : Bank} {ps : List (Word × Word)} {s t : State} (h : Bursts b ps s t) :
    ArrayClears s t := by
  intro b' w hw
  rw [(bursts_becomes h).cells]
  split_ifs with hb
  · obtain ⟨rfl, -⟩ := hb
    exact onlyClears_programmedCell hw _ _
  · exact .refl _

/-! ### The program requests -/

/-- A request the checker complains of changes no cell (60 R257, R262). -/
theorem cell_of_expectedFault {s t : State} {i : Instr} {f : FaultInfo} (hb : s.busy = false)
    (hi : (requestOf i).isSome = true) (hf : expectedFault s i = some f) (he : exec i s = .next t)
    (b : Bank) (w : Nat) : cell t b w = cell s b w := by
  by_cases hp : s.cfg.checkParams = true
  · obtain ⟨l, n, hfault⟩ := faults_of hb hp hi hf
    cases he.symm.trans hfault
    rfl
  · obtain ⟨q, checks, hreq, -, hv⟩ := exec_request s hi
    have hrefused : exec i s = .refused (.uncheckedViolation f) := by
      simp [hreq, request, hb, hv.trans hf, hp]
    cases he.symm.trans hrefused

/-- `program_array` completes, with its elements programmed in turn. -/
theorem exec_programArray {s : State} {b : Bank} {p : Word × Word} {ps : List (Word × Word)} (hr : Ready s)
    (hmax : ps.length + 1 ≤ s.cfg.maxLen) (hlen : ps.length + 1 < 65536)
    (hel : ∀ x ∈ p :: ps, x.1 &&& 3#32 = 0#32 ∧ x.1.toNat + 4 ≤ bankSize s.cfg b) :
    ∃ t, exec (.programArray (selOf b) (p :: ps)) s = .next t ∧ Bursts b (p :: ps) s t := by
  let q : Request := {
    op := .programArray, bank := selOf b, addr := p.1, len := ps.length + 1
    avec := (p :: ps).map (·.1), dvec := (p :: ps).map (·.2) }
  have hlatched : (started q s).lat.len.toNat = ps.length + 1 := started_len hlen
  have hword : ∀ x ∈ p :: ps, (wordAddr x.1).toNat < bankSize s.cfg b := fun x hx => by
    have hin := (hel x hx).2
    have hle := wa_le x.1
    omega
  obtain ⟨k, t, hk, hrun, -, -, -, -, -, -, hbursts⟩ :=
    runs_programArray (atStart_started (q := q) hr) (b := b) rfl hr.quiet.xlatch hr.quiet.pend rfl rfl
      (by rw [hlatched]; simp [started, accept, q]) hword
  have hchecks : ∀ c ∈ [checkMaxLen s (p :: ps).length (header .programArray (selOf b) (p :: ps).length),
      checkOneBank (selOf b), checkNonEmpty (p :: ps).length, checkAligned 3#32 ((p :: ps).map (·.1)),
      checkRange s (selOf b) 4 ((p :: ps).map (·.1))], c = none := by
    rw [checkMaxLen_none (by simpa using hmax), checkNonEmpty_none (by simp)]
    simpa using readChecks_none (List.forall_mem_map.2 hel)
  have hend := request_runs (i := .programArray (selOf b) (p :: ps)) hr hchecks hrun rfl (by rw [hlatched]; omega)
  exact ⟨_, hend, (hbursts.of_same (s := s) rfl rfl rfl rfl rfl).then_same rfl rfl rfl rfl⟩

/-- The program operations (30 R106). -/
theorem program_cases {i : Instr} {op : Opcode} (hi : requestOf i = some op)
    (hop : op ∈ [Opcode.programByte, .programHalfWord, .programWord, .programArray]) :
    (∃ b a v, i = .programByte b a v) ∨ (∃ b a v, i = .programHalfWord b a v) ∨
      (∃ b a v, i = .programWord b a v) ∨ ∃ b ps, i = .programArray b ps := by
  cases i with
  | programByte b a v => exact .inl ⟨b, a, v, rfl⟩
  | programHalfWord b a v => exact .inr (.inl ⟨b, a, v, rfl⟩)
  | programWord b a v => exact .inr (.inr (.inl ⟨b, a, v, rfl⟩))
  | programArray b ps => exact .inr (.inr (.inr ⟨b, ps, rfl⟩))
  | _ => cases hi <;> simp at hop

section
variable {s : State} {k : BankSel} {a v : Word}

/-- A scalar program without a violation names a bank and an operand of its width inside it. -/
theorem scalarProgram_operands {i : Instr} {width : Nat} (hf : expectedFault s i = none)
    (hbank : bankOperand i = some k) (haddr : addressesOf i = [a]) (hall : ∀ b, i ≠ .eraseAllPages b)
    (hout : ∀ size, outsideBank i size a = decide (size < a.toNat + width)) :
    ∃ b, k = selOf b ∧ a &&& alignMask i = 0#32 ∧ a.toNat + width ≤ bankSize s.cfg b := by
  obtain ⟨-, -, hadm, -, hin⟩ := expected_none hf
  obtain ⟨b, rfl⟩ := admits_one hall (hadm k hbank)
  obtain ⟨hal, hinside⟩ := hin a (by simp [haddr])
  have hsize := hinside _ hbank
  rw [hout, arrayBank_selOf] at hsize
  exact ⟨b, rfl, hal, not_lt.mp (of_decide_eq_false hsize)⟩

theorem programByte_clears (hr : Ready s) (hf : expectedFault s (.programByte k a v) = none) :
    ∃ t, exec (.programByte k a v) s = .next t ∧ ArrayClears s t := by
  obtain ⟨b, rfl, -, hsize⟩ := scalarProgram_operands hf rfl rfl (by simp) fun _ => rfl
  obtain ⟨-, -, -, hvalue, -⟩ := expected_none hf
  have hv := hvalue v 0x100 rfl
  cases hp : isProtected s.cfg (selOf b) (wordAddr a) with
  | true =>
    obtain ⟨m, l, he⟩ := exec_programByte_protected hr hsize hv hp
    exact ⟨_, he, .of_same fun _ _ => rfl⟩
  | false =>
    obtain ⟨k, n, he⟩ := exec_programByte hr hsize hv hp
    exact ⟨_, he, arrayClears_programEnd⟩

theorem programHalfWord_clears (hr : Ready s) (hf : expectedFault s (.programHalfWord k a v) = none) :
    ∃ t, exec (.programHalfWord k a v) s = .next t ∧ ArrayClears s t := by
  obtain ⟨b, rfl, hal, hsize⟩ := scalarProgram_operands hf rfl rfl (by simp) fun _ => rfl
  obtain ⟨-, -, -, hvalue, -⟩ := expected_none hf
  have hv := hvalue v 0x10000 rfl
  cases hp : isProtected s.cfg (selOf b) (wordAddr a) with
  | true =>
    obtain ⟨m, l, he⟩ := exec_programHalfWord_protected hr hal hsize hv hp
    exact ⟨_, he, .of_same fun _ _ => rfl⟩
  | false =>
    obtain ⟨k, n, he⟩ := exec_programHalfWord hr hal hsize hv hp
    exact ⟨_, he, arrayClears_programEnd⟩

theorem programWord_clears (hr : Ready s) (hf : expectedFault s (.programWord k a v) = none) :
    ∃ t, exec (.programWord k a v) s = .next t ∧ ArrayClears s t := by
  obtain ⟨b, rfl, hal, hsize⟩ := scalarProgram_operands hf rfl rfl (by simp) fun _ => rfl
  cases hp : isProtected s.cfg (selOf b) a with
  | true =>
    obtain ⟨m, l, he⟩ := exec_programWord_protected hr hal hsize hp
    exact ⟨_, he, .of_same fun _ _ => rfl⟩
  | false =>
    obtain ⟨n, he⟩ := exec_programWord hr hal hsize hp
    exact ⟨_, he, arrayClears_programEnd⟩

theorem programArray_clears {ps : List (Word × Word)} (hr : Ready s) (hw : (Instr.programArray k ps).wf = true)
    (hf : expectedFault s (.programArray k ps) = none) :
    ∃ t, exec (.programArray k ps) s = .next t ∧ ArrayClears s t := by
  obtain ⟨hcount, -, hadm, -, hin⟩ := expected_none hf
  obtain ⟨b, rfl⟩ := admits_one (by simp) (hadm k rfl)
  obtain ⟨hmax, hne⟩ := hcount _ rfl
  cases ps with
  | nil => exact absurd rfl hne
  | cons p ps =>
    have hel : ∀ x ∈ p :: ps, x.1 &&& 3#32 = 0#32 ∧ x.1.toNat + 4 ≤ bankSize s.cfg b := fun x hx => by
      obtain ⟨hal, hinside⟩ := hin x.1 (List.mem_map_of_mem hx)
      have hsize := hinside _ rfl
      rw [arrayBank_selOf] at hsize
      exact ⟨hal, not_lt.mp (of_decide_eq_false hsize)⟩
    obtain ⟨t, he, hbursts⟩ := exec_programArray hr hmax (of_decide_eq_true hw) hel
    exact ⟨t, he, hbursts.arrayClears⟩

end

/-- A program request without a violation completes and only clears bits. -/
theorem program_clears {s : State} {i : Instr} {op : Opcode} (hr : Ready s) (hw : i.wf = true)
    (hi : requestOf i = some op) (hop : op ∈ [Opcode.programByte, .programHalfWord, .programWord, .programArray])
    (hf : expectedFault s i = none) : ∃ t, exec i s = .next t ∧ ArrayClears s t := by
  obtain ⟨b, a, v, rfl⟩ | ⟨b, a, v, rfl⟩ | ⟨b, a, v, rfl⟩ | ⟨b, ps, rfl⟩ := program_cases hi hop
  · exact programByte_clears hr hf
  · exact programHalfWord_clears hr hf
  · exact programWord_clears hr hf
  · exact programArray_clears hr hw hf

/-- Settles O60: a request with a violation changes no cell, and every other one only clears bits. -/
theorem programsOnlyClear : Obligations.ProgramsOnlyClear := by
  intro s t i op b w p q hr hwf hi hop he hp hq hw
  have hclears : ArrayClears s t := by
    cases hf : expectedFault s i with
    | some f => exact .of_same (cell_of_expectedFault hr.quiet.notBusy (Option.isSome_of_eq_some hi) hf he)
    | none =>
      obtain ⟨u, hu, hclears⟩ := program_clears hr hwf hi hop hf
      cases he.symm.trans hu
      exact hclears
  obtain ⟨r, hr, hzero⟩ := hclears b w hw p hp
  cases hq.symm.trans hr
  exact hzero

end Sys2Proof.Machine

/-!
The burst program optimizer (spec 45): what a completed `program_array` leaves, and that the programs of its elements,
one after the other, leave the same.
-/

namespace Sys2Proof.Machine

/-! ### `program_array` (45 R211) -/

/-- What a completed `program_array` leaves but for its elements: the array, `Adr`, `DI` and the accumulators are left
open here. -/
structure BurstEnds (b : Bank) (s t : State) : Prop where
  frame : ∃ d m l, t = { completed s [] d l m with
    key := 0#32, cmd := shadowFor s b, adr := t.adr, di := t.di, doStale := t.doStale, tCmd := t.tCmd, tHv := t.tHv
    tSettle := t.tSettle, tRcv := t.tRcv, rcvDue := t.rcvDue, main := t.main, info := t.info }
  recovered : t.rcvDue = true → s.cfg.timing.rcv ≤ t.tRcv

/-- The lock write behind a burst ends the operation, without result words. -/
theorem burstEnds_finish {q : Request} {s v : State} {b : Bank} {key : Word} (hr : Ready s) (hb : q.bank = selOf b)
    (hop : v.lat.op = .programArray) (hf : BurstFrame { started q s with key := key, lat := v.lat } v)
    (hcmd : v.cmd = shadowAt (started q s)) (hx : v.xlatch = none) (hp : v.pend = none)
    (hrcv : v.rcvDue = true → v.cfg.timing.rcv ≤ v.tRcv) : BurstEnds b s (finish { v with key := 0#32 }) := by
  obtain ⟨hbusy, hidle, -, hpend, hlatch, -⟩ := hr.quiet
  have hres : results { v with key := 0#32 } = [] := by simp only [results, hop]
  have hcfg : v.cfg = s.cfg := by rw [hf.frame]; rfl
  rw [shadow_started q s b hb] at hcmd
  refine ⟨⟨v.counts.dcnt, v.draws + 1, Config.freeLatches v.draws, ?_⟩, fun h => hcfg ▸ hrcv h⟩
  rw [finish, hres]
  simp only [respond, completed, hcmd, hx, hp]
  rw [hf.frame]
  simp only [started, accept, hbusy, hidle, hpend, hlatch]
  rfl

section
variable {s : State} {b : Bank}

/-- The checks of `program_array` (60 R251 to R255). -/
theorem programArrayChecks_none {ps : List (Word × Word)} {h : Word} (hne : ps ≠ []) (hmax : ps.length ≤ s.cfg.maxLen)
    (hel : ∀ x ∈ ps, x.1 &&& 3#32 = 0#32 ∧ x.1.toNat + 4 ≤ bankSize s.cfg b) :
    ∀ c ∈ [checkMaxLen s ps.length h, checkOneBank (selOf b), checkNonEmpty ps.length,
      checkAligned 3#32 (ps.map (·.1)), checkRange s (selOf b) 4 (ps.map (·.1))], c = none := by
  rw [checkMaxLen_none hmax, checkNonEmpty_none (by simpa using hne)]
  simpa using readChecks_none (List.forall_mem_map.2 hel)

/-- `program_array` completes: its elements are programmed in turn, and nothing else has happened but the lock write and
the write of the shadow. -/
theorem exec_programArray_ends {p : Word × Word} {ps : List (Word × Word)} (hr : Ready s)
    (hmax : ps.length + 1 ≤ s.cfg.maxLen) (hlen : ps.length + 1 < 65536)
    (hel : ∀ x ∈ p :: ps, x.1 &&& 3#32 = 0#32 ∧ x.1.toNat + 4 ≤ bankSize s.cfg b) :
    ∃ t, exec (.programArray (selOf b) (p :: ps)) s = .next t ∧ BurstEnds b s t ∧ Bursts b (p :: ps) s t := by
  let q : Request := {
    op := .programArray, bank := selOf b, addr := p.1, len := (p :: ps).length
    avec := (p :: ps).map (·.1), dvec := (p :: ps).map (·.2) }
  have hcount : (started q s).lat.len.toNat = (p :: ps).length := started_len hlen
  have hword : ∀ x ∈ p :: ps, (wordAddr x.1).toNat < bankSize s.cfg b := fun x hx => by
    have hin := (hel x hx).2
    have hle := wa_le x.1
    omega
  obtain ⟨k, v, hk, hrun, hf, hop, hcmd, hx, hp, hrcv, hbursts⟩ :=
    runs_programArray (atStart_started (q := q) hr) (b := b) rfl hr.quiet.xlatch hr.quiet.pend rfl rfl
      (hcount.trans (List.length_map _).symm) hword
  refine ⟨_, request_runs hr (programArrayChecks_none (List.cons_ne_nil p ps) hmax hel) hrun rfl ?_,
    burstEnds_finish hr rfl hop hf hcmd hx hp hrcv,
    (hbursts.of_same (s := s) rfl rfl rfl rfl rfl).then_same rfl rfl rfl rfl⟩
  change k ≤ 33 * ((started q s).lat.len.toNat + 41)
  rw [hcount, List.length_cons]
  omega

end

/-- Settles O49: the bursts program the unprotected elements in turn, and the last of them leaves `Adr` and `DI`. -/
theorem programArray : Obligations.ProgramArray := by
  intro s b p ps hr hmax hlen hel
  obtain ⟨t, he, ⟨⟨d, m, l, ht⟩, hrcv⟩, hbursts⟩ := exec_programArray_ends hr hmax hlen hel
  refine ⟨t, d, m, l, he, ?_, hrcv, bursts_becomes hbursts⟩
  rw [← hbursts.adr, ← hbursts.di]
  exact ht

/-! ### The single-word programs of a burst (45 R215) -/

/-- `Cmd` after programs of some elements in turn: untouched while every element is skipped. -/
def cmdAfter (s : State) (b : Bank) (ps : List (Word × Word)) : CmdWord :=
  if ∀ p ∈ ps, isProtected s.cfg (selOf b) p.1 = true then s.cmd else shadowFor s b

section
variable {s : State} {b : Bank}

/-- A `program_word` as one element of a burst. -/
theorem programs_programEnd (s : State) (b : Bank) (a d : Word) (settle : Bool) (n : Nat) :
    Programs b a d s (programEnd s b a d settle n) where
  cell w := by rw [(becomes_programEnd ..).cells]; simp only [true_and]
  other b' hb := by
    rw [show array (programEnd s b a d settle n) b' = array (setArray s b (pulsedList s b a d)) b' by cases b' <;> rfl,
      array_setArray_ne _ _ _ _ hb]
  bytes x hx := (becomes_programEnd ..).bytes b x fun h => hx h.2
  adr := rfl
  di := rfl

/-- What the machine is after one `program_word` of a sequence: ready for the next, locked, `Cmd` written unless the
word was skipped; what the rest of the sequence programs is programmed behind it. -/
structure ElementEnds (b : Bank) (p : Word × Word) (s t : State) : Prop where
  ready : Ready t
  cfg : t.cfg = s.cfg
  key : t.key = 0#32
  cmd : t.cmd = if isProtected s.cfg (selOf b) p.1 = true then s.cmd else shadowFor s b
  bursts : ∀ ps u, Bursts b ps t u → Bursts b (p :: ps) s u

/-- Each `program_word` of a sequence completes, skipped (44 R201) or programmed. -/
theorem exec_programWord_element {p : Word × Word} (hr : Ready s) (hal : p.1 &&& 3#32 = 0#32)
    (hsize : p.1.toNat + 4 ≤ bankSize s.cfg b) :
    ∃ t, exec (.programWord (selOf b) p.1 p.2) s = .next t ∧ ElementEnds b p s t := by
  cases hp : isProtected s.cfg (selOf b) p.1 with
  | true =>
    obtain ⟨m, l, he⟩ := exec_programWord_protected (v := p.2) hr hal hsize hp
    refine ⟨_, he, ready_of hr rfl rfl rfl ?_, rfl, rfl, by rw [if_pos hp]; rfl, fun ps u h => ?_⟩
    · exact ⟨hr.quiet.notBusy, hr.quiet.atIdle, hr.quiet.mode, hr.quiet.pend, hr.quiet.xlatch, hr.quiet.recovered⟩
    · exact (h.of_same (s := s) rfl rfl rfl rfl rfl).skip hp
  | false =>
    obtain ⟨n, he⟩ := exec_programWord (v := p.2) hr hal hsize hp
    refine ⟨_, he, ready_of hr rfl rfl rfl ?_, rfl, rfl, by rw [hp]; rfl, fun ps u h => ?_⟩
    · exact ⟨hr.quiet.notBusy, hr.quiet.atIdle, .inr (mode_shadowFor s b), hr.quiet.pend, hr.quiet.xlatch,
        fun _ => Nat.le_refl _⟩
    · exact .cons (programs_programEnd s b p.1 p.2 s.settleDue n) hp rfl h

/-- `Cmd` keeps its Delay-Cycles, so the shadow stays the same. -/
theorem ElementEnds.shadowFor_eq {p : Word × Word} {t : State} (h : ElementEnds b p s t) :
    shadowFor t b = shadowFor s b := by
  rw [shadowFor, h.cmd]
  split_ifs <;> rfl

/-- Programming the rest of the elements behind the first leaves `Cmd` as programming them all does. -/
theorem ElementEnds.cmdAfter_eq {p : Word × Word} {t : State} (h : ElementEnds b p s t) (ps : List (Word × Word)) :
    cmdAfter t b ps = cmdAfter s b (p :: ps) := by
  simp only [cmdAfter, List.forall_mem_cons, h.cfg, h.cmd, h.shadowFor_eq]
  by_cases hp : isProtected s.cfg (selOf b) p.1 = true
  · simp only [hp, true_and, if_true]
  · rw [if_neg hp, ite_self, if_neg fun hall => hp hall.1]

/-- The sequence of the single-word programs completes, with the elements programmed in turn. -/
theorem execAll_programWords (ps : List (Word × Word)) (hr : Ready s)
    (hel : ∀ p ∈ ps, p.1 &&& 3#32 = 0#32 ∧ p.1.toNat + 4 ≤ bankSize s.cfg b) :
    ∃ u, execAll (ps.map fun p => .programWord (selOf b) p.1 p.2) s = .next u ∧ Bursts b ps s u ∧
      u.cmd = cmdAfter s b ps ∧ u.key = if ps = [] then s.key else 0#32 := by
  induction ps generalizing s with
  | nil => exact ⟨s, rfl, .nil rfl rfl rfl rfl, by simp [cmdAfter], rfl⟩
  | cons p ps ih =>
    obtain ⟨⟨hal, hsize⟩, hrest⟩ := List.forall_mem_cons.1 hel
    obtain ⟨t, he, hends⟩ := exec_programWord_element hr hal hsize
    obtain ⟨u, hu, hbursts, hcmd, hkey⟩ := ih hends.ready (by rwa [hends.cfg])
    refine ⟨u, ?_, hends.bursts ps u hbursts, hcmd.trans (hends.cmdAfter_eq ps), ?_⟩
    · simpa only [List.map_cons, execAll, he] using hu
    · rw [hkey, hends.key, ite_self, if_neg (List.cons_ne_nil p ps)]

/-- The same elements programmed in turn leave the same cells. -/
theorem cell_eq_of_bursts {ps : List (Word × Word)} {t u : State} (h : Bursts b ps s t) (k : Bursts b ps s u)
    (b' : Bank) (w : Nat) : cell t b' w = cell u b' w := by
  rw [(bursts_becomes h).cells, (bursts_becomes k).cells]

end

/-- Settles O58: both forms program the elements in turn, and differ in `Cmd` where every element is skipped. -/
theorem burstEquivalence : Obligations.BurstEquivalence := by
  rintro s b (_ | ⟨p, ps⟩) hr hne hmax hlen hel
  · exact absurd rfl hne
  obtain ⟨t, ht, ⟨⟨d, m, l, hframe⟩, -⟩, hbursts⟩ := exec_programArray_ends hr hmax hlen hel
  obtain ⟨u, hu, hwords, hcmd, hkey⟩ := execAll_programWords (p :: ps) hr hel
  refine ⟨t, u, ht, hu, cell_eq_of_bursts hbursts hwords, by rw [hframe], hkey, hbursts.adr.trans hwords.adr.symm,
    hbursts.di.trans hwords.di.symm, by rw [hframe], fun ⟨x, hx, hxp⟩ => ?_, fun hall => ?_⟩
  · refine hcmd.trans (if_neg fun hall => ?_)
    rw [hall x hx] at hxp
    cases hxp
  · exact hcmd.trans (if_pos hall)

end Sys2Proof.Machine

/-!
The protection policy without hardware protection (46 R221, R222, R225): no program and no page erase changes a
protected word of Info.
-/

namespace Sys2Proof.Machine

/-! ### What a request keeps -/

/-- The machine is ready again under the same configuration, and every protected word of Info (46 R221) holds what it
held. -/
structure ProtectedKept (s t : State) : Prop where
  ready : Ready t
  cfg : t.cfg = s.cfg
  cells : ∀ w, isProtected s.cfg .info (indexAddr w) = true → cell t .info w = cell s .info w

theorem ProtectedKept.refl {s : State} (hr : Ready s) : ProtectedKept s s := ⟨hr, rfl, fun _ _ => rfl⟩

theorem ProtectedKept.trans {s t u : State} (h : ProtectedKept s t) (k : ProtectedKept t u) : ProtectedKept s u where
  ready := k.ready
  cfg := k.cfg.trans h.cfg
  cells w hw := (k.cells w (h.cfg ▸ hw)).trans (h.cells w hw)

/-- An operation keeps the condition of 70 R296 if it leaves the array quiet: with the fields listed as they were, the
mode and the recovery decide. -/
theorem ready_of_kept {s t : State} (hr : Ready s)
    (h : t = { t with
      cfg := s.cfg, coreClkHz := s.coreClkHz, sched := s.sched, busy := s.busy, upc := s.upc, pend := s.pend
      xlatch := s.xlatch })
    (hmode : mode t = .off ∨ mode t = .idle) (hrcv : t.rcvDue = true → s.cfg.timing.rcv ≤ t.tRcv) : Ready t := by
  have hcfg : t.cfg = s.cfg := by rw [h]
  refine ready_of hr hcfg (by rw [h]) (by rw [h]) ?_
  exact {
    notBusy := by rw [h]; exact hr.quiet.notBusy
    atIdle := by rw [h]; exact hr.quiet.atIdle
    mode := hmode
    pend := by rw [h]; exact hr.quiet.pend
    xlatch := by rw [h]; exact hr.quiet.xlatch
    recovered := by rw [hcfg]; exact hrcv }

/-- An operation that changes only words of Info that are not protected. -/
theorem ArrayBecomes.protectedKept {p : Bank → Nat → Prop} [∀ b w, Decidable (p b w)] {f : Bank → Nat → Cell}
    {s t : State} (h : ArrayBecomes p f s t) (hr : Ready t) (hcfg : t.cfg = s.cfg)
    (hp : ∀ w, p .info w → isProtected s.cfg .info (indexAddr w) = false) : ProtectedKept s t where
  ready := hr
  cfg := hcfg
  cells w hw := by
    have hnot : ¬ p .info w := fun hpw => Bool.eq_false_iff.mp (hp w hpw) hw
    rw [h.cells, if_neg hnot]

/-- A request with a violation that is not refused has been checked (60 R257). -/
theorem checkParams_of_next {s t : State} {i : Instr} {f : FaultInfo} (hb : s.busy = false)
    (hi : (requestOf i).isSome = true) (hf : expectedFault s i = some f) (he : exec i s = .next t) :
    s.cfg.checkParams = true := by
  by_contra hp
  obtain ⟨q, checks, hreq, -, hv⟩ := exec_request s hi
  have hrefused : exec i s = .refused (.uncheckedViolation f) := by simp [hreq, request, hb, hv.trans hf, hp]
  cases he.symm.trans hrefused

/-- A request with a violation takes its fault (60 R262), which leaves the array alone. -/
theorem protectedKept_of_fault {s t : State} {i : Instr} {f : FaultInfo} (hr : Ready s)
    (hi : (requestOf i).isSome = true) (hf : expectedFault s i = some f) (he : exec i s = .next t) :
    ProtectedKept s t := by
  have hb := hr.quiet.notBusy
  obtain ⟨l, n, hfault⟩ := faults_of hb (checkParams_of_next hb hi hf he) hi hf
  cases he.symm.trans hfault
  refine ⟨ready_of_kept hr ?_ hr.quiet.mode hr.quiet.recovered, rfl, fun _ _ => rfl⟩
  rw [hb, hr.quiet.atIdle]

/-! ### Programs (44 R201, R203, R204, 45 R212) -/

section
variable {s : State} {b : Bank} {k : BankSel} {a v : Word}

/-- A program of an unprotected word. -/
theorem protectedKept_programEnd {settle : Bool} {n : Nat} (hr : Ready s)
    (hp : isProtected s.cfg (selOf b) (wordAddr a) = false) : ProtectedKept s (programEnd s b a v settle n) := by
  refine (becomes_programEnd s b a v settle n).protectedKept
    (ready_of_kept hr rfl (.inr (mode_shadowFor s b)) fun _ => Nat.le_refl _) rfl ?_
  rintro _ ⟨rfl, rfl⟩
  rwa [indexAddr_wordIndex]

/-- A sub-word program of a protected word, which has only read. -/
theorem protectedKept_skippedEnd {l : Latches} {m : Nat} (hr : Ready s) : ProtectedKept s (skippedEnd s b a l m) :=
  ⟨ready_of_kept hr rfl (.inr (mode_shadowFor s b)) nofun, rfl, fun _ _ => rfl⟩

theorem programByte_protectedKept (hr : Ready s) (hf : expectedFault s (.programByte k a v) = none) :
    ∃ t, exec (.programByte k a v) s = .next t ∧ ProtectedKept s t := by
  obtain ⟨b, rfl, -, hsize⟩ := scalarProgram_operands hf rfl rfl (by simp) fun _ => rfl
  obtain ⟨-, -, -, hvalue, -⟩ := expected_none hf
  have hv := hvalue v 0x100 rfl
  cases hp : isProtected s.cfg (selOf b) (wordAddr a) with
  | true =>
    obtain ⟨m, l, he⟩ := exec_programByte_protected hr hsize hv hp
    exact ⟨_, he, protectedKept_skippedEnd hr⟩
  | false =>
    obtain ⟨x, n, he⟩ := exec_programByte hr hsize hv hp
    exact ⟨_, he, protectedKept_programEnd hr (by rwa [wordAddr_wordAddr])⟩

theorem programHalfWord_protectedKept (hr : Ready s) (hf : expectedFault s (.programHalfWord k a v) = none) :
    ∃ t, exec (.programHalfWord k a v) s = .next t ∧ ProtectedKept s t := by
  obtain ⟨b, rfl, hal, hsize⟩ := scalarProgram_operands hf rfl rfl (by simp) fun _ => rfl
  obtain ⟨-, -, -, hvalue, -⟩ := expected_none hf
  have hv := hvalue v 0x10000 rfl
  cases hp : isProtected s.cfg (selOf b) (wordAddr a) with
  | true =>
    obtain ⟨m, l, he⟩ := exec_programHalfWord_protected hr hal hsize hv hp
    exact ⟨_, he, protectedKept_skippedEnd hr⟩
  | false =>
    obtain ⟨x, n, he⟩ := exec_programHalfWord hr hal hsize hv hp
    exact ⟨_, he, protectedKept_programEnd hr (by rwa [wordAddr_wordAddr])⟩

theorem programWord_protectedKept (hr : Ready s) (hf : expectedFault s (.programWord k a v) = none) :
    ∃ t, exec (.programWord k a v) s = .next t ∧ ProtectedKept s t := by
  obtain ⟨b, rfl, hal, hsize⟩ := scalarProgram_operands hf rfl rfl (by simp) fun _ => rfl
  cases hp : isProtected s.cfg (selOf b) a with
  | true =>
    obtain ⟨m, l, he⟩ := exec_programWord_protected hr hal hsize hp
    exact ⟨_, he, ready_of_kept hr rfl hr.quiet.mode hr.quiet.recovered, rfl, fun _ _ => rfl⟩
  | false =>
    obtain ⟨n, he⟩ := exec_programWord hr hal hsize hp
    exact ⟨_, he, protectedKept_programEnd hr (by rwa [wa_of_aligned hal])⟩

/-- A burst programs its unprotected elements only (45 R212, 46 R222). -/
theorem programArray_protectedKept {ps : List (Word × Word)} (hr : Ready s) (hw : (Instr.programArray k ps).wf = true)
    (hf : expectedFault s (.programArray k ps) = none) :
    ∃ t, exec (.programArray k ps) s = .next t ∧ ProtectedKept s t := by
  obtain ⟨hcount, -, hadm, -, hin⟩ := expected_none hf
  obtain ⟨b, rfl⟩ := admits_one (by simp) (hadm k rfl)
  obtain ⟨hmax, hne⟩ := hcount _ rfl
  cases ps with
  | nil => exact absurd rfl hne
  | cons p ps =>
    have hel : ∀ x ∈ p :: ps, x.1 &&& 3#32 = 0#32 ∧ x.1.toNat + 4 ≤ bankSize s.cfg b := fun x hx => by
      obtain ⟨hal, hinside⟩ := hin x.1 (List.mem_map_of_mem hx)
      have hsize := hinside _ rfl
      rw [arrayBank_selOf] at hsize
      exact ⟨hal, not_lt.mp (of_decide_eq_false hsize)⟩
    obtain ⟨t, d, m, l, he, ht, hrcv, hbecomes⟩ := programArray s b p ps hr hmax (of_decide_eq_true hw) hel
    have hmode : mode t = .idle := by rw [ht]; exact mode_shadowFor s b
    refine ⟨t, he, hbecomes.protectedKept (ready_of_kept hr (by rw [ht]; rfl) (.inr hmode) hrcv) (by rw [ht]; rfl) ?_⟩
    rintro _ ⟨rfl, x, hx, rfl⟩
    obtain ⟨hmem, hprot⟩ := List.mem_filter.1 hx
    rw [indexAddr_wordIndex, wa_of_aligned (hel x hmem).1]
    exact (Bool.not_eq_true' _).mp hprot

/-! ### Page erases (43 R191) -/

/-- On Info a page erase starts behind the sector of the protected words (43 R191, 46 R221). -/
theorem not_protected_of_firstSector_le {c : Config} {w : Nat} (hw : (firstSector c .info).toNat ≤ w % 4) :
    isProtected c .info (indexAddr w) = false := by
  refine Bool.eq_false_iff.mpr fun hp => ?_
  obtain ⟨hhw, hsec⟩ := prot_info hp
  have hfirst : firstSector c .info = 1#3 := if_pos ⟨rfl, hhw⟩
  have hmod : w % 4 = 0 := by
    have h := sectorOf_toNat (indexAddr w)
    rw [hsec, indexAddr, BitVec.toNat_ofNat, BitVec.toNat_ofNat] at h
    omega
  rw [hfirst, hmod] at hw
  exact absurd hw (by decide)

theorem erasePage_protectedKept (hr : Ready s) (hf : expectedFault s (.erasePage k a) = none) :
    ∃ t, exec (.erasePage k a) s = .next t ∧ ProtectedKept s t := by
  obtain ⟨-, -, hadm, -, hin⟩ := expected_none hf
  obtain ⟨b, rfl⟩ := admits_one (by simp) (hadm k rfl)
  have hpage : (pageOf a).toNat < bankSize s.cfg b := by
    have hinside := (hin a (List.mem_singleton_self a)).2 _ rfl
    rw [arrayBank_selOf] at hinside
    exact not_le.mp (of_decide_eq_false hinside)
  obtain ⟨t, d, m, l, he, ht, hbecomes⟩ := erasePage s b a hr hpage
  have hmode : mode t = .off := by rw [ht]; exact modeOf_delayOnly _
  have hrcv : s.cfg.timing.rcv ≤ t.tRcv := by rw [ht]; exact Nat.le_add_right _ _
  refine ⟨t, he, hbecomes.protectedKept
    (ready_of_kept hr (by rw [ht]; rfl) (.inl hmode) fun _ => hrcv) (by rw [ht]; rfl) ?_⟩
  rintro w ⟨rfl, -, hsec⟩
  exact not_protected_of_firstSector_le hsec

end

/-! ### Sequences of them (46 R225) -/

/-- The program operations and the page erase. -/
abbrev ChangesWords (op : Opcode) : Prop :=
  op ∈ [Opcode.programByte, .programHalfWord, .programWord, .programArray, .erasePage]

/-- A request for one of them that has no violation completes and keeps the protected words. -/
theorem changesWords_protectedKept {s : State} {i : Instr} {op : Opcode} (hr : Ready s) (hw : i.wf = true)
    (hi : requestOf i = some op) (hop : ChangesWords op) (hf : expectedFault s i = none) :
    ∃ t, exec i s = .next t ∧ ProtectedKept s t := by
  cases i with
  | programByte k a v => exact programByte_protectedKept hr hf
  | programHalfWord k a v => exact programHalfWord_protectedKept hr hf
  | programWord k a v => exact programWord_protectedKept hr hf
  | programArray k ps => exact programArray_protectedKept hr hw hf
  | erasePage k a => exact erasePage_protectedKept hr hf
  | _ => cases hi <;> simp at hop

/-- Each of them keeps the protected words, with its fault too. -/
theorem exec_protectedKept {s t : State} {i : Instr} {op : Opcode} (hr : Ready s) (hw : i.wf = true)
    (hi : requestOf i = some op) (hop : ChangesWords op) (he : exec i s = .next t) : ProtectedKept s t := by
  cases hf : expectedFault s i with
  | some f => exact protectedKept_of_fault hr (Option.isSome_of_eq_some hi) hf he
  | none =>
    obtain ⟨u, hu, hkept⟩ := changesWords_protectedKept hr hw hi hop hf
    cases he.symm.trans hu
    exact hkept

/-- A sequence of them keeps the protected words. -/
theorem execAll_protectedKept {is : List Instr} {s t : State} (hr : Ready s)
    (his : ∀ i ∈ is, i.wf = true ∧ ∃ op, requestOf i = some op ∧ ChangesWords op) (he : execAll is s = .next t) :
    ProtectedKept s t := by
  induction is generalizing s with
  | nil => cases he; exact .refl hr
  | cons i is ih =>
    obtain ⟨⟨hw, op, hi, hop⟩, hrest⟩ := List.forall_mem_cons.1 his
    cases hu : exec i s with
    | next u =>
      have hkept := exec_protectedKept hr hw hi hop hu
      simp only [execAll, hu] at he
      exact hkept.trans (ih hkept.ready hrest he)
    | _ => simp [execAll, hu] at he

/-- Settles O59: a program skips a protected word and a page erase starts behind its sector, so every request of the
sequence keeps it. -/
theorem protectedNoOp : Obligations.ProtectedNoOp :=
  fun _ _ _ w hr _ hp his he => (execAll_protectedKept hr his he).cells w hp

end Sys2Proof.Machine

/-!
The cache and the latency (spec 47): the mapped path, `CacheCtrl`, the cache's own steps, and the operations that no
register write of the array is part of but that of Delay-Cycles.
-/

namespace Sys2Proof.Machine

/-! ### The stall (47 R241) -/

theorem stalled_iff (s : State) :
    stalled s = true ↔ s.cmd.nvstr = true ∨ (s.cfg.mappedStallOnCon = true ∧ s.cmd.con = true) := by
  simp [stalled]

/-- A mapped read that names a word of Main is held or answered, as the stall says. -/
theorem exec_mappedRead_eq {s : State} {o : Word} (hin : o.toNat < s.cfg.mainSize) (hal : o &&& 3#32 = 0#32) :
    exec (.mappedRead o) s =
      if stalled s then hold (.mappedRead o) s
      else .next { (mappedAnswer o s).2 with rdata := (mappedAnswer o s).1 } :=
  if_neg (not_or.2 ⟨Nat.not_le.2 hin, not_not.2 hal⟩)

theorem runAct_refreshRead_stalled {s : State} (h : stalled s = true) : runAct .refreshRead s = .held := if_pos h

/-- A line that is held makes no step. -/
theorem seqStep_held {s : State} {op : Opcode} {line : Nat} {a : Act} (hu : s.upc = .at op line)
    (hl : (program op)[line]? = some (.act a)) (hr : runAct a s = .held) : seqStep s = .next s := by
  simp only [seqStep, hu, hl, hr]

/-- Settles O14: the stall decides before the read in both places. -/
theorem stallHolds : Obligations.StallHolds := by
  intro s o h
  have hstall := (stalled_iff s).2 h
  refine ⟨fun hin hal => ?_, fun hu => seqStep_held hu rfl (runAct_refreshRead_stalled hstall)⟩
  rw [exec_mappedRead_eq hin hal, if_pos hstall, hold]

/-! ### The mapped read (47 R231) -/

section
variable {s : State} {a : Word}

theorem mappedRead_of_cached {v : Word} (h : tableGet s.cache (wordIndex a) = some v) : mappedRead a s = (v, s) := by
  simp only [mappedRead, h]

/-- What a mapped read that misses leaves: the array has been read, and `c` is the cache. -/
def missRead (a : Word) (s : State) (c : List (Nat × Word)) : State :=
  { s with
    settleDue := settling s, draws := s.draws + readDraws s .main a, fillPlan := s.fillPlan.tail, cache := c }

/-- The cache after a mapped read that misses, if it fills: the array's content has been entered. -/
structure Fills (a : Word) (s : State) (c : List (Nat × Word)) : Prop where
  planned : s.fillPlan.head? = some true
  known : cell s .main (wordIndex a) = .val (readValue s .main a s.draws)
  cache : c = tableSet s.cache (wordIndex a) (readValue s .main a s.draws)

/-- A settled word with a content reads as it. -/
theorem cell_eq_readValue {n : Nat} (hs : settling s = false) (hc : cell s .main (wordIndex a) ≠ .indet) :
    cell s .main (wordIndex a) = .val (readValue s .main a n) := by
  cases h : cell s .main (wordIndex a) with
  | val v => simp [readValue, hs, h, wordOr]
  | indet => exact absurd h hc

theorem mappedRead_of_miss (h : tableGet s.cache (wordIndex a) = none) :
    ∃ c, mappedRead a s = (readValue s .main a s.draws, missRead a s c) ∧ (c = s.cache ∨ Fills a s c) := by
  simp only [mappedRead, h, memRead_eq, wordIndex_wordAddr]
  cases hp : s.fillPlan with
  | nil => exact ⟨s.cache, by simp only [missRead, hp, List.tail_nil], .inl rfl⟩
  | cons fill plan =>
    refine ⟨_, by simp only [missRead, hp, List.tail_cons]; rfl, ?_⟩
    split_ifs with hf
    · simp only [Bool.and_eq_true, bne_iff_ne, Bool.not_eq_true'] at hf
      obtain ⟨rfl, hset, hne⟩ := hf
      exact .inr ⟨by rw [hp]; rfl, cell_eq_readValue hset hne, rfl⟩
    · exact .inl rfl

/-- A mapped read that is not held answers with what was read, or with a draw once Delay-Cycles is clobbered
(70 R285). -/
theorem exec_mappedRead_of_read {t : State} {v : Word} (hin : a.toNat < s.cfg.mainSize) (hal : a &&& 3#32 = 0#32)
    (hs : stalled s = false) (h : mappedRead a s = (v, t)) :
    exec (.mappedRead a) s = .next (if s.delayLost then { t with rdata := Config.draw t.draws, draws := t.draws + 1 }
      else { t with rdata := v }) := by
  rw [exec_mappedRead_eq hin hal, if_neg (by simp [hs]), mappedAnswer, h]
  cases s.delayLost <;> rfl

end

/-- Settles O41: a hit leaves the state alone, a miss reads the array; either is answered alike. -/
theorem CachePath.mappedRead : Obligations.MappedRead := by
  intro s o hin hal hs answer
  refine ⟨fun v hv => ?_, fun hmiss => ?_⟩
  · exact exec_mappedRead_of_read hin hal hs (mappedRead_of_cached hv)
  · obtain ⟨c, hread, hc⟩ := mappedRead_of_miss hmiss
    have he := exec_mappedRead_of_read hin hal hs hread
    by_cases hd : s.delayLost = true
    · rw [if_pos hd] at he
      simp only [answer, if_pos hd]
      exact ⟨_, he, rfl, hc.imp id fun h => ⟨h.planned, h.known, h.cache⟩⟩
    · rw [if_neg hd] at he
      simp only [answer, if_neg hd]
      exact ⟨_, he, rfl, hc.imp id fun h => ⟨h.planned, h.known, h.cache⟩⟩

/-! ### The cache's own steps (47 R232) -/

section
variable {s : State} {w : Nat}

theorem cacheMayStep_of_val {v : Word} (hw : 4 * w < s.cfg.mainSize) (hc : cell s .main w = .val v)
    (hs : stalled s = false) : cacheMayStep s w = true := by
  simp [cacheMayStep, hw, hc, hs]

theorem cacheMayStep_of_blocked (h : cell s .main w = .indet ∨ stalled s = true) : cacheMayStep s w = false := by
  obtain h | h := h <;> simp [cacheMayStep, h]

theorem cacheFill_of_may {v : Word} (h : cacheMayStep s w = true) (hc : cell s .main w = .val v) :
    cacheFill w s = { s with cache := tableSet s.cache w v } := by
  simp only [cacheFill, h, hc]

theorem cacheFill_of_not (h : cacheMayStep s w = false) : cacheFill w s = s := by
  simp only [cacheFill, h]

theorem cacheEvict_of_may (h : cacheMayStep s w = true) :
    cacheEvict w s = { s with cache := tableDrop (· == w) s.cache } := if_pos h

theorem cacheEvict_of_not (h : cacheMayStep s w = false) : cacheEvict w s = s := if_neg (by simp [h])

end

/-- Settles O42: one condition governs the fill and the eviction. -/
theorem cacheAgent : Obligations.CacheAgent := by
  intro s w ts hcfg hw
  refine ⟨fun hs => ⟨fun v hv hst => ?_, fun hb => ?_⟩, fun hs => ⟨fun v hv hst => ?_, fun hb => ?_⟩⟩ <;>
    refine (step_of_turn hcfg hs).trans (congrArg Host.Outcome.next ?_)
  · exact cacheFill_of_may (s := { s with sched := ts }) (cacheMayStep_of_val hw hv hst) hv
  · exact cacheFill_of_not (s := { s with sched := ts }) (cacheMayStep_of_blocked hb)
  · exact cacheEvict_of_may (s := { s with sched := ts }) (cacheMayStep_of_val hw hv hst)
  · exact cacheEvict_of_not (s := { s with sched := ts }) (cacheMayStep_of_blocked hb)

/-! ### `CacheCtrl` (47 R236) -/

theorem exec_wrCache_eq (v : Word) (s : State) : exec (.wrCache v) s =
    if s.cfg.hasCacheCtrl then hostWrite (.wrCache v) (fun s => .done (wrCache v s)) s else .refused .noCacheCtrl := rfl

theorem exec_rdCache_eq (s : State) : exec .rdCache s =
    if s.cfg.hasCacheCtrl then hostRead .rdCache (fun s => .ok (rdCache s, s)) s else .refused .noCacheCtrl := rfl

/-- Settles O40: with the register the accesses are those of any register, without it they are refused first. -/
theorem cacheRegister : Obligations.CacheRegister := by
  intro s v
  refine ⟨fun hc hb => ⟨?_, ?_⟩, fun hc => ⟨?_, ?_⟩⟩
  · rw [exec_wrCache_eq, if_pos hc]
    exact hostWrite_of_done hb rfl
  · rw [exec_rdCache_eq, if_pos hc]
    exact hostRead_of_ok hb rfl
  · rw [exec_wrCache_eq, if_neg (by simp [hc])]
  · rw [exec_rdCache_eq, if_neg (by simp [hc])]

/-! ### The end of the operations on the cache and the latency -/

/-- These operations write, beside the latches, at most the fields listed here, and complete with them. -/
theorem finish_of_frame {s t : State} {key : Word} {cmd : CmdWord} {tCmd : Nat} {m : BitVec 2}
    {cache : List (Nat × Word)} {plan : List Bool} {due : Bool} (hr : Ready s)
    (ht : t = { s with
      busy := t.busy, upc := t.upc, resp := t.resp, lat := t.lat, draws := t.draws
      counts := countsOf s.cfg s.coreClkHz s.counts.dcnt, key := key, cmd := cmd, tCmd := tCmd, cacheMode := m
      cache := cache, fillPlan := plan, settleDue := due }) :
    finish t = { completed s (results t) s.counts.dcnt (Config.freeLatches t.draws) (t.draws + 1) with
      key := key, cmd := cmd, tCmd := tCmd, cacheMode := m, cache := cache, fillPlan := plan, settleDue := due } := by
  refine (congrArg (respond ⟨0#32, results t⟩) ht).trans ?_
  simp only [respond, completed, hr.quiet.notBusy, hr.quiet.atIdle]

/-! ### `set_latency` and `get_latency` (47 R239, R240) -/

/-- Settles O52: the shadow of `set_latency` differs from `Cmd` in Delay-Cycles only; `get_latency` reads the field. -/
theorem latencyOperations : Obligations.LatencyOperations := by
  intro s v hr
  refine ⟨fun hv => ?_, ?_⟩
  · let q : Request := { op := .setLatency, data := v }
    have hrun := runs_setLatency (atStart_started (q := q) hr)
    rw [finish_of_frame hr rfl] at hrun
    exact ⟨_, _, request_runs (i := .setLatency v) hr (List.forall_mem_singleton.2 (checkBelow_none hv)) hrun
      hr.quiet.notBusy (by omega)⟩
  · let q : Request := { op := .getLatency }
    have hrun := runs_getLatency (atStart_started (q := q) hr)
    rw [finish_of_frame hr rfl] at hrun
    exact ⟨_, _, request_runs (i := .getLatency) hr (List.forall_mem_nil _) hrun hr.quiet.notBusy (by omega)⟩

/-! ### `set_cache_mode` and `get_cache_mode` (47 R237, R238) -/

/-- Settles O53: each is one access of `CacheCtrl`. -/
theorem cacheModeOperations : Obligations.CacheModeOperations := by
  intro s v hr hc
  refine ⟨fun hv => ?_, ?_⟩
  · let q : Request := { op := .setCacheMode, data := v }
    have hchecks : ∀ c ∈ [checkSupported s .setCacheMode, checkBelow v 4], c = none := by
      rw [checkSupported_none hc, checkBelow_none (Nat.lt_succ_of_le hv)]
      simp
    have hrun := runs_setCacheMode (atStart_started (q := q) hr)
    rw [finish_of_frame hr rfl] at hrun
    exact ⟨_, _, request_runs (i := .setCacheMode v) hr hchecks hrun hr.quiet.notBusy (by omega)⟩
  · let q : Request := { op := .getCacheMode }
    have hrun := runs_getCacheMode (atStart_started (q := q) hr)
    rw [finish_of_frame hr rfl] at hrun
    exact ⟨_, _, request_runs (i := .getCacheMode) hr (List.forall_mem_singleton.2 (checkSupported_none hc)) hrun
      hr.quiet.notBusy (by omega)⟩

/-! ### `update_cache` (47 R234, R235) -/

theorem mem_freshEntries {s : State} {w : Nat} {v : Word} :
    (w, v) ∈ freshEntries s ↔ (w, v) ∈ s.cache ∧ cell s .main w = .val v := by
  simp [freshEntries]

/-- Dropping the stale entries keeps a fresh one. -/
theorem tableGet_freshEntries {s : State} {w : Nat} {v : Word} (hs : tableSorted s.cache = true)
    (h : tableGet s.cache w = some v) (hc : cell s .main w = .val v) : tableGet (freshEntries s) w = some v := by
  have hsorted : tableSorted (freshEntries s) = true :=
    (tableSorted_iff _).2 (((tableSorted_iff _).1 hs).sublist List.filter_sublist)
  exact tableGet_of_mem hsorted (mem_freshEntries.2 ⟨mem_of_tableGet h, hc⟩)

/-- What `update_cache` completes with, `t` being the state behind its throwaway reads. -/
def refreshed (s t : State) : State :=
  { completed s [] s.counts.dcnt (Config.freeLatches t.draws) (t.draws + 1) with
    cache := freshEntries t, fillPlan := t.fillPlan, settleDue := t.settleDue }

/-- `update_cache` makes its throwaway reads, which are mapped reads, and drops the stale entries. -/
theorem exec_updateCache {s : State} (hr : Ready s) (hst : stalled s = false) :
    ∃ t u l, MappedStep { started { op := .updateCache } s with upc := u, lat := l } t ∧
      exec .updateCache s = .next (refreshed s t) := by
  obtain ⟨k, t, hk, hstep, hop, hrun⟩ :=
    runs_updateCache (atStart_started (q := { op := .updateCache }) hr) hr.config hst
  have hres : results { t with upc := .at .updateCache 4, cache := freshEntries t } = [] := by
    simp only [results, hop]
    rfl
  rw [finish_of_frame (key := s.key) (cmd := s.cmd) (tCmd := s.tCmd) (m := s.cacheMode) (cache := freshEntries t)
    (plan := t.fillPlan) (due := t.settleDue) hr (by rw [hstep.frame]; rfl), hres] at hrun
  have hend := request_runs (i := .updateCache) hr (List.forall_mem_nil _) hrun hr.quiet.notBusy (by omega)
  exact ⟨t, _, _, hstep, hend⟩

/-- Settles O54: the throwaway reads drop no entry, and the last line drops the stale ones. -/
theorem updateCache : Obligations.UpdateCache := by
  intro s hr hst
  obtain ⟨t, u, l, hstep, he⟩ := exec_updateCache hr hst
  have hcell : ∀ w, cell t .main w = cell s .main w := fun w => hstep.cell .main w
  have hsettle : settling (refreshed s t) = settling t := by
    rw [settling, settling, hstep.frame]
    rfl
  refine ⟨_, _, _, he, rfl, hsettle.trans hstep.settling, fun w v h => ?_, fun hsort w v hget hc => ?_⟩
  · exact (hcell w).symm.trans (mem_freshEntries.1 h).2
  · exact tableGet_freshEntries (hstep.sorted hsort) (hstep.kept w v hget) ((hcell w).trans hc)

end Sys2Proof.Machine

/-!
Quiescence (70 R296): every request without a fault completes, raises no violation, and leaves the machine ready for the
next.
-/

namespace Sys2Proof.Machine

/-- The request completes with a response of status 0, no fault is recorded, and the machine is ready again. -/
def CompletesReady (i : Instr) (s : State) : Prop :=
  ∃ t, exec i s = .next t ∧ Ready t ∧ t.faulted = s.faulted ∧ t.faultInfo = s.faultInfo ∧ ∃ rs, t.resp = some ⟨0#32, rs⟩

section
variable {s t : State} {i : Instr}

/-- An operation that has ended with its results and has kept the fields listed is ready again if its mode and recovery
are. -/
theorem completesReady_of_next {rs : List Word} (hr : Ready s) (he : exec i s = .next t)
    (h : t = { t with
      cfg := s.cfg, coreClkHz := s.coreClkHz, sched := s.sched, busy := s.busy, upc := s.upc, pend := s.pend
      xlatch := s.xlatch, faulted := s.faulted, faultInfo := s.faultInfo, resp := some ⟨0#32, rs⟩ })
    (hmode : mode t = .off ∨ mode t = .idle) (hrcv : t.rcvDue = true → s.cfg.timing.rcv ≤ t.tRcv) :
    CompletesReady i s :=
  ⟨t, he, ready_of_kept hr (by rw [h]) hmode hrcv, by rw [h], by rw [h], rs, by rw [h]⟩

/-- An operation that has left the mode and the recovery as they were, too. -/
theorem completesReady_of_kept {rs : List Word} (hr : Ready s) (he : exec i s = .next t)
    (h : t = { t with
      cfg := s.cfg, coreClkHz := s.coreClkHz, sched := s.sched, busy := s.busy, upc := s.upc, pend := s.pend
      xlatch := s.xlatch, faulted := s.faulted, faultInfo := s.faultInfo, resp := some ⟨0#32, rs⟩ })
    (hmode : modeOf t.cmd = modeOf s.cmd) (hdue : t.rcvDue = s.rcvDue) (htime : t.tRcv = s.tRcv) :
    CompletesReady i s := by
  refine completesReady_of_next hr he h ?_ ?_
  · rw [mode, hmode]
    exact hr.quiet.mode
  · rw [hdue, htime]
    exact hr.quiet.recovered

end

/-! ### Reads (spec 42) -/

section
variable {s : State} {b : Bank} {a v : Word}

theorem readByte_completes (hr : Ready s) (hsize : a.toNat + 1 ≤ bankSize s.cfg b) :
    CompletesReady (.readByte (selOf b) a) s := by
  obtain ⟨n, m, l, he⟩ := (subWordReads s b a hr).2 hsize
  exact completesReady_of_next hr he rfl (.inr (mode_shadowFor s b)) nofun

theorem readHalfWord_completes (hr : Ready s) (hal : a &&& 1#32 = 0#32) (hsize : a.toNat + 2 ≤ bankSize s.cfg b) :
    CompletesReady (.readHalfWord (selOf b) a) s := by
  obtain ⟨n, m, l, he⟩ := (subWordReads s b a hr).1 hal hsize
  exact completesReady_of_next hr he rfl (.inr (mode_shadowFor s b)) nofun

theorem readWord_completes (hr : Ready s) (hal : a &&& 3#32 = 0#32) (hsize : a.toNat + 4 ≤ bankSize s.cfg b) :
    CompletesReady (.readWord (selOf b) a) s := by
  obtain ⟨n, m, l, he⟩ := readWord s b a hr hal hsize
  exact completesReady_of_next hr he rfl (.inr (mode_shadowFor s b)) nofun

theorem readArray_completes {as : List Word} (hr : Ready s) (hmax : as.length + 1 ≤ s.cfg.maxLen)
    (hlen : as.length + 1 < 65536) (hel : ∀ x ∈ a :: as, x &&& 3#32 = 0#32 ∧ x.toNat + 4 ≤ bankSize s.cfg b) :
    CompletesReady (.readArray (selOf b) (a :: as)) s := by
  obtain ⟨ns, m, l, -, he⟩ := readArray s b a as hr hmax hlen hel
  exact completesReady_of_next hr he rfl (.inr (mode_shadowFor s b)) nofun

/-! ### Programs (spec 44, 45) -/

/-- A word that has been programmed: `rcv` has been waited out. -/
theorem completesReady_programEnd {i : Instr} {settle : Bool} {n : Nat} (hr : Ready s)
    (he : exec i s = .next (programEnd s b a v settle n)) : CompletesReady i s :=
  completesReady_of_next hr he rfl (.inr (mode_shadowFor s b)) fun _ => Nat.le_refl _

/-- A sub-word program that has only read. -/
theorem completesReady_skippedEnd {i : Instr} {l : Latches} {m : Nat} (hr : Ready s)
    (he : exec i s = .next (skippedEnd s b a l m)) : CompletesReady i s :=
  completesReady_of_next hr he rfl (.inr (mode_shadowFor s b)) nofun

theorem programByte_completes (hr : Ready s) (hsize : a.toNat + 1 ≤ bankSize s.cfg b) (hv : v.toNat < 0x100) :
    CompletesReady (.programByte (selOf b) a v) s := by
  cases hp : isProtected s.cfg (selOf b) (wordAddr a) with
  | true =>
    obtain ⟨m, l, he⟩ := exec_programByte_protected hr hsize hv hp
    exact completesReady_skippedEnd hr he
  | false =>
    obtain ⟨k, n, he⟩ := exec_programByte hr hsize hv hp
    exact completesReady_programEnd hr he

theorem programHalfWord_completes (hr : Ready s) (hal : a &&& 1#32 = 0#32) (hsize : a.toNat + 2 ≤ bankSize s.cfg b)
    (hv : v.toNat < 0x10000) : CompletesReady (.programHalfWord (selOf b) a v) s := by
  cases hp : isProtected s.cfg (selOf b) (wordAddr a) with
  | true =>
    obtain ⟨m, l, he⟩ := exec_programHalfWord_protected hr hal hsize hv hp
    exact completesReady_skippedEnd hr he
  | false =>
    obtain ⟨k, n, he⟩ := exec_programHalfWord hr hal hsize hv hp
    exact completesReady_programEnd hr he

theorem programWord_completes (hr : Ready s) (hal : a &&& 3#32 = 0#32) (hsize : a.toNat + 4 ≤ bankSize s.cfg b) :
    CompletesReady (.programWord (selOf b) a v) s := by
  cases hp : isProtected s.cfg (selOf b) a with
  | true =>
    obtain ⟨m, l, he⟩ := exec_programWord_protected (v := v) hr hal hsize hp
    exact completesReady_of_kept hr he rfl rfl rfl rfl
  | false =>
    obtain ⟨n, he⟩ := exec_programWord (v := v) hr hal hsize hp
    exact completesReady_programEnd hr he

theorem programArray_completes {p : Word × Word} {ps : List (Word × Word)} (hr : Ready s)
    (hmax : ps.length + 1 ≤ s.cfg.maxLen) (hlen : ps.length + 1 < 65536)
    (hel : ∀ x ∈ p :: ps, x.1 &&& 3#32 = 0#32 ∧ x.1.toNat + 4 ≤ bankSize s.cfg b) :
    CompletesReady (.programArray (selOf b) (p :: ps)) s := by
  obtain ⟨t, d, m, l, he, ht, hrcv, -⟩ := programArray s b p ps hr hmax hlen hel
  refine completesReady_of_next (rs := []) hr he (by rw [ht]; rfl) (.inr ?_) hrcv
  rw [ht]
  exact mode_shadowFor s b

/-! ### Erases (spec 43) -/

theorem erasePage_completes (hr : Ready s) (hpage : (pageOf a).toNat < bankSize s.cfg b) :
    CompletesReady (.erasePage (selOf b) a) s := by
  obtain ⟨t, d, m, l, he, ht, -⟩ := erasePage s b a hr hpage
  refine completesReady_of_next (rs := []) hr he (by rw [ht]; rfl) (.inl ?_) fun _ => ?_ <;> rw [ht]
  · exact modeOf_delayOnly s.cmd
  · exact Nat.le_add_right _ _

theorem eraseAllPages_completes (all : Bool) (hr : Ready s) :
    CompletesReady (.eraseAllPages (if all then .allBanks else .main)) s := by
  obtain ⟨t, d, m, l, he, ht, -, hrcv, -⟩ := eraseAllPages s all hr
  refine completesReady_of_next (rs := []) hr he (by rw [ht]; rfl) (.inl ?_) fun _ => hrcv
  rw [ht]
  exact modeOf_delayOnly s.cmd

/-! ### Latency and cache (spec 47) -/

theorem setLatency_completes (hr : Ready s) (hv : v.toNat < 2 ^ s.cfg.layout.delayW) :
    CompletesReady (.setLatency v) s := by
  obtain ⟨m, l, he⟩ := (latencyOperations s v hr).1 hv
  exact completesReady_of_kept hr he rfl rfl rfl rfl

theorem getLatency_completes (hr : Ready s) : CompletesReady .getLatency s := by
  obtain ⟨m, l, he⟩ := (latencyOperations s 0#32 hr).2
  exact completesReady_of_kept hr he rfl rfl rfl rfl

theorem updateCache_completes (hr : Ready s) (hst : stalled s = false) : CompletesReady .updateCache s := by
  obtain ⟨t, m, l, he, ht, -⟩ := updateCache s hr hst
  exact completesReady_of_kept (rs := []) hr he (by rw [ht]; rfl) (by rw [ht]; rfl) (by rw [ht]; rfl) (by rw [ht]; rfl)

theorem setCacheMode_completes (hr : Ready s) (hc : s.cfg.hasCacheCtrl = true) (hv : v.toNat ≤ 3) :
    CompletesReady (.setCacheMode v) s := by
  obtain ⟨m, l, he⟩ := (cacheModeOperations s v hr hc).1 hv
  exact completesReady_of_kept hr he rfl rfl rfl rfl

theorem getCacheMode_completes (hr : Ready s) (hc : s.cfg.hasCacheCtrl = true) : CompletesReady .getCacheMode s := by
  obtain ⟨m, l, he⟩ := (cacheModeOperations s 0#32 hr hc).2
  exact completesReady_of_kept hr he rfl rfl rfl rfl

end

/-! ### Requests without a fault (60 R261) -/

/-- The operands of an array operation without a violation. -/
theorem arrayOperands {s : State} {i : Instr} {k : BankSel} {n : Nat} (hf : expectedFault s i = none)
    (hbank : bankOperand i = some k) (hn : elementCount i = some n) (hall : ∀ b, i ≠ .eraseAllPages b)
    (hal : alignMask i = 3#32) (hout : ∀ size a, outsideBank i size a = decide (size < a.toNat + 4)) :
    ∃ b, k = selOf b ∧ n ≤ s.cfg.maxLen ∧ n ≠ 0 ∧
      ∀ a ∈ addressesOf i, a &&& 3#32 = 0#32 ∧ a.toNat + 4 ≤ bankSize s.cfg b := by
  obtain ⟨hcount, -, hadm, -, hin⟩ := expected_none hf
  obtain ⟨b, rfl⟩ := admits_one hall (hadm k hbank)
  obtain ⟨hmax, hne⟩ := hcount n hn
  refine ⟨b, rfl, hmax, hne, fun a ha => ?_⟩
  obtain ⟨haligned, hinside⟩ := hin a ha
  have hsize := hinside _ hbank
  rw [hout, arrayBank_selOf] at hsize
  exact ⟨hal ▸ haligned, not_lt.mp (of_decide_eq_false hsize)⟩

/-- Settles O55: by the operation, each of which completes from its operands as the checker has let them through. -/
theorem quiescence : Obligations.Quiescence := by
  intro s i hr hw hi hf hst
  obtain ⟨-, hcache, hadm, hvalue, hin⟩ := expected_none hf
  change CompletesReady i s
  cases i with
  | readByte k a =>
    obtain ⟨b, rfl, -, hsize⟩ := scalarProgram_operands hf rfl rfl nofun fun _ => rfl
    exact readByte_completes hr hsize
  | readHalfWord k a =>
    obtain ⟨b, rfl, hal, hsize⟩ := scalarProgram_operands hf rfl rfl nofun fun _ => rfl
    exact readHalfWord_completes hr hal hsize
  | readWord k a =>
    obtain ⟨b, rfl, hal, hsize⟩ := scalarProgram_operands hf rfl rfl nofun fun _ => rfl
    exact readWord_completes hr hal hsize
  | readArray k as =>
    obtain ⟨b, rfl, hmax, hne, hel⟩ := arrayOperands hf rfl rfl nofun rfl fun _ _ => rfl
    obtain - | ⟨a, as⟩ := as
    · exact absurd rfl hne
    · exact readArray_completes hr hmax (of_decide_eq_true hw) hel
  | programByte k a v =>
    obtain ⟨b, rfl, -, hsize⟩ := scalarProgram_operands hf rfl rfl nofun fun _ => rfl
    exact programByte_completes hr hsize (hvalue _ _ rfl)
  | programHalfWord k a v =>
    obtain ⟨b, rfl, hal, hsize⟩ := scalarProgram_operands hf rfl rfl nofun fun _ => rfl
    exact programHalfWord_completes hr hal hsize (hvalue _ _ rfl)
  | programWord k a v =>
    obtain ⟨b, rfl, hal, hsize⟩ := scalarProgram_operands hf rfl rfl nofun fun _ => rfl
    exact programWord_completes hr hal hsize
  | programArray k ps =>
    obtain ⟨b, rfl, hmax, hne, hel⟩ := arrayOperands hf rfl rfl nofun rfl fun _ _ => rfl
    obtain - | ⟨p, ps⟩ := ps
    · exact absurd rfl hne
    · exact programArray_completes hr hmax (of_decide_eq_true hw) (List.forall_mem_map.1 hel)
  | erasePage k a =>
    obtain ⟨b, rfl⟩ := admits_one (i := .erasePage k a) nofun (hadm k rfl)
    have hinside := (hin a (List.mem_singleton_self a)).2 _ rfl
    rw [arrayBank_selOf] at hinside
    exact erasePage_completes hr (not_le.mp (of_decide_eq_false hinside))
  | eraseAllPages k =>
    cases k with
    | main => exact eraseAllPages_completes false hr
    | allBanks => exact eraseAllPages_completes true hr
    | info => exact absurd (hadm _ rfl) (by decide)
    | reserved => exact absurd (hadm _ rfl) (by decide)
  | setLatency v => exact setLatency_completes hr (hvalue _ _ rfl)
  | getLatency => exact getLatency_completes hr
  | updateCache => exact updateCache_completes hr (hst rfl)
  | setCacheMode v =>
    exact setCacheMode_completes hr (hcache _ rfl (.inl rfl)) (Nat.le_of_lt_succ (hvalue _ _ rfl))
  | getCacheMode => exact getCacheMode_completes hr (hcache _ rfl (.inr rfl))
  | _ => cases hi

end Sys2Proof.Machine

/-!
The request checker (60 R250 to R263): the causes of a fault one by one, in the checker's order, and the fault that each
raises where no earlier cause holds.
-/

namespace Sys2Proof.Machine

/-! ### The causes (60 R251 to R260) -/

section
variable (c : Config) (i : Instr)

/-- `LEN` above `MAX_LEN` (60 R255). -/
def lengthCause : Option FaultInfo :=
  (elementCount i).bind fun n =>
    if c.maxLen < n then
      some (.illegalRequest (header ((requestOf i).getD .readArray) ((bankOperand i).getD .main) n))
    else none

/-- A cache-mode operation without the register (60 R260). -/
def supportCause : Option FaultInfo :=
  (requestOf i).bind fun op =>
    if (op == .setCacheMode || op == .getCacheMode) && !c.hasCacheCtrl then some (.unsupported op) else none

/-- A bank selector the operation does not take (60 R253). -/
def bankCause : Option FaultInfo :=
  (bankOperand i).bind fun b => if admitsBank i b then none else some (.invalidBank b)

/-- An array operation of no elements (60 R252). -/
def emptyCause : Option FaultInfo := (elementCount i).bind fun n => if n = 0 then some .emptyArray else none

/-- A value wider than its operand (60 R259). -/
def valueCause : Option FaultInfo :=
  (valueBound c i).bind fun p => if p.2 ≤ p.1.toNat then some (.valueRange p.1) else none

/-- A misaligned operand, the lowest element index first (60 R251). -/
def alignCause : Option FaultInfo :=
  ((addressesOf i).findIdx? fun a => a &&& alignMask i != 0#32).map .misaligned

/-- The size of the bank of a request (20 R60). -/
def operandBankSize : Nat := ((bankOperand i).map fun b => bankSize c (arrayBank b)).getD 0

/-- An operand outside its bank, the lowest element index first (60 R254). -/
def rangeCause : Option FaultInfo := ((addressesOf i).findIdx? (outsideBank i (operandBankSize c i))).map .addressRange

/-- The fault of a request is its first cause (60 R263). -/
theorem requestFault_eq : requestFault c i =
    (lengthCause c i).or ((supportCause c i).or ((bankCause i).or ((emptyCause i).or ((valueCause c i).or
      ((alignCause i).or (rangeCause c i)))))) := rfl

end

section
variable {c : Config} {i : Instr} {b : Bank}

theorem lengthCause_none (h : ∀ n, elementCount i = some n → n ≤ c.maxLen) : lengthCause c i = none :=
  Option.bind_eq_none_iff.2 fun n hn => if_neg (Nat.not_lt.2 (h n hn))

theorem emptyCause_none (h : ∀ n, elementCount i = some n → n ≠ 0) : emptyCause i = none :=
  Option.bind_eq_none_iff.2 fun n hn => if_neg (h n hn)

theorem valueCause_none (h : ∀ v n, valueBound c i = some (v, n) → v.toNat < n) : valueCause c i = none :=
  Option.bind_eq_none_iff.2 fun p hp => if_neg (Nat.not_le.2 (h p.1 p.2 hp))

theorem alignCause_none (h : ∀ a ∈ addressesOf i, a &&& alignMask i = 0#32) : alignCause i = none :=
  Option.map_eq_none_iff.2 (findIdx?_none_of fun a ha => by simp [h a ha])

/-- A request passes the first checks: its length, the register it needs, and its bank. -/
structure PassesHead (c : Config) (i : Instr) : Prop where
  length : lengthCause c i = none
  support : supportCause c i = none
  bank : bankCause i = none

/-- An operation with a bank needs no cache register. -/
theorem supportCause_none_of_bank {k : BankSel} (h : bankOperand i = some k) : supportCause c i = none := by
  refine Option.bind_eq_none_iff.2 fun op hop => if_neg fun hc => ?_
  have hnot := mt (bankOperand_eq_none hop).2 (by simp [h])
  have hcache : op = .setCacheMode ∨ op = .getCacheMode := by simpa using (Bool.and_eq_true_iff.1 hc).1
  obtain rfl | rfl := hcache <;> simp at hnot

theorem requestOf_isSome_of_bank {k : BankSel} (h : bankOperand i = some k) : (requestOf i).isSome = true := by
  cases i <;> first | rfl | cases h

theorem admitsBank_selOf (h : ∀ k, i ≠ .eraseAllPages k) (b : Bank) : admitsBank i (selOf b) = true := by
  cases i with
  | eraseAllPages k => exact absurd rfl (h k)
  | _ => cases b <;> rfl

/-- An operation on one bank. -/
structure OneBank (b : Bank) (i : Instr) : Prop where
  operand : bankOperand i = some (selOf b)
  single : ∀ k, i ≠ .eraseAllPages k

theorem OneBank.passesHead (h : OneBank b i) (hlen : ∀ n, elementCount i = some n → n ≤ c.maxLen) :
    PassesHead c i where
  length := lengthCause_none hlen
  support := supportCause_none_of_bank h.operand
  bank := Option.bind_eq_none_iff.2 fun k hk => by
    obtain rfl : selOf b = k := Option.some.inj (h.operand.symm.trans hk)
    exact if_pos (admitsBank_selOf h.single b)

theorem OneBank.operandBankSize_eq (h : OneBank b i) : operandBankSize c i = bankSize c b := by
  rw [operandBankSize, h.operand, Option.map_some, arrayBank_selOf]
  rfl

end

/-! ### The fault of each cause -/

section
variable {s : State} {i : Instr} {b : Bank}

/-- The fault of a request but for the clock is its fault. -/
theorem faults_of_requestFault {f : FaultInfo} (hb : s.busy = false) (hp : s.cfg.checkParams = true)
    (hi : (requestOf i).isSome = true) (h : requestFault s.cfg i = some f) : Faults i s f :=
  faults_of hb hp hi (by rw [expectedFault, h]; rfl)

theorem faults_of_length {n : Nat} {op : Opcode} {k : BankSel} (hb : s.busy = false) (hp : s.cfg.checkParams = true)
    (hop : requestOf i = some op) (hk : bankOperand i = some k) (hn : elementCount i = some n) (h : s.cfg.maxLen < n) :
    Faults i s (.illegalRequest (header op k n)) := by
  refine faults_of_requestFault hb hp (Option.isSome_of_eq_some hop) ?_
  have hcause : lengthCause s.cfg i = some (.illegalRequest (header op k n)) := by
    rw [lengthCause, hn, hop, hk]
    exact if_pos h
  rw [requestFault_eq, hcause]
  rfl

theorem faults_of_support {op : Opcode} (hb : s.busy = false) (hp : s.cfg.checkParams = true)
    (hop : requestOf i = some op) (hcache : op = .setCacheMode ∨ op = .getCacheMode) (hn : elementCount i = none)
    (h : s.cfg.hasCacheCtrl = false) : Faults i s (.unsupported op) := by
  refine faults_of_requestFault hb hp (Option.isSome_of_eq_some hop) ?_
  have hcause : supportCause s.cfg i = some (.unsupported op) := by
    rw [supportCause, hop]
    exact if_pos (by simpa [h] using hcache)
  rw [requestFault_eq, lengthCause, hn, hcause]
  rfl

theorem faults_of_bank {k : BankSel} (hb : s.busy = false) (hp : s.cfg.checkParams = true)
    (hk : bankOperand i = some k) (hlen : ∀ n, elementCount i = some n → n ≤ s.cfg.maxLen)
    (h : admitsBank i k = false) : Faults i s (.invalidBank k) := by
  refine faults_of_requestFault hb hp (requestOf_isSome_of_bank hk) ?_
  have hcause : bankCause i = some (.invalidBank k) := by
    rw [bankCause, hk]
    exact if_neg (by simp [h])
  rw [requestFault_eq, lengthCause_none hlen, supportCause_none_of_bank hk, hcause]
  rfl

theorem faults_of_empty (hb : s.busy = false) (hp : s.cfg.checkParams = true) (h1 : OneBank b i)
    (hn : elementCount i = some 0) : Faults i s .emptyArray := by
  have hhead : PassesHead s.cfg i := h1.passesHead fun n h => by
    obtain rfl : 0 = n := Option.some.inj (hn.symm.trans h)
    exact Nat.zero_le _
  refine faults_of_requestFault hb hp (requestOf_isSome_of_bank h1.operand) ?_
  rw [requestFault_eq, hhead.length, hhead.support, hhead.bank, emptyCause, hn]
  rfl

theorem faults_of_value {v : Word} {n : Nat} (hb : s.busy = false) (hp : s.cfg.checkParams = true)
    (hi : (requestOf i).isSome = true) (hhead : PassesHead s.cfg i) (he : elementCount i = none)
    (hv : valueBound s.cfg i = some (v, n)) (h : n ≤ v.toNat) : Faults i s (.valueRange v) := by
  refine faults_of_requestFault hb hp hi ?_
  have hcause : valueCause s.cfg i = some (.valueRange v) := by
    rw [valueCause, hv]
    exact if_pos h
  rw [requestFault_eq, hhead.length, hhead.support, hhead.bank, emptyCause, he, hcause]
  rfl

/-- A request on one bank passes the checks before those of its addresses. -/
structure PassesValues (c : Config) (b : Bank) (i : Instr) : Prop where
  oneBank : OneBank b i
  length : ∀ n, elementCount i = some n → n ≤ c.maxLen ∧ n ≠ 0
  value : ∀ v n, valueBound c i = some (v, n) → v.toNat < n

theorem PassesValues.requestFault_eq {c : Config} (h : PassesValues c b i) :
    requestFault c i = (alignCause i).or (rangeCause c i) := by
  have hhead := h.oneBank.passesHead (c := c) fun n hn => (h.length n hn).1
  rw [Machine.requestFault_eq, hhead.length, hhead.support, hhead.bank, emptyCause_none fun n hn => (h.length n hn).2,
    valueCause_none h.value]
  rfl

/-- The first element that satisfies `p`, behind some that do not. -/
theorem findIdx?_append_cons {α : Type} {p : α → Bool} {xs ys : List α} {x : α} (hxs : ∀ y ∈ xs, p y = false)
    (hx : p x = true) : (xs ++ x :: ys).findIdx? p = some xs.length := by
  rw [List.findIdx?_append, findIdx?_none_of hxs, List.findIdx?_cons, if_pos hx]
  simp

section
variable {a : Word} {xs ys : List Word}

theorem faults_of_align (hb : s.busy = false) (hp : s.cfg.checkParams = true) (h : PassesValues s.cfg b i)
    (haddr : addressesOf i = xs ++ a :: ys) (hxs : ∀ x ∈ xs, x &&& alignMask i = 0#32)
    (ha : a &&& alignMask i ≠ 0#32) : Faults i s (.misaligned xs.length) := by
  refine faults_of_requestFault hb hp (requestOf_isSome_of_bank h.oneBank.operand) ?_
  have hfirst : (addressesOf i).findIdx? (fun a => a &&& alignMask i != 0#32) = some xs.length := by
    rw [haddr]
    exact findIdx?_append_cons (fun x hx => by simp [hxs x hx]) (bne_iff_ne.2 ha)
  rw [h.requestFault_eq, alignCause, hfirst]
  rfl

theorem faults_of_range (hb : s.busy = false) (hp : s.cfg.checkParams = true) (h : PassesValues s.cfg b i)
    (hal : ∀ x ∈ addressesOf i, x &&& alignMask i = 0#32) (haddr : addressesOf i = xs ++ a :: ys)
    (hxs : ∀ x ∈ xs, outsideBank i (bankSize s.cfg b) x = false)
    (ha : outsideBank i (bankSize s.cfg b) a = true) : Faults i s (.addressRange xs.length) := by
  refine faults_of_requestFault hb hp (requestOf_isSome_of_bank h.oneBank.operand) ?_
  rw [h.requestFault_eq, alignCause_none hal, rangeCause, h.oneBank.operandBankSize_eq, haddr,
    findIdx?_append_cons hxs ha]
  rfl

end

end

/-! ### Empty arrays, banks, values, the cache register (60 R252, R253, R259, R260) -/

/-- Settles O19: no element is none too many, so the length passes and the bank is the only cause before. -/
theorem emptyArrayFaults : Obligations.EmptyArrayFaults := fun _ b hb hp =>
  ⟨faults_of_empty (b := b) hb hp ⟨rfl, nofun⟩ rfl, faults_of_empty (b := b) hb hp ⟨rfl, nofun⟩ rfl⟩

/-- Settles O25: nothing comes before the cause but the length, which these operations do not have. -/
theorem unsupportedFaults : Obligations.UnsupportedFaults := fun _ _ hb hp hc =>
  ⟨faults_of_support hb hp rfl (.inl rfl) rfl hc, faults_of_support hb hp rfl (.inr rfl) rfl hc⟩

/-- A selector that names no bank, or both, is admitted by no operation on one bank; a mass erase admits Main and
both. -/
theorem admitsBank_false {i : Instr} {k : BankSel} (hk : bankOperand i = some k)
    (h : k = .reserved ∨ (k = .allBanks ∧ i ≠ .eraseAllPages .allBanks) ∨ i = .eraseAllPages .info) :
    admitsBank i k = false := by
  by_cases hall : ∃ k', i = .eraseAllPages k'
  · obtain ⟨k', rfl⟩ := hall
    cases hk
    obtain rfl | ⟨rfl, hne⟩ | hinfo := h
    · rfl
    · exact absurd rfl hne
    · cases hinfo
      rfl
  · refine Bool.eq_false_iff.2 fun hadm => ?_
    obtain ⟨b, rfl⟩ := admits_one (not_exists.1 hall) hadm
    obtain hres | ⟨hboth, -⟩ | rfl := h
    · cases b <;> cases hres
    · cases b <;> cases hboth
    · exact hall ⟨_, rfl⟩

/-- Settles O20: before the bank only the length is judged, as an operation with a bank needs no cache register. -/
theorem invalidBankFaults : Obligations.InvalidBankFaults := fun _ _ _ hb hp hk hlen h =>
  faults_of_bank hb hp hk hlen (admitsBank_false hk h)

theorem passesHead_of_cacheCtrl {c : Config} {i : Instr} (hc : c.hasCacheCtrl = true) (he : elementCount i = none)
    (hb : bankOperand i = none) : PassesHead c i where
  length := by rw [lengthCause, he]; rfl
  support := Option.bind_eq_none_iff.2 fun _ _ => if_neg (by simp [hc])
  bank := by rw [bankCause, hb]; rfl

/-- Settles O24: the operations with a value have no elements, and pass the bank or the register before it. -/
theorem valueRangeFaults : Obligations.ValueRangeFaults := by
  intro s b a v hb hp
  refine ⟨fun hv => ?_, fun hv => ?_, fun hv => ?_, fun hv hc => ?_⟩
  · exact faults_of_value hb hp rfl (OneBank.passesHead (b := b) ⟨rfl, nofun⟩ nofun) rfl rfl hv
  · exact faults_of_value hb hp rfl (OneBank.passesHead (b := b) ⟨rfl, nofun⟩ nofun) rfl rfl hv
  · exact faults_of_value hb hp rfl ⟨rfl, rfl, rfl⟩ rfl rfl hv
  · exact faults_of_value hb hp rfl (passesHead_of_cacheCtrl hc rfl rfl) rfl rfl hv

/-! ### Addresses (60 R251, R254) -/

section
variable {s : State} {i : Instr} {b : Bank} {a : Word}

/-- A scalar access on one bank: its value, if it has one, is checked before its address. -/
structure OneAddress (c : Config) (b : Bank) (a : Word) (i : Instr) : Prop where
  oneBank : OneBank b i
  scalar : elementCount i = none
  address : addressesOf i = [a]
  value : ∀ v n, valueBound c i = some (v, n) → v.toNat < n

theorem OneAddress.passesValues {c : Config} (h : OneAddress c b a i) : PassesValues c b i where
  oneBank := h.oneBank
  length := by simp [h.scalar]
  value := h.value

theorem OneAddress.misaligned (hb : s.busy = false) (hp : s.cfg.checkParams = true) (h : OneAddress s.cfg b a i)
    (ha : a &&& alignMask i ≠ 0#32) : Faults i s (.misaligned 0) :=
  faults_of_align (xs := []) hb hp h.passesValues h.address (List.forall_mem_nil _) ha

theorem OneAddress.outside (hb : s.busy = false) (hp : s.cfg.checkParams = true) (h : OneAddress s.cfg b a i)
    (hal : a &&& alignMask i = 0#32) (ha : outsideBank i (bankSize s.cfg b) a = true) : Faults i s (.addressRange 0) :=
  faults_of_range (xs := []) hb hp h.passesValues (by simpa [h.address] using hal) h.address (List.forall_mem_nil _) ha

end

section
variable {s : State} {i : Instr} {b : Bank} {a v : Word} {as zs : List (Word × Word)}

/-- An array operation on one bank whose elements, in order, are those of `as`, the one at `a`, and those of `zs`. -/
structure Elements (c : Config) (b : Bank) (as : List (Word × Word)) (a : Word) (zs : List (Word × Word)) (i : Instr) :
    Prop where
  oneBank : OneBank b i
  count : elementCount i = some (as.length + 1 + zs.length)
  max : as.length + 1 + zs.length ≤ c.maxLen
  addresses : addressesOf i = as.map (·.1) ++ a :: zs.map (·.1)
  noValue : valueBound c i = none
  mask : alignMask i = 3#32
  width : ∀ size x, outsideBank i size x = decide (size < x.toNat + 4)

theorem length_elements : (as ++ (a, v) :: zs).length = as.length + 1 + zs.length := by
  rw [List.length_append, List.length_cons]
  omega

theorem map_elements : (as ++ (a, v) :: zs).map (·.1) = as.map (·.1) ++ a :: zs.map (·.1) := List.map_append

theorem elements_readArray {c : Config} (h : as.length + 1 + zs.length ≤ c.maxLen) :
    Elements c b as a zs (.readArray (selOf b) ((as ++ (a, v) :: zs).map (·.1))) where
  oneBank := ⟨rfl, nofun⟩
  count := congrArg some ((List.length_map _).trans length_elements)
  max := h
  addresses := map_elements
  noValue := rfl
  mask := rfl
  width _ _ := rfl

theorem elements_programArray {c : Config} (h : as.length + 1 + zs.length ≤ c.maxLen) :
    Elements c b as a zs (.programArray (selOf b) (as ++ (a, v) :: zs)) where
  oneBank := ⟨rfl, nofun⟩
  count := congrArg some length_elements
  max := h
  addresses := map_elements
  noValue := rfl
  mask := rfl
  width _ _ := rfl

theorem Elements.passesValues {c : Config} (h : Elements c b as a zs i) : PassesValues c b i where
  oneBank := h.oneBank
  length n hn := by
    obtain rfl := Option.some.inj (h.count.symm.trans hn)
    exact ⟨h.max, by omega⟩
  value := by simp [h.noValue]

theorem Elements.misaligned (hb : s.busy = false) (hp : s.cfg.checkParams = true) (h : Elements s.cfg b as a zs i)
    (has : ∀ p ∈ as, p.1 &&& 3#32 = 0#32) (ha : a &&& 3#32 ≠ 0#32) : Faults i s (.misaligned as.length) := by
  rw [← List.length_map (as := as) (·.1)]
  refine faults_of_align hb hp h.passesValues h.addresses ?_ ?_ <;> rw [h.mask]
  · exact List.forall_mem_map.2 has
  · exact ha

theorem Elements.outside (hb : s.busy = false) (hp : s.cfg.checkParams = true) (h : Elements s.cfg b as a zs i)
    (hal : ∀ p ∈ as ++ (a, v) :: zs, p.1 &&& 3#32 = 0#32) (has : ∀ p ∈ as, p.1.toNat + 4 ≤ bankSize s.cfg b)
    (ha : bankSize s.cfg b < a.toNat + 4) : Faults i s (.addressRange as.length) := by
  rw [← List.length_map (as := as) (·.1)]
  refine faults_of_range hb hp h.passesValues ?_ h.addresses (List.forall_mem_map.2 fun p hp => ?_) ?_
  · rw [h.addresses, h.mask, ← map_elements (v := v)]
    exact List.forall_mem_map.2 hal
  · rw [h.width]
    exact decide_eq_false (Nat.not_lt.2 (has p hp))
  · rw [h.width]
    exact decide_eq_true ha

end

/-- Settles O18: the address check comes behind those of the length, the bank and the value; the operations without it
complete as any request does. -/
theorem misalignedFaults : Obligations.MisalignedFaults := by
  intro s b a v hb hp
  refine ⟨fun ha => ⟨?_, ?_⟩, fun ha => ?_, fun ha hv => ?_, fun as zs ha has hlen => ⟨?_, ?_⟩, fun hr hv hsize => ?_⟩
  · exact OneAddress.misaligned (b := b) hb hp ⟨⟨rfl, nofun⟩, rfl, rfl, nofun⟩ ha
  · exact OneAddress.misaligned (b := b) hb hp ⟨⟨rfl, nofun⟩, rfl, rfl, nofun⟩ ha
  · exact OneAddress.misaligned (b := b) hb hp ⟨⟨rfl, nofun⟩, rfl, rfl, nofun⟩ ha
  · exact OneAddress.misaligned (b := b) hb hp ⟨⟨rfl, nofun⟩, rfl, rfl, by rintro _ _ ⟨⟩; exact hv⟩ ha
  · exact (elements_readArray hlen).misaligned hb hp has ha
  · exact (elements_programArray hlen).misaligned hb hp has ha
  · have hpage : (pageOf a).toNat < bankSize s.cfg b := by
      rw [pageOf_toNat]
      omega
    have hcompletes : ∀ i ∈ [Instr.readByte (selOf b) a, .programByte (selOf b) a v, .erasePage (selOf b) a],
        CompletesReady i s := by
      simp only [List.forall_mem_cons]
      exact ⟨readByte_completes hr hsize, programByte_completes hr hsize hv, erasePage_completes hr hpage, nofun⟩
    intro i hi
    obtain ⟨t, he, -, -, -, rs, hrs⟩ := hcompletes i hi
    exact ⟨t, rs, he, hrs⟩

/-- Settles O21: the range check is the last but that of the clock. -/
theorem addressRangeFaults : Obligations.AddressRangeFaults := by
  intro s b a v hb hp
  refine ⟨fun ha hv => ⟨?_, ?_⟩, fun ha hal hv => ⟨?_, ?_⟩, fun ha hal => ⟨?_, ?_⟩, fun ha => ?_,
    fun as zs ha hal has hlen => ⟨?_, ?_⟩⟩
  · exact OneAddress.outside (b := b) hb hp ⟨⟨rfl, nofun⟩, rfl, rfl, nofun⟩ BitVec.and_zero (decide_eq_true ha)
  · exact OneAddress.outside (b := b) hb hp ⟨⟨rfl, nofun⟩, rfl, rfl, by rintro _ _ ⟨⟩; exact hv⟩ BitVec.and_zero
      (decide_eq_true ha)
  · exact OneAddress.outside (b := b) hb hp ⟨⟨rfl, nofun⟩, rfl, rfl, nofun⟩ hal (decide_eq_true ha)
  · exact OneAddress.outside (b := b) hb hp ⟨⟨rfl, nofun⟩, rfl, rfl, by rintro _ _ ⟨⟩; exact hv⟩ hal
      (decide_eq_true ha)
  · exact OneAddress.outside (b := b) hb hp ⟨⟨rfl, nofun⟩, rfl, rfl, nofun⟩ hal (decide_eq_true ha)
  · exact OneAddress.outside (b := b) hb hp ⟨⟨rfl, nofun⟩, rfl, rfl, nofun⟩ hal (decide_eq_true ha)
  · exact OneAddress.outside (b := b) hb hp ⟨⟨rfl, nofun⟩, rfl, rfl, nofun⟩ BitVec.and_zero (decide_eq_true ha)
  · exact (elements_readArray hlen).outside hb hp hal has ha
  · exact (elements_programArray hlen).outside hb hp hal has ha

/-! ### The clock (60 R256) -/

theorem countInRange_eq_false {c : Config} {hz : Nat} {t : TimingName} :
    countInRange c hz t = false ↔ hz = 0 ∨ countOf c hz t = 0 ∨ 2 ^ 32 ≤ countOf c hz t := by
  simp only [countInRange, Bool.and_eq_false_iff, decide_eq_false_iff_not]
  omega

theorem mem_timingNames (t : TimingName) : t ∈ timingNames := by cases t <;> decide

/-- Where a count is out of range the clock check finds one that is. -/
theorem exists_clockRange {s : State} {n : TimingName} (h : countInRange s.cfg s.coreClkHz n = false) :
    ∃ t, countInRange s.cfg s.coreClkHz t = false ∧
      (timingNames.find? fun t => !countInRange s.cfg s.coreClkHz t) = some t := by
  have hsome : (timingNames.find? fun t => !countInRange s.cfg s.coreClkHz t).isSome = true :=
    List.find?_isSome.2 ⟨n, mem_timingNames n, by simp [h]⟩
  obtain ⟨t, ht⟩ := Option.isSome_iff_exists.1 hsome
  exact ⟨t, by simpa using List.find?_some ht, ht⟩

/-- Settles O23: the clock is the last cause, and the name recorded is the one its check finds. -/
theorem clockRangeFaults : Obligations.ClockRangeFaults := by
  intro s i hb hp hi hf h
  have hbad : ∃ n, countInRange s.cfg s.coreClkHz n = false := by
    obtain hz | ⟨n, hn⟩ := h
    · exact ⟨.nvs, countInRange_eq_false.2 (.inl hz)⟩
    · exact ⟨n, countInRange_eq_false.2 (.inr hn)⟩
  obtain ⟨n, hn⟩ := hbad
  obtain ⟨t, ht, hfind⟩ := exists_clockRange hn
  refine ⟨t, countInRange_eq_false.1 ht, faults_of hb hp hi ?_⟩
  rw [expectedFault, hf, hfind]
  rfl

/-! ### Headers that are no operation (60 R255) -/

theorem headerBank_code (h : Word) : (headerBank h).code = h.extractLsb' 5 2 := by
  apply BitVec.eq_of_getLsbD_eq
  intro j hj
  simp only [headerBank, BitVec.getLsbD_extractLsb', hj, decide_true, Bool.true_and]
  interval_cases j <;> cases h6 : h.getLsbD 6 <;> cases h5 : h.getLsbD 5 <;> simp_all [BankSel.code]

theorem headerLen_eq_zero {h : Word} (hl : headerLen h = 0) : h.extractLsb' 8 16 = 0#16 :=
  BitVec.eq_of_toNat_eq hl

/-- The opcodes of the operation map are those from 0x01 to 0x0F; 0x04 and 0x08 are the array operations, those from 0x0B
on have no bank (30 R106). -/
theorem opcode_code (op : Opcode) : op.code ≠ 0#5 ∧ ¬ 0x10#5 ≤ op.code ∧
    (op = .readArray ∨ op = .programArray → op.code = 0x04#5 ∨ op.code = 0x08#5) ∧
    (op ≠ .setLatency ∧ op ≠ .getLatency ∧ op ≠ .updateCache ∧ op ≠ .setCacheMode ∧ op ≠ .getCacheMode →
      ¬ 0x0B#5 ≤ op.code) := by
  cases op <;> decide

/-- A header with a field that 60 R255 forbids names no operation (30 R109). -/
theorem headerOpcode_none {h : Word}
    (hbad : h.extractLsb' 0 5 = 0#5 ∨ 0x10#5 ≤ h.extractLsb' 0 5 ∨ h.getLsbD 7 = true ∨ h.extractLsb' 24 8 ≠ 0#8 ∨
      (h.extractLsb' 8 16 ≠ 0#16 ∧ h.extractLsb' 0 5 ≠ 0x04#5 ∧ h.extractLsb' 0 5 ≠ 0x08#5) ∨
      (h.extractLsb' 5 2 ≠ 0#2 ∧ 0x0B#5 ≤ h.extractLsb' 0 5)) : headerOpcode h = none := by
  refine Option.eq_none_iff_forall_ne_some.2 fun op hop => ?_
  obtain ⟨hcode, hbit, htop, hlen, hbank⟩ := headerFields_of_headerOpcode hop
  obtain ⟨hzero, hsmall, harray, hnobank⟩ := opcode_code op
  rw [hcode] at hbad
  obtain h0 | h1 | h2 | h3 | ⟨h4, h5, h6⟩ | ⟨h7, h8⟩ := hbad
  · exact hzero h0
  · exact hsmall h1
  · exact Bool.false_ne_true (hbit.symm.trans h2)
  · exact h3 htop
  · exact (harray (hlen (mt headerLen_eq_zero h4))).elim h5 h6
  · refine hnobank (hbank fun hmain => h7 ?_) h8
    rw [← headerBank_code, hmain]
    rfl

/-- A descriptor under a header that is no operation, on the host's default turn. -/
theorem step_of_illegalHeader {s : State} {h : Word} {ws : List Word} {rest : List PortTx}
    (hcfg : configOk s.cfg = true) (hs : s.sched = []) (hb : s.busy = false)
    (hp : s.port = .request (h :: ws) :: rest) (hh : headerOpcode h = none) :
    step s = if s.cfg.checkParams then .next (raiseFault (.illegalRequest h)
        { s with port := rest, counts := countsOf s.cfg s.coreClkHz s.counts.dcnt, resp := none })
      else .refused (.uncheckedViolation (.illegalRequest h)) := by
  rw [step_of_not_busy hcfg hs hb, hostStep_of_illegalHeader hp hh, illegalRequest, if_neg (by simp [hb])]

/-- Settles O22: a header with such a field names no operation, and `LEN` above `MAX_LEN` is the first cause. -/
theorem illegalRequestFaults : Obligations.IllegalRequestFaults := by
  intro s hb hp
  refine ⟨fun h ws rest hcfg hs hport hbad => ?_, fun k ps hlen => ⟨?_, ?_⟩⟩
  · refine ⟨Config.freeLatches s.draws, s.draws + 1, ?_⟩
    rw [step_of_illegalHeader hcfg hs hb hport (headerOpcode_none hbad), if_pos hp]
    simp only [raiseFault, respond, faultCode, hb]
  · exact faults_of_length hb hp rfl rfl (by rw [elementCount, List.length_map]) hlen
  · exact faults_of_length hb hp rfl rfl rfl hlen

/-! ### The checker (60 R257, R263) -/

/-- A request with a violation is given no meaning without `CHECK_PARAMS` (60 R257). -/
theorem exec_refused_of_fault {s : State} {i : Instr} {f : FaultInfo} (hb : s.busy = false)
    (hp : s.cfg.checkParams = false) (hi : (requestOf i).isSome = true) (hf : expectedFault s i = some f) :
    exec i s = .refused (.uncheckedViolation f) := by
  obtain ⟨q, checks, hreq, -, hv⟩ := exec_request s hi
  simp [hreq, request, hb, hv.trans hf, hp]

/-- Settles O17: `CHECK_PARAMS` decides between the fault and the refusal, of a request and of a header alike. -/
theorem checkerDecides : Obligations.CheckerDecides := by
  refine ⟨rfl, fun s hb => ⟨fun i f hi hf => ⟨fun hp => faults_of hb hp hi hf, fun hp => ?_⟩,
    fun h ws rest hcfg hs hport hh => ?_⟩⟩
  · exact exec_refused_of_fault hb hp hi hf
  · rw [step_of_illegalHeader hcfg hs hb hport hh]
    exact ⟨fun hp => ⟨_, if_pos hp, rfl⟩, fun hp => if_neg (by simp [hp])⟩

end Sys2Proof.Machine

/-!
The `Reset` event (70 R281) on its turn.
-/

namespace Sys2Proof.Machine

/-- Reset takes the array over from the abandoned sequence. -/
theorem array_resetEvent (s : State) (b : Bank) : array (resetEvent s) b = array (abandon s.cmd.nvstr s) b := by
  cases b <;> rfl

/-- The words of 70 R283 are indeterminate after Reset, every other byte is as it was. -/
theorem becomes_resetEvent (s : State) :
    ArrayBecomes (fun b w => abandoned s.cmd.nvstr s b w = true) (fun _ _ => .indet) s (resetEvent s) where
  cells b w := by
    rw [cell, array_resetEvent]
    exact cell_abandon ..
  bytes b a h := by
    rw [array_resetEvent, byteAt_abandon, if_neg h]

theorem dropHeld_cons {s : State} {tx : PortTx} {rest : List PortTx} (h : s.port = tx :: rest) :
    dropHeld s = if heldTx s (decode s.cfg tx) then rest else s.port := by
  rw [dropHeld, h]

/-- Settles O9: on its turn the event writes the reset values, and of the array and the port what the lemmas above
say. -/
theorem ResetTurn.resetEvent : Obligations.ResetEvent := by
  intro s ts hcfg hs
  let u : State := { s with sched := ts }
  refine ⟨Machine.resetEvent u, step_of_turn hcfg hs, ?_⟩
  exact ⟨rfl, rfl, rfl, rfl, rfl, rfl, rfl, rfl, rfl, rfl, rfl, rfl, rfl, rfl, rfl, rfl, rfl, rfl, rfl, rfl, rfl,
    ⟨(becomes_resetEvent u).cells, (becomes_resetEvent u).bytes⟩, fun _ _ hp => dropHeld_cons (s := u) hp⟩

end Sys2Proof.Machine
